-- ==== Sys2Proof/Word.lean ====
section
/-! DEFINITION. The two word types of the block: registers, descriptor fields and arena words are 16 bits (R22, R39, R66), arena cells are bytes (R43). -/

namespace Sys2Proof

/-- A register, a descriptor field or an arena word (R22, R66). -/
abbrev Word := BitVec 16

/-- One cell of the packet memory arena (R43). -/
abbrev Byte := BitVec 8

end Sys2Proof
end

