-- ==== Sys2Proof/Config.lean ====
section
/-! DEFINITION. The implementation parameters of the block (R8 to R13), the callback table (R49), and the free values `Unspecified(w)` and `Elect` (R19) as constants without a body. -/

namespace Sys2Proof

/-- An entry of the callback table (R49, R193): the no-operation default, or a handler of the class layer, which
may issue commands when it is called (R192). -/
inductive Handler where
  | noop
  | installed
  deriving DecidableEq, Repr

/-- The parameter `CLRSTALL_IN_STATUS` (R13, R143). -/
inductive ClrStallIn where
  | nak
  | valid
  deriving DecidableEq, Repr

/-- The optional handlers of the bus events (R49, R93, R191). -/
structure BusHandlers where
  reset        : Handler := .noop
  suspend      : Handler := .noop
  resume       : Handler := .noop
  startOfFrame : Handler := .noop
  error        : Handler := .noop
  deriving DecidableEq, Repr

/-- A packing of (`rxenc`, `rxlen`) into hardware words, the range of `RX_PACK` (R41), as the table of its graph. -/
abbrev RxPacking := List ((Word × BitVec 10) × List Word)

/-- The table is the graph of an injective function on all pairs (R41, 93_implementation_defined.md section 1.4). No
rule reads `RX_PACK`, so no constraint of R245 asks for this. -/
structure RxPacking.Injective (p : RxPacking) : Prop where
  total     : ∀ enc len, ∃ ws, ((enc, len), ws) ∈ p
  function  : ∀ k v w, (k, v) ∈ p → (k, w) ∈ p → v = w
  injective : ∀ k l w, (k, w) ∈ p → (l, w) ∈ p → k = l

/-- The parameters of R8 to R13 and the callback table of R49. Fixed before power-on: no step writes it
(assumption log 1). The defaults are those of 93_implementation_defined.md section 1.4. -/
structure Config where
  /-- `N_EP` (R8). -/
  nEp : Nat := 8
  /-- `PMA_SIZE` in bytes (R9). -/
  pmaSize : Nat := 512
  /-- `MPS0` (R10). -/
  mps0 : Nat := 8
  /-- `RESET_EVENT` (R11). -/
  resetEvent : Bool := true
  /-- `SUSPEND_EVENT` (R11). -/
  suspendEvent : Bool := true
  /-- `WAKEUP_EVENT` (R11). -/
  wakeupEvent : Bool := true
  /-- `SOF_EVENT` (R11). -/
  sofEvent : Bool := true
  /-- `ERROR_EVENT` (R11). -/
  errorEvent : Bool := true
  /-- `DBL_BUF_EP` (R12): any value but 0 is refused. -/
  dblBufEp : Word := 0
  /-- `RESET_EP_CLEARS_STATUS` (R138). -/
  resetEpClearsStatus : Bool := true
  /-- `CLRSTALL_IN_STATUS` (R143). -/
  clrStallIn : ClrStallIn := .nak
  /-- `PAD_BYTE` (R206). -/
  padByte : Byte := 0
  /-- `RX_PACK` (R13, R41), open: how the received length shares storage with the receive-count word; no rule reads it
  (assumption log 19). -/
  rxPack : Option RxPacking := none
  /-- `BD_BASE` (R38), open; no rule reads it. -/
  bdBase : Option Nat := none
  /-- `USB_BASE` (R67), open; no rule reads it. -/
  usbBase : Option Nat := none
  /-- `PMA_BASE` (R67), open; no rule reads it. -/
  pmaBase : Option Nat := none
  /-- The endpoint handlers of the callback table, one an index (R49, R190). -/
  epHandlers : Vector Handler 16 := Vector.replicate 16 .noop
  /-- The bus-event handlers of the callback table (R49, R191). -/
  busHandlers : BusHandlers := {}
  deriving DecidableEq, Repr

/-- The spec's defaults. -/
def Config.default : Config := {}

/-- The constraints of R8, R9, R10 and R12. A configuration that breaks one is refused with `BadConfig` (R245). -/
def Config.wf (c : Config) : Bool :=
  decide (1 ≤ c.nEp) && decide (c.nEp ≤ 16) &&
  decide (c.pmaSize % 2 = 0) && decide (2 ≤ c.pmaSize) && decide (c.pmaSize ≤ 65534) &&
  (c.mps0 == 8 || c.mps0 == 16 || c.mps0 == 32 || c.mps0 == 64) &&
  decide (c.dblBufEp = 0)

/-- `Unspecified(w)` (R19): the `n`-th free value drawn, at width `w`. No body: nothing can be proved of its value
(assumption log 8). -/
opaque Config.unspecified : (w : Nat) → Nat → BitVec w

/-- The free number behind `Elect(S)` (R19, R27): the `n`-th choice drawn. No body (assumption log 9). -/
opaque Config.choice : Nat → Nat

end Sys2Proof
end

