-- ==== Sys2Proof/Syntax.lean ====
section
/-! DEFINITION. The instructions: fifteen commands of the command port (R85) and the seven rows of the dispatcher's snapshot decoder (R94), one constructor per row of spec/opcode_table.json. -/

namespace Sys2Proof

/-- The direction bit of an endpoint id (R84): `OUT` is 0 (host to device, receive), `IN` is 1 (transmit). -/
inductive Dir where
  | OUT
  | IN
  deriving DecidableEq, Repr

/-- An endpoint id (R84): the direction bit and the endpoint index. The reserved bits 6:4 are 0, so they carry nothing. -/
structure EpId where
  dir : Dir
  idx : Fin 16
  deriving DecidableEq, Repr

/-- The four status codes of one direction of an endpoint (R33). -/
inductive Status where
  | disabled
  | stall
  | nak
  | valid
  deriving DecidableEq, Repr

/-- The endpoint types in the order of the `CONFIG_EP` argument (R88). -/
inductive EpType where
  | control
  | isochronous
  | bulk
  | interrupt
  deriving DecidableEq, Repr

/-- One constructor per row of spec/opcode_table.json. -/
inductive Instr where
  /-- `INIT` (R151). -/
  | init
  /-- `CONNECT en` (R152). -/
  | connect (en : Bool)
  /-- `SET_ADDR addr` (R154). -/
  | setAddr (addr : BitVec 7)
  /-- `CONFIG_EP ep, type, mps` (R124). -/
  | configEp (ep : EpId) (type : EpType) (mps : BitVec 11)
  /-- `ENABLE_EP ep` (R140). -/
  | enableEp (ep : EpId)
  /-- `DISABLE_EP ep` (R141). -/
  | disableEp (ep : EpId)
  /-- `RESET_EP ep` (R137). -/
  | resetEp (ep : EpId)
  /-- `STALL_EP ep` (R142). -/
  | stallEp (ep : EpId)
  /-- `CLR_STALL ep` (R143). -/
  | clrStall (ep : EpId)
  /-- `READ_EP ep` (R201). -/
  | readEp (ep : EpId)
  /-- `WRITE_EP ep, n` (R205); the bytes are on `DIN` (R82). -/
  | writeEp (ep : EpId) (n : BitVec 10)
  /-- `GET_FRAME` (R157). -/
  | getFrame
  /-- `SET_CONFIG cfg` (R155). -/
  | setConfig (cfg : BitVec 8)
  /-- `ALLOC size` (R112). -/
  | alloc (size : Word)
  /-- `SET_STATUS ep, stat` (R134); `stat` carries a receive and a transmit status (R86). -/
  | setStatus (ep : EpId) (rx tx : Status)
  /-- Snapshot row 1, the reset service (R181). -/
  | istrReset
  /-- Snapshot row 2, the suspend service (R182). -/
  | istrSusp
  /-- Snapshot row 3, the wakeup service (R183). -/
  | istrWkup
  /-- Snapshot row 4, the start-of-frame service (R184). -/
  | istrSof
  /-- Snapshot row 5, the PMA-overrun service (R185). -/
  | istrPmaovr
  /-- Snapshot row 6, the generic-error service (R186). -/
  | istrErr
  /-- Snapshot row 7, one turn of the endpoint loop for the endpoint index in `snap[3:0]` (R187). -/
  | istrCtr (ep : Fin 16)
  deriving DecidableEq, Repr

end Sys2Proof
end

