-- ==== Sys2Proof/WellFormed.lean ====
section
/-! DEFINITION. Well-formedness of an instruction for a block with `nEp` endpoint registers (R84, R95): the index of an endpoint that is used names a register. The field widths and the reserved bits of R95 are in the types. -/

namespace Sys2Proof

/-- The endpoint index an instruction uses (the `EP used` column of R85; `snap[3:0]` of R94 row 7). -/
def Instr.epIndex : Instr → Option (Fin 16)
  | .configEp ep _ _ | .enableEp ep | .disableEp ep | .resetEp ep | .stallEp ep | .clrStall ep | .readEp ep
  | .writeEp ep _ | .setStatus ep _ _ => some ep.idx
  | .istrCtr i => some i
  | .init | .connect _ | .setAddr _ | .getFrame | .setConfig _ | .alloc _ => none
  | .istrReset | .istrSusp | .istrWkup | .istrSof | .istrPmaovr | .istrErr => none

/-- `IDX < N_EP` where the instruction uses an endpoint (R84, R95). -/
def Instr.wf (nEp : Nat) (i : Instr) : Bool :=
  match i.epIndex with
  | some k => decide (k.val < nEp)
  | none   => true

end Sys2Proof
end

