-- ==== Sys2Proof/Decode.lean ====
section
/-! DEFINITION. Decoding of command words by the rows of the opcode table (R83 to R89, R95, R97) and of interrupt-status snapshots (R94), total on any word and rejecting by name; the encoder of both; `decodeTableWord` for the host. -/

namespace Sys2Proof

/-- What a decoder reads: a 32-bit command word (R83) or a 16-bit snapshot of `ISTR` (R94). -/
inductive Code where
  | cmd (w : BitVec 32)
  | snap (w : Word)
  deriving DecidableEq, Repr

/-- Why a word is not decoded. -/
inductive Reject where
  /-- A command word no row of the table matches (R95, R97). -/
  | badCommand
  /-- A command whose only defect is an index `IDX >= N_EP` (R84, R95). -/
  | badEndpoint
  /-- A snapshot with none of the seven bits (R94): no service runs. -/
  | noEvent
  deriving DecidableEq, Repr

/-! ## Field codes -/

/-- Status codes in the document's order (R33). -/
def statusCode : Status → BitVec 2
  | .disabled => 0
  | .stall => 1
  | .nak => 2
  | .valid => 3

/-- The status a two-bit code stands for (R33). -/
def statusOf (b : BitVec 2) : Status :=
  if b = 0 then .disabled else if b = 1 then .stall else if b = 2 then .nak else .valid

/-- The `TYPE` field of `CONFIG_EP` (R88). -/
def typeField : EpType → BitVec 2
  | .control => 0
  | .isochronous => 1
  | .bulk => 2
  | .interrupt => 3

/-- The type a `TYPE` field stands for (R88). -/
def typeOf (b : BitVec 2) : EpType :=
  if b = 0 then .control else if b = 1 then .isochronous else if b = 2 then .bulk else .interrupt

/-- The direction bit: 1 is `IN` (R84). -/
def dirBit : Dir → BitVec 1
  | .OUT => 0
  | .IN => 1

/-- The direction a direction bit stands for (R84). -/
def dirOf (b : Bool) : Dir := if b then .IN else .OUT

/-- The endpoint id in bits 23:16 of a command word (R83, R84). -/
def epOf (w : BitVec 32) : EpId := ⟨dirOf (w.getLsbD 23), (w.extractLsb' 16 4).toFin⟩

/-! ## The opcode table -/

/-- A row of format `CMD`: a word `w` with `w AND mask = bits` is the instruction `build w` (R97). -/
structure CmdRow where
  bits  : BitVec 32
  mask  : BitVec 32
  build : BitVec 32 → Instr

/-- The fifteen rows of format `CMD` of spec/opcode_table.json, in its order (R85). -/
def cmdRows : List CmdRow := [
  ⟨0x01000000, 0xFFFFFFFF, fun _ => .init⟩,
  ⟨0x02000000, 0xFFFFFFFE, fun w => .connect (w.getLsbD 0)⟩,
  ⟨0x03000000, 0xFFFFFF80, fun w => .setAddr (w.extractLsb' 0 7)⟩,
  ⟨0x04000000, 0xFF70E000, fun w => .configEp (epOf w) (typeOf (w.extractLsb' 11 2)) (w.extractLsb' 0 11)⟩,
  ⟨0x05000000, 0xFF70FFFF, fun w => .enableEp (epOf w)⟩,
  ⟨0x06000000, 0xFF70FFFF, fun w => .disableEp (epOf w)⟩,
  ⟨0x07000000, 0xFF70FFFF, fun w => .resetEp (epOf w)⟩,
  ⟨0x08000000, 0xFF70FFFF, fun w => .stallEp (epOf w)⟩] ++ [
  ⟨0x09000000, 0xFF70FFFF, fun w => .clrStall (epOf w)⟩,
  ⟨0x0A000000, 0xFF70FFFF, fun w => .readEp (epOf w)⟩,
  ⟨0x0B000000, 0xFF70FC00, fun w => .writeEp (epOf w) (w.extractLsb' 0 10)⟩,
  ⟨0x0C000000, 0xFFFFFFFF, fun _ => .getFrame⟩,
  ⟨0x0D000000, 0xFFFFFF00, fun w => .setConfig (w.extractLsb' 0 8)⟩,
  ⟨0x10000000, 0xFFFF0000, fun w => .alloc (w.extractLsb' 0 16)⟩,
  ⟨0x11000000, 0xFF70CFCF,
    fun w => .setStatus (epOf w) (statusOf (w.extractLsb' 12 2)) (statusOf (w.extractLsb' 4 2))⟩]

/-- The row of the table that matches a command word (R97); the rows are disjoint, so at most one does. -/
def cmdRow (w : BitVec 32) : Option CmdRow := cmdRows.find? fun r => w &&& r.mask == r.bits

/-- A row of format `ISTR`: a single-bit test on the snapshot (R94). -/
structure SnapRow where
  bit   : Nat
  build : Word → Instr

/-- The seven rows of format `ISTR` of spec/opcode_table.json, in the order of the tests (R94). -/
def snapRows : List SnapRow := [
  ⟨10, fun _ => .istrReset⟩,
  ⟨11, fun _ => .istrSusp⟩,
  ⟨12, fun _ => .istrWkup⟩,
  ⟨9,  fun _ => .istrSof⟩,
  ⟨14, fun _ => .istrPmaovr⟩,
  ⟨13, fun _ => .istrErr⟩,
  ⟨15, fun w => .istrCtr (w.extractLsb' 0 4).toFin⟩]

/-- The first test of R94 that succeeds on a snapshot. -/
def snapRow (w : Word) : Option SnapRow := snapRows.find? fun r => w.getLsbD r.bit

/-! ## The decoder -/

/-- The index check of R97, made after the row is found. -/
def checkIndex (nEp : Nat) (i : Instr) : Except Reject Instr :=
  if i.wf nEp then .ok i else .error .badEndpoint

/-- The decoding procedure of R97 for a command word, and the first service of R94 for a snapshot, on a block with
`nEp` endpoint registers. -/
def decode (nEp : Nat) : Code → Except Reject Instr
  | .cmd w =>
    match cmdRow w with
    | some r => checkIndex nEp (r.build w)
    | none   => .error .badCommand
  | .snap w =>
    match snapRow w with
    | some r => checkIndex nEp (r.build w)
    | none   => .error .noEvent

/-! ## The encoder -/

/-- The eight bits of an endpoint id: `DIR`, three zeros, `IDX` (R84). -/
def epByte (ep : EpId) : BitVec 8 := dirBit ep.dir ++ 0#3 ++ (BitVec.ofFin ep.idx : BitVec 4)

/-- A command word: `OP`, `EP`, `ARG` (R83). -/
def cmdWord (op ep : BitVec 8) (arg : Word) : Code := .cmd (op ++ ep ++ arg)

/-- The word of an instruction, from R83 to R88 and R94. -/
def encode : Instr → Code
  | .init              => cmdWord 0x01 0 0
  | .connect en        => cmdWord 0x02 0 (0#15 ++ BitVec.ofBool en)
  | .setAddr a         => cmdWord 0x03 0 (0#9 ++ a)
  | .configEp ep t mps => cmdWord 0x04 (epByte ep) (0#3 ++ typeField t ++ mps)
  | .enableEp ep       => cmdWord 0x05 (epByte ep) 0
  | .disableEp ep      => cmdWord 0x06 (epByte ep) 0
  | .resetEp ep        => cmdWord 0x07 (epByte ep) 0
  | .stallEp ep        => cmdWord 0x08 (epByte ep) 0
  | .clrStall ep       => cmdWord 0x09 (epByte ep) 0
  | .readEp ep         => cmdWord 0x0A (epByte ep) 0
  | .writeEp ep n      => cmdWord 0x0B (epByte ep) (0#6 ++ n)
  | .getFrame          => cmdWord 0x0C 0 0
  | .setConfig c       => cmdWord 0x0D 0 (0#8 ++ c)
  | .alloc size        => cmdWord 0x10 0 size
  | .setStatus ep r t  => cmdWord 0x11 (epByte ep) (0#2 ++ statusCode r ++ 0#6 ++ statusCode t ++ 0#4)
  | .istrReset         => .snap 0x0400
  | .istrSusp          => .snap 0x0800
  | .istrWkup          => .snap 0x1000
  | .istrSof           => .snap 0x0200
  | .istrPmaovr        => .snap 0x4000
  | .istrErr           => .snap 0x2000
  | .istrCtr i         => .snap (0x800#12 ++ (BitVec.ofFin i : BitVec 4))

/-! ## The host's entry -/

/-- The decoder's answer as an option. -/
def decoded (c : Code) : Option Instr :=
  match decode Config.default.nEp c with
  | .ok i    => some i
  | .error _ => none

/-- The instruction the decoder reads from a row's bits, for the default `N_EP`: a 32-bit row is a command word, a
16-bit row a snapshot. A command word and a snapshot are whole values with no byte order (R61). -/
def decodeTableWord (nbits w : Nat) : Option Instr :=
  if nbits = 32 ∧ w < 2 ^ 32 then decoded (.cmd (BitVec.ofNat 32 w))
  else if nbits = 16 ∧ w < 2 ^ 16 then decoded (.snap (BitVec.ofNat 16 w))
  else none

end Sys2Proof
end

