-- ==== Sys2Proof/Machine/State.lean ====
section
/-! DEFINITION. The state of the machine: everything spec/ gives the block (10_state.md), the progress of a preempted command (R71), the ports and the inputs from outside, as plain data; power-on values (R54 to R56, R261). -/

namespace Sys2Proof.Machine

/-! ## Outcomes that are not a next state -/

/-- The fault kinds of R244, a closed list. The block records a fault in `FAULTS` and goes on (R18), so these are the
members of the set `State.faults`; no step ever ends in `Host.Outcome.fault` (assumption log 15). -/
inductive Fault where
  /-- Raised by every read of a value no rule has written: `FBA`, a field of `BD[i]`, an arena byte, `FNR.FN`. Safe:
  the read goes on with a free value. -/
  | unspecifiedRead
  /-- Raised by an allocation that ends past `PMA_SIZE` and by an arena access past it. Safe: the write is dropped,
  the read is free; the allocation advances the cursor as the spec says. -/
  | arenaOverflow
  deriving DecidableEq, Repr

/-- `FAULTS`, a set of fault kinds (R52): a membership bit for each. -/
structure FaultSet where
  unspecifiedRead : Bool := false
  arenaOverflow   : Bool := false
  deriving DecidableEq, Repr

/-- Membership in `FAULTS`. -/
def FaultSet.has (f : FaultSet) : Fault → Bool
  | .unspecifiedRead => f.unspecifiedRead
  | .arenaOverflow   => f.arenaOverflow

/-- The refusal kinds of R245, a closed list, and the rejection by name of an instruction without a meaning. -/
inductive Refusal where
  /-- Raised by `exec` for an instruction that has no meaning yet; no arm does. Safe. -/
  | notModelled (mnemonic : String)
  /-- Raised by the decoder on a word no row matches (R95). Safe: no next state. -/
  | badCommand
  /-- Raised by the decoder, and by a meaning given such an operand, when `IDX >= N_EP` (R84). Safe. -/
  | badEndpoint
  /-- Raised by `CONFIG_EP` with index 0 (R125). Safe. -/
  | ep0Config
  /-- Raised by an arena access at an odd offset, of a command or of a packet move (R64). `recorded` is `FAULTS` when the
  access is refused: a fault of an access made before it in the same step is in it (R246; assumption log 14). Safe. -/
  | misaligned (recorded : FaultSet)
  /-- Raised by every step of a machine whose configuration breaks its constraints (R12, R245). Safe. -/
  | badConfig
  deriving DecidableEq, Repr

/-! ## Pieces of state -/

/-- The connection states (R45). -/
inductive Conn where
  | poweredOff
  | awaitingReset
  | defaultAddress
  | addressed
  | configured
  deriving DecidableEq, Repr

/-- The six non-endpoint events, in the order of the dispatcher's checks `Ev(1)` to `Ev(6)` (R48, R94, R180). -/
inductive Event where
  | reset
  | suspend
  | wakeup
  | sof
  | overrun
  | error
  deriving DecidableEq, Repr

/-- The dispatcher phase `DPH` (R48); `ev e` is `Ev(k)` for the `k`-th event. -/
inductive Phase where
  | idle
  | ev (e : Event)
  | epTop
  | epRx
  | epTx
  deriving DecidableEq, Repr

/-- A record of the descriptor table (R39); `none` is the spec's own state "unwritten" (R42). -/
structure BufDesc where
  txaddr  : Option Word := none
  txcount : Option Word := none
  rxaddr  : Option Word := none
  rxenc   : Option Word := none
  rxlen   : Option (BitVec 10) := none
  deriving DecidableEq, Repr

/-- The written bytes of the arena, by rising offset (R43); an offset that is not listed is unwritten. -/
abbrev Memory := List Host.Cell

/-- The canonical form: offsets strictly rising. Unlisted offsets hold no value, so no entry repeats one. -/
abbrev Memory.wf (m : Memory) : Prop := m.Pairwise fun a b => a.1 < b.1

/-! ## Outputs -/

/-- The event codes of a per-endpoint callback (R92). -/
inductive EpEvent where
  | setup
  | out
  | in_
  deriving DecidableEq, Repr

/-- The kinds of an error callback (R93, R236). -/
inductive ErrKind where
  | overrun
  | generic
  deriving DecidableEq, Repr

/-- The bus-event callbacks (R93). -/
inductive BusEvent where
  | reset
  | suspend
  | resume
  | startOfFrame
  | error (kind : ErrKind)
  deriving DecidableEq, Repr

/-- What the block puts out: a result word (R90), a byte on `DOUT` (R82), a callback (R190, R191), a packet sent to
the host with the data toggle it went under (R224). -/
inductive Output where
  | result (w : BitVec 32)
  | dout (b : Byte)
  | epCall (i : Fin 16) (ev : EpEvent)
  | busCall (ev : BusEvent)
  | sent (i : Fin 16) (toggle : Bool) (p : List Byte)
  deriving DecidableEq, Repr

/-! ## Inputs -/

/-- A command as it is presented: the command word (R80) and the bytes supplied on `DIN` (R82). -/
structure Request where
  word : BitVec 32
  data : List Byte := []
  deriving DecidableEq, Repr

/-- The eight moves of the bus agent (R217 to R224). -/
inductive BusMove where
  | busReset
  | suspend
  | wakeup
  | sof (f : BitVec 11)
  | err
  | pmaOvr
  | rxDone (i : Fin 16) (setup : Bool) (d : List Byte)
  | txDone (i : Fin 16)
  deriving DecidableEq, Repr

/-- Who moves next (R69, R70): the bus agent with a move of its choice, the start of the dispatcher (R176), or the
current software agent with its next access. -/
inductive Choice where
  | go
  | bus (m : BusMove)
  | irq
  deriving DecidableEq, Repr

/-! ## Progress of a command, handler or service -/

/-- One access of a software agent, as the pseudocode of the rules lists them (R71). The meaning of each is
`Machine.perform` and `Machine.performAll`. -/
inductive Access where
  /-- `IRQ_EN <- 1` (R151). -/
  | enableIrq
  /-- `WriteCNTR(w)` (R25). -/
  | writeCntr (w : Word)
  /-- The second write of `CONNECT`, with `CONN` and `SUSPENDED` (R152). -/
  | finishConnect (en : Bool)
  /-- `DADDR <- 0x0080 OR addr`, with `CONN` (R154). -/
  | setAddr (a : BitVec 7)
  /-- The state change of `SET_CONFIG` (R155). -/
  | setConfig (c : BitVec 8)
  /-- A read of `FNR` (R157). -/
  | readFnr
  /-- A read of `CNTR` (R167, R168). -/
  | readCntr
  /-- `WriteCNTR(val OR 0x000C)`, with `SUSPENDED` (R167). -/
  | forceSuspend
  /-- `WriteCNTR(val AND NOT 0x0008)`, with `SUSPENDED` (R168). -/
  | endSuspend
  /-- `WriteISTR(w)` (R29). -/
  | writeIstr (w : Word)
  /-- A read of `EPR[i]` (R134). -/
  | readEpr (i : Fin 16)
  /-- `WriteEPR(i, w)` (R131). -/
  | writeEpr (i : Fin 16) (w : Word)
  /-- `WriteEPR(i, (val XOR (stat AND field)) AND (MASK OR field))` (R134). -/
  | writeStatus (i : Fin 16) (field stat : Word)
  /-- `WriteEPR(i, val AND m)` (R137, R188, R189). -/
  | writeAnd (i : Fin 16) (m : Word)
  /-- `FBA <- 0` (R161). -/
  | zeroFba
  /-- The read of `FBA` in `ALLOC` (R112). -/
  | readFba
  /-- The write of `FBA` in `ALLOC(size)` (R112). -/
  | writeFba (size : Nat)
  /-- A read of `BD[i].txaddr` (R205). -/
  | readTxaddr (i : Fin 16)
  /-- A read of `BD[i].rxaddr` (R201). -/
  | readRxaddr (i : Fin 16)
  /-- A read of `BD[i].rxlen` (R201). -/
  | readRxlen (i : Fin 16)
  /-- `BD[i].txaddr <- off` (R124, R161). -/
  | writeTxaddr (i : Fin 16)
  /-- `BD[i].rxaddr <- off` (R124, R161). -/
  | writeRxaddr (i : Fin 16)
  /-- `BD[i].rxenc <- w`; `BD[i].rxlen` becomes unwritten (R124, R41). -/
  | writeRxenc (i : Fin 16) (w : Word)
  /-- `BD[i].txcount <- n` (R205). -/
  | writeTxcount (i : Fin 16) (n : Word)
  /-- Every field of `BD[1..N_EP-1]` becomes unwritten (R163). -/
  | unwriteOthers
  /-- The copy loop of `READ_EP` from word `k` on: one arena read a word (R201). -/
  | load (k : Nat)
  /-- `MemWrite(off + 2*k, 2, w)` (R205). -/
  | store (k : Nat) (w : Word)
  /-- `DADDR <- 0x0080`, with `CONN` and `SUSPENDED` (R164, R165). -/
  | defaultAddress
  /-- `cur <- i; val <- EPR[i]` (R187). -/
  | latch (i : Fin 16)
  /-- `emit Ep(i, ev)` (R190). -/
  | emitEp (i : Fin 16) (ev : EpEvent)
  /-- `emit Bus(ev)` (R191). -/
  | emitBus (ev : BusEvent)
  deriving DecidableEq, Repr

/-- The values a command has read so far (R71: "every value it has already read kept as read"). -/
structure Locals where
  /-- The `EPR` or `CNTR` value read. -/
  val : Word := 0
  /-- The offset read from `FBA` or from a descriptor. -/
  off : Word := 0
  /-- The byte count `n` of a transfer. -/
  len : BitVec 10 := 0
  /-- The frame number read. -/
  frame : BitVec 11 := 0
  deriving DecidableEq, Repr

/-- What happens when the last access is made: a command returns its result word (R90), a service moves `DPH` on
(R180). -/
inductive Finish where
  /-- Result 0. -/
  | zero
  /-- Result: the offset (`ALLOC`). -/
  | offset
  /-- Result: the byte count (`READ_EP`, `WRITE_EP`). -/
  | count
  /-- Result: the frame number (`GET_FRAME`). -/
  | frame
  /-- The dispatcher goes to a phase. -/
  | phase (p : Phase)
  deriving DecidableEq, Repr

/-- A command or service in progress: the accesses still to make, the values read, and how it ends. -/
structure Frame where
  todo : List Access
  vars : Locals
  fin  : Finish
  deriving DecidableEq, Repr

/-! ## The state -/

/-- The state of the machine. -/
@[ext]
structure State where
  /-- The configuration; no step writes it (assumption log 1). -/
  cfg : Config
  /-- `CNTR` (R23). -/
  cntr : Word
  /-- The stored bits `ISTR[14:9]`, in place (R26). -/
  istr : Word
  /-- `FNR.FN`; `none` is unwritten (R30, R54). -/
  fn : Option (BitVec 11)
  /-- `DADDR` (R31). -/
  daddr : Word
  /-- `EPR[i]` (R32); indices from `N_EP` on do not exist and stay 0 (assumption log 12). -/
  epr : Vector Word 16
  /-- `BD[i]` (R38, R39); indices from `N_EP` on do not exist and stay unwritten. -/
  bd : Vector BufDesc 16
  /-- `PMA[]` (R43). -/
  pma : Memory
  /-- `FBA`; `none` is unwritten (R44, R55). -/
  fba : Option Word
  /-- `CONN` (R45). -/
  conn : Conn
  /-- `SUSPENDED` (R46). -/
  suspended : Bool
  /-- `IRQ_EN` (R47). -/
  irqEn : Bool
  /-- `DPH` (R48). -/
  dph : Phase
  /-- The interrupt status snapshot `snap` (R51). -/
  snap : Word
  /-- The endpoint index `cur` of the current turn (R48). -/
  cur : Fin 16
  /-- The endpoint register value `val` of the current turn (R48). -/
  val : Word
  /-- `FAULTS` (R52). -/
  faults : FaultSet
  /-- The bytes on `DIN` for the command being issued (R82). -/
  din : List Byte
  /-- Everything put out so far, oldest first (assumption log 24). -/
  out : List Output
  /-- The foreground command the dispatcher has preempted, if any (R71). -/
  fgHeld : Option Frame
  /-- The rest of the dispatcher's service after an `emit` whose callback is running, if any (R192). -/
  dispHeld : Option Frame
  /-- Input: the commands the foreground agent presents, in order (R21; assumption log 7). -/
  fgCmds : List Request
  /-- Input: the commands the running callback still issues (R192). -/
  cbCmds : List Request
  /-- Input: the command sequence of each coming call of an installed handler (R192; assumption log 6). -/
  cbScript : List (List Request)
  /-- Input: who moves next (R70, R71; assumption log 2). -/
  sched : List Choice
  /-- The model's counter of free values drawn (assumption log 8). -/
  fresh : Nat
  deriving DecidableEq, Repr

/-! ## Updates, one a field; no field but the named one changes. There is none for `cfg`. -/

/-- A new value of `CNTR`. -/
def State.withCntr (s : State) (x : Word) : State := { s with cntr := x }

/-- A new value of the stored bits of `ISTR`. -/
def State.withIstr (s : State) (x : Word) : State := { s with istr := x }

/-- A new value of `FNR.FN`. -/
def State.withFn (s : State) (x : Option (BitVec 11)) : State := { s with fn := x }

/-- A new value of `DADDR`. -/
def State.withDaddr (s : State) (x : Word) : State := { s with daddr := x }

/-- A new value of the endpoint registers. -/
def State.withEprAll (s : State) (x : Vector Word 16) : State := { s with epr := x }

/-- A new value of the descriptor table. -/
def State.withBdAll (s : State) (x : Vector BufDesc 16) : State := { s with bd := x }

/-- A new value of the arena. -/
def State.withPma (s : State) (x : Memory) : State := { s with pma := x }

/-- A new value of `FBA`. -/
def State.withFba (s : State) (x : Option Word) : State := { s with fba := x }

/-- A new value of `CONN`. -/
def State.withConn (s : State) (x : Conn) : State := { s with conn := x }

/-- A new value of `SUSPENDED`. -/
def State.withSuspended (s : State) (x : Bool) : State := { s with suspended := x }

/-- A new value of `IRQ_EN`. -/
def State.withIrqEn (s : State) (x : Bool) : State := { s with irqEn := x }

/-- A new value of `DPH`. -/
def State.withDph (s : State) (x : Phase) : State := { s with dph := x }

/-- A new value of `snap`. -/
def State.withSnap (s : State) (x : Word) : State := { s with snap := x }

/-- A new value of `cur`. -/
def State.withCur (s : State) (x : Fin 16) : State := { s with cur := x }

/-- A new value of `val`. -/
def State.withVal (s : State) (x : Word) : State := { s with val := x }

/-- A new value of `FAULTS`. -/
def State.withFaults (s : State) (x : FaultSet) : State := { s with faults := x }

/-- A new value of `DIN`. -/
def State.withDin (s : State) (x : List Byte) : State := { s with din := x }

/-- A new value of the outputs. -/
def State.withOut (s : State) (x : List Output) : State := { s with out := x }

/-- A new value of the preempted foreground command. -/
def State.withFgHeld (s : State) (x : Option Frame) : State := { s with fgHeld := x }

/-- A new value of the waiting service. -/
def State.withDispHeld (s : State) (x : Option Frame) : State := { s with dispHeld := x }

/-- A new value of the foreground commands. -/
def State.withFgCmds (s : State) (x : List Request) : State := { s with fgCmds := x }

/-- A new value of the commands of the running callback. -/
def State.withCbCmds (s : State) (x : List Request) : State := { s with cbCmds := x }

/-- A new value of the command sequences of coming callbacks. -/
def State.withCbScript (s : State) (x : List (List Request)) : State := { s with cbScript := x }

/-- A new value of the schedule. -/
def State.withSched (s : State) (x : List Choice) : State := { s with sched := x }

/-- A new value of the counter of free values. -/
def State.withFresh (s : State) (x : Nat) : State := { s with fresh := x }

/-- The state right after power-on, for a configuration (R54, R55, R56, R261). -/
def State.powerOn (c : Config) : State where
  cfg := c
  cntr := 0x0001
  istr := 0
  fn := none
  daddr := 0
  epr := Vector.replicate 16 0
  bd := Vector.replicate 16 {}
  pma := []
  fba := none
  conn := .poweredOff
  suspended := false
  irqEn := false
  dph := .idle
  snap := 0
  cur := 0
  val := 0
  faults := {}
  din := []
  out := []
  fgHeld := none
  dispHeld := none
  fgCmds := []
  cbCmds := []
  cbScript := []
  sched := []
  fresh := 0

/-- The machine right after reset: power-on with the spec's default configuration. -/
def State.reset : State := State.powerOn Config.default

end Sys2Proof.Machine
end

