-- ==== Sys2Proof/Machine/Operands.lean ====
section
/-! DEFINITION. What an operand stands for: the fields a direction selects (R133), status words (R86), sizes (R111), type codes (R123), the receive-count word and its capacity (R121, R122), packet words (R205), the interrupt mask of the reset handler (R160), and the connection-state tables (R154 to R156). -/

namespace Sys2Proof.Machine

/-! ## Constants of R37 -/

/-- `MASK`: the bits of an endpoint register that are not of the toggle class (R36). -/
def MASK : Word := 0x8F8F

/-- The status field a direction selects, `F` (R133). -/
def selField : Dir → Word
  | .OUT => 0x3000
  | .IN  => 0x0030

/-- The data-toggle bit a direction selects, `T` (R133). -/
def selToggle : Dir → Word
  | .OUT => 0x4000
  | .IN  => 0x0040

/-- A status code in the receive position (R37: `RX_DIS`, `RX_STALL`, `RX_NAK`, `RX_VALID`). -/
def rxStat (st : Status) : Word := 0#2 ++ statusCode st ++ 0#12

/-- A status code in the transmit position (R37: `TX_DIS`, `TX_STALL`, `TX_NAK`, `TX_VALID`). -/
def txStat (st : Status) : Word := 0#10 ++ statusCode st ++ 0#4

/-- The 16-bit argument of `SET_STATUS`, which may carry both statuses (R86). -/
def statWord (rx tx : Status) : Word := rxStat rx ||| txStat tx

/-- The bits `RESET_EP` clears, `K` (R137, R138). -/
def resetBits (c : Config) (d : Dir) : Word :=
  if c.resetEpClearsStatus then selToggle d ||| selField d else selToggle d

/-- `TypeCode(t)`, the register's type field in place (R123, R34). -/
def typeCode : EpType → Word
  | .control     => 0x0200
  | .isochronous => 0x0400
  | .bulk        => 0x0000
  | .interrupt   => 0x0600

/-- The word `CONFIG_EP` writes: `0x8080 OR TypeCode(type) OR i` (R124). -/
def configWord (t : EpType) (i : Fin 16) : Word := 0x8080 ||| typeCode t ||| BitVec.ofNat 16 i.val

/-! ## Sizes -/

/-- `RoundSize(s)` (R111). -/
def roundSize (s : Nat) : Nat :=
  if s ≤ 62 then 2 * ((s + 1) / 2) else 32 * ((s + 31) / 32)

/-- `RxEnc(sz)` (R121). -/
def rxEnc (sz : Nat) : Word :=
  if sz ≤ 62 then BitVec.ofNat 16 (sz / 2) <<< 9
  else (BitVec.ofNat 16 (sz / 32 - 1) <<< 5) ||| 0x8000

/-- `RxCap(w)`; `none` where it is undefined (R122). -/
def rxCap (w : Word) : Option Nat :=
  if w.getLsbD 15 then
    if w.extractLsb' 0 5 = 0 then some (32 * ((w.extractLsb' 5 10).toNat + 1)) else none
  else
    if w.extractLsb' 0 9 = 0 then some (2 * (w.extractLsb' 9 6).toNat) else none

/-- The arena words of `n` bytes, `ceil(n / 2)` (R201, R212). -/
def wordsOf (n : Nat) : Nat := (n + 1) / 2

/-- The `k`-th arena word of an `n`-byte packet: byte `2k` below byte `2k + 1`, or below `pad` past the end (R205, R61). -/
def packetWord (n : Nat) (data : Nat → Byte) (pad : Byte) (k : Nat) : Word :=
  (if 2 * k + 1 < n then data (2 * k + 1) else pad) ++ data (2 * k)

/-! ## The interrupt mask of the reset handler -/

/-- `ResetMask` (R160). -/
def resetMask (c : Config) : Word :=
  0x8400 ||| (if c.suspendEvent then 0x0800 else 0) ||| (if c.wakeupEvent then 0x1000 else 0)
    ||| (if c.errorEvent then 0x6000 else 0) ||| (if c.sofEvent then 0x0200 else 0)

/-! ## Connection states -/

/-- `CONN` after `SET_ADDR addr` (R154). -/
def connAfterSetAddr (a : BitVec 7) : Conn → Conn
  | .defaultAddress => if a = 0 then .defaultAddress else .addressed
  | .addressed      => if a = 0 then .defaultAddress else .addressed
  | .poweredOff     => .poweredOff
  | .awaitingReset  => .awaitingReset
  | .configured     => .configured

/-- `CONN` after `SET_CONFIG cfg` (R155). -/
def connAfterSetConfig (c : BitVec 8) : Conn → Conn
  | .addressed      => if c = 0 then .addressed else .configured
  | .configured     => if c = 0 then .addressed else .configured
  | .poweredOff     => .poweredOff
  | .awaitingReset  => .awaitingReset
  | .defaultAddress => .defaultAddress

/-- `CONN` after `CONNECT en` (R152). -/
def connAfterConnect (en : Bool) : Conn := if en then .awaitingReset else .poweredOff

/-! ## Event codes and the callback table -/

/-- The code of a per-endpoint event (R92). -/
def epEventCode : EpEvent → BitVec 8
  | .setup => 1
  | .out   => 2
  | .in_   => 3

/-- The code of a bus event (R93). -/
def busEventCode : BusEvent → BitVec 8
  | .reset        => 1
  | .suspend      => 2
  | .resume       => 3
  | .startOfFrame => 4
  | .error _      => 5

/-- The kind discriminator of an error event (R93, R236). -/
def errKindCode : ErrKind → BitVec 8
  | .overrun => 1
  | .generic => 2

/-- The handler the table holds for a bus event (R49, R191). -/
def busHandler (c : Config) : BusEvent → Handler
  | .reset        => c.busHandlers.reset
  | .suspend      => c.busHandlers.suspend
  | .resume       => c.busHandlers.resume
  | .startOfFrame => c.busHandlers.startOfFrame
  | .error _      => c.busHandlers.error

end Sys2Proof.Machine
end

