-- ==== Sys2Proof/Machine/Flags.lean ====
section
/-! DEFINITION. The status bits and how they are computed: the write classes of an endpoint register (R35, R131) and of `ISTR` (R29) and `CNTR` (R25), the derived fields of `ISTR` (R27), the interrupt request (R50), the bit changes of the packet moves (R223, R224), and the event bits (R94). -/

namespace Sys2Proof.Machine

/-! ## Write classes -/

/-- `new` of `WriteEPR`, in the one formula of R131. -/
def eprAfterWrite (old w : Word) : Word :=
  (w &&& 0x070F) ||| (old &&& 0x0800) ||| (old &&& w &&& 0x8080) ||| ((old ^^^ w) &&& 0x7070)

/-- The word `SET_STATUS` writes, from the value read (R134). -/
def statusWrite (val field stat : Word) : Word := (val ^^^ (stat &&& field)) &&& (MASK ||| field)

/-- The stored bits of `ISTR` after `WriteISTR(w)`: bits 15, 8:4 and 3:0 of `w` are ignored (R29). -/
def istrAfterWrite (istr w : Word) : Word := istr &&& (w ||| 0x81FF)

/-- `CNTR` after `WriteCNTR(w)` (R25). -/
def cntrAfterWrite (w : Word) : Word := w &&& 0xFE0D

/-- `DADDR` after a write of `w` (R31). -/
def daddrAfterWrite (w : Word) : Word := w &&& 0x00FF

/-! ## Bits of an endpoint register -/

/-- `CTR_RX` (R32). -/
def ctrRx (v : Word) : Bool := v.getLsbD 15

/-- `CTR_TX` (R32). -/
def ctrTx (v : Word) : Bool := v.getLsbD 7

/-- `SETUP` (R32). -/
def setupBit (v : Word) : Bool := v.getLsbD 11

/-- `STAT_RX` (R32, R33). -/
def statRx (v : Word) : BitVec 2 := v.extractLsb' 12 2

/-- `STAT_TX` (R32, R33). -/
def statTx (v : Word) : BitVec 2 := v.extractLsb' 4 2

/-- `EP_TYPE` (R32, R34). -/
def epType (v : Word) : BitVec 2 := v.extractLsb' 9 2

/-- `EPR[i]` after `RxDone`: toggle flipped, status NAK, `SETUP` as received, `CTR_RX` set (R223). -/
def eprAfterRx (v : Word) (setup : Bool) : Word :=
  ((v ^^^ 0x4000) &&& 0x47FF) ||| 0x2000 ||| (if setup then 0x0800 else 0) ||| 0x8000

/-- `EPR[i]` after `TxDone`: toggle flipped, status NAK, `CTR_TX` set (R224). -/
def eprAfterTx (v : Word) : Word := ((v ^^^ 0x0040) &&& 0xFFCF) ||| 0x0020 ||| 0x0080

/-! ## `ISTR` and the interrupt request -/

/-- The sixteen indices, in order. -/
def indices : List (Fin 16) := [0, 1, 2, 3, 4, 5, 6, 7, 8, 9, 10, 11, 12, 13, 14, 15]

/-- The set `P` of R27: the endpoint registers with a completion bit pending. -/
def pending (s : State) : List (Fin 16) :=
  indices.filter fun i => decide (i.val < s.cfg.nEp) && (ctrRx s.epr[i] || ctrTx s.epr[i])

/-- `ISTR[15]`, derived (R27). -/
def ctrPending (s : State) : Bool := !(pending s).isEmpty

/-- `ISTR[15:9]` in place: the derived bit 15 and the six stored bits (R26, R27). -/
def istrEvents (s : State) : Word := (s.istr &&& 0x7E00) ||| (if ctrPending s then 0x8000 else 0)

/-- `IRQ` (R50). -/
def irq (s : State) : Bool := decide (istrEvents s &&& s.cntr &&& 0xFE00 ≠ 0)

/-! ## Events -/

/-- The bit of `ISTR` an event is tested and cleared by (R94). -/
def eventBit : Event → Nat
  | .reset   => 10
  | .suspend => 11
  | .wakeup  => 12
  | .sof     => 9
  | .overrun => 14
  | .error   => 13

/-- The bitwise complement a service writes to `ISTR` to clear exactly its bit (R180). -/
def eventClear : Event → Word
  | .reset   => 0xFBFF
  | .suspend => 0xF7FF
  | .wakeup  => 0xEFFF
  | .sof     => 0xFDFF
  | .overrun => 0xBFFF
  | .error   => 0xDFFF

/-- The phase after `Ev(k)` (R180). -/
def nextPhase : Event → Phase
  | .reset   => .ev .suspend
  | .suspend => .ev .wakeup
  | .wakeup  => .ev .sof
  | .sof     => .ev .overrun
  | .overrun => .ev .error
  | .error   => .epTop

/-- The instruction of the snapshot table that serves an event (R94). -/
def eventInstr : Event → Instr
  | .reset   => .istrReset
  | .suspend => .istrSusp
  | .wakeup  => .istrWkup
  | .sof     => .istrSof
  | .overrun => .istrPmaovr
  | .error   => .istrErr

end Sys2Proof.Machine
end

