-- ==== Sys2Proof/Machine/Ops.lean ====
section
/-! DEFINITION. The named operations over registers, descriptor fields and the arena: free values (R19), faults (R18), the software writes of R16, the arena accesses of R62 to R65, the reads of validity-tracked cells (R42), and the interrupt's entry and return (R176 to R178, R241, R242). -/

namespace Sys2Proof.Machine

/-! ## Free values, faults, outputs -/

/-- `Unspecified(w)`, drawn at this use (R19). -/
def unspecified (w : Nat) (s : State) : BitVec w := Config.unspecified w s.fresh

/-- The state after a free value has been drawn. -/
def drawn (s : State) : State := s.withFresh (s.fresh + 1)

/-- `raise Fault(kind)`: the kind is recorded in `FAULTS` (R18, R52). -/
def raise (f : Fault) (s : State) : State :=
  match f with
  | .unspecifiedRead => s.withFaults { s.faults with unspecifiedRead := true }
  | .arenaOverflow   => s.withFaults { s.faults with arenaOverflow := true }

/-- An output of the block. -/
def put (o : Output) (s : State) : State := s.withOut (s.out ++ [o])

/-- A read of a cell that is written or unwritten (R42, R244): an unwritten one raises `UnspecifiedRead` and reads
as a free value. -/
def readCell {w : Nat} (c : Option (BitVec w)) (s : State) : BitVec w × State :=
  match c with
  | some v => (v, s)
  | none   => (unspecified w s, drawn (raise .unspecifiedRead s))

/-! ## Register writes (R16) -/

/-- `WriteCNTR(w)` (R25). -/
def writeCntr (w : Word) (s : State) : State := s.withCntr (cntrAfterWrite w)

/-- `WriteISTR(w)` (R29). -/
def writeIstr (w : Word) (s : State) : State := s.withIstr (istrAfterWrite s.istr w)

/-- A software write of `DADDR` (R31). -/
def writeDaddr (w : Word) (s : State) : State := s.withDaddr (daddrAfterWrite w)

/-- `EPR[i] <- v`, raw; there is no register from `N_EP` on (R22, R84). -/
def setEpr (i : Fin 16) (v : Word) (s : State) : State :=
  if i.val < s.cfg.nEp then s.withEprAll (s.epr.set i v) else s

/-- `WriteEPR(i, w)` (R131). -/
def writeEpr (i : Fin 16) (w : Word) (s : State) : State := setEpr i (eprAfterWrite s.epr[i] w) s

/-- `BD[i] <- d`, raw; there is no record from `N_EP` on (R38). -/
def setBd (i : Fin 16) (d : BufDesc) (s : State) : State :=
  if i.val < s.cfg.nEp then s.withBdAll (s.bd.set i d) else s

/-! ## Register reads -/

/-- `Elect(P)`, or `Unspecified(4)` if `P` is empty (R27). -/
def electEp (p : List (Fin 16)) (s : State) : BitVec 4 × State :=
  match p with
  | []          => (unspecified 4 s, drawn s)
  | [i]         => (BitVec.ofFin i, s)
  | i :: j :: r => (BitVec.ofFin ((i :: j :: r).getD (Config.choice s.fresh % (r.length + 2)) i), drawn s)

/-- A software read of `ISTR`, with the election made afresh (R26, R27). -/
def readIstr (s : State) : Word × State :=
  (istrEvents s ||| (electEp (pending s) s).1.setWidth 16, (electEp (pending s) s).2)

/-- A software read of `FNR`, in its two parts: bits 15:11, free at every read, and `FN` in bits 10:0 (R30). -/
def readFnr (s : State) : (BitVec 5 × BitVec 11) × State :=
  ((unspecified 5 (readCell s.fn s).2, (readCell s.fn s).1), drawn (readCell s.fn s).2)

/-! ## The arena -/

/-- The byte an offset holds; `none` is unwritten (R43). -/
def Memory.read : Memory → Nat → Option Byte
  | [], _ => none
  | c :: m, a => if c.1 = a then some c.2 else Memory.read m a

/-- The memory after byte `b` is written at offset `a`; keeps the canonical form. -/
def Memory.write : Memory → Nat → Byte → Memory
  | [], a, b => [(a, b)]
  | c :: m, a, b =>
    if a < c.1 then (a, b) :: c :: m
    else if a = c.1 then (a, b) :: m
    else c :: Memory.write m a b

/-- A read of one arena byte; an unwritten one raises `UnspecifiedRead` and reads as a free byte (R62). -/
def readByte (a : Nat) (s : State) : Byte × State := readCell (s.pma.read a) s

/-- `MemRead(off, 2)` (R61, R62, R64, R65). A refused access tells what is recorded before it (R246). -/
def memRead (off : Nat) (s : State) : Except Refusal (Word × State) :=
  if off % 2 = 1 then .error (.misaligned s.faults)
  else if s.cfg.pmaSize < off + 2 then
    .ok (unspecified 16 s, drawn (raise .arenaOverflow s))
  else
    .ok ((readByte (off + 1) (readByte off s).2).1 ++ (readByte off s).1, (readByte (off + 1) (readByte off s).2).2)

/-- `MemWrite(off, 2, v)` (R61, R63, R64, R65). -/
def memWrite (off : Nat) (v : Word) (s : State) : Except Refusal State :=
  if off % 2 = 1 then .error (.misaligned s.faults)
  else if s.cfg.pmaSize < off + 2 then .ok (raise .arenaOverflow s)
  else .ok (s.withPma ((s.pma.write off (v.extractLsb' 0 8)).write (off + 1) (v.extractLsb' 8 8)))

/-- The bytes of `m` arena words from `off`, read by `MemRead` in increasing order (R224). -/
def readWords (off : Nat) : Nat → State → Except Refusal (List Byte × State)
  | 0, s => .ok ([], s)
  | m + 1, s =>
    match memRead off s with
    | .error r => .error r
    | .ok (w, s1) =>
      match readWords (off + 2) m s1 with
      | .error r => .error r
      | .ok (bs, s2) => .ok (w.extractLsb' 0 8 :: w.extractLsb' 8 8 :: bs, s2)

/-- Words stored by `MemWrite` from `off` in increasing order (R223). -/
def writeWords (off : Nat) : List Word → State → Except Refusal State
  | [], s => .ok s
  | w :: ws, s =>
    match memWrite off w s with
    | .error r => .error r
    | .ok s1 => writeWords (off + 2) ws s1

/-! ## The allocator's cursor (R112) -/

/-- The write of `FBA` in `ALLOC(size)`: the cursor advances by the rounded size, modulo 2^16, and a region past the
arena is recorded (R112, R115). DESIGN CHOICE: it is recorded with this write, not with the read of `FBA` before it
(assumption log 31). -/
def advanceFba (off : Word) (size : Nat) (s : State) : State :=
  (if s.cfg.pmaSize < off.toNat + roundSize size then raise .arenaOverflow s else s).withFba
    (some (BitVec.ofNat 16 (off.toNat + roundSize size)))

/-- Every field of `BD[1]` and up becomes unwritten (R163, R42). -/
def unwriteOthers (s : State) : State := s.withBdAll ((Vector.replicate 16 {}).set 0 s.bd[0])

/-! ## Taking the interrupt and returning from it -/

/-- The start condition of the dispatcher (R176). -/
def canStart (s : State) : Bool := irq s && s.irqEn && decide (s.dph = .idle)

/-- Interrupt entry (R176, R177, R241): the snapshot read and `DPH <- Ev(1)` in one step; nothing is saved by the
block, no mask and no mode changes. -/
def enterDispatcher (s : State) : State :=
  ((readIstr s).2.withSnap (readIstr s).1).withDph (.ev .reset)

/-- Interrupt return (R178, R242): `DPH <- Idle`; nothing is restored. -/
def leaveDispatcher (s : State) : State := s.withDph .idle

end Sys2Proof.Machine
end

