-- ==== Sys2Proof/Machine/Bus.lean ====
section
/-! DEFINITION. The moves of the bus agent (R215 to R228), each one atomic step. A move that is not enabled is not taken: the state stays as it is. -/

namespace Sys2Proof.Machine

/-- `FRES = 1`: no move is enabled (R216 a). -/
def heldInReset (s : State) : Bool := s.cntr.getLsbD 0

/-- `FSUSP = 1` with `FRES = 0`: only `BusReset` and `Wakeup` (R216 b). -/
def busSuspended (s : State) : Bool := !s.cntr.getLsbD 0 && s.cntr.getLsbD 3

/-- `FRES = 0` and `FSUSP = 0` (R216 c). -/
def busActive (s : State) : Bool := !s.cntr.getLsbD 0 && !s.cntr.getLsbD 3

/-- A stored bit of `ISTR` is set; one that is set stays set (R28). -/
def setEvent (e : Event) (s : State) : State := s.withIstr (s.istr ||| BitVec.twoPow 16 (eventBit e))

/-- `BusReset` (R217). -/
def busReset (s : State) : State :=
  ((setEvent .reset s).withEprAll (Vector.replicate 16 0)).withDaddr 0

/-- `Wakeup` (R219). -/
def wakeup (s : State) : State := (setEvent .wakeup s).withCntr (s.cntr &&& 0xFFFB)

/-- `Sof(f)` (R220). -/
def startOfFrame (f : BitVec 11) (s : State) : State := (setEvent .sof s).withFn (some f)

/-- The precondition of `RxDone` but for the buffer's capacity (R223). -/
def rxReady (i : Fin 16) (setup : Bool) (n : Nat) (s : State) : Bool :=
  busActive s && s.daddr.getLsbD 7 && decide (i.val < s.cfg.nEp) && decide (statRx s.epr[i] = 3)
    && decide (epType s.epr[i] ≠ 2) && (!setup || decide (epType s.epr[i] = 1)) && decide (n ≤ 1023)

/-- The words of a received packet; the byte above an odd packet's last is free (R223). -/
def rxWords (d : List Byte) (pad : Byte) : List Word :=
  (List.range (wordsOf d.length)).map (packetWord d.length (fun k => d.getD k 0) pad)

/-- The effect of `RxDone` once its capacity check has passed (R223). -/
def storePacket (i : Fin 16) (setup : Bool) (d : List Byte) (s : State) : Except Refusal State :=
  let a := readCell s.bd[i].rxaddr s
  match writeWords a.1.toNat (rxWords d (unspecified 8 a.2)) (drawn a.2) with
  | .error r => .error r
  | .ok s1 =>
    .ok (setEpr i (eprAfterRx s1.epr[i] setup)
      (setBd i { s1.bd[i] with rxlen := some (BitVec.ofNat 10 d.length) } s1))

/-- `RxDone(i, setup, d)` (R223). An unwritten `rxenc` is recorded and read as a free word (assumption log 17). -/
def rxDone (i : Fin 16) (setup : Bool) (d : List Byte) (s : State) : Except Refusal State :=
  if rxReady i setup d.length s then
    let e := readCell s.bd[i].rxenc s
    match rxCap e.1 with
    | some cap => if d.length ≤ cap then storePacket i setup d e.2 else .ok e.2
    | none => .ok e.2
  else .ok s

/-- The precondition of `TxDone` (R224). -/
def txReady (i : Fin 16) (s : State) : Bool :=
  busActive s && s.daddr.getLsbD 7 && decide (i.val < s.cfg.nEp) && decide (statTx s.epr[i] = 3)
    && decide (epType s.epr[i] ≠ 2)

/-- `TxDone(i)` (R224): the packet is the first `txcount[9:0]` bytes from `txaddr`. -/
def txDone (i : Fin 16) (s : State) : Except Refusal State :=
  if txReady i s then
    let a := readCell s.bd[i].txaddr s
    let c := readCell s.bd[i].txcount a.2
    let n := (c.1.extractLsb' 0 10).toNat
    match readWords a.1.toNat (wordsOf n) c.2 with
    | .error r => .error r
    | .ok (bs, s1) =>
      .ok (setEpr i (eprAfterTx s1.epr[i]) (put (.sent i (s1.epr[i].getLsbD 6) (bs.take n)) s1))
  else .ok s

/-- A move of the bus agent, under its enabling condition (R216). -/
def busMove (m : BusMove) (s : State) : Except Refusal State :=
  match m with
  | .busReset => .ok (if heldInReset s then s else busReset s)
  | .suspend  => .ok (if busActive s then setEvent .suspend s else s)
  | .wakeup   => .ok (if busSuspended s then wakeup s else s)
  | .sof f    => .ok (if busActive s then startOfFrame f s else s)
  | .err      => .ok (if busActive s then setEvent .error s else s)
  | .pmaOvr   => .ok (if busActive s then setEvent .overrun s else s)
  | .rxDone i setup d => rxDone i setup d s
  | .txDone i => txDone i s

end Sys2Proof.Machine
end

