-- ==== Sys2Proof/Machine/Run.lean ====
section
/-! DEFINITION. Running a list of accesses: what each access does (R66), what may come between two of them (R70, R71), how a preempted command is held and a service waits for a callback (R71, R192). -/

namespace Sys2Proof.Machine

/-! ## Between two accesses -/

/-- What the other agents do before the current one goes on (R70, R71): bus moves, up to the next `go`. A start of
the dispatcher preempts when the start condition holds, which it never does inside the dispatcher (R179). The `Bool`
says that the current command has been preempted. -/
def othersMove : List Choice → State → Except Refusal (State × Bool)
  | [], s => .ok (s.withSched [], false)
  | .go :: cs, s => .ok (s.withSched cs, false)
  | .bus m :: cs, s =>
    match busMove m s with
    | .error r => .error r
    | .ok s1 => othersMove cs s1
  | .irq :: cs, s =>
    if canStart s then .ok ((enterDispatcher s).withSched cs, true) else othersMove cs s

/-- The boundary between two accesses. -/
def boundary (s : State) : Except Refusal (State × Bool) := othersMove s.sched s

/-! ## One access -/

/-- A callback: the output, and the commands an installed handler issues, the next sequence of the class layer's
input (R190 to R193). DESIGN CHOICE: the call of a default handler is put out as well (assumption log 30). -/
def emit (o : Output) (h : Handler) (s : State) : State :=
  match h, s.cbScript with
  | .noop, _ => put o s
  | .installed, [] => put o s
  | .installed, cs :: rest => ((put o s).withCbCmds cs).withCbScript rest

/-- One arena read of `READ_EP`: word `k`, its two bytes onto `DOUT`, the lower first (R201). -/
def loadWord (k : Nat) (l : Locals) (s : State) : Except Refusal State :=
  match memRead (l.off.toNat + 2 * k) s with
  | .error r => .error r
  | .ok (w, s1) => .ok (put (.dout (w.extractLsb' 8 8)) (put (.dout (w.extractLsb' 0 8)) s1))

/-- The effect of one access on the values read and on the state. -/
def perform (a : Access) (l : Locals) (s : State) : Except Refusal (Locals × State) :=
  match a with
  | .enableIrq => .ok (l, s.withIrqEn true)
  | .writeCntr w => .ok (l, writeCntr w s)
  | .finishConnect en =>
    .ok (l, ((writeCntr (if en then 0x0400 else 0x000D) s).withConn (connAfterConnect en)).withSuspended false)
  | .setAddr a =>
    .ok (l, (writeDaddr (0x0080 ||| a.setWidth 16) s).withConn (connAfterSetAddr a s.conn))
  | .setConfig c => .ok (l, s.withConn (connAfterSetConfig c s.conn))
  | .readFnr => .ok ({ l with frame := (readFnr s).1.2 }, (readFnr s).2)
  | .readCntr => .ok ({ l with val := s.cntr }, s)
  | .forceSuspend => .ok (l, (writeCntr (l.val ||| 0x000C) s).withSuspended true)
  | .endSuspend => .ok (l, (writeCntr (l.val &&& 0xFFF7) s).withSuspended false)
  | .writeIstr w => .ok (l, writeIstr w s)
  | .readEpr i => .ok ({ l with val := s.epr[i] }, s)
  | .writeEpr i w => .ok (l, writeEpr i w s)
  | .writeStatus i field stat => .ok (l, writeEpr i (statusWrite l.val field stat) s)
  | .writeAnd i m => .ok (l, writeEpr i (l.val &&& m) s)
  | .zeroFba => .ok (l, s.withFba (some 0))
  | .readFba => .ok ({ l with off := (readCell s.fba s).1 }, (readCell s.fba s).2)
  | .writeFba size => .ok (l, advanceFba l.off size s)
  | .readTxaddr i => .ok ({ l with off := (readCell s.bd[i].txaddr s).1 }, (readCell s.bd[i].txaddr s).2)
  | .readRxaddr i => .ok ({ l with off := (readCell s.bd[i].rxaddr s).1 }, (readCell s.bd[i].rxaddr s).2)
  | .readRxlen i => .ok ({ l with len := (readCell s.bd[i].rxlen s).1 }, (readCell s.bd[i].rxlen s).2)
  | .writeTxaddr i => .ok (l, setBd i { s.bd[i] with txaddr := some l.off } s)
  | .writeRxaddr i => .ok (l, setBd i { s.bd[i] with rxaddr := some l.off } s)
  | .writeRxenc i w => .ok (l, setBd i { s.bd[i] with rxenc := some w, rxlen := none } s)
  | .writeTxcount i n => .ok (l, setBd i { s.bd[i] with txcount := some n } s)
  | .unwriteOthers => .ok (l, unwriteOthers s)
  | .load k =>
    match loadWord k l s with
    | .error r => .error r
    | .ok s1 => .ok (l, s1)
  | .store k w =>
    match memWrite (l.off.toNat + 2 * k) w s with
    | .error r => .error r
    | .ok s1 => .ok (l, s1)
  | .defaultAddress => .ok (l, ((writeDaddr 0x0080 s).withConn .defaultAddress).withSuspended false)
  | .latch i => .ok (l, (s.withCur i).withVal s.epr[i])
  | .emitEp i ev => .ok (l, emit (.epCall i ev) s.cfg.epHandlers[i] s)
  | .emitBus ev => .ok (l, emit (.busCall ev) (busHandler s.cfg ev) s)

/-! ## A list of accesses -/

/-- How an element of an access list has gone: made whole, or left at a boundary inside it with the rest to do. -/
inductive Progress where
  | whole (l : Locals) (s : State)
  | part (a : Access) (s : State)

/-- The copy loop of `READ_EP`: `m` words from word `k` on, with a boundary between two of them (R201, R71). -/
def loadLoop (l : Locals) : Nat → Nat → State → Except Refusal Progress
  | 0, _, s => .ok (.whole l s)
  | m + 1, k, s =>
    match loadWord k l s with
    | .error r => .error r
    | .ok s1 =>
      if m = 0 then .ok (.whole l s1)
      else match boundary s1 with
        | .error r => .error r
        | .ok (s2, false) => loadLoop l m (k + 1) s2
        | .ok (s2, true) => .ok (.part (.load (k + 1)) s2)

/-- One element of an access list: the copy loop in full, any other access by itself. -/
def performAll (a : Access) (l : Locals) (s : State) : Except Refusal Progress :=
  match a with
  | .load k => loadLoop l (wordsOf l.len.toNat - k) k s
  | a =>
    match perform a l s with
    | .error r => .error r
    | .ok (l1, s1) => .ok (.whole l1 s1)

/-- An element after which a callback may run. -/
def Access.isEmit : Access → Bool
  | .emitEp _ _ | .emitBus _ => true
  | _ => false

/-- The result word of R90: `VAL` in bits 15:0, zeros above. -/
def resultWord (v : Word) : BitVec 32 := v.setWidth 32

/-- The end of a command or service (R90, R180). -/
def finish (fin : Finish) (l : Locals) (s : State) : State :=
  match fin with
  | .zero    => put (.result 0) s
  | .offset  => put (.result (resultWord l.off)) s
  | .count   => put (.result (resultWord (l.len.setWidth 16))) s
  | .frame   => put (.result (resultWord (l.frame.setWidth 16))) s
  | .phase p => s.withDph p

/-- The accesses of a command, handler or service, in order, each followed by a boundary but the last. A preempted
command is held with the values it has read (R71); a service whose callback issues commands waits for them (R192). -/
def run : List Access → Locals → Finish → State → Except Refusal State
  | [], l, fin, s => .ok (finish fin l s)
  | a :: as, l, fin, s =>
    match performAll a l s with
    | .error r => .error r
    | .ok (.part a1 s1) => .ok (s1.withFgHeld (some ⟨a1 :: as, l, fin⟩))
    | .ok (.whole l1 s1) =>
      if a.isEmit && !s1.cbCmds.isEmpty then .ok (s1.withDispHeld (some ⟨as, l1, fin⟩))
      else match as with
        | [] => .ok (finish fin l1 s1)
        | b :: bs =>
          match boundary s1 with
          | .error r => .error r
          | .ok (s2, false) => run (b :: bs) l1 fin s2
          | .ok (s2, true) => .ok (s2.withFgHeld (some ⟨b :: bs, l1, fin⟩))

/-- A result of the accesses as an outcome of a step. No fault ends a step (R18). -/
def toOutcome : Except Refusal State → Host.Outcome State Fault Refusal
  | .ok s    => .next s
  | .error r => .refused r

/-- A command, handler or service from its first access. -/
def start (todo : List Access) (vars : Locals) (fin : Finish) (s : State) : Host.Outcome State Fault Refusal :=
  toOutcome (run todo vars fin s)

/-- The rest of a held one (R71, R192). -/
def resume (f : Frame) (s : State) : Host.Outcome State Fault Refusal := start f.todo f.vars f.fin s

/-- A command that uses endpoint index `i` is refused where there is no such register (R84). -/
def withEndpoint (i : Fin 16) (s : State) (k : Host.Outcome State Fault Refusal) : Host.Outcome State Fault Refusal :=
  if i.val < s.cfg.nEp then k else .refused .badEndpoint

end Sys2Proof.Machine
end

