-- ==== Sys2Proof/Machine/Allocator.lean ====
section
/-! DEFINITION. The packet memory allocator (40_allocator.md): `ALLOC`. -/

namespace Sys2Proof.Machine

/-- The accesses of `ALLOC(size)`: the read and the write of `FBA` (R112). -/
def allocAccesses (size : Nat) : List Access := [.readFba, .writeFba size]

/-- `ALLOC size` (R112, R114, R115). -/
def execAlloc (size : Word) (s : State) : Host.Outcome State Fault Refusal :=
  start (allocAccesses size.toNat) {} .offset s

end Sys2Proof.Machine
end

