-- ==== Sys2Proof/Machine/Descriptor.lean ====
section
/-! DEFINITION. The endpoint descriptor table (41_descriptor_table.md): `CONFIG_EP`. -/

namespace Sys2Proof.Machine

/-- The half of `BD[i]` that a direction's buffer fills, the offset being the one `ALLOC` returned (R124). -/
def bufferAccesses (ep : EpId) (size : Nat) : List Access :=
  match ep.dir with
  | .IN  => [.writeTxaddr ep.idx]
  | .OUT => [.writeRxaddr ep.idx, .writeRxenc ep.idx (rxEnc (roundSize size))]

/-- The accesses of `CONFIG_EP(ep, type, mps)` (R124). -/
def configAccesses (ep : EpId) (type : EpType) (mps : Nat) : List Access :=
  allocAccesses mps ++ bufferAccesses ep mps ++ [.writeEpr ep.idx (configWord type ep.idx)]

/-- `CONFIG_EP ep, type, mps` (R124); index 0 is refused (R125). -/
def execConfigEp (ep : EpId) (type : EpType) (mps : BitVec 11) (s : State) : Host.Outcome State Fault Refusal :=
  withEndpoint ep.idx s
    (if ep.idx = 0 then .refused .ep0Config else start (configAccesses ep type mps.toNat) {} .zero s)

end Sys2Proof.Machine
end

