-- ==== Sys2Proof/Machine/Endpoint.lean ====
section
/-! DEFINITION. The endpoint control register interface (42_endpoint_register.md): `SET_STATUS`, `RESET_EP`, `ENABLE_EP`, `DISABLE_EP`, `STALL_EP`, `CLR_STALL`. -/

namespace Sys2Proof.Machine

/-- `SET_STATUS(ep, stat)`: one read and one write of the register (R134). -/
def setStatusAccesses (ep : EpId) (stat : Word) : List Access :=
  [.readEpr ep.idx, .writeStatus ep.idx (selField ep.dir) stat]

/-- `RESET_EP(ep)`: one read and one write of the register (R137). -/
def resetEpAccesses (c : Config) (ep : EpId) : List Access :=
  [.readEpr ep.idx, .writeAnd ep.idx (MASK ||| resetBits c ep.dir)]

/-- The transmit status `CLR_STALL` leaves on an `IN` endpoint (R143). -/
def clrStallTx (c : Config) : Status :=
  match c.clrStallIn with
  | .nak => .nak
  | .valid => .valid

/-- `SET_STATUS ep, stat` (R134). -/
def execSetStatus (ep : EpId) (rx tx : Status) (s : State) : Host.Outcome State Fault Refusal :=
  withEndpoint ep.idx s (start (setStatusAccesses ep (statWord rx tx)) {} .zero s)

/-- `RESET_EP ep` (R137). -/
def execResetEp (ep : EpId) (s : State) : Host.Outcome State Fault Refusal :=
  withEndpoint ep.idx s (start (resetEpAccesses s.cfg ep) {} .zero s)

/-- `ENABLE_EP ep` (R140). -/
def execEnableEp (ep : EpId) (s : State) : Host.Outcome State Fault Refusal :=
  withEndpoint ep.idx s (start (setStatusAccesses ep (statWord .valid .nak)) {} .zero s)

/-- `DISABLE_EP ep` (R141). -/
def execDisableEp (ep : EpId) (s : State) : Host.Outcome State Fault Refusal :=
  withEndpoint ep.idx s (start (setStatusAccesses ep (statWord .disabled .disabled)) {} .zero s)

/-- `STALL_EP ep` (R142). -/
def execStallEp (ep : EpId) (s : State) : Host.Outcome State Fault Refusal :=
  withEndpoint ep.idx s (start (setStatusAccesses ep (statWord .stall .stall)) {} .zero s)

/-- `CLR_STALL ep` (R143): `RESET_EP`, then `SET_STATUS`. -/
def execClrStall (ep : EpId) (s : State) : Host.Outcome State Fault Refusal :=
  withEndpoint ep.idx s
    (start (resetEpAccesses s.cfg ep ++ setStatusAccesses ep (statWord .valid (clrStallTx s.cfg))) {} .zero s)

end Sys2Proof.Machine
end

