-- ==== Sys2Proof/Machine/Device.lean ====
section
/-! DEFINITION. The core state machine (43_core_state_machine.md): `INIT`, `CONNECT`, `SET_ADDR`, `SET_CONFIG`, `GET_FRAME`, and the handlers the dispatcher calls. -/

namespace Sys2Proof.Machine

/-! ## Commands -/

/-- `INIT` (R151). -/
def execInit (s : State) : Host.Outcome State Fault Refusal := start [.enableIrq] {} .zero s

/-- `CONNECT en` (R152): two writes of `CNTR`. -/
def execConnect (en : Bool) (s : State) : Host.Outcome State Fault Refusal :=
  start [.writeCntr 0x0001, .finishConnect en] {} .zero s

/-- `SET_ADDR addr` (R154). -/
def execSetAddr (a : BitVec 7) (s : State) : Host.Outcome State Fault Refusal := start [.setAddr a] {} .zero s

/-- `SET_CONFIG cfg` (R155). -/
def execSetConfig (c : BitVec 8) (s : State) : Host.Outcome State Fault Refusal := start [.setConfig c] {} .zero s

/-- `GET_FRAME` (R157). -/
def execGetFrame (s : State) : Host.Outcome State Fault Refusal := start [.readFnr] {} .frame s

/-! ## Handlers -/

/-- The buffers of endpoint 0: transmit first, then receive (R161). -/
def ep0Buffers (c : Config) : List Access :=
  .zeroFba :: allocAccesses c.mps0 ++ .writeTxaddr 0 :: allocAccesses c.mps0
    ++ [.writeRxaddr 0, .writeRxenc 0 (rxEnc c.mps0)]

/-- `ResetHandler` (R159 to R165), in the document's order. -/
def resetHandler (c : Config) : List Access :=
  .writeCntr (resetMask c) :: ep0Buffers c
    ++ [.unwriteOthers, .writeEpr 0 0x8280]
    ++ setStatusAccesses ⟨.OUT, 0⟩ (rxStat .valid)
    ++ [.defaultAddress]

/-- `SuspendHandler` (R167). -/
def suspendHandler : List Access := [.readCntr, .forceSuspend]

/-- `WakeupHandler` (R168). -/
def wakeupHandler : List Access := [.readCntr, .endSuspend]

/-- `SofHandler` does nothing (R169). -/
def sofHandler : List Access := []

end Sys2Proof.Machine
end

