-- ==== Sys2Proof/Machine/Service.lean ====
section
/-! DEFINITION. The dispatcher's services (44_interrupt_dispatcher.md): the six event services and the endpoint loop's top, which are rows of the snapshot table, and the receive and transmit services of the loop. -/

namespace Sys2Proof.Machine

/-- An event service (R180): the handler, the callback if its flag enables it, the write of the complement of exactly
this event's bit; then the next phase. -/
def eventService (e : Event) (handler : List Access) (enabled : Bool) (ev : BusEvent) (s : State) :
    Host.Outcome State Fault Refusal :=
  start (handler ++ (if enabled then [.emitBus ev] else []) ++ [.writeIstr (eventClear e)]) {}
    (.phase (nextPhase e)) s

/-- A check of the dispatcher that serves nothing: the next phase (R180). -/
def skipEvent (e : Event) (s : State) : Host.Outcome State Fault Refusal := .next (s.withDph (nextPhase e))

/-- Reset service, `Ev(1)` (R181). -/
def execIstrReset (s : State) : Host.Outcome State Fault Refusal :=
  eventService .reset (resetHandler s.cfg) s.cfg.resetEvent .reset s

/-- Suspend service, `Ev(2)` (R182). -/
def execIstrSusp (s : State) : Host.Outcome State Fault Refusal :=
  eventService .suspend suspendHandler s.cfg.suspendEvent .suspend s

/-- Wakeup service, `Ev(3)` (R183). -/
def execIstrWkup (s : State) : Host.Outcome State Fault Refusal :=
  eventService .wakeup wakeupHandler s.cfg.wakeupEvent .resume s

/-- Start-of-frame service, `Ev(4)` (R184). -/
def execIstrSof (s : State) : Host.Outcome State Fault Refusal :=
  eventService .sof sofHandler s.cfg.sofEvent .startOfFrame s

/-- PMA-overrun service, `Ev(5)`; without `ERROR_EVENT` the bit is neither reported nor cleared (R185). -/
def execIstrPmaovr (s : State) : Host.Outcome State Fault Refusal :=
  if s.cfg.errorEvent then eventService .overrun [] true (.error .overrun) s else skipEvent .overrun s

/-- Generic-error service, `Ev(6)`; without `ERROR_EVENT` the bit is neither reported nor cleared (R186). -/
def execIstrErr (s : State) : Host.Outcome State Fault Refusal :=
  if s.cfg.errorEvent then eventService .error [] true (.error .generic) s else skipEvent .error s

/-- The endpoint loop's top for the index in the snapshot, after the read of `ISTR` (R187). -/
def execIstrCtr (i : Fin 16) (s : State) : Host.Outcome State Fault Refusal :=
  withEndpoint i s (start [.writeIstr 0x7FFF, .latch i] {} (.phase .epRx) s)

/-- Receive-complete service, `EpRx` (R188). -/
def rxService (s : State) : Host.Outcome State Fault Refusal :=
  if ctrRx s.val then
    start [.writeAnd s.cur 0x0F8F, .emitEp s.cur (if setupBit s.val then .setup else .out)] { val := s.val }
      (.phase .epTx) s
  else .next (s.withDph .epTx)

/-- Transmit-complete service, `EpTx`, on the same `val`; then back to the top (R189). -/
def txService (s : State) : Host.Outcome State Fault Refusal :=
  if ctrTx s.val then
    start [.writeAnd s.cur 0x8F0F, .emitEp s.cur .in_] { val := s.val } (.phase .epTop) s
  else .next (s.withDph .epTop)

end Sys2Proof.Machine
end

