-- ==== Sys2Proof/Machine/Transfer.lean ====
section
/-! DEFINITION. The endpoint data transfer engine (45_data_transfer.md): `READ_EP`, `WRITE_EP`. -/

namespace Sys2Proof.Machine

/-- The accesses of `READ_EP` on index `i` (R201); the direction bit of the id is not used (R202). -/
def readAccesses (i : Fin 16) : List Access :=
  [.readRxaddr i, .readRxlen i, .load 0] ++ setStatusAccesses ⟨.OUT, i⟩ (rxStat .valid)

/-- `READ_EP ep` (R201). -/
def execReadEp (ep : EpId) (s : State) : Host.Outcome State Fault Refusal :=
  withEndpoint ep.idx s (start (readAccesses ep.idx) {} .count s)

/-- The byte `data[k]` on `DIN` (R82); one that was not supplied is free (assumption log 16). -/
def dinByte (s : State) (k : Nat) : Byte := s.din.getD k (Config.unspecified 8 (s.fresh + k))

/-- The `n` bytes of the command are taken from `DIN` (R82). -/
def takeDin (n : Nat) (s : State) : State :=
  (s.withDin (s.din.drop n)).withFresh (if n ≤ s.din.length then s.fresh else s.fresh + n)

/-- The data words of an `n`-byte packet, in increasing order (R205, R206). -/
def storeAccesses (n : Nat) (data : Nat → Byte) (pad : Byte) : List Access :=
  (List.range (wordsOf n)).map fun k => .store k (packetWord n data pad k)

/-- The accesses of `WRITE_EP` on index `i`: the offset, the data, the count, then the arming (R205); the direction
bit of the id is not used (R207). -/
def writeAccesses (i : Fin 16) (n : Nat) (data : Nat → Byte) (pad : Byte) : List Access :=
  .readTxaddr i :: storeAccesses n data pad
    ++ .writeTxcount i (BitVec.ofNat 16 n) :: setStatusAccesses ⟨.IN, i⟩ (txStat .valid)

/-- `WRITE_EP ep, n` (R205). -/
def execWriteEp (ep : EpId) (n : BitVec 10) (s : State) : Host.Outcome State Fault Refusal :=
  withEndpoint ep.idx s
    (start (writeAccesses ep.idx n.toNat (dinByte s) s.cfg.padByte) { len := n } .count (takeDin n.toNat s))

end Sys2Proof.Machine
end

