-- ==== Sys2Proof/Machine/Dispatch.lean ====
section
/-! DEFINITION. One arm per instruction. -/

namespace Sys2Proof.Machine

def exec (i : Instr) (s : State) : Host.Outcome State Fault Refusal :=
  match i with
  | .init => Sys2Proof.Machine.execInit s
  | .connect en => Sys2Proof.Machine.execConnect en s
  | .setAddr addr => Sys2Proof.Machine.execSetAddr addr s
  | .configEp ep type mps => Sys2Proof.Machine.execConfigEp ep type mps s
  | .enableEp ep => Sys2Proof.Machine.execEnableEp ep s
  | .disableEp ep => Sys2Proof.Machine.execDisableEp ep s
  | .resetEp ep => Sys2Proof.Machine.execResetEp ep s
  | .stallEp ep => Sys2Proof.Machine.execStallEp ep s
  | .clrStall ep => Sys2Proof.Machine.execClrStall ep s
  | .readEp ep => Sys2Proof.Machine.execReadEp ep s
  | .writeEp ep n => Sys2Proof.Machine.execWriteEp ep n s
  | .getFrame => Sys2Proof.Machine.execGetFrame s
  | .setConfig cfg => Sys2Proof.Machine.execSetConfig cfg s
  | .alloc size => Sys2Proof.Machine.execAlloc size s
  | .setStatus ep rx tx => Sys2Proof.Machine.execSetStatus ep rx tx s
  | .istrReset => Sys2Proof.Machine.execIstrReset s
  | .istrSusp => Sys2Proof.Machine.execIstrSusp s
  | .istrWkup => Sys2Proof.Machine.execIstrWkup s
  | .istrSof => Sys2Proof.Machine.execIstrSof s
  | .istrPmaovr => Sys2Proof.Machine.execIstrPmaovr s
  | .istrErr => Sys2Proof.Machine.execIstrErr s
  | .istrCtr ep => Sys2Proof.Machine.execIstrCtr ep s

end Sys2Proof.Machine
end

