-- ==== Sys2Proof/Machine/Agents.lean ====
section
/-! DEFINITION. The turns of the software agents: presenting a command (R80, R97), the dispatcher's phases (R180), callbacks (R192), the foreground agent (R70, R71), and whose turn it is (R70, R176, R215). -/

namespace Sys2Proof.Machine

/-- A command word is decoded and performed with the bytes supplied on `DIN` (R80, R82, R97). -/
def issue (r : Request) (s : State) : Host.Outcome State Fault Refusal :=
  match decode s.cfg.nEp (.cmd r.word) with
  | .ok i               => exec i (s.withDin r.data)
  | .error .badEndpoint => .refused .badEndpoint
  | .error .badCommand  => .refused .badCommand
  | .error .noEvent     => .refused .badCommand

/-- The top of the endpoint loop (R178, R187): one read of `ISTR`; with bit 15 clear the invocation ends, otherwise
the turn of the endpoint it names, the bus agent moving between the read and the next access. -/
def loopTop (s : State) : Host.Outcome State Fault Refusal :=
  let w := (readIstr s).1
  let s1 := (readIstr s).2.withSnap w
  if w.getLsbD 15 then
    match boundary s1 with
    | .error e => .refused e
    | .ok (s2, _) => exec (.istrCtr (w.extractLsb' 0 4).toFin) s2
  else .next (leaveDispatcher s1)

/-- One phase of the dispatcher (R180). -/
def phaseTurn (s : State) : Host.Outcome State Fault Refusal :=
  match s.dph with
  | .idle  => .next s
  | .ev e  => if s.snap.getLsbD (eventBit e) then exec (eventInstr e) s else skipEvent e s
  | .epTop => loopTop s
  | .epRx  => rxService s
  | .epTx  => txService s

/-- The interrupt context: the running callback's next command, else the rest of the service that waits for it, else
the next phase (R180, R192). -/
def dispatcherTurn (s : State) : Host.Outcome State Fault Refusal :=
  match s.cbCmds with
  | r :: rs => issue r (s.withCbCmds rs)
  | [] =>
    match s.dispHeld with
    | some f => resume f (s.withDispHeld none)
    | none   => phaseTurn s

/-- The foreground context: the rest of a preempted command, else the next command, else nothing (R71, R247). -/
def foregroundTurn (s : State) : Host.Outcome State Fault Refusal :=
  match s.fgHeld with
  | some f => resume f (s.withFgHeld none)
  | none =>
    match s.fgCmds with
    | r :: rs => issue r (s.withFgCmds rs)
    | []      => .next s

/-- The current software agent: the dispatcher while `DPH` is not `Idle`, the foreground agent otherwise (R70). -/
def softwareTurn (s : State) : Host.Outcome State Fault Refusal :=
  match s.dph with
  | .idle => foregroundTurn s
  | _     => dispatcherTurn s

/-- The dispatcher starts if it can (R176). -/
def startIfReady (s : State) : State := if canStart s then enterDispatcher s else s

/-- One turn of the machine: the agent the schedule names (R69, R70, R215); with no choice left the dispatcher starts
if it can, else the current software agent goes on (assumption log 3). -/
def turn (s : State) : Host.Outcome State Fault Refusal :=
  match s.sched with
  | .bus m :: cs => toOutcome (busMove m (s.withSched cs))
  | .irq :: cs   => .next (startIfReady (s.withSched cs))
  | .go :: cs    => softwareTurn (s.withSched cs)
  | []           => if canStart s then .next (enterDispatcher s) else softwareTurn s

/-! ## Placing an instruction where it is fetched -/

/-- The phase that serves the first event a snapshot has (R94). -/
def firstPhase (w : Word) : Phase :=
  if w.getLsbD 10 then .ev .reset else if w.getLsbD 11 then .ev .suspend
  else if w.getLsbD 12 then .ev .wakeup else if w.getLsbD 9 then .ev .sof
  else if w.getLsbD 14 then .ev .overrun else if w.getLsbD 13 then .ev .error else .epTop

/-- A command word presented to the current software agent, with nothing held before it. -/
def placeCommand (w : BitVec 32) (s : State) : State :=
  match s.dph with
  | .idle => ((s.withFgHeld none).withFgCmds (⟨w, []⟩ :: s.fgCmds)).withSched (.go :: s.sched)
  | _     => (s.withCbCmds (⟨w, []⟩ :: s.cbCmds)).withSched (.go :: s.sched)

/-- Completion bits such that a read of `ISTR` names exactly endpoint `i` (R27). -/
def onlyPending (i : Fin 16) (v : Vector Word 16) : Vector Word 16 :=
  Vector.ofFn fun j => if j = i then v[j] ||| 0x8000 else v[j] &&& 0x7F7F

/-- A snapshot in the dispatcher, at the phase that serves it. A correct-transfer snapshot is read afresh at the loop's
top, so the completion bits are set to give it. -/
def placeSnapshot (w : Word) (s : State) : State :=
  let s1 := ((s.withCbCmds []).withDispHeld none).withSched (.go :: s.sched)
  match firstPhase w with
  | .epTop => (s1.withEprAll (onlyPending (w.extractLsb' 0 4).toFin s.epr)).withDph .epTop
  | p      => (s1.withSnap w).withDph p

end Sys2Proof.Machine
end

