-- ==== Sys2Proof/Machine/Step.lean ====
section
/-! DEFINITION. The step of the machine, and where the host places an instruction for it to fetch. -/

namespace Sys2Proof.Machine

/-- One step. A configuration outside its constraints is refused (R12, R245); otherwise one turn. -/
def step (s : State) : Host.Outcome State Fault Refusal :=
  if s.cfg.wf then turn s else .refused .badConfig

/-- A 32-bit row's word is presented as a command; a 16-bit row's word is a snapshot in the dispatcher (assumption
log 21). -/
def State.withFetchWord (s : State) (nbits w : Nat) : State :=
  if nbits = 16 then placeSnapshot (BitVec.ofNat 16 w) s else placeCommand (BitVec.ofNat 32 w) s

end Sys2Proof.Machine
end

