-- ==== Sys2Proof/Safety.lean ====
section
/-! DEFINITION. The terms claims are stated in: a run on which the spec gives a meaning to everything (R52), undisturbed boundaries (R70, R71), and the invariants of the machine. -/

namespace Sys2Proof.Machine

/-- `FAULTS` is empty: the premise every claim about the block takes (R52, R244). -/
def State.clean (s : State) : Prop := s.faults = {}

/-- No other agent comes in at the next `n` boundaries (R70, R71): "no bus-agent move falls between". -/
def State.calm (n : Nat) (s : State) : Prop := ∀ c ∈ s.sched.take n, c = Choice.go

/-- The state with `n` boundaries of the schedule used up. -/
def State.later (n : Nat) (s : State) : State := s.withSched (s.sched.drop n)

/-- The bytes of arena words are written two at a time (R63), so both bytes of a word are written or neither is. -/
def Memory.paired (m : Memory) : Prop := ∀ k, (m.read (2 * k)).isSome = (m.read (2 * k + 1)).isSome

/-- What holds of the registers and the arena in every state of a run. -/
structure State.Inv (s : State) : Prop where
  /-- The configuration is within its constraints (R8 to R12). -/
  config : s.cfg.wf = true
  /-- The arena is in canonical form. -/
  arenaCanonical : s.pma.wf
  /-- Every written byte is inside the arena (R43, R65). -/
  arenaBounds : ∀ c ∈ s.pma, c.1 < s.cfg.pmaSize
  /-- Arena words are written whole (R63). -/
  arenaPaired : s.pma.paired
  /-- `CNTR[8:4]` and `CNTR[1]` read 0 (R23). -/
  cntrReserved : s.cntr &&& 0x01F2 = 0
  /-- Only `ISTR[14:9]` is stored (R26). -/
  istrStored : s.istr &&& 0x81FF = 0
  /-- `DADDR[15:8]` reads 0 (R31). -/
  daddrReserved : s.daddr &&& 0xFF00 = 0
  /-- There is no endpoint register from `N_EP` on (R22). -/
  absentEpr : ∀ i : Fin 16, s.cfg.nEp ≤ i.val → s.epr[i] = 0
  /-- There is no descriptor record from `N_EP` on (R38). -/
  absentBd : ∀ i : Fin 16, s.cfg.nEp ≤ i.val → s.bd[i] = {}

/-- A callback through handler `h` issues no command: the handler is the default, or the class layer's next sequence is
empty (R192, R193). -/
def State.silent (h : Handler) (s : State) : Prop := h = .noop ∨ s.cbScript.headD [] = []

/-- The class layer's sequences still to come after one callback through handler `h` (assumption log 6). -/
def State.scriptAfter (h : Handler) (s : State) : List (List Request) :=
  match h with
  | .noop => s.cbScript
  | .installed => s.cbScript.tail

/-- `w` is what a read of `ISTR` may give: the stored bits in 14:9, bit 15 for a pending completion and then the index of
a pending endpoint in 3:0, and 0 in 8:4 (R26, R27). -/
def State.istrReads (s : State) (w : Word) : Prop :=
  (∀ k, 9 ≤ k → k ≤ 14 → w.getLsbD k = s.istr.getLsbD k) ∧ (w.getLsbD 15 = true ↔ pending s ≠ []) ∧
  (pending s ≠ [] → (w.extractLsb' 0 4).toFin ∈ pending s) ∧ w.extractLsb' 4 5 = 0

/-- No move of the bus agent lies ahead. -/
def State.noBus (s : State) : Prop := ∀ m, Choice.bus m ∉ s.sched

/-- No reception lies ahead. -/
def State.noReception (s : State) : Prop := ∀ i setup d, Choice.bus (.rxDone i setup d) ∉ s.sched

/-- Every offset a rule has produced is even (R44, R64): the cursor, the buffer offsets, and the offset a command in
progress has read. -/
structure State.OffsetsEven (s : State) : Prop where
  fba    : ∀ v, s.fba = some v → v.toNat % 2 = 0
  txaddr : ∀ (i : Fin 16) v, s.bd[i].txaddr = some v → v.toNat % 2 = 0
  rxaddr : ∀ (i : Fin 16) v, s.bd[i].rxaddr = some v → v.toNat % 2 = 0
  fg     : ∀ f, s.fgHeld = some f → f.vars.off.toNat % 2 = 0
  disp   : ∀ f, s.dispHeld = some f → f.vars.off.toNat % 2 = 0

/-- `n` steps, stopping at the first that gives no next state. -/
def steps : Nat → State → Host.Outcome State Fault Refusal
  | 0, s => .next s
  | n + 1, s =>
    match step s with
    | .next t    => steps n t
    | .fault f   => .fault f
    | .refused r => .refused r

end Sys2Proof.Machine

namespace Sys2Proof

/-! ## R95 in the document's words, field by field -/

/-- The command uses the `EP` field (R85). -/
def wordUsesEp (op : BitVec 8) : Prop :=
  op = 0x04 ∨ op = 0x05 ∨ op = 0x06 ∨ op = 0x07 ∨ op = 0x08 ∨ op = 0x09 ∨ op = 0x0A ∨ op = 0x0B ∨ op = 0x11

/-- The bits of `ARG` that must be 0 (R86 to R88); `none` for a reserved opcode (R95). -/
def argReserved (op : BitVec 8) : Option Word :=
  if op = 0x02 then some 0xFFFE
  else if op = 0x03 then some 0xFF80
  else if op = 0x04 then some 0xE000
  else if op = 0x0B then some 0xFC00
  else if op = 0x0D then some 0xFF00
  else if op = 0x10 then some 0x0000
  else if op = 0x11 then some 0xCFCF
  else if op = 0x01 ∨ op = 0x05 ∨ op = 0x06 ∨ op = 0x07 ∨ op = 0x08 ∨ op = 0x09 ∨ op = 0x0A ∨ op = 0x0C then
    some 0xFFFF
  else none

/-- Every condition of R95 but the one on the index. -/
def wordFieldsOk (w : BitVec 32) : Prop :=
  let op := w.extractLsb' 24 8
  let ep := w.extractLsb' 16 8
  let arg := w.extractLsb' 0 16
  (∃ m, argReserved op = some m ∧ arg &&& m = 0) ∧ (wordUsesEp op → ep &&& 0x70 = 0) ∧ (¬ wordUsesEp op → ep = 0)

end Sys2Proof
end

