-- ==== Sys2Proof/Certificates/Slice0/Obligations.lean ====
section
/-! DEFINITION. The statements for the provers, rule by rule of spec/. A next state is written as the state before with the fields the rule changes, so each such statement is also a frame: every register, flag, working cell and every byte of the arena that is not named is unchanged. `sched` is the model's schedule of the other agents (assumption log 2): `s.calm n` says that none of them comes in at the next `n` boundaries between accesses. -/

open Sys2Proof Sys2Proof.Machine

/-! ## Encoding -/

/-- Words written out from R83 to R88 and snapshots from R94 decode to the instructions they stand for. -/
def Obligations.SampleWordsDecode : Prop :=
  decode 8 (.cmd 0x01000000) = .ok .init ∧
  decode 8 (.cmd 0x04810840) = .ok (.configEp ⟨.IN, 1⟩ .isochronous 64) ∧
  decode 8 (.cmd 0x04021808) = .ok (.configEp ⟨.OUT, 2⟩ .interrupt 8) ∧
  decode 8 (.cmd 0x0B8103FF) = .ok (.writeEp ⟨.IN, 1⟩ 1023) ∧
  decode 8 (.cmd 0x1000FFFF) = .ok (.alloc 0xFFFF) ∧
  decode 8 (.cmd 0x11073010) = .ok (.setStatus ⟨.OUT, 7⟩ .valid .stall) ∧
  decode 8 (.cmd 0x11083010) = .error .badEndpoint ∧
  decode 8 (.cmd 0x0E000000) = .error .badCommand ∧
  decode 8 (.snap 0x4200) = .ok .istrSof ∧
  decode 8 (.snap 0x8003) = .ok (.istrCtr 3)

/-- Decoding the encoding of a well-formed instruction gives it back, for every instruction and every operand. -/
def Obligations.DecodeEncode : Prop :=
  ∀ (nEp : Nat) (i : Instr), i.wf nEp = true → decode nEp (encode i) = .ok i

/-- A command word has one meaning and each command one word: the word that decodes to `i` is the encoding of `i`. -/
def Obligations.EncodeDecode : Prop :=
  ∀ (nEp : Nat) (w : BitVec 32) (i : Instr), decode nEp (.cmd w) = .ok i → encode i = .cmd w ∧ i.wf nEp = true

/-- R95, on the fields of the word themselves: which words are well-formed, and which refusal the others give. -/
def Obligations.WellFormedWords : Prop :=
  ∀ (nEp : Nat) (w : BitVec 32),
    ((∃ i, decode nEp (.cmd w) = .ok i) ↔
      wordFieldsOk w ∧ (wordUsesEp (w.extractLsb' 24 8) → (w.extractLsb' 16 4).toNat < nEp)) ∧
    (decode nEp (.cmd w) = .error .badEndpoint ↔
      wordFieldsOk w ∧ wordUsesEp (w.extractLsb' 24 8) ∧ nEp ≤ (w.extractLsb' 16 4).toNat) ∧
    (decode nEp (.cmd w) = .error .badCommand ↔ ¬ wordFieldsOk w)

/-! ## One step -/

/-- The next command of the current software agent, decoded, is what the step performs, `DIN` holding the bytes supplied
with it: the foreground agent's while the dispatcher is idle, the running callback's while it is not (R70, R80, R192). -/
def Obligations.StepRunsCommand : Prop :=
  ∀ (s : State) (r : Request) (rs : List Request) (cs : List Choice) (i : Instr),
    s.cfg.wf = true → s.sched = .go :: cs → decode s.cfg.nEp (.cmd r.word) = .ok i →
    (s.dph = .idle → s.fgHeld = none → s.fgCmds = r :: rs →
      step s = exec i { s with sched := cs, fgCmds := rs, din := r.data }) ∧
    (s.dph ≠ .idle → s.cbCmds = r :: rs →
      step s = exec i { s with sched := cs, cbCmds := rs, din := r.data })

/-- R94, rows 1 to 6: a phase `Ev(k)` runs its service exactly when its bit of the snapshot is set (and, for the two
error bits, `ERROR_EVENT`), and goes on to the next phase otherwise. -/
def Obligations.StepRunsEventService : Prop :=
  ∀ (s : State) (cs : List Choice) (e : Event),
    s.cfg.wf = true → s.dph = .ev e → s.cbCmds = [] → s.dispHeld = none → s.sched = .go :: cs →
    step s =
      match e with
      | .reset =>
        if s.snap &&& 0x0400 ≠ 0 then exec .istrReset { s with sched := cs }
        else .next { s with sched := cs, dph := .ev .suspend }
      | .suspend =>
        if s.snap &&& 0x0800 ≠ 0 then exec .istrSusp { s with sched := cs }
        else .next { s with sched := cs, dph := .ev .wakeup }
      | .wakeup =>
        if s.snap &&& 0x1000 ≠ 0 then exec .istrWkup { s with sched := cs }
        else .next { s with sched := cs, dph := .ev .sof }
      | .sof =>
        if s.snap &&& 0x0200 ≠ 0 then exec .istrSof { s with sched := cs }
        else .next { s with sched := cs, dph := .ev .overrun }
      | .overrun =>
        if s.cfg.errorEvent = true ∧ s.snap &&& 0x4000 ≠ 0 then exec .istrPmaovr { s with sched := cs }
        else .next { s with sched := cs, dph := .ev .error }
      | .error =>
        if s.cfg.errorEvent = true ∧ s.snap &&& 0x2000 ≠ 0 then exec .istrErr { s with sched := cs }
        else .next { s with sched := cs, dph := .epTop }

/-- R94 row 7 and R187: at the loop's top `ISTR` is read once; with a completion pending the turn of some pending
endpoint runs, the one the snapshot names. -/
def Obligations.StepRunsCorrectTransfer : Prop :=
  ∀ (s : State) (cs : List Choice),
    s.cfg.wf = true → s.dph = .epTop → s.cbCmds = [] → s.dispHeld = none → s.sched = .go :: cs → s.calm 2 →
    pending s ≠ [] →
    ∃ (i : Fin 16) (w : Word) (n : Nat),
      i ∈ pending s ∧ w.getLsbD 15 = true ∧ (w.extractLsb' 0 4).toNat = i.val ∧
      step s = exec (.istrCtr i) { s with sched := cs.drop 1, snap := w, fresh := n }

/-- A word that is not well-formed is refused by name, in either context: no next state, so no state change and no
result word (R95, R245); that the refusal ends the step, and so the run, is assumption log 23. A configuration outside
its constraints is refused: R245 decides this once, before power-on; refusing every step is the model's choice
(assumption log 27). -/
def Obligations.StepRefusals : Prop :=
  (∀ (s : State) (r : Request) (rs : List Request) (cs : List Choice),
    s.cfg.wf = true → s.sched = .go :: cs →
    (s.dph = .idle ∧ s.fgHeld = none ∧ s.fgCmds = r :: rs) ∨ (s.dph ≠ .idle ∧ s.cbCmds = r :: rs) →
    (¬ wordFieldsOk r.word → step s = .refused .badCommand) ∧
    (wordFieldsOk r.word → wordUsesEp (r.word.extractLsb' 24 8) → s.cfg.nEp ≤ (r.word.extractLsb' 16 4).toNat →
      step s = .refused .badEndpoint)) ∧
  (∀ s : State, s.cfg.dblBufEp ≠ 0 ∨ s.cfg.nEp < 1 ∨ 16 < s.cfg.nEp ∨ s.cfg.pmaSize % 2 = 1 ∨ s.cfg.pmaSize < 2 ∨
      65534 < s.cfg.pmaSize ∨ (s.cfg.mps0 ≠ 8 ∧ s.cfg.mps0 ≠ 16 ∧ s.cfg.mps0 ≠ 32 ∧ s.cfg.mps0 ≠ 64) →
    step s = .refused .badConfig)

/-! ## Registers and their write classes -/

/-- R131: a software write of an endpoint register, field by field and in one formula; nothing else changes. -/
def Obligations.WriteEprByClass : Prop :=
  ∀ (s : State) (i : Fin 16) (w : Word), i.val < s.cfg.nEp →
    ∃ new : Word,
      writeEpr i w s = { s with epr := s.epr.set i new } ∧
      new.extractLsb' 8 3 = w.extractLsb' 8 3 ∧
      new.extractLsb' 0 4 = w.extractLsb' 0 4 ∧
      new.getLsbD 11 = s.epr[i].getLsbD 11 ∧
      new.getLsbD 15 = (s.epr[i].getLsbD 15 && w.getLsbD 15) ∧
      new.getLsbD 7 = (s.epr[i].getLsbD 7 && w.getLsbD 7) ∧
      new.extractLsb' 12 3 = s.epr[i].extractLsb' 12 3 ^^^ w.extractLsb' 12 3 ∧
      new.extractLsb' 4 3 = s.epr[i].extractLsb' 4 3 ^^^ w.extractLsb' 4 3 ∧
      new = (w &&& 0x070F) ||| (s.epr[i] &&& 0x0800) ||| (s.epr[i] &&& w &&& 0x8080) ||| ((s.epr[i] ^^^ w) &&& 0x7070)

/-- R25 and R29: a software write of `CNTR` stores every named bit and keeps the reserved bits 0; a software write of
`ISTR` clears the stored bits that are written 0, leaves the others, and ignores bits 15, 8:4 and 3:0; nothing else
changes. The dispatcher's write of `NOT 0x8000` changes nothing. -/
def Obligations.WriteCntrAndIstr : Prop :=
  ∀ (s : State) (w : Word),
    (∃ new : Word, writeCntr w s = { s with cntr := new } ∧
      (∀ k, 9 ≤ k ∨ k = 3 ∨ k = 2 ∨ k = 0 → new.getLsbD k = w.getLsbD k) ∧
      (∀ k, (4 ≤ k ∧ k ≤ 8) ∨ k = 1 → new.getLsbD k = false)) ∧
    (∃ new : Word, writeIstr w s = { s with istr := new } ∧
      (∀ k, 9 ≤ k → k ≤ 14 → new.getLsbD k = (s.istr.getLsbD k && w.getLsbD k)) ∧
      (∀ k, k < 9 ∨ k = 15 → new.getLsbD k = s.istr.getLsbD k)) ∧
    writeIstr 0x7FFF s = s

/-- R26 and R27: a software read of `ISTR` gives the stored bits, the derived bit 15, a member of `P` in bits 3:0 when
there is one, and 0 in the reserved bits; it changes no state of the block. -/
def Obligations.ReadIstrDerived : Prop :=
  ∀ s : State,
    (∀ i : Fin 16, i ∈ pending s ↔ i.val < s.cfg.nEp ∧ (s.epr[i].getLsbD 15 = true ∨ s.epr[i].getLsbD 7 = true)) ∧
    ((readIstr s).1.getLsbD 15 = true ↔ pending s ≠ []) ∧
    (pending s ≠ [] → ((readIstr s).1.extractLsb' 0 4).toFin ∈ pending s) ∧
    (∀ k, 9 ≤ k → k ≤ 14 → (readIstr s).1.getLsbD k = s.istr.getLsbD k) ∧
    (∀ k, 4 ≤ k → k ≤ 8 → (readIstr s).1.getLsbD k = false) ∧
    ∃ n, (readIstr s).2 = { s with fresh := n }

/-- R50: the request is asserted exactly when some pending bit of `ISTR` (the derived bit 15 among them) has its
same-numbered enable bit of `CNTR` set. -/
def Obligations.InterruptRequest : Prop :=
  ∀ s : State, irq s = true ↔
    (∃ k, 9 ≤ k ∧ k ≤ 14 ∧ s.istr.getLsbD k = true ∧ s.cntr.getLsbD k = true) ∨
    (s.cntr.getLsbD 15 = true ∧
      ∃ i : Fin 16, i.val < s.cfg.nEp ∧ (s.epr[i].getLsbD 15 = true ∨ s.epr[i].getLsbD 7 = true))

/-! ## The arena -/

/-- R63 (with R61): a word written at an even offset inside the arena stores its two bytes, the lower first, and
changes nothing else; a read of it gives it back. -/
def Obligations.ArenaWrite : Prop :=
  ∀ (s : State) (off : Nat) (v : Word), off % 2 = 0 → off + 2 ≤ s.cfg.pmaSize →
    ∃ t : State, memWrite off v s = .ok t ∧ t = { s with pma := t.pma } ∧
      t.pma.read off = some (v.extractLsb' 0 8) ∧ t.pma.read (off + 1) = some (v.extractLsb' 8 8) ∧
      (∀ a, a ≠ off → a ≠ off + 1 → t.pma.read a = s.pma.read a) ∧
      memRead off t = .ok (v, t)

/-- R62: a read of two written bytes gives their word and changes nothing; if either is unwritten the fault is recorded
and the written one is still read. -/
def Obligations.ArenaRead : Prop :=
  ∀ (s : State) (off : Nat), off % 2 = 0 → off + 2 ≤ s.cfg.pmaSize →
    (∀ lo hi, s.pma.read off = some lo → s.pma.read (off + 1) = some hi →
      memRead off s = .ok (hi.setWidth 16 <<< 8 ||| lo.setWidth 16, s)) ∧
    (s.pma.read off = none ∨ s.pma.read (off + 1) = none →
      ∃ (w : Word) (n : Nat), memRead off s = .ok (w, { s with faults := { s.faults with unspecifiedRead := true }, fresh := n }) ∧
        (∀ b, s.pma.read off = some b → w.extractLsb' 0 8 = b) ∧
        (∀ b, s.pma.read (off + 1) = some b → w.extractLsb' 8 8 = b))

/-- R64 and R65: an odd offset is refused, inside the arena and past it (that the alignment is checked first is assumption
log 13), with what is recorded so far; an even access past the arena records `ArenaOverflow`, a write then changes nothing
else and a read goes on with a free word. -/
def Obligations.ArenaLimits : Prop :=
  ∀ (s : State) (off : Nat) (v : Word),
    (off % 2 = 1 → memWrite off v s = .error (.misaligned s.faults) ∧ memRead off s = .error (.misaligned s.faults)) ∧
    (off % 2 = 0 → s.cfg.pmaSize < off + 2 →
      memWrite off v s = .ok { s with faults := { s.faults with arenaOverflow := true } } ∧
      ∃ (w : Word) (n : Nat), memRead off s = .ok (w, { s with faults := { s.faults with arenaOverflow := true }, fresh := n }))

/-! ## Sizes and count words -/

/-- R111: `RoundSize` and its laws. -/
def Obligations.RoundSizeLaws : Prop :=
  (∀ n, roundSize n = if n ≤ 62 then 2 * ((n + 1) / 2) else 32 * ((n + 31) / 32)) ∧
  (∀ n, n ≤ 62 → roundSize n % 2 = 0 ∧ n ≤ roundSize n ∧ roundSize n ≤ n + 1) ∧
  (∀ n, 62 < n → roundSize n % 32 = 0 ∧ n ≤ roundSize n ∧ roundSize n ≤ n + 31) ∧
  (∀ n, roundSize (roundSize n) = roundSize n) ∧ (∀ n, roundSize n % 2 = 0) ∧ roundSize 65535 = 65536

/-- R121 and R122: the two forms of the receive-count word; the capacity read out of a word, its three cases; and that it
inverts the encoder on every size a receive buffer can have. -/
def Obligations.RxCapOfRxEnc : Prop :=
  (∀ sz, sz % 2 = 0 → sz ≤ 62 → (rxEnc sz).toNat = sz / 2 * 512) ∧
  (∀ sz, sz % 32 = 0 → 64 ≤ sz → sz ≤ 2048 → (rxEnc sz).toNat = (sz / 32 - 1) * 32 + 0x8000) ∧
  (∀ w : Word, w.getLsbD 15 = false → w.extractLsb' 0 9 = 0 → rxCap w = some (2 * (w.extractLsb' 9 6).toNat)) ∧
  (∀ w : Word, w.getLsbD 15 = true → w.extractLsb' 0 5 = 0 → rxCap w = some (32 * ((w.extractLsb' 5 10).toNat + 1))) ∧
  (∀ w : Word, (w.getLsbD 15 = false ∧ w.extractLsb' 0 9 ≠ 0) ∨ (w.getLsbD 15 = true ∧ w.extractLsb' 0 5 ≠ 0) →
    rxCap w = none) ∧
  (∀ sz, sz % 2 = 0 → sz ≤ 62 → rxCap (rxEnc sz) = some sz) ∧
  (∀ sz, sz % 32 = 0 → 64 ≤ sz → sz ≤ 2048 → rxCap (rxEnc sz) = some sz) ∧
  (∀ mps : BitVec 11, rxCap (rxEnc (roundSize mps.toNat)) = some (roundSize mps.toNat))

/-! ## Commands: result, effect and frame -/

/-- R151, R154 and R155: `INIT`, `SET_ADDR` and `SET_CONFIG`, one access each. -/
def Obligations.DeviceCommandsResult : Prop :=
  ∀ s : State,
    exec .init s = .next { s with irqEn := true, out := s.out ++ [.result 0] } ∧
    (∀ a, exec (.setAddr a) s = .next { s with
      daddr := 0x0080 ||| a.setWidth 16
      conn := if s.conn = .defaultAddress ∧ a ≠ 0 then .addressed
              else if s.conn = .addressed ∧ a = 0 then .defaultAddress else s.conn
      out := s.out ++ [.result 0] }) ∧
    (∀ c, exec (.setConfig c) s = .next { s with
      conn := if s.conn = .addressed ∧ c ≠ 0 then .configured
              else if s.conn = .configured ∧ c = 0 then .addressed else s.conn
      out := s.out ++ [.result 0] })

/-- R152 (the connection state and `SUSPENDED` change with the second write of `CNTR`: assumption log 4). -/
def Obligations.ConnectResult : Prop :=
  ∀ (s : State) (en : Bool), s.calm 1 →
    exec (.connect en) s = .next { s with
      cntr := if en then 0x0400 else 0x000D
      conn := if en then .awaitingReset else .poweredOff
      suspended := false
      sched := s.sched.drop 1
      out := s.out ++ [.result 0] }

/-- R157: the frame number, zero-extended; if none has been delivered the fault is recorded and the number is free. -/
def Obligations.GetFrameResult : Prop :=
  ∀ s : State,
    (∀ f, s.fn = some f → ∃ n, exec .getFrame s = .next { s with fresh := n, out := s.out ++ [.result (f.setWidth 32)] }) ∧
    (s.fn = none → ∃ (f : BitVec 11) (n : Nat), exec .getFrame s = .next { s with
      faults := { s.faults with unspecifiedRead := true }, fresh := n, out := s.out ++ [.result (f.setWidth 32)] })

/-- R112, R114 and R115: the old cursor is returned and the cursor advances by the rounded size modulo 2^16; a region
past the arena is recorded; an unwritten cursor is recorded and a free offset taken in its place. -/
def Obligations.AllocResult : Prop :=
  ∀ (s : State) (size : Word), s.calm 1 →
    ∃ (off : Word) (n : Nat), (∀ v, s.fba = some v → off = v ∧ n = s.fresh) ∧
      exec (.alloc size) s = .next { s with
        fba := some (BitVec.ofNat 16 (off.toNat + roundSize size.toNat))
        faults := {
          unspecifiedRead := s.faults.unspecifiedRead || s.fba.isNone
          arenaOverflow := s.faults.arenaOverflow || decide (s.cfg.pmaSize < off.toNat + roundSize size.toNat) }
        fresh := n
        sched := s.sched.drop 1
        out := s.out ++ [.result (off.setWidth 32)] }

/-- R124 with R123: the buffer is allocated, the direction's half of the record is filled, and type, kind and address of
the register are written, every status, toggle and completion bit kept. -/
def Obligations.ConfigEpResult : Prop :=
  ∀ (s : State) (ep : EpId) (type : EpType) (mps : BitVec 11),
    ep.idx ≠ 0 → ep.idx.val < s.cfg.nEp → s.calm 4 →
    ∃ (off : Word) (n : Nat), (∀ v, s.fba = some v → off = v ∧ n = s.fresh) ∧
      exec (.configEp ep type mps) s = .next { s with
        fba := some (BitVec.ofNat 16 (off.toNat + roundSize mps.toNat))
        faults := {
          unspecifiedRead := s.faults.unspecifiedRead || s.fba.isNone
          arenaOverflow := s.faults.arenaOverflow || decide (s.cfg.pmaSize < off.toNat + roundSize mps.toNat) }
        fresh := n
        bd := s.bd.set ep.idx (match ep.dir with
          | .IN  => { s.bd[ep.idx] with txaddr := some off }
          | .OUT => { s.bd[ep.idx] with
              rxaddr := some off, rxenc := some (rxEnc (roundSize mps.toNat)), rxlen := none })
        epr := s.epr.set ep.idx ((s.epr[ep.idx] &&& 0xF8F0) ||| BitVec.ofNat 16 ep.idx.val |||
          (match type with | .control => 0x0200 | .isochronous => 0x0400 | .bulk => 0x0000 | .interrupt => 0x0600))
        sched := s.sched.drop (match ep.dir with | .IN => 3 | .OUT => 4)
        out := s.out ++ [.result 0] }

/-- R84 and R125: an instruction that uses an endpoint index from `N_EP` on is refused, there being no such register;
`CONFIG_EP` with index 0 is refused. That the snapshot row `ISTR_CTR`, which is no command, is refused alike is the model's
(assumption log 12). -/
def Obligations.EndpointRefusals : Prop :=
  (∀ (s : State) (i : Instr) (k : Fin 16), i.epIndex = some k → s.cfg.nEp ≤ k.val →
    exec i s = .refused .badEndpoint) ∧
  (∀ (s : State) (d : Dir) (type : EpType) (mps : BitVec 11), 1 ≤ s.cfg.nEp →
    exec (.configEp ⟨d, 0⟩ type mps) s = .refused .ep0Config)

/-- R134 and R135, R140, R141 and R142: the selected status field becomes the desired one, whatever it was; nothing else
in the register and nothing else in the state changes. -/
def Obligations.StatusCommandsResult : Prop :=
  ∀ (s : State) (ep : EpId), ep.idx.val < s.cfg.nEp → s.calm 1 →
    let F : Word := match ep.dir with | .IN => 0x0030 | .OUT => 0x3000
    let after (stat : Word) : State := { s with
      epr := s.epr.set ep.idx ((s.epr[ep.idx] &&& ~~~F) ||| (stat &&& F))
      sched := s.sched.drop 1
      out := s.out ++ [.result 0] }
    (∀ rx tx, exec (.setStatus ep rx tx) s = .next (after (statWord rx tx))) ∧
    exec (.enableEp ep) s = .next (after 0x3020) ∧
    exec (.disableEp ep) s = .next (after 0x0000) ∧
    exec (.stallEp ep) s = .next (after 0x1010)

/-- R137 and R138: the selected data toggle becomes 0 and, if `RESET_EP_CLEARS_STATUS`, the selected status Disabled;
nothing else changes. -/
def Obligations.ResetEpResult : Prop :=
  ∀ (s : State) (ep : EpId), ep.idx.val < s.cfg.nEp → s.calm 1 →
    let T : Word := match ep.dir with | .IN => 0x0040 | .OUT => 0x4000
    let F : Word := match ep.dir with | .IN => 0x0030 | .OUT => 0x3000
    exec (.resetEp ep) s = .next { s with
      epr := s.epr.set ep.idx (s.epr[ep.idx] &&& ~~~(if s.cfg.resetEpClearsStatus then T ||| F else T))
      sched := s.sched.drop 1
      out := s.out ++ [.result 0] }

/-- R143: the selected data toggle becomes 0 and the selected status Valid (OUT), or NAK or Valid by
`CLRSTALL_IN_STATUS` (IN), for either value of `RESET_EP_CLEARS_STATUS`. -/
def Obligations.ClrStallResult : Prop :=
  ∀ (s : State) (ep : EpId), ep.idx.val < s.cfg.nEp → s.calm 3 →
    exec (.clrStall ep) s = .next { s with
      epr := s.epr.set ep.idx (match ep.dir with
        | .OUT => (s.epr[ep.idx] &&& 0x8FFF) ||| 0x3000
        | .IN  => (s.epr[ep.idx] &&& 0xFF8F) ||| (if s.cfg.clrStallIn = .valid then 0x0030 else 0x0020))
      sched := s.sched.drop 3
      out := s.out ++ [.result 0] }

/-- R135: after any sequence of `SET_STATUS` commands on one endpoint id, run as commands from their words
with nothing coming between, the selected status is exactly the one last requested, whatever it was before, and the rest
of that register and every other register are as at the start. That one command is one step on an empty schedule is the
model's (assumption logs 2 and 3). -/
def Obligations.LastStatusWins : Prop :=
  ∀ (s : State) (ep : EpId) (l : List (Status × Status)) (rx tx : Status),
    s.cfg.wf = true → s.dph = .idle → s.irqEn = false → s.sched = [] → s.fgHeld = none → ep.idx.val < s.cfg.nEp →
    s.fgCmds = (l ++ [(rx, tx)]).map (fun p => ⟨0x11#8 ++ epByte ep ++ statWord p.1 p.2, []⟩) →
    let F : Word := match ep.dir with | .IN => 0x0030 | .OUT => 0x3000
    ∃ t : State, steps (l.length + 1) s = .next t ∧
      t.epr[ep.idx] &&& F = statWord rx tx &&& F ∧ t.epr[ep.idx] &&& ~~~F = s.epr[ep.idx] &&& ~~~F ∧
      (∀ j : Fin 16, j ≠ ep.idx → t.epr[j] = s.epr[j]) ∧ t.pma = s.pma ∧ t.bd = s.bd ∧ t.conn = s.conn

/-- R116: from a written cursor, allocations that fit are laid end to end in the order of the calls, pairwise disjoint
and inside the arena, and the results are their offsets. That one command is one step on an empty schedule is the model's
(assumption logs 2 and 3). -/
def Obligations.AllocationsDisjoint : Prop :=
  ∀ (s : State) (off : Word) (sizes : List Word),
    s.cfg.wf = true → s.dph = .idle → s.irqEn = false → s.sched = [] → s.fgHeld = none → s.fba = some off →
    s.fgCmds = sizes.map (fun n => ⟨0x10#8 ++ 0#8 ++ n, []⟩) →
    off.toNat + (sizes.map fun n => roundSize n.toNat).sum ≤ s.cfg.pmaSize →
    ∃ (t : State) (offs : List Nat), steps sizes.length s = .next t ∧ offs.length = sizes.length ∧
      t.out = s.out ++ offs.map (fun o => .result (BitVec.ofNat 32 o)) ∧
      t.faults = s.faults ∧
      (∀ k, k < sizes.length → off.toNat ≤ offs.getD k 0 ∧
        offs.getD k 0 + roundSize (sizes.getD k 0).toNat ≤ s.cfg.pmaSize) ∧
      (∀ k, k + 1 < sizes.length → offs.getD (k + 1) 0 = offs.getD k 0 + roundSize (sizes.getD k 0).toNat) ∧
      (∀ j k, j < k → k < sizes.length → offs.getD j 0 + roundSize (sizes.getD j 0).toNat ≤ offs.getD k 0)

/-! ## Data transfer -/

/-- R201 and R203: with everything written and inside the arena, the words of the buffer go to `DOUT` in increasing
order, the receive status becomes Valid, the result is the count, and nothing else changes; for either direction bit
(R202). -/
def Obligations.ReadEpResult : Prop :=
  ∀ (s : State) (ep : EpId) (off : Word) (n : BitVec 10) (bytes : List Byte),
    ep.idx.val < s.cfg.nEp → s.bd[ep.idx].rxaddr = some off → s.bd[ep.idx].rxlen = some n →
    off.toNat % 2 = 0 → off.toNat + 2 * ((n.toNat + 1) / 2) ≤ s.cfg.pmaSize →
    bytes.length = 2 * ((n.toNat + 1) / 2) → (∀ k, k < bytes.length → s.pma.read (off.toNat + k) = bytes[k]?) →
    s.calm ((n.toNat + 1) / 2 + 4) →
    exec (.readEp ep) s = .next { s with
      epr := s.epr.set ep.idx (s.epr[ep.idx] ||| 0x3000)
      sched := s.sched.drop (3 + max 1 ((n.toNat + 1) / 2))
      out := s.out ++ bytes.map .dout ++ [.result (n.setWidth 32)] }

/-- R201 and R203, every form: the offset and the length are read through `readCell`, so an unwritten one is recorded and
free. R64: an odd offset with a word to read is refused, with the faults recorded so far (R246, assumption log 14). Otherwise
the command completes: the `2 * ceil(n / 2)` bytes go to `DOUT`, those of written arena bytes as they stand, an unwritten
byte of a word in the arena is recorded and free, and so is a word past it; the receive status becomes Valid, the result is
the length, and nothing else changes. -/
def Obligations.ReadEpAlways : Prop :=
  ∀ (s : State) (ep : EpId), ep.idx.val < s.cfg.nEp → s.calm 516 →
    let off := readCell s.bd[ep.idx].rxaddr s
    let len := readCell s.bd[ep.idx].rxlen off.2
    let words := (len.1.toNat + 1) / 2
    (off.1.toNat % 2 = 1 → len.1 ≠ 0 → exec (.readEp ep) s = .refused (.misaligned len.2.faults)) ∧
    (off.1.toNat % 2 = 0 ∨ len.1 = 0 →
      ∃ (t : State) (got : List Byte), exec (.readEp ep) s = .next t ∧ got.length = 2 * words ∧
        t = { s with
          epr := s.epr.set ep.idx (s.epr[ep.idx] ||| 0x3000)
          faults := t.faults
          fresh := t.fresh
          sched := s.sched.drop (3 + max 1 words)
          out := s.out ++ got.map .dout ++ [.result (len.1.setWidth 32)] } ∧
        (∀ k b, off.1.toNat + 2 * (k / 2) + 2 ≤ s.cfg.pmaSize → k < 2 * words →
          s.pma.read (off.1.toNat + k) = some b → got[k]? = some b) ∧
        (t.faults.unspecifiedRead = true ↔
          s.faults.unspecifiedRead = true ∨ s.bd[ep.idx].rxaddr = none ∨ s.bd[ep.idx].rxlen = none ∨
          ∃ k, k < 2 * words ∧ off.1.toNat + 2 * (k / 2) + 2 ≤ s.cfg.pmaSize ∧ s.pma.read (off.1.toNat + k) = none) ∧
        (t.faults.arenaOverflow = true ↔
          s.faults.arenaOverflow = true ∨ (len.1 ≠ 0 ∧ s.cfg.pmaSize < off.1.toNat + 2 * words)))

/-- R205 and R206: the data are stored from the transmit offset, the byte above an odd packet's last is `PAD_BYTE`, the
count is the exact length, the transmit status becomes Valid, the result is the count, and nothing else changes; for
either direction bit (R207). -/
def Obligations.WriteEpResult : Prop :=
  ∀ (s : State) (ep : EpId) (n : BitVec 10) (off : Word),
    ep.idx.val < s.cfg.nEp → s.bd[ep.idx].txaddr = some off → off.toNat % 2 = 0 →
    off.toNat + 2 * ((n.toNat + 1) / 2) ≤ s.cfg.pmaSize → n.toNat ≤ s.din.length →
    s.calm ((n.toNat + 1) / 2 + 3) →
    ∃ t : State, exec (.writeEp ep n) s = .next t ∧
      t = { s with
        pma := t.pma
        bd := s.bd.set ep.idx { s.bd[ep.idx] with txcount := some (n.setWidth 16) }
        epr := s.epr.set ep.idx (s.epr[ep.idx] ||| 0x0030)
        din := s.din.drop n.toNat
        sched := s.sched.drop ((n.toNat + 1) / 2 + 3)
        out := s.out ++ [.result (n.setWidth 32)] } ∧
      (∀ k, k < n.toNat → t.pma.read (off.toNat + k) = s.din[k]?) ∧
      (n.toNat % 2 = 1 → t.pma.read (off.toNat + n.toNat) = some s.cfg.padByte) ∧
      (∀ a, a < off.toNat ∨ off.toNat + 2 * ((n.toNat + 1) / 2) ≤ a → t.pma.read a = s.pma.read a)

/-- R205 and R206, every form: the transmit offset is read through `readCell`, so an unwritten one is recorded and free.
R64: an odd offset with a word to store is refused, with the faults recorded so far (R246, assumption log 14). Otherwise the
words inside the arena are stored, `PAD_BYTE` above an odd packet's last byte, a word past the arena is recorded and not
stored, and the command goes on to the count, the arming and the result. Fewer bytes on `DIN` than the count, which R82
excludes, are free values (assumption log 16). -/
def Obligations.WriteEpAlways : Prop :=
  ∀ (s : State) (ep : EpId) (n : BitVec 10), ep.idx.val < s.cfg.nEp → s.calm 515 →
    let off := readCell s.bd[ep.idx].txaddr (takeDin n.toNat s)
    let words := (n.toNat + 1) / 2
    (off.1.toNat % 2 = 1 → n ≠ 0 → exec (.writeEp ep n) s = .refused (.misaligned off.2.faults)) ∧
    (off.1.toNat % 2 = 0 ∨ n = 0 →
      ∃ t : State, exec (.writeEp ep n) s = .next t ∧
        t = { s with
          pma := t.pma
          bd := s.bd.set ep.idx { s.bd[ep.idx] with txcount := some (n.setWidth 16) }
          epr := s.epr.set ep.idx (s.epr[ep.idx] ||| 0x0030)
          faults := {
            unspecifiedRead := s.faults.unspecifiedRead || s.bd[ep.idx].txaddr.isNone
            arenaOverflow := s.faults.arenaOverflow || decide (n ≠ 0 ∧ s.cfg.pmaSize < off.1.toNat + 2 * words) }
          fresh := t.fresh
          din := s.din.drop n.toNat
          sched := s.sched.drop (words + 3)
          out := s.out ++ [.result (n.setWidth 32)] } ∧
        (∀ k, k < n.toNat → off.1.toNat + 2 * (k / 2) + 2 ≤ s.cfg.pmaSize →
          (t.pma.read (off.1.toNat + k)).isSome = true ∧
          ∀ b, s.din[k]? = some b → t.pma.read (off.1.toNat + k) = some b) ∧
        (n.toNat % 2 = 1 → off.1.toNat + n.toNat + 1 ≤ s.cfg.pmaSize →
          t.pma.read (off.1.toNat + n.toNat) = some s.cfg.padByte) ∧
        (∀ a, a < off.1.toNat ∨ off.1.toNat + 2 * words ≤ a ∨ s.cfg.pmaSize ≤ a → t.pma.read a = s.pma.read a))

/-- R209: what `WRITE_EP` stores, `READ_EP` on the mirrored receive path delivers, for every count from 0 to 1023: the
first `n` bytes are the data, and for odd `n` the next is `PAD_BYTE`. -/
def Obligations.TransferRoundTrip : Prop :=
  ∀ (s t u : State) (ep ep' : EpId) (n : BitVec 10) (off : Word),
    ep.idx.val < s.cfg.nEp → ep'.idx = ep.idx → s.bd[ep.idx].txaddr = some off → off.toNat % 2 = 0 →
    off.toNat + 2 * ((n.toNat + 1) / 2) ≤ s.cfg.pmaSize → n.toNat ≤ s.din.length → s.sched = [] →
    exec (.writeEp ep n) s = .next t →
    u = { t with bd := t.bd.set ep.idx { t.bd[ep.idx] with rxaddr := some off, rxlen := some n } } →
    ∃ (v : State) (got : List Byte), exec (.readEp ep') u = .next v ∧
      v.out = u.out ++ got.map .dout ++ [.result (n.setWidth 32)] ∧
      got.take n.toNat = s.din.take n.toNat ∧
      (n.toNat % 2 = 1 → got[n.toNat]? = some s.cfg.padByte) ∧ got.length = 2 * ((n.toNat + 1) / 2)

/-! ## The dispatcher's services -/

/-- R159 to R165 and R181: the reset service, whatever the state before it and whether or not its flag is set, where its
callback issues no command (with commands: `CallbackCommands`). Endpoint-0 buffers that end past the arena are recorded as
`ArenaOverflow`, and the service goes on (R159). With the flag the callback is an output, through a default handler too
(R19; beside R193 this is assumption log 30), and takes the class layer's next sequence if the handler is installed. -/
def Obligations.ResetServiceResult : Prop :=
  ∀ s : State, s.cfg.wf = true → s.calm 15 → s.cbCmds = [] →
    (s.cfg.resetEvent = true → s.silent s.cfg.busHandlers.reset) →
    exec .istrReset s = .next { s with
      cntr := 0x8400 ||| (if s.cfg.suspendEvent then 0x0800 else 0) ||| (if s.cfg.wakeupEvent then 0x1000 else 0)
        ||| (if s.cfg.errorEvent then 0x6000 else 0) ||| (if s.cfg.sofEvent then 0x0200 else 0)
      istr := s.istr &&& 0xFBFF
      daddr := 0x0080
      epr := s.epr.set 0 ((s.epr[0] &&& 0xC8F0) ||| 0x3200)
      bd := (Vector.replicate 16 {}).set 0 { s.bd[0] with
        txaddr := some 0, rxaddr := some (BitVec.ofNat 16 s.cfg.mps0), rxenc := some (rxEnc s.cfg.mps0), rxlen := none }
      fba := some (BitVec.ofNat 16 (2 * s.cfg.mps0))
      faults := {
        unspecifiedRead := s.faults.unspecifiedRead
        arenaOverflow := s.faults.arenaOverflow || decide (s.cfg.pmaSize < 2 * s.cfg.mps0) }
      conn := .defaultAddress
      suspended := false
      dph := .ev .suspend
      sched := s.sched.drop (if s.cfg.resetEvent then 15 else 14)
      cbScript := if s.cfg.resetEvent then s.scriptAfter s.cfg.busHandlers.reset else s.cbScript
      out := s.out ++ (if s.cfg.resetEvent then [.busCall .reset] else []) }

/-- R182 with R167, R183 with R168, R184 with R169, R185 and R186: the five other event services, whether or not their flag
is set, where the callback issues no command (with commands: `CallbackCommands`). Each clears exactly its own bit; without
`ERROR_EVENT` an error bit is neither reported nor cleared. With the flag the callback is an output, through a default
handler too (R19; beside R193 this is assumption log 30). -/
def Obligations.EventServicesResult : Prop :=
  ∀ s : State, s.cbCmds = [] → s.calm 3 → s.cntr &&& 0x01F2 = 0 →
    ((s.cfg.suspendEvent = true → s.silent s.cfg.busHandlers.suspend) → exec .istrSusp s = .next { s with
      cntr := s.cntr ||| 0x000C
      istr := s.istr &&& 0xF7FF
      suspended := true
      dph := .ev .wakeup
      sched := s.sched.drop (if s.cfg.suspendEvent then 3 else 2)
      cbScript := if s.cfg.suspendEvent then s.scriptAfter s.cfg.busHandlers.suspend else s.cbScript
      out := s.out ++ (if s.cfg.suspendEvent then [.busCall .suspend] else []) }) ∧
    ((s.cfg.wakeupEvent = true → s.silent s.cfg.busHandlers.resume) → exec .istrWkup s = .next { s with
      cntr := s.cntr &&& 0xFFF7
      istr := s.istr &&& 0xEFFF
      suspended := false
      dph := .ev .sof
      sched := s.sched.drop (if s.cfg.wakeupEvent then 3 else 2)
      cbScript := if s.cfg.wakeupEvent then s.scriptAfter s.cfg.busHandlers.resume else s.cbScript
      out := s.out ++ (if s.cfg.wakeupEvent then [.busCall .resume] else []) }) ∧
    ((s.cfg.sofEvent = true → s.silent s.cfg.busHandlers.startOfFrame) → exec .istrSof s = .next { s with
      istr := s.istr &&& 0xFDFF
      dph := .ev .overrun
      sched := s.sched.drop (if s.cfg.sofEvent then 1 else 0)
      cbScript := if s.cfg.sofEvent then s.scriptAfter s.cfg.busHandlers.startOfFrame else s.cbScript
      out := s.out ++ (if s.cfg.sofEvent then [.busCall .startOfFrame] else []) }) ∧
    ((s.cfg.errorEvent = true → s.silent s.cfg.busHandlers.error) →
      exec .istrPmaovr s = .next (if s.cfg.errorEvent then { s with
        istr := s.istr &&& 0xBFFF
        dph := .ev .error
        sched := s.sched.drop 1
        cbScript := s.scriptAfter s.cfg.busHandlers.error
        out := s.out ++ [.busCall (.error .overrun)] } else { s with dph := .ev .error }) ∧
      exec .istrErr s = .next (if s.cfg.errorEvent then { s with
        istr := s.istr &&& 0xDFFF
        dph := .epTop
        sched := s.sched.drop 1
        cbScript := s.scriptAfter s.cfg.busHandlers.error
        out := s.out ++ [.busCall (.error .generic)] } else { s with dph := .epTop }))

/-- R187, after the read of `ISTR`: the write of `0x7FFF` changes nothing, and the register of the named endpoint is
latched. -/
def Obligations.EndpointTurnResult : Prop :=
  ∀ (s : State) (i : Fin 16), i.val < s.cfg.nEp → s.calm 1 →
    exec (.istrCtr i) s = .next { s with cur := i, val := s.epr[i], dph := .epRx, sched := s.sched.drop 1 }

/-- R188 and R189: the two endpoint services, as steps, from whatever `val` was latched and whatever the register holds
at the write: the completion bit is cleared, the other one is kept if it was read as 1, `SETUP`, the statuses and the
toggles are as they are, type, kind and address as read; then the callback, whose event for a receive completion is
Setup or Out by the `SETUP` bit read and which issues no command (with commands: `CallbackCommands`). A service whose bit
was not read as 1 does nothing. The callback is an output through a default handler too (R19; beside R193 this is assumption
log 30). -/
def Obligations.EndpointServices : Prop :=
  ∀ (s : State) (cs : List Choice),
    s.cfg.wf = true → s.cbCmds = [] → s.dispHeld = none → s.sched = .go :: cs → s.calm 2 → s.cur.val < s.cfg.nEp →
    (s.dph = .epRx → s.val.getLsbD 15 = true → s.silent s.cfg.epHandlers[s.cur] →
      step s = .next { s with
        epr := s.epr.set s.cur ((s.val &&& 0x070F) ||| (s.epr[s.cur] &&& (0x7870 ||| (s.val &&& 0x0080))))
        dph := .epTx
        sched := cs.drop 1
        cbScript := s.scriptAfter s.cfg.epHandlers[s.cur]
        out := s.out ++ [.epCall s.cur (if s.val.getLsbD 11 then .setup else .out)] }) ∧
    (s.dph = .epRx → s.val.getLsbD 15 = false → step s = .next { s with dph := .epTx, sched := cs }) ∧
    (s.dph = .epTx → s.val.getLsbD 7 = true → s.silent s.cfg.epHandlers[s.cur] →
      step s = .next { s with
        epr := s.epr.set s.cur ((s.val &&& 0x070F) ||| (s.epr[s.cur] &&& (0x7870 ||| (s.val &&& 0x8000))))
        dph := .epTop
        sched := cs.drop 1
        cbScript := s.scriptAfter s.cfg.epHandlers[s.cur]
        out := s.out ++ [.epCall s.cur .in_] }) ∧
    (s.dph = .epTx → s.val.getLsbD 7 = false → step s = .next { s with dph := .epTop, sched := cs })

/-- R192 with R181 to R189: an `emit` to a handler that issues commands leaves the state the service gives when its callback
is silent (`ResetServiceResult`, `EventServicesResult`, `EndpointServices`), but that the rest of the service waits: `DPH` is
as before, for an event service the clear of its bit of `ISTR` is still to come, and the commands are next. No command touches
the rest or the commands behind it, and when they are done the service goes on at the point after the `emit`. The form in
which the rest is held is assumption log 5; the commands are an input, log 6. That each is performed in its turn is
`StepRunsCommand`. -/
def Obligations.CallbackCommands : Prop :=
  (∀ (s : State) (cmds : List Request) (rest : List (List Request)),
    s.cur.val < s.cfg.nEp → s.cfg.epHandlers[s.cur] = .installed → cmds ≠ [] → s.cbScript = cmds :: rest → s.calm 1 →
    (s.val.getLsbD 15 = true →
      rxService s = .next { s with
        epr := s.epr.set s.cur ((s.val &&& 0x070F) ||| (s.epr[s.cur] &&& (0x7870 ||| (s.val &&& 0x0080))))
        sched := s.sched.drop 1
        cbCmds := cmds
        cbScript := rest
        dispHeld := some ⟨[], { val := s.val }, .phase .epTx⟩
        out := s.out ++ [.epCall s.cur (if s.val.getLsbD 11 then .setup else .out)] }) ∧
    (s.val.getLsbD 7 = true →
      txService s = .next { s with
        epr := s.epr.set s.cur ((s.val &&& 0x070F) ||| (s.epr[s.cur] &&& (0x7870 ||| (s.val &&& 0x8000))))
        sched := s.sched.drop 1
        cbCmds := cmds
        cbScript := rest
        dispHeld := some ⟨[], { val := s.val }, .phase .epTop⟩
        out := s.out ++ [.epCall s.cur .in_] })) ∧
  (∀ (s : State) (cmds : List Request) (rest : List (List Request)) (e : Event),
    s.cfg.wf = true → cmds ≠ [] → s.cbScript = cmds :: rest → s.calm 15 →
    let ev : BusEvent := match e with
      | .reset => .reset | .suspend => .suspend | .wakeup => .resume | .sof => .startOfFrame
      | .overrun => .error .overrun | .error => .error .generic
    let enabled : Bool := match e with
      | .reset => s.cfg.resetEvent | .suspend => s.cfg.suspendEvent | .wakeup => s.cfg.wakeupEvent
      | .sof => s.cfg.sofEvent | .overrun | .error => s.cfg.errorEvent
    let used : Nat := match e with
      | .reset => 14 | .suspend | .wakeup => 2 | .sof | .overrun | .error => 0
    enabled = true → busHandler s.cfg ev = .installed →
    ∃ (u : State) (l : Locals),
      exec (eventInstr e) { s with cbCmds := [], cbScript := [] } = .next u ∧
      exec (eventInstr e) s = .next { u with
        istr := s.istr
        dph := s.dph
        sched := s.sched.drop used
        cbCmds := cmds
        cbScript := rest
        dispHeld := some ⟨[.writeIstr (eventClear e)], l, .phase (nextPhase e)⟩ }) ∧
  (∀ (i : Instr) (s t : State), exec i s = .next t →
    match i with
    | .istrReset | .istrSusp | .istrWkup | .istrSof | .istrPmaovr | .istrErr => True
    | _ => t.dispHeld = s.dispHeld ∧ t.cbCmds = s.cbCmds ∧ t.cbScript = s.cbScript) ∧
  (∀ (s : State) (cs : List Choice) (l : Locals), s.cfg.wf = true → s.dph ≠ .idle → s.cbCmds = [] → s.sched = .go :: cs →
    (∀ p, s.dispHeld = some ⟨[], l, .phase p⟩ → step s = .next { s with dispHeld := none, dph := p, sched := cs }) ∧
    (∀ e, s.dispHeld = some ⟨[.writeIstr (eventClear e)], l, .phase (nextPhase e)⟩ →
      step s = .next { s with
        istr := istrAfterWrite s.istr (eventClear e), dispHeld := none, dph := nextPhase e, sched := cs }))

/-! ## The interrupt -/

/-- R176, R177 and R241: when the start condition holds the dispatcher starts in one step: the snapshot is taken, `DPH`
becomes `Ev(1)`, and nothing else of the block changes, the foreground commands being held as they are. When it does not
hold the dispatcher does not start, and nothing changes. Between any two accesses of a foreground command it starts alike
(R71): whatever step leaves `Idle`, `DPH` is then `Ev(1)` and `snap` a read of `ISTR` in the state it leaves. -/
def Obligations.InterruptEntry : Prop :=
  (∀ (s : State) (cs : List Choice), s.cfg.wf = true → s.sched = .irq :: cs →
    (irq s = true → s.irqEn = true → s.dph = .idle →
      ∃ (w : Word) (n : Nat), step s = .next { s with snap := w, dph := .ev .reset, sched := cs, fresh := n } ∧
        s.istrReads w) ∧
    (irq s = false ∨ s.irqEn = false ∨ s.dph ≠ .idle → step s = .next { s with sched := cs })) ∧
  (∀ s t : State, s.dph = .idle → (∀ f p, s.fgHeld = some f → f.fin ≠ .phase p) → step s = .next t → t.dph ≠ .idle →
    t.dph = .ev .reset ∧ t.istrReads t.snap)

/-- R178 and R242: with no completion pending at the loop's top the invocation ends: `snap` is the value read, `DPH`
becomes `Idle`, and nothing is restored. -/
def Obligations.InterruptReturn : Prop :=
  ∀ (s : State) (cs : List Choice),
    s.cfg.wf = true → s.dph = .epTop → s.cbCmds = [] → s.dispHeld = none → s.sched = .go :: cs → pending s = [] →
    ∃ (w : Word) (n : Nat), step s = .next { s with snap := w, dph := .idle, sched := cs, fresh := n } ∧ s.istrReads w

/-- R71 and R179: while the dispatcher runs, no step moves the foreground agent: the held command and the commands still
to come stay as they are. -/
def Obligations.ForegroundWaits : Prop :=
  ∀ s t : State, s.dph ≠ .idle → step s = .next t → t.fgHeld = s.fgHeld ∧ t.fgCmds = s.fgCmds

/-- R71 and R276: a `SET_STATUS` preempted between its read and its write is held with the value it read, the snapshot is
taken, and when the dispatcher has returned it writes the word computed from that stale value. -/
def Obligations.PreemptedStatusIsStale : Prop :=
  (∀ (s : State) (ep : EpId) (rx tx : Status) (cs : List Choice),
    ep.idx.val < s.cfg.nEp → irq s = true → s.irqEn = true → s.dph = .idle → s.sched = .irq :: cs →
    ∃ (w : Word) (n : Nat) (f : Frame),
      exec (.setStatus ep rx tx) s = .next { s with snap := w, dph := .ev .reset, sched := cs, fresh := n, fgHeld := some f } ∧
      s.istrReads w ∧
      ∀ (u : State) (ds : List Choice), u.cfg.wf = true → u.cfg.nEp = s.cfg.nEp → u.dph = .idle →
        u.fgHeld = some f → u.sched = .go :: ds →
        step u = .next { u with
          epr := u.epr.set ep.idx (eprAfterWrite u.epr[ep.idx]
            (statusWrite s.epr[ep.idx] (match ep.dir with | .IN => 0x0030 | .OUT => 0x3000) (statWord rx tx)))
          fgHeld := none
          sched := ds
          out := u.out ++ [.result 0] })

/-! ## Hazards -/

/-- R136 and R272: if a packet completes on a Valid direction between the read and the write of `SET_STATUS`, the status
becomes `NAK XOR (Valid XOR desired)`; with desired Stall it is Disabled. R273: its completion bit, read as 0, is
lost. -/
def Obligations.CompletionInTheWindow : Prop :=
  ∀ (s s1 : State) (i : Fin 16) (rx tx : Status) (setup : Bool) (d : List Byte) (cs : List Choice),
    i.val < s.cfg.nEp →
    (∀ m, m = .rxDone i setup d → s.sched = .bus m :: .go :: cs → s.epr[i].getLsbD 15 = false → busMove m s = .ok s1 →
      s1.epr[i].getLsbD 15 = true →
      ∃ t : State, exec (.setStatus ⟨.OUT, i⟩ rx tx) s = .next t ∧
        statRx t.epr[i] = 2#2 ^^^ (3#2 ^^^ statusCode rx) ∧ t.epr[i].getLsbD 15 = false) ∧
    (∀ m, m = .txDone i → s.sched = .bus m :: .go :: cs → s.epr[i].getLsbD 7 = false → busMove m s = .ok s1 →
      s1.epr[i].getLsbD 7 = true →
      ∃ t : State, exec (.setStatus ⟨.IN, i⟩ rx tx) s = .next t ∧
        statTx t.epr[i] = 2#2 ^^^ (3#2 ^^^ statusCode tx) ∧ t.epr[i].getLsbD 7 = false)

/-- R274: what the write semantics protect, for a word built from the value `val` read earlier and written when the
register holds `old`, whatever came between: (a) the other direction's status and toggle, and in the two completion
clears both directions'; (b) a completion bit read as 1 that is not the one being cleared; (c) every stored bit of `ISTR`
but the one being cleared; (d) `SETUP`. -/
def Obligations.WriteProtections : Prop :=
  (∀ (val old stat : Word) (d : Dir) (c : Config),
    let other : Word := match d with | .IN => 0x7000 | .OUT => 0x0070
    let ws : List Word := [statusWrite val (selField d) stat, val &&& (MASK ||| resetBits c d)]
    ∀ w ∈ ws,
      eprAfterWrite old w &&& other = old &&& other ∧
      (val.getLsbD 15 = true → (eprAfterWrite old w).getLsbD 15 = old.getLsbD 15) ∧
      (val.getLsbD 7 = true → (eprAfterWrite old w).getLsbD 7 = old.getLsbD 7) ∧
      (eprAfterWrite old w).getLsbD 11 = old.getLsbD 11) ∧
  (∀ val old : Word,
    eprAfterWrite old (val &&& 0x0F8F) &&& 0x7870 = old &&& 0x7870 ∧
    (eprAfterWrite old (val &&& 0x0F8F)).getLsbD 15 = false ∧
    (val.getLsbD 7 = true → (eprAfterWrite old (val &&& 0x0F8F)).getLsbD 7 = old.getLsbD 7) ∧
    eprAfterWrite old (val &&& 0x8F0F) &&& 0x7870 = old &&& 0x7870 ∧
    (eprAfterWrite old (val &&& 0x8F0F)).getLsbD 7 = false ∧
    (val.getLsbD 15 = true → (eprAfterWrite old (val &&& 0x8F0F)).getLsbD 15 = old.getLsbD 15)) ∧
  (∀ (istr : Word) (e : Event) (k : Nat), k ≠ eventBit e → k < 16 →
    (istrAfterWrite istr (eventClear e)).getLsbD k = istr.getLsbD k) ∧
  (∀ (istr : Word) (e : Event), (istrAfterWrite istr (eventClear e)).getLsbD (eventBit e) = false)

/-! ## The bus agent -/

/-- R217 to R222 with R216: the six bus events, each in one atomic step where it is enabled; nothing else changes. -/
def Obligations.BusEvents : Prop :=
  ∀ (s : State) (cs : List Choice), s.cfg.wf = true → s.cntr.getLsbD 0 = false →
    (s.sched = .bus .busReset :: cs →
      step s = .next { s with istr := s.istr ||| 0x0400, epr := Vector.replicate 16 0, daddr := 0, sched := cs }) ∧
    (s.cntr.getLsbD 3 = true → s.sched = .bus .wakeup :: cs →
      step s = .next { s with istr := s.istr ||| 0x1000, cntr := s.cntr &&& 0xFFFB, sched := cs }) ∧
    (s.cntr.getLsbD 3 = false →
      (s.sched = .bus .suspend :: cs → step s = .next { s with istr := s.istr ||| 0x0800, sched := cs }) ∧
      (∀ f, s.sched = .bus (.sof f) :: cs →
        step s = .next { s with istr := s.istr ||| 0x0200, fn := some f, sched := cs }) ∧
      (s.sched = .bus .err :: cs → step s = .next { s with istr := s.istr ||| 0x2000, sched := cs }) ∧
      (s.sched = .bus .pmaOvr :: cs → step s = .next { s with istr := s.istr ||| 0x4000, sched := cs }))

/-- R216 and R223: with `FRES = 1` no move has an effect; with `FSUSP = 1` only `BusReset` and `Wakeup` have one; without
it `Wakeup` has none; a reception whose precondition fails (no address enabled, status not Valid, isochronous, a setup
packet on an endpoint that is not Control, no capacity or a packet above it, more than 1023 bytes, no such register)
stores nothing. A move that is not enabled is passed over (the model's choice, assumption log 2). -/
def Obligations.MovesNotEnabled : Prop :=
  ∀ (s : State) (m : BusMove) (cs : List Choice), s.cfg.wf = true → s.sched = .bus m :: cs →
    (s.cntr.getLsbD 0 = true ∨ (s.cntr.getLsbD 3 = true ∧ m ≠ .busReset ∧ m ≠ .wakeup) ∨
      (s.cntr.getLsbD 3 = false ∧ m = .wakeup) →
      step s = .next { s with sched := cs }) ∧
    (∀ i setup d, m = .rxDone i setup d →
      s.daddr.getLsbD 7 = false ∨ s.cfg.nEp ≤ i.val ∨ s.epr[i].extractLsb' 12 2 ≠ 3 ∨
        s.epr[i].extractLsb' 9 2 = 2 ∨ (setup = true ∧ s.epr[i].extractLsb' 9 2 ≠ 1) ∨ 1023 < d.length ∨
        (∃ enc, s.bd[i].rxenc = some enc ∧
          (rxCap enc = none ∨ ∃ cap, rxCap enc = some cap ∧ cap < d.length)) →
      step s = .next { s with sched := cs }) ∧
    (∀ i, m = .txDone i →
      s.daddr.getLsbD 7 = false ∨ s.cfg.nEp ≤ i.val ∨ s.epr[i].extractLsb' 4 2 ≠ 3 ∨ s.epr[i].extractLsb' 9 2 = 2 →
      step s = .next { s with sched := cs })

/-- R223 (with R62, R64, R65): a reception whose precondition holds, in every form. The receive-count word and the offset
are read through `readCell`, so an unwritten one is recorded and free (for the receive-count word this is assumption log
17). With room for the packet by that word: an odd offset with a byte to store is refused; otherwise the words inside the
arena are stored, the byte above an odd packet's last with a free value, a word past the arena is dropped and recorded,
the length is set, the toggle flipped, the status NAK, `SETUP` as received and `CTR_RX` set. Without room nothing but the
fault of an unwritten receive-count word is left. -/
def Obligations.RxDoneResult : Prop :=
  ∀ (s : State) (i : Fin 16) (setup : Bool) (d : List Byte) (cs : List Choice),
    s.cfg.wf = true → s.sched = .bus (.rxDone i setup d) :: cs →
    s.cntr.getLsbD 0 = false → s.cntr.getLsbD 3 = false → s.daddr.getLsbD 7 = true → i.val < s.cfg.nEp →
    s.epr[i].extractLsb' 12 2 = 3 → s.epr[i].extractLsb' 9 2 ≠ 2 → (setup = true → s.epr[i].extractLsb' 9 2 = 1) →
    d.length ≤ 1023 →
    let enc := readCell s.bd[i].rxenc s
    let off := readCell s.bd[i].rxaddr enc.2
    let room : Prop := ∃ cap, rxCap enc.1 = some cap ∧ d.length ≤ cap
    (¬ room → step s = .next { s with faults := enc.2.faults, fresh := enc.2.fresh, sched := cs }) ∧
    (room → off.1.toNat % 2 = 1 → d ≠ [] → step s = .refused (.misaligned off.2.faults)) ∧
    (room → off.1.toNat % 2 = 0 ∨ d = [] →
      ∃ t : State, step s = .next t ∧
        t = { s with
          pma := t.pma
          bd := s.bd.set i { s.bd[i] with rxlen := some (BitVec.ofNat 10 d.length) }
          epr := s.epr.set i (((s.epr[i] ^^^ 0x4000) &&& 0x47FF) ||| 0xA000 ||| (if setup then 0x0800 else 0))
          faults := {
            unspecifiedRead := s.faults.unspecifiedRead || s.bd[i].rxenc.isNone || s.bd[i].rxaddr.isNone
            arenaOverflow := s.faults.arenaOverflow ||
              decide (d ≠ [] ∧ s.cfg.pmaSize < off.1.toNat + 2 * ((d.length + 1) / 2)) }
          fresh := t.fresh
          sched := cs } ∧
        (∀ k, k < d.length → off.1.toNat + 2 * (k / 2) + 2 ≤ s.cfg.pmaSize → t.pma.read (off.1.toNat + k) = d[k]?) ∧
        (d.length % 2 = 1 → off.1.toNat + d.length + 1 ≤ s.cfg.pmaSize →
          (t.pma.read (off.1.toNat + d.length)).isSome = true) ∧
        (∀ a, a < off.1.toNat ∨ off.1.toNat + 2 * ((d.length + 1) / 2) ≤ a ∨ s.cfg.pmaSize ≤ a →
          t.pma.read a = s.pma.read a))

/-- R224 (with R62, R64, R65): a transmission whose precondition holds, in every form. With offset and count written, an
even offset and the bytes written and inside the arena it puts out exactly `txcount` bytes from the offset under the
toggle, flips the toggle, moves the status to NAK and sets `CTR_TX`; nothing else changes. In general the offset and the
count are read through `readCell`, an odd offset with a byte to read is refused, an unwritten byte of the words read is
recorded and free, and so is a word past the arena; the arena and the descriptor table are not written. -/
def Obligations.TxDoneResult : Prop :=
  ∀ (s : State) (i : Fin 16) (cs : List Choice),
    s.cfg.wf = true → s.sched = .bus (.txDone i) :: cs →
    s.cntr.getLsbD 0 = false → s.cntr.getLsbD 3 = false → s.daddr.getLsbD 7 = true → i.val < s.cfg.nEp →
    s.epr[i].extractLsb' 4 2 = 3 → s.epr[i].extractLsb' 9 2 ≠ 2 →
    let after : Word := ((s.epr[i] ^^^ 0x0040) &&& 0xFFCF) ||| 0x00A0
    (∀ (off cnt : Word) (p : List Byte), s.bd[i].txaddr = some off → s.bd[i].txcount = some cnt → off.toNat % 2 = 0 →
      p.length = 2 * (((cnt.extractLsb' 0 10).toNat + 1) / 2) → off.toNat + p.length ≤ s.cfg.pmaSize →
      (∀ k, k < p.length → s.pma.read (off.toNat + k) = p[k]?) →
      step s = .next { s with
        epr := s.epr.set i after
        sched := cs
        out := s.out ++ [.sent i (s.epr[i].getLsbD 6) (p.take (cnt.extractLsb' 0 10).toNat)] }) ∧
    (let off := readCell s.bd[i].txaddr s
     let cnt := readCell s.bd[i].txcount off.2
     let n := (cnt.1.extractLsb' 0 10).toNat
     let words := (n + 1) / 2
     (off.1.toNat % 2 = 1 → n ≠ 0 → step s = .refused (.misaligned cnt.2.faults)) ∧
     (off.1.toNat % 2 = 0 ∨ n = 0 →
       ∃ (t : State) (p : List Byte), step s = .next t ∧ p.length = n ∧
         t = { s with
           epr := s.epr.set i after
           faults := t.faults
           fresh := t.fresh
           sched := cs
           out := s.out ++ [.sent i (s.epr[i].getLsbD 6) p] } ∧
         (∀ k b, k < n → off.1.toNat + 2 * (k / 2) + 2 ≤ s.cfg.pmaSize → s.pma.read (off.1.toNat + k) = some b →
           p[k]? = some b) ∧
         (t.faults.unspecifiedRead = true ↔
           s.faults.unspecifiedRead = true ∨ s.bd[i].txaddr = none ∨ s.bd[i].txcount = none ∨
           ∃ k, k < 2 * words ∧ off.1.toNat + 2 * (k / 2) + 2 ≤ s.cfg.pmaSize ∧ s.pma.read (off.1.toNat + k) = none) ∧
         (t.faults.arenaOverflow = true ↔
           s.faults.arenaOverflow = true ∨ (n ≠ 0 ∧ s.cfg.pmaSize < off.1.toNat + 2 * words))))

/-- R225: what no move of the bus agent does, for every move in every state; the arena changes only in the words of a
reception, from the offset the reception reads. -/
def Obligations.BusLimits : Prop :=
  ∀ (m : BusMove) (s t : State), busMove m s = .ok t →
    (∀ k, k < 16 → s.istr.getLsbD k = true → t.istr.getLsbD k = true) ∧
    (∀ i : Fin 16, m ≠ .busReset →
      t.epr[i] &&& 0x070F = s.epr[i] &&& 0x070F ∧
      (s.epr[i].getLsbD 15 = true → t.epr[i].getLsbD 15 = true) ∧
      (s.epr[i].getLsbD 7 = true → t.epr[i].getLsbD 7 = true) ∧
      (statRx t.epr[i] = statRx s.epr[i] ∨ (statRx s.epr[i] = 3 ∧ statRx t.epr[i] = 2)) ∧
      (statTx t.epr[i] = statTx s.epr[i] ∨ (statTx s.epr[i] = 3 ∧ statTx t.epr[i] = 2))) ∧
    (m = .busReset → (∀ i : Fin 16, t.epr[i] = 0) ∨ t = s) ∧
    (∀ i : Fin 16, t.bd[i].txaddr = s.bd[i].txaddr ∧ t.bd[i].txcount = s.bd[i].txcount ∧
      t.bd[i].rxaddr = s.bd[i].rxaddr ∧ t.bd[i].rxenc = s.bd[i].rxenc) ∧
    t.fba = s.fba ∧ t.conn = s.conn ∧ t.suspended = s.suspended ∧ t.irqEn = s.irqEn ∧ t.dph = s.dph ∧
    t.snap = s.snap ∧ t.cur = s.cur ∧ t.val = s.val ∧ t.cntr &&& 0xFFFB = s.cntr &&& 0xFFFB ∧
    (∀ a, t.pma.read a ≠ s.pma.read a →
      ∃ i setup d, m = .rxDone i setup d ∧
        let off := (readCell s.bd[i].rxaddr (readCell s.bd[i].rxenc s).2).1.toNat
        off ≤ a ∧ a < off + 2 * ((d.length + 1) / 2))

/-! ## Frames over every schedule -/

/-- R44, R47, R144, R192, R195: which registers and working cells each instruction can change. The configuration, `FBA`,
`IRQ_EN`, `cur` and `val` under every schedule; `CNTR`, `ISTR`, `FNR`, `DADDR` and the endpoint registers when no bus
move lies ahead (the start of the dispatcher between two accesses is allowed). -/
def Obligations.RegisterFrame : Prop :=
  ∀ (i : Instr) (s t : State), exec i s = .next t →
    t.cfg = s.cfg ∧
    (match i with | .alloc _ | .configEp _ _ _ | .istrReset => True | _ => t.fba = s.fba) ∧
    (match i with | .init => t.irqEn = true | _ => t.irqEn = s.irqEn) ∧
    (match i with | .istrCtr _ => True | _ => t.cur = s.cur ∧ t.val = s.val) ∧
    (s.noBus →
      t.fn = s.fn ∧
      (match i with | .connect _ | .istrReset | .istrSusp | .istrWkup => True | _ => t.cntr = s.cntr) ∧
      (match i with | .setAddr _ | .istrReset => True | _ => t.daddr = s.daddr) ∧
      (match i with
        | .istrReset | .istrSusp | .istrWkup | .istrSof | .istrPmaovr | .istrErr | .istrCtr _ => True
        | _ => t.istr = s.istr) ∧
      (match i with
        | .configEp ep _ _ | .enableEp ep | .disableEp ep | .resetEp ep | .stallEp ep | .clrStall ep | .readEp ep
        | .writeEp ep _ | .setStatus ep _ _ => ∀ j : Fin 16, j ≠ ep.idx → t.epr[j] = s.epr[j]
        | .istrReset => ∀ j : Fin 16, j ≠ 0 → t.epr[j] = s.epr[j]
        | _ => t.epr = s.epr))

/-- Every byte of the arena: no instruction but `WRITE_EP` changes one, and `WRITE_EP` only the bytes of its words from
the transmit offset it reads, under every schedule without a reception. -/
def Obligations.ArenaFrame : Prop :=
  ∀ (i : Instr) (s t : State), s.noReception → exec i s = .next t →
    match i with
    | .writeEp ep n =>
      let off := (readCell s.bd[ep.idx].txaddr (takeDin n.toNat s)).1.toNat
      ∀ a, a < off ∨ off + 2 * ((n.toNat + 1) / 2) ≤ a → t.pma.read a = s.pma.read a
    | _ => ∀ a, t.pma.read a = s.pma.read a

/-- R156: the complete transition table of `CONN`, and when `SUSPENDED` changes: under every schedule `CONN` is as before
or as the table says, and with nothing coming between exactly as the table says. -/
def Obligations.ConnectionTable : Prop :=
  ∀ (i : Instr) (s t : State), exec i s = .next t →
    let after : Conn := match i, s.conn with
      | .connect true, _ => .awaitingReset
      | .connect false, _ => .poweredOff
      | .istrReset, _ => .defaultAddress
      | .setAddr a, .defaultAddress => if a = 0 then .defaultAddress else .addressed
      | .setAddr a, .addressed => if a = 0 then .defaultAddress else .addressed
      | .setConfig c, .addressed => if c = 0 then .addressed else .configured
      | .setConfig c, .configured => if c = 0 then .addressed else .configured
      | _, c => c
    let suspendedAfter : Bool := match i with
      | .istrSusp => true
      | .istrWkup | .istrReset | .connect _ => false
      | _ => s.suspended
    (t.conn = s.conn ∨ t.conn = after) ∧ (t.suspended = s.suspended ∨ t.suspended = suspendedAfter) ∧
    (s.calm 15 → t.conn = after ∧ t.suspended = suspendedAfter)

/-! ## Invariants -/

/-- R54, R55, R56 and R261: the state after power-on, every register, descriptor field and cell the spec gives a value;
the arena, the descriptor table, `FBA` and `FNR.FN` are unwritten. -/
def Obligations.PowerOnState : Prop :=
  let s := State.reset
  s.cntr = 0x0001 ∧ s.istr = 0 ∧ s.fn = none ∧ s.daddr = 0 ∧ (∀ i : Fin 16, s.epr[i] = 0) ∧
  (∀ i : Fin 16, s.bd[i].txaddr = none ∧ s.bd[i].txcount = none ∧ s.bd[i].rxaddr = none ∧ s.bd[i].rxenc = none ∧
    s.bd[i].rxlen = none) ∧
  (∀ a, s.pma.read a = none) ∧ s.fba = none ∧ s.conn = .poweredOff ∧ s.suspended = false ∧ s.irqEn = false ∧
  s.dph = .idle ∧ s.faults.unspecifiedRead = false ∧ s.faults.arenaOverflow = false ∧ irq s = false

/-- The invariants hold after power-on. -/
def Obligations.ResetInvariant : Prop := State.reset.Inv ∧ State.reset.OffsetsEven

/-- Every step keeps the register and arena invariants: reserved bits, absent registers and records, and the arena in
canonical form, inside its bounds and written in whole words. -/
def Obligations.StepKeepsInvariant : Prop :=
  ∀ s t : State, s.Inv → step s = .next t → t.Inv

/-- R44 and R64: on a run that has recorded no `UnspecifiedRead` every offset is even: the cursor, the buffer offsets,
and the offset a held command has read. -/
def Obligations.StepKeepsOffsetsEven : Prop :=
  ∀ s t : State, (s.faults.unspecifiedRead = false → s.OffsetsEven) → step s = .next t →
    t.faults.unspecifiedRead = false → t.OffsetsEven

/-- R18, R52, R244 and R246: a step never stops with a fault, `FAULTS` only grows and the configuration is never changed; an
access of a command that reads an unwritten cell or arena byte records `UnspecifiedRead`, an allocation or arena access that
ends past the arena records `ArenaOverflow` (the packet moves: `RxDoneResult`, `TxDoneResult`); and a step is refused as
`Misaligned` only with `UnspecifiedRead` recorded, if every offset is even unless it had been recorded before. That the
refusal carries what is recorded is assumption log 14; that an allocation records with its write of `FBA` is log 31. -/
def Obligations.FaultsAreRecorded : Prop :=
  (∀ s : State, (∀ f : Fault, step s ≠ .fault f) ∧
    ∀ t : State, step s = .next t → (∀ f : Fault, s.faults.has f = true → t.faults.has f = true) ∧ t.cfg = s.cfg) ∧
  (∀ (l : Locals) (s : State),
    let records (a : Access) (f : Fault) : Prop := ∃ l' t, perform a l s = .ok (l', t) ∧ t.faults.has f = true
    (s.fba = none → records .readFba .unspecifiedRead) ∧
    (s.fn = none → records .readFnr .unspecifiedRead) ∧
    (∀ i : Fin 16,
      (s.bd[i].txaddr = none → records (.readTxaddr i) .unspecifiedRead) ∧
      (s.bd[i].rxaddr = none → records (.readRxaddr i) .unspecifiedRead) ∧
      (s.bd[i].rxlen = none → records (.readRxlen i) .unspecifiedRead)) ∧
    (∀ n, s.cfg.pmaSize < l.off.toNat + roundSize n → records (.writeFba n) .arenaOverflow) ∧
    (l.off.toNat % 2 = 0 → ∀ (k : Nat) (w : Word),
      (l.off.toNat + 2 * k + 2 ≤ s.cfg.pmaSize →
        s.pma.read (l.off.toNat + 2 * k) = none ∨ s.pma.read (l.off.toNat + 2 * k + 1) = none →
        records (.load k) .unspecifiedRead) ∧
      (s.cfg.pmaSize < l.off.toNat + 2 * k + 2 →
        records (.load k) .arenaOverflow ∧ records (.store k w) .arenaOverflow))) ∧
  (∀ (s : State) (f : FaultSet), (s.faults.unspecifiedRead = false → s.OffsetsEven) →
    step s = .refused (.misaligned f) → f.unspecifiedRead = true)

/-! ## Whole invocations -/

/-- R263 (and R166): a bus reset and the invocation that serves it, with nothing else pending: the whole state after. That
the dispatcher starts once the schedule is used up, and the count of nine steps, are the model's (assumption logs 2 and
3); that the callback is an output through a default handler too (R19, beside R193) is assumption log 30. -/
def Obligations.BusResetServed : Prop :=
  ∀ s : State, s.cfg.wf = true → s.dph = .idle → s.irqEn = true → s.cntr.getLsbD 0 = false → s.cntr.getLsbD 10 = true →
    s.istr = 0 → s.cbCmds = [] → s.dispHeld = none → (s.cfg.resetEvent = true → s.silent s.cfg.busHandlers.reset) →
    s.sched = [.bus .busReset] →
    ∃ t : State, steps 9 s = .next t ∧
      t = { s with
        cntr := resetMask s.cfg
        daddr := 0x0080
        epr := (Vector.replicate 16 0).set 0 0x3200
        bd := (Vector.replicate 16 {}).set 0 { s.bd[0] with
          txaddr := some 0, rxaddr := some (BitVec.ofNat 16 s.cfg.mps0), rxenc := some (rxEnc s.cfg.mps0), rxlen := none }
        fba := some (BitVec.ofNat 16 (2 * s.cfg.mps0))
        faults := {
          unspecifiedRead := s.faults.unspecifiedRead
          arenaOverflow := s.faults.arenaOverflow || decide (s.cfg.pmaSize < 2 * s.cfg.mps0) }
        conn := .defaultAddress
        suspended := false
        snap := t.snap
        fresh := t.fresh
        sched := []
        cbScript := if s.cfg.resetEvent then s.scriptAfter s.cfg.busHandlers.reset else s.cbScript
        out := s.out ++ (if s.cfg.resetEvent then [.busCall .reset] else []) }

/-- R197: with completions pending on endpoints 1 and 2 and no bus-agent move, one pass through the loop serves both and
ends: every pending completion's callback has fired and none is left. The count of seven steps on an empty schedule is the
model's (assumption logs 2 and 3); that a callback is an output whichever handler stands in the table (R19, beside R193) is
assumption log 30. -/
def Obligations.DrainsTwoEndpoints : Prop :=
  ∀ s : State, s.cfg.wf = true → s.dph = .epTop → s.cbCmds = [] → s.dispHeld = none → s.sched = [] →
    s.cbScript = [] → pending s = [1, 2] →
    ∃ (t : State) (calls : List Output), steps 7 s = .next t ∧ t.dph = .idle ∧ pending t = [] ∧
      t.out = s.out ++ calls ∧
      ∀ i : Fin 16, i = 1 ∨ i = 2 →
        (s.epr[i].getLsbD 15 = true →
          .epCall i (if s.epr[i].getLsbD 11 then .setup else .out) ∈ calls) ∧
        (s.epr[i].getLsbD 7 = true → .epCall i .in_ ∈ calls)

/-- R198: with no bus-agent move and no command from a callback, an invocation ends: from any phase, in a bounded number
of steps, `DPH` is `Idle` and no completion bit is pending. The bound 60 on an empty schedule is the model's (assumption
logs 2 and 3). -/
def Obligations.InvocationEnds : Prop :=
  ∀ s : State, s.cfg.wf = true → s.dph ≠ .idle → s.cbCmds = [] → s.dispHeld = none → s.sched = [] → s.cbScript = [] →
    ∃ (n : Nat) (t : State), n ≤ 60 ∧ steps n s = .next t ∧ t.dph = .idle ∧ pending t = []
end

