-- ==== Sys2Proof/Laws/Memory.lean ====
section
/-! SUPPORT. The arena: a read after a write, the canonical form, the bounds, and the accesses of two bytes (R61 to R65). -/

namespace Sys2Proof.Machine

namespace Memory

theorem read_write_same (m : Memory) (a : Nat) (b : Byte) : (m.write a b).read a = some b := by
  induction m with
  | nil => simp [Memory.write, Memory.read]
  | cons c m ih =>
    simp only [Memory.write]
    split
    · simp [Memory.read]
    · split
      · simp [Memory.read]
      · rename_i h1 h2
        simp [Memory.read, ih, Ne.symm h2]

theorem read_write_other (m : Memory) {a a' : Nat} (b : Byte) (h : a' ≠ a) : (m.write a b).read a' = m.read a' := by
  induction m with
  | nil => simp [Memory.write, Memory.read, Ne.symm h]
  | cons c m ih =>
    simp only [Memory.write]
    split
    · simp [Memory.read, Ne.symm h]
    · split
      · rename_i h1 h2
        simp [Memory.read, Ne.symm h, ← h2]
      · simp [Memory.read, ih]

/-- The cells of a written memory: the written one and old ones. -/
theorem mem_write {m : Memory} {a : Nat} {b : Byte} {c : Host.Cell} (h : c ∈ m.write a b) : c = (a, b) ∨ c ∈ m := by
  induction m with
  | nil => simpa [Memory.write] using h
  | cons d m ih =>
    simp only [Memory.write] at h
    split at h
    · simpa using h
    · split at h
      · rcases List.mem_cons.1 h with h | h <;> simp [h]
      · rcases List.mem_cons.1 h with h | h
        · simp [h]
        · rcases ih h with h | h <;> simp [h]

/-- A write keeps the canonical form. -/
theorem write_wf {m : Memory} (hm : m.wf) (a : Nat) (b : Byte) : (m.write a b).wf := by
  induction m with
  | nil => simp [Memory.write, Memory.wf]
  | cons c m ih =>
    obtain ⟨hc, hm'⟩ := List.pairwise_cons.1 hm
    simp only [Memory.write]
    split
    · rename_i h
      refine List.pairwise_cons.2 ⟨?_, hm⟩
      intro d hd
      rcases List.mem_cons.1 hd with rfl | hd
      · exact h
      · exact Nat.lt_trans h (hc d hd)
    · split
      · rename_i h
        exact List.pairwise_cons.2 ⟨fun d hd => h ▸ hc d hd, hm'⟩
      · rename_i h1 h2
        refine List.pairwise_cons.2 ⟨?_, ih hm'⟩
        intro d hd
        rcases mem_write hd with rfl | hd
        · simp only; omega
        · exact hc d hd

/-- In a canonical memory every listed cell reads as itself, so equal reads are equal memories. -/
theorem read_of_mem {m : Memory} (hm : m.wf) {c : Host.Cell} (h : c ∈ m) : m.read c.1 = some c.2 := by
  induction m with
  | nil => simp at h
  | cons d m ih =>
    obtain ⟨hd, hm'⟩ := List.pairwise_cons.1 hm
    rcases List.mem_cons.1 h with rfl | h
    · simp [Memory.read]
    · have : d.1 ≠ c.1 := Nat.ne_of_lt (hd c h)
      simp [Memory.read, this, ih hm' h]

end Memory

/-! ## The accesses of two bytes -/

theorem memRead_misaligned {off : Nat} {s : State} (h : off % 2 = 1) : memRead off s = .error (.misaligned s.faults) := by
  simp [memRead, h]

theorem memWrite_misaligned {off : Nat} {v : Word} {s : State} (h : off % 2 = 1) :
    memWrite off v s = .error (.misaligned s.faults) := by
  simp [memWrite, h]

/-- A read of a written word inside the arena (R62). -/
theorem memRead_written {off : Nat} {lo hi : Byte} {s : State} (he : off % 2 = 0) (hb : off + 2 ≤ s.cfg.pmaSize)
    (hlo : s.pma.read off = some lo) (hhi : s.pma.read (off + 1) = some hi) : memRead off s = .ok (hi ++ lo, s) := by
  have : ¬ s.cfg.pmaSize < off + 2 := by omega
  simp [memRead, he, this, readByte, readCell, hlo, hhi]

/-- A write inside the arena (R63). -/
theorem memWrite_inside {off : Nat} {v : Word} {s : State} (he : off % 2 = 0) (hb : off + 2 ≤ s.cfg.pmaSize) :
    memWrite off v s =
      .ok (s.withPma ((s.pma.write off (v.extractLsb' 0 8)).write (off + 1) (v.extractLsb' 8 8))) := by
  have : ¬ s.cfg.pmaSize < off + 2 := by omega
  simp [memWrite, he, this]

/-- A write past the arena is dropped and recorded (R65). -/
theorem memWrite_outside {off : Nat} {v : Word} {s : State} (he : off % 2 = 0) (hb : s.cfg.pmaSize < off + 2) :
    memWrite off v s = .ok (raise .arenaOverflow s) := by
  simp [memWrite, he, hb]

/-- Everything an arena write can do: it refuses an odd offset, records and drops one past the end, or stores. -/
theorem memWrite_cases {off : Nat} {v : Word} {s t : State} (h : memWrite off v s = .ok t) :
    off % 2 = 0 ∧
      ((s.cfg.pmaSize < off + 2 ∧ t = raise .arenaOverflow s) ∨
       (off + 2 ≤ s.cfg.pmaSize ∧
        t = s.withPma ((s.pma.write off (v.extractLsb' 0 8)).write (off + 1) (v.extractLsb' 8 8)))) := by
  unfold memWrite at h
  split at h
  · simp at h
  · rename_i h1
    refine ⟨by omega, ?_⟩
    split at h <;> rename_i h2
    · exact .inl ⟨h2, by simpa using h.symm⟩
    · exact .inr ⟨by omega, by simpa using h.symm⟩

/-- An arena write keeps the canonical form. -/
theorem memWrite_wf {off : Nat} {v : Word} {s t : State} (hs : s.pma.wf) (h : memWrite off v s = .ok t) : t.pma.wf := by
  obtain ⟨-, ⟨-, rfl⟩ | ⟨-, rfl⟩⟩ := memWrite_cases h
  · exact hs
  · exact Memory.write_wf (Memory.write_wf hs _ _) _ _

/-- An arena write keeps the written bytes inside the arena. -/
theorem memWrite_bounds {off : Nat} {v : Word} {s t : State} (hs : ∀ c ∈ s.pma, c.1 < s.cfg.pmaSize)
    (h : memWrite off v s = .ok t) : ∀ c ∈ t.pma, c.1 < t.cfg.pmaSize := by
  obtain ⟨-, ⟨-, rfl⟩ | ⟨hb, rfl⟩⟩ := memWrite_cases h
  · exact hs
  · intro c hc
    simp only [State.withPma] at hc ⊢
    rcases Memory.mem_write hc with rfl | hc
    · exact hb
    · rcases Memory.mem_write hc with rfl | hc
      · simp only; omega
      · exact hs c hc

/-- An arena write keeps words whole: both bytes of a word are written or neither. -/
theorem memWrite_paired {off : Nat} {v : Word} {s t : State}
    (hs : ∀ k, (s.pma.read (2 * k)).isSome = (s.pma.read (2 * k + 1)).isSome) (h : memWrite off v s = .ok t) :
    ∀ k, (t.pma.read (2 * k)).isSome = (t.pma.read (2 * k + 1)).isSome := by
  obtain ⟨he, ⟨-, rfl⟩ | ⟨hb, rfl⟩⟩ := memWrite_cases h
  · exact hs
  · intro k
    simp only [State.withPma]
    by_cases hk : 2 * k = off
    · subst hk
      rw [Memory.read_write_same, Memory.read_write_other _ _ (by omega), Memory.read_write_same]
      rfl
    · rw [Memory.read_write_other _ _ (by omega), Memory.read_write_other _ _ hk,
        Memory.read_write_other _ _ (by omega), Memory.read_write_other _ _ (by omega)]
      exact hs k

/-- An arena write changes the arena and `FAULTS` alone. -/
theorem memWrite_frame {off : Nat} {v : Word} {s t : State} (h : memWrite off v s = .ok t) :
    t = { s with pma := t.pma, faults := t.faults } := by
  obtain ⟨-, ⟨-, rfl⟩ | ⟨-, rfl⟩⟩ := memWrite_cases h <;> rfl

/-- An arena write changes no byte outside its word. -/
theorem memWrite_outside_word {off a : Nat} {v : Word} {s t : State} (h : memWrite off v s = .ok t)
    (ha : a < off ∨ off + 2 ≤ a) : t.pma.read a = s.pma.read a := by
  obtain ⟨-, ⟨-, rfl⟩ | ⟨-, rfl⟩⟩ := memWrite_cases h
  · rfl
  · simp only [State.withPma]
    rw [Memory.read_write_other _ _ (by omega), Memory.read_write_other _ _ (by omega)]

/-- An arena read changes `FAULTS` and the counter of free values alone. -/
theorem memRead_frame {off : Nat} {w : Word} {s t : State} (h : memRead off s = .ok (w, t)) :
    t = { s with faults := t.faults, fresh := t.fresh } := by
  unfold memRead at h
  split at h
  · simp at h
  · split at h
    · simp only [Except.ok.injEq, Prod.mk.injEq] at h
      rw [← h.2]; rfl
    · simp only [Except.ok.injEq, Prod.mk.injEq, readByte, readCell] at h
      rw [← h.2]
      cases s.pma.read off <;> simp only <;> split <;> rfl

/-! ## Runs of words -/

theorem writeWords_frame {ws : List Word} {off : Nat} {s t : State} (h : writeWords off ws s = .ok t) :
    t = { s with pma := t.pma, faults := t.faults } := by
  induction ws generalizing off s with
  | nil => simp only [writeWords, Except.ok.injEq] at h; rw [← h]
  | cons w ws ih =>
    simp only [writeWords] at h
    split at h
    · simp at h
    · rename_i s1 h1
      rw [ih h, memWrite_frame h1]

theorem writeWords_outside {ws : List Word} {off a : Nat} {s t : State} (h : writeWords off ws s = .ok t)
    (ha : a < off ∨ off + 2 * ws.length ≤ a) : t.pma.read a = s.pma.read a := by
  induction ws generalizing off s with
  | nil => simp only [writeWords, Except.ok.injEq] at h; rw [← h]
  | cons w ws ih =>
    simp only [writeWords] at h
    simp only [List.length_cons] at ha
    split at h
    · simp at h
    · rename_i s1 h1
      rw [ih h (by omega), memWrite_outside_word h1 (by omega)]

/-- Words stored inside the arena: every word lands, the lower byte first, and nothing else changes. -/
theorem writeWords_inside {ws : List Word} {off : Nat} {s : State} (he : off % 2 = 0)
    (hb : off + 2 * ws.length ≤ s.cfg.pmaSize) :
    ∃ t, writeWords off ws s = .ok t ∧ t = { s with pma := t.pma } ∧
      (∀ k w, ws[k]? = some w →
        t.pma.read (off + 2 * k) = some (w.extractLsb' 0 8) ∧ t.pma.read (off + 2 * k + 1) = some (w.extractLsb' 8 8)) ∧
      ∀ a, a < off ∨ off + 2 * ws.length ≤ a → t.pma.read a = s.pma.read a := by
  induction ws generalizing off s with
  | nil => exact ⟨s, rfl, rfl, by simp, fun a _ => rfl⟩
  | cons w ws ih =>
    simp only [List.length_cons] at hb
    obtain ⟨t, ht, hf, hr, ho⟩ := @ih (off + 2)
      (s.withPma ((s.pma.write off (w.extractLsb' 0 8)).write (off + 1) (w.extractLsb' 8 8))) (by omega)
      (by simp only [State.withPma]; omega)
    refine ⟨t, ?_, ?_, ?_, ?_⟩
    · simp only [writeWords]
      rw [memWrite_inside he (by omega)]
      exact ht
    · rw [hf]; rfl
    · intro k w' hk
      cases k with
      | zero =>
        simp only [List.getElem?_cons_zero, Option.some.injEq] at hk
        subst hk
        rw [ho _ (by omega), ho _ (by omega)]
        simp only [State.withPma, Nat.mul_zero, Nat.add_zero]
        rw [Memory.read_write_same, Memory.read_write_other _ _ (by omega), Memory.read_write_same]
        exact ⟨rfl, rfl⟩
      | succ k =>
        have := hr k w' (by simpa using hk)
        rw [show off + 2 * (k + 1) = off + 2 + 2 * k by omega]
        exact this
    · intro a ha
      simp only [List.length_cons] at ha
      rw [ho a (by omega)]
      simp only [State.withPma]
      rw [Memory.read_write_other _ _ (by omega), Memory.read_write_other _ _ (by omega)]

theorem readWords_frame {m off : Nat} {bs : List Byte} {s t : State} (h : readWords off m s = .ok (bs, t)) :
    t = { s with faults := t.faults, fresh := t.fresh } ∧ bs.length = 2 * m := by
  induction m generalizing off s t bs with
  | zero => simp only [readWords, Except.ok.injEq, Prod.mk.injEq] at h; rw [← h.1, ← h.2]; exact ⟨rfl, rfl⟩
  | succ m ih =>
    simp only [readWords] at h
    split at h
    · simp at h
    · rename_i w s1 h1
      split at h
      · simp at h
      · rename_i bs1 s2 h2
        simp only [Except.ok.injEq, Prod.mk.injEq] at h
        obtain ⟨hb, ht⟩ := h
        obtain ⟨hf, hl⟩ := ih h2
        refine ⟨?_, by simp [← hb, hl]; omega⟩
        rw [← ht, hf, memRead_frame h1]

theorem extractLsb'_append_lo (hi lo : Byte) : (hi ++ lo).extractLsb' 0 8 = lo := by
  ext k hk
  rw [BitVec.getElem_extractLsb', BitVec.getLsbD_append]
  simp [hk]

theorem extractLsb'_append_hi (hi lo : Byte) : (hi ++ lo).extractLsb' 8 8 = hi := by
  ext k hk
  rw [BitVec.getElem_extractLsb', BitVec.getLsbD_append]
  simp [hk]

/-- Words read where every byte is written: the bytes in order, and no change of state. -/
theorem readWords_written {m off : Nat} {bytes : List Byte} {s : State} (he : off % 2 = 0)
    (hb : off + 2 * m ≤ s.cfg.pmaSize) (hl : bytes.length = 2 * m)
    (hr : ∀ k, k < 2 * m → s.pma.read (off + k) = bytes[k]?) : readWords off m s = .ok (bytes, s) := by
  induction m generalizing off bytes with
  | zero =>
    have : bytes = [] := List.length_eq_zero_iff.1 (by omega)
    subst this; rfl
  | succ m ih =>
    match bytes, hl with
    | b0 :: b1 :: rest, hl =>
      have h0 := hr 0 (by omega)
      have h1 := hr 1 (by omega)
      simp only [Nat.add_zero, List.getElem?_cons_zero, List.getElem?_cons_succ] at h0 h1
      have := @ih (off + 2) rest (by omega) (by omega) (by simp at hl; omega) (by
        intro k hk
        have := hr (k + 2) (by omega)
        rw [show off + 2 + k = off + (k + 2) by omega, this]; rfl)
      simp only [readWords]
      rw [memRead_written he (by omega) h0 h1]
      simp only [this, extractLsb'_append_lo, extractLsb'_append_hi]

/-- Storing words keeps the canonical form. -/
theorem writeWords_wf {ws : List Word} {off : Nat} {s t : State} (hs : s.pma.wf) (h : writeWords off ws s = .ok t) :
    t.pma.wf := by
  induction ws generalizing off s with
  | nil => simp only [writeWords, Except.ok.injEq] at h; rw [← h]; exact hs
  | cons w ws ih =>
    simp only [writeWords] at h
    split at h
    · simp at h
    · rename_i s1 h1
      exact ih (memWrite_wf hs h1) h

end Sys2Proof.Machine
end

