-- ==== Sys2Proof/Laws/State.lean ====
section
/-! SUPPORT. Each field after each update of State.lean, one lemma a field and update, by `rfl`. -/

namespace Sys2Proof.Machine.State

section
variable (s : State) (x : Word)
@[simp] theorem withCntr_cfg : (s.withCntr x).cfg = s.cfg := rfl
@[simp] theorem withCntr_cntr : (s.withCntr x).cntr = x := rfl
@[simp] theorem withCntr_istr : (s.withCntr x).istr = s.istr := rfl
@[simp] theorem withCntr_fn : (s.withCntr x).fn = s.fn := rfl
@[simp] theorem withCntr_daddr : (s.withCntr x).daddr = s.daddr := rfl
@[simp] theorem withCntr_epr : (s.withCntr x).epr = s.epr := rfl
@[simp] theorem withCntr_bd : (s.withCntr x).bd = s.bd := rfl
@[simp] theorem withCntr_pma : (s.withCntr x).pma = s.pma := rfl
@[simp] theorem withCntr_fba : (s.withCntr x).fba = s.fba := rfl
@[simp] theorem withCntr_conn : (s.withCntr x).conn = s.conn := rfl
@[simp] theorem withCntr_suspended : (s.withCntr x).suspended = s.suspended := rfl
@[simp] theorem withCntr_irqEn : (s.withCntr x).irqEn = s.irqEn := rfl
@[simp] theorem withCntr_dph : (s.withCntr x).dph = s.dph := rfl
@[simp] theorem withCntr_snap : (s.withCntr x).snap = s.snap := rfl
@[simp] theorem withCntr_cur : (s.withCntr x).cur = s.cur := rfl
@[simp] theorem withCntr_val : (s.withCntr x).val = s.val := rfl
@[simp] theorem withCntr_faults : (s.withCntr x).faults = s.faults := rfl
@[simp] theorem withCntr_din : (s.withCntr x).din = s.din := rfl
@[simp] theorem withCntr_out : (s.withCntr x).out = s.out := rfl
@[simp] theorem withCntr_fgHeld : (s.withCntr x).fgHeld = s.fgHeld := rfl
@[simp] theorem withCntr_dispHeld : (s.withCntr x).dispHeld = s.dispHeld := rfl
@[simp] theorem withCntr_fgCmds : (s.withCntr x).fgCmds = s.fgCmds := rfl
@[simp] theorem withCntr_cbCmds : (s.withCntr x).cbCmds = s.cbCmds := rfl
@[simp] theorem withCntr_cbScript : (s.withCntr x).cbScript = s.cbScript := rfl
@[simp] theorem withCntr_sched : (s.withCntr x).sched = s.sched := rfl
@[simp] theorem withCntr_fresh : (s.withCntr x).fresh = s.fresh := rfl
end

section
variable (s : State) (x : Word)
@[simp] theorem withIstr_cfg : (s.withIstr x).cfg = s.cfg := rfl
@[simp] theorem withIstr_cntr : (s.withIstr x).cntr = s.cntr := rfl
@[simp] theorem withIstr_istr : (s.withIstr x).istr = x := rfl
@[simp] theorem withIstr_fn : (s.withIstr x).fn = s.fn := rfl
@[simp] theorem withIstr_daddr : (s.withIstr x).daddr = s.daddr := rfl
@[simp] theorem withIstr_epr : (s.withIstr x).epr = s.epr := rfl
@[simp] theorem withIstr_bd : (s.withIstr x).bd = s.bd := rfl
@[simp] theorem withIstr_pma : (s.withIstr x).pma = s.pma := rfl
@[simp] theorem withIstr_fba : (s.withIstr x).fba = s.fba := rfl
@[simp] theorem withIstr_conn : (s.withIstr x).conn = s.conn := rfl
@[simp] theorem withIstr_suspended : (s.withIstr x).suspended = s.suspended := rfl
@[simp] theorem withIstr_irqEn : (s.withIstr x).irqEn = s.irqEn := rfl
@[simp] theorem withIstr_dph : (s.withIstr x).dph = s.dph := rfl
@[simp] theorem withIstr_snap : (s.withIstr x).snap = s.snap := rfl
@[simp] theorem withIstr_cur : (s.withIstr x).cur = s.cur := rfl
@[simp] theorem withIstr_val : (s.withIstr x).val = s.val := rfl
@[simp] theorem withIstr_faults : (s.withIstr x).faults = s.faults := rfl
@[simp] theorem withIstr_din : (s.withIstr x).din = s.din := rfl
@[simp] theorem withIstr_out : (s.withIstr x).out = s.out := rfl
@[simp] theorem withIstr_fgHeld : (s.withIstr x).fgHeld = s.fgHeld := rfl
@[simp] theorem withIstr_dispHeld : (s.withIstr x).dispHeld = s.dispHeld := rfl
@[simp] theorem withIstr_fgCmds : (s.withIstr x).fgCmds = s.fgCmds := rfl
@[simp] theorem withIstr_cbCmds : (s.withIstr x).cbCmds = s.cbCmds := rfl
@[simp] theorem withIstr_cbScript : (s.withIstr x).cbScript = s.cbScript := rfl
@[simp] theorem withIstr_sched : (s.withIstr x).sched = s.sched := rfl
@[simp] theorem withIstr_fresh : (s.withIstr x).fresh = s.fresh := rfl
end

section
variable (s : State) (x : Option (BitVec 11))
@[simp] theorem withFn_cfg : (s.withFn x).cfg = s.cfg := rfl
@[simp] theorem withFn_cntr : (s.withFn x).cntr = s.cntr := rfl
@[simp] theorem withFn_istr : (s.withFn x).istr = s.istr := rfl
@[simp] theorem withFn_fn : (s.withFn x).fn = x := rfl
@[simp] theorem withFn_daddr : (s.withFn x).daddr = s.daddr := rfl
@[simp] theorem withFn_epr : (s.withFn x).epr = s.epr := rfl
@[simp] theorem withFn_bd : (s.withFn x).bd = s.bd := rfl
@[simp] theorem withFn_pma : (s.withFn x).pma = s.pma := rfl
@[simp] theorem withFn_fba : (s.withFn x).fba = s.fba := rfl
@[simp] theorem withFn_conn : (s.withFn x).conn = s.conn := rfl
@[simp] theorem withFn_suspended : (s.withFn x).suspended = s.suspended := rfl
@[simp] theorem withFn_irqEn : (s.withFn x).irqEn = s.irqEn := rfl
@[simp] theorem withFn_dph : (s.withFn x).dph = s.dph := rfl
@[simp] theorem withFn_snap : (s.withFn x).snap = s.snap := rfl
@[simp] theorem withFn_cur : (s.withFn x).cur = s.cur := rfl
@[simp] theorem withFn_val : (s.withFn x).val = s.val := rfl
@[simp] theorem withFn_faults : (s.withFn x).faults = s.faults := rfl
@[simp] theorem withFn_din : (s.withFn x).din = s.din := rfl
@[simp] theorem withFn_out : (s.withFn x).out = s.out := rfl
@[simp] theorem withFn_fgHeld : (s.withFn x).fgHeld = s.fgHeld := rfl
@[simp] theorem withFn_dispHeld : (s.withFn x).dispHeld = s.dispHeld := rfl
@[simp] theorem withFn_fgCmds : (s.withFn x).fgCmds = s.fgCmds := rfl
@[simp] theorem withFn_cbCmds : (s.withFn x).cbCmds = s.cbCmds := rfl
@[simp] theorem withFn_cbScript : (s.withFn x).cbScript = s.cbScript := rfl
@[simp] theorem withFn_sched : (s.withFn x).sched = s.sched := rfl
@[simp] theorem withFn_fresh : (s.withFn x).fresh = s.fresh := rfl
end

section
variable (s : State) (x : Word)
@[simp] theorem withDaddr_cfg : (s.withDaddr x).cfg = s.cfg := rfl
@[simp] theorem withDaddr_cntr : (s.withDaddr x).cntr = s.cntr := rfl
@[simp] theorem withDaddr_istr : (s.withDaddr x).istr = s.istr := rfl
@[simp] theorem withDaddr_fn : (s.withDaddr x).fn = s.fn := rfl
@[simp] theorem withDaddr_daddr : (s.withDaddr x).daddr = x := rfl
@[simp] theorem withDaddr_epr : (s.withDaddr x).epr = s.epr := rfl
@[simp] theorem withDaddr_bd : (s.withDaddr x).bd = s.bd := rfl
@[simp] theorem withDaddr_pma : (s.withDaddr x).pma = s.pma := rfl
@[simp] theorem withDaddr_fba : (s.withDaddr x).fba = s.fba := rfl
@[simp] theorem withDaddr_conn : (s.withDaddr x).conn = s.conn := rfl
@[simp] theorem withDaddr_suspended : (s.withDaddr x).suspended = s.suspended := rfl
@[simp] theorem withDaddr_irqEn : (s.withDaddr x).irqEn = s.irqEn := rfl
@[simp] theorem withDaddr_dph : (s.withDaddr x).dph = s.dph := rfl
@[simp] theorem withDaddr_snap : (s.withDaddr x).snap = s.snap := rfl
@[simp] theorem withDaddr_cur : (s.withDaddr x).cur = s.cur := rfl
@[simp] theorem withDaddr_val : (s.withDaddr x).val = s.val := rfl
@[simp] theorem withDaddr_faults : (s.withDaddr x).faults = s.faults := rfl
@[simp] theorem withDaddr_din : (s.withDaddr x).din = s.din := rfl
@[simp] theorem withDaddr_out : (s.withDaddr x).out = s.out := rfl
@[simp] theorem withDaddr_fgHeld : (s.withDaddr x).fgHeld = s.fgHeld := rfl
@[simp] theorem withDaddr_dispHeld : (s.withDaddr x).dispHeld = s.dispHeld := rfl
@[simp] theorem withDaddr_fgCmds : (s.withDaddr x).fgCmds = s.fgCmds := rfl
@[simp] theorem withDaddr_cbCmds : (s.withDaddr x).cbCmds = s.cbCmds := rfl
@[simp] theorem withDaddr_cbScript : (s.withDaddr x).cbScript = s.cbScript := rfl
@[simp] theorem withDaddr_sched : (s.withDaddr x).sched = s.sched := rfl
@[simp] theorem withDaddr_fresh : (s.withDaddr x).fresh = s.fresh := rfl
end

section
variable (s : State) (x : Vector Word 16)
@[simp] theorem withEprAll_cfg : (s.withEprAll x).cfg = s.cfg := rfl
@[simp] theorem withEprAll_cntr : (s.withEprAll x).cntr = s.cntr := rfl
@[simp] theorem withEprAll_istr : (s.withEprAll x).istr = s.istr := rfl
@[simp] theorem withEprAll_fn : (s.withEprAll x).fn = s.fn := rfl
@[simp] theorem withEprAll_daddr : (s.withEprAll x).daddr = s.daddr := rfl
@[simp] theorem withEprAll_epr : (s.withEprAll x).epr = x := rfl
@[simp] theorem withEprAll_bd : (s.withEprAll x).bd = s.bd := rfl
@[simp] theorem withEprAll_pma : (s.withEprAll x).pma = s.pma := rfl
@[simp] theorem withEprAll_fba : (s.withEprAll x).fba = s.fba := rfl
@[simp] theorem withEprAll_conn : (s.withEprAll x).conn = s.conn := rfl
@[simp] theorem withEprAll_suspended : (s.withEprAll x).suspended = s.suspended := rfl
@[simp] theorem withEprAll_irqEn : (s.withEprAll x).irqEn = s.irqEn := rfl
@[simp] theorem withEprAll_dph : (s.withEprAll x).dph = s.dph := rfl
@[simp] theorem withEprAll_snap : (s.withEprAll x).snap = s.snap := rfl
@[simp] theorem withEprAll_cur : (s.withEprAll x).cur = s.cur := rfl
@[simp] theorem withEprAll_val : (s.withEprAll x).val = s.val := rfl
@[simp] theorem withEprAll_faults : (s.withEprAll x).faults = s.faults := rfl
@[simp] theorem withEprAll_din : (s.withEprAll x).din = s.din := rfl
@[simp] theorem withEprAll_out : (s.withEprAll x).out = s.out := rfl
@[simp] theorem withEprAll_fgHeld : (s.withEprAll x).fgHeld = s.fgHeld := rfl
@[simp] theorem withEprAll_dispHeld : (s.withEprAll x).dispHeld = s.dispHeld := rfl
@[simp] theorem withEprAll_fgCmds : (s.withEprAll x).fgCmds = s.fgCmds := rfl
@[simp] theorem withEprAll_cbCmds : (s.withEprAll x).cbCmds = s.cbCmds := rfl
@[simp] theorem withEprAll_cbScript : (s.withEprAll x).cbScript = s.cbScript := rfl
@[simp] theorem withEprAll_sched : (s.withEprAll x).sched = s.sched := rfl
@[simp] theorem withEprAll_fresh : (s.withEprAll x).fresh = s.fresh := rfl
end

section
variable (s : State) (x : Vector BufDesc 16)
@[simp] theorem withBdAll_cfg : (s.withBdAll x).cfg = s.cfg := rfl
@[simp] theorem withBdAll_cntr : (s.withBdAll x).cntr = s.cntr := rfl
@[simp] theorem withBdAll_istr : (s.withBdAll x).istr = s.istr := rfl
@[simp] theorem withBdAll_fn : (s.withBdAll x).fn = s.fn := rfl
@[simp] theorem withBdAll_daddr : (s.withBdAll x).daddr = s.daddr := rfl
@[simp] theorem withBdAll_epr : (s.withBdAll x).epr = s.epr := rfl
@[simp] theorem withBdAll_bd : (s.withBdAll x).bd = x := rfl
@[simp] theorem withBdAll_pma : (s.withBdAll x).pma = s.pma := rfl
@[simp] theorem withBdAll_fba : (s.withBdAll x).fba = s.fba := rfl
@[simp] theorem withBdAll_conn : (s.withBdAll x).conn = s.conn := rfl
@[simp] theorem withBdAll_suspended : (s.withBdAll x).suspended = s.suspended := rfl
@[simp] theorem withBdAll_irqEn : (s.withBdAll x).irqEn = s.irqEn := rfl
@[simp] theorem withBdAll_dph : (s.withBdAll x).dph = s.dph := rfl
@[simp] theorem withBdAll_snap : (s.withBdAll x).snap = s.snap := rfl
@[simp] theorem withBdAll_cur : (s.withBdAll x).cur = s.cur := rfl
@[simp] theorem withBdAll_val : (s.withBdAll x).val = s.val := rfl
@[simp] theorem withBdAll_faults : (s.withBdAll x).faults = s.faults := rfl
@[simp] theorem withBdAll_din : (s.withBdAll x).din = s.din := rfl
@[simp] theorem withBdAll_out : (s.withBdAll x).out = s.out := rfl
@[simp] theorem withBdAll_fgHeld : (s.withBdAll x).fgHeld = s.fgHeld := rfl
@[simp] theorem withBdAll_dispHeld : (s.withBdAll x).dispHeld = s.dispHeld := rfl
@[simp] theorem withBdAll_fgCmds : (s.withBdAll x).fgCmds = s.fgCmds := rfl
@[simp] theorem withBdAll_cbCmds : (s.withBdAll x).cbCmds = s.cbCmds := rfl
@[simp] theorem withBdAll_cbScript : (s.withBdAll x).cbScript = s.cbScript := rfl
@[simp] theorem withBdAll_sched : (s.withBdAll x).sched = s.sched := rfl
@[simp] theorem withBdAll_fresh : (s.withBdAll x).fresh = s.fresh := rfl
end

section
variable (s : State) (x : Memory)
@[simp] theorem withPma_cfg : (s.withPma x).cfg = s.cfg := rfl
@[simp] theorem withPma_cntr : (s.withPma x).cntr = s.cntr := rfl
@[simp] theorem withPma_istr : (s.withPma x).istr = s.istr := rfl
@[simp] theorem withPma_fn : (s.withPma x).fn = s.fn := rfl
@[simp] theorem withPma_daddr : (s.withPma x).daddr = s.daddr := rfl
@[simp] theorem withPma_epr : (s.withPma x).epr = s.epr := rfl
@[simp] theorem withPma_bd : (s.withPma x).bd = s.bd := rfl
@[simp] theorem withPma_pma : (s.withPma x).pma = x := rfl
@[simp] theorem withPma_fba : (s.withPma x).fba = s.fba := rfl
@[simp] theorem withPma_conn : (s.withPma x).conn = s.conn := rfl
@[simp] theorem withPma_suspended : (s.withPma x).suspended = s.suspended := rfl
@[simp] theorem withPma_irqEn : (s.withPma x).irqEn = s.irqEn := rfl
@[simp] theorem withPma_dph : (s.withPma x).dph = s.dph := rfl
@[simp] theorem withPma_snap : (s.withPma x).snap = s.snap := rfl
@[simp] theorem withPma_cur : (s.withPma x).cur = s.cur := rfl
@[simp] theorem withPma_val : (s.withPma x).val = s.val := rfl
@[simp] theorem withPma_faults : (s.withPma x).faults = s.faults := rfl
@[simp] theorem withPma_din : (s.withPma x).din = s.din := rfl
@[simp] theorem withPma_out : (s.withPma x).out = s.out := rfl
@[simp] theorem withPma_fgHeld : (s.withPma x).fgHeld = s.fgHeld := rfl
@[simp] theorem withPma_dispHeld : (s.withPma x).dispHeld = s.dispHeld := rfl
@[simp] theorem withPma_fgCmds : (s.withPma x).fgCmds = s.fgCmds := rfl
@[simp] theorem withPma_cbCmds : (s.withPma x).cbCmds = s.cbCmds := rfl
@[simp] theorem withPma_cbScript : (s.withPma x).cbScript = s.cbScript := rfl
@[simp] theorem withPma_sched : (s.withPma x).sched = s.sched := rfl
@[simp] theorem withPma_fresh : (s.withPma x).fresh = s.fresh := rfl
end

section
variable (s : State) (x : Option Word)
@[simp] theorem withFba_cfg : (s.withFba x).cfg = s.cfg := rfl
@[simp] theorem withFba_cntr : (s.withFba x).cntr = s.cntr := rfl
@[simp] theorem withFba_istr : (s.withFba x).istr = s.istr := rfl
@[simp] theorem withFba_fn : (s.withFba x).fn = s.fn := rfl
@[simp] theorem withFba_daddr : (s.withFba x).daddr = s.daddr := rfl
@[simp] theorem withFba_epr : (s.withFba x).epr = s.epr := rfl
@[simp] theorem withFba_bd : (s.withFba x).bd = s.bd := rfl
@[simp] theorem withFba_pma : (s.withFba x).pma = s.pma := rfl
@[simp] theorem withFba_fba : (s.withFba x).fba = x := rfl
@[simp] theorem withFba_conn : (s.withFba x).conn = s.conn := rfl
@[simp] theorem withFba_suspended : (s.withFba x).suspended = s.suspended := rfl
@[simp] theorem withFba_irqEn : (s.withFba x).irqEn = s.irqEn := rfl
@[simp] theorem withFba_dph : (s.withFba x).dph = s.dph := rfl
@[simp] theorem withFba_snap : (s.withFba x).snap = s.snap := rfl
@[simp] theorem withFba_cur : (s.withFba x).cur = s.cur := rfl
@[simp] theorem withFba_val : (s.withFba x).val = s.val := rfl
@[simp] theorem withFba_faults : (s.withFba x).faults = s.faults := rfl
@[simp] theorem withFba_din : (s.withFba x).din = s.din := rfl
@[simp] theorem withFba_out : (s.withFba x).out = s.out := rfl
@[simp] theorem withFba_fgHeld : (s.withFba x).fgHeld = s.fgHeld := rfl
@[simp] theorem withFba_dispHeld : (s.withFba x).dispHeld = s.dispHeld := rfl
@[simp] theorem withFba_fgCmds : (s.withFba x).fgCmds = s.fgCmds := rfl
@[simp] theorem withFba_cbCmds : (s.withFba x).cbCmds = s.cbCmds := rfl
@[simp] theorem withFba_cbScript : (s.withFba x).cbScript = s.cbScript := rfl
@[simp] theorem withFba_sched : (s.withFba x).sched = s.sched := rfl
@[simp] theorem withFba_fresh : (s.withFba x).fresh = s.fresh := rfl
end

section
variable (s : State) (x : Conn)
@[simp] theorem withConn_cfg : (s.withConn x).cfg = s.cfg := rfl
@[simp] theorem withConn_cntr : (s.withConn x).cntr = s.cntr := rfl
@[simp] theorem withConn_istr : (s.withConn x).istr = s.istr := rfl
@[simp] theorem withConn_fn : (s.withConn x).fn = s.fn := rfl
@[simp] theorem withConn_daddr : (s.withConn x).daddr = s.daddr := rfl
@[simp] theorem withConn_epr : (s.withConn x).epr = s.epr := rfl
@[simp] theorem withConn_bd : (s.withConn x).bd = s.bd := rfl
@[simp] theorem withConn_pma : (s.withConn x).pma = s.pma := rfl
@[simp] theorem withConn_fba : (s.withConn x).fba = s.fba := rfl
@[simp] theorem withConn_conn : (s.withConn x).conn = x := rfl
@[simp] theorem withConn_suspended : (s.withConn x).suspended = s.suspended := rfl
@[simp] theorem withConn_irqEn : (s.withConn x).irqEn = s.irqEn := rfl
@[simp] theorem withConn_dph : (s.withConn x).dph = s.dph := rfl
@[simp] theorem withConn_snap : (s.withConn x).snap = s.snap := rfl
@[simp] theorem withConn_cur : (s.withConn x).cur = s.cur := rfl
@[simp] theorem withConn_val : (s.withConn x).val = s.val := rfl
@[simp] theorem withConn_faults : (s.withConn x).faults = s.faults := rfl
@[simp] theorem withConn_din : (s.withConn x).din = s.din := rfl
@[simp] theorem withConn_out : (s.withConn x).out = s.out := rfl
@[simp] theorem withConn_fgHeld : (s.withConn x).fgHeld = s.fgHeld := rfl
@[simp] theorem withConn_dispHeld : (s.withConn x).dispHeld = s.dispHeld := rfl
@[simp] theorem withConn_fgCmds : (s.withConn x).fgCmds = s.fgCmds := rfl
@[simp] theorem withConn_cbCmds : (s.withConn x).cbCmds = s.cbCmds := rfl
@[simp] theorem withConn_cbScript : (s.withConn x).cbScript = s.cbScript := rfl
@[simp] theorem withConn_sched : (s.withConn x).sched = s.sched := rfl
@[simp] theorem withConn_fresh : (s.withConn x).fresh = s.fresh := rfl
end

section
variable (s : State) (x : Bool)
@[simp] theorem withSuspended_cfg : (s.withSuspended x).cfg = s.cfg := rfl
@[simp] theorem withSuspended_cntr : (s.withSuspended x).cntr = s.cntr := rfl
@[simp] theorem withSuspended_istr : (s.withSuspended x).istr = s.istr := rfl
@[simp] theorem withSuspended_fn : (s.withSuspended x).fn = s.fn := rfl
@[simp] theorem withSuspended_daddr : (s.withSuspended x).daddr = s.daddr := rfl
@[simp] theorem withSuspended_epr : (s.withSuspended x).epr = s.epr := rfl
@[simp] theorem withSuspended_bd : (s.withSuspended x).bd = s.bd := rfl
@[simp] theorem withSuspended_pma : (s.withSuspended x).pma = s.pma := rfl
@[simp] theorem withSuspended_fba : (s.withSuspended x).fba = s.fba := rfl
@[simp] theorem withSuspended_conn : (s.withSuspended x).conn = s.conn := rfl
@[simp] theorem withSuspended_suspended : (s.withSuspended x).suspended = x := rfl
@[simp] theorem withSuspended_irqEn : (s.withSuspended x).irqEn = s.irqEn := rfl
@[simp] theorem withSuspended_dph : (s.withSuspended x).dph = s.dph := rfl
@[simp] theorem withSuspended_snap : (s.withSuspended x).snap = s.snap := rfl
@[simp] theorem withSuspended_cur : (s.withSuspended x).cur = s.cur := rfl
@[simp] theorem withSuspended_val : (s.withSuspended x).val = s.val := rfl
@[simp] theorem withSuspended_faults : (s.withSuspended x).faults = s.faults := rfl
@[simp] theorem withSuspended_din : (s.withSuspended x).din = s.din := rfl
@[simp] theorem withSuspended_out : (s.withSuspended x).out = s.out := rfl
@[simp] theorem withSuspended_fgHeld : (s.withSuspended x).fgHeld = s.fgHeld := rfl
@[simp] theorem withSuspended_dispHeld : (s.withSuspended x).dispHeld = s.dispHeld := rfl
@[simp] theorem withSuspended_fgCmds : (s.withSuspended x).fgCmds = s.fgCmds := rfl
@[simp] theorem withSuspended_cbCmds : (s.withSuspended x).cbCmds = s.cbCmds := rfl
@[simp] theorem withSuspended_cbScript : (s.withSuspended x).cbScript = s.cbScript := rfl
@[simp] theorem withSuspended_sched : (s.withSuspended x).sched = s.sched := rfl
@[simp] theorem withSuspended_fresh : (s.withSuspended x).fresh = s.fresh := rfl
end

section
variable (s : State) (x : Bool)
@[simp] theorem withIrqEn_cfg : (s.withIrqEn x).cfg = s.cfg := rfl
@[simp] theorem withIrqEn_cntr : (s.withIrqEn x).cntr = s.cntr := rfl
@[simp] theorem withIrqEn_istr : (s.withIrqEn x).istr = s.istr := rfl
@[simp] theorem withIrqEn_fn : (s.withIrqEn x).fn = s.fn := rfl
@[simp] theorem withIrqEn_daddr : (s.withIrqEn x).daddr = s.daddr := rfl
@[simp] theorem withIrqEn_epr : (s.withIrqEn x).epr = s.epr := rfl
@[simp] theorem withIrqEn_bd : (s.withIrqEn x).bd = s.bd := rfl
@[simp] theorem withIrqEn_pma : (s.withIrqEn x).pma = s.pma := rfl
@[simp] theorem withIrqEn_fba : (s.withIrqEn x).fba = s.fba := rfl
@[simp] theorem withIrqEn_conn : (s.withIrqEn x).conn = s.conn := rfl
@[simp] theorem withIrqEn_suspended : (s.withIrqEn x).suspended = s.suspended := rfl
@[simp] theorem withIrqEn_irqEn : (s.withIrqEn x).irqEn = x := rfl
@[simp] theorem withIrqEn_dph : (s.withIrqEn x).dph = s.dph := rfl
@[simp] theorem withIrqEn_snap : (s.withIrqEn x).snap = s.snap := rfl
@[simp] theorem withIrqEn_cur : (s.withIrqEn x).cur = s.cur := rfl
@[simp] theorem withIrqEn_val : (s.withIrqEn x).val = s.val := rfl
@[simp] theorem withIrqEn_faults : (s.withIrqEn x).faults = s.faults := rfl
@[simp] theorem withIrqEn_din : (s.withIrqEn x).din = s.din := rfl
@[simp] theorem withIrqEn_out : (s.withIrqEn x).out = s.out := rfl
@[simp] theorem withIrqEn_fgHeld : (s.withIrqEn x).fgHeld = s.fgHeld := rfl
@[simp] theorem withIrqEn_dispHeld : (s.withIrqEn x).dispHeld = s.dispHeld := rfl
@[simp] theorem withIrqEn_fgCmds : (s.withIrqEn x).fgCmds = s.fgCmds := rfl
@[simp] theorem withIrqEn_cbCmds : (s.withIrqEn x).cbCmds = s.cbCmds := rfl
@[simp] theorem withIrqEn_cbScript : (s.withIrqEn x).cbScript = s.cbScript := rfl
@[simp] theorem withIrqEn_sched : (s.withIrqEn x).sched = s.sched := rfl
@[simp] theorem withIrqEn_fresh : (s.withIrqEn x).fresh = s.fresh := rfl
end

section
variable (s : State) (x : Phase)
@[simp] theorem withDph_cfg : (s.withDph x).cfg = s.cfg := rfl
@[simp] theorem withDph_cntr : (s.withDph x).cntr = s.cntr := rfl
@[simp] theorem withDph_istr : (s.withDph x).istr = s.istr := rfl
@[simp] theorem withDph_fn : (s.withDph x).fn = s.fn := rfl
@[simp] theorem withDph_daddr : (s.withDph x).daddr = s.daddr := rfl
@[simp] theorem withDph_epr : (s.withDph x).epr = s.epr := rfl
@[simp] theorem withDph_bd : (s.withDph x).bd = s.bd := rfl
@[simp] theorem withDph_pma : (s.withDph x).pma = s.pma := rfl
@[simp] theorem withDph_fba : (s.withDph x).fba = s.fba := rfl
@[simp] theorem withDph_conn : (s.withDph x).conn = s.conn := rfl
@[simp] theorem withDph_suspended : (s.withDph x).suspended = s.suspended := rfl
@[simp] theorem withDph_irqEn : (s.withDph x).irqEn = s.irqEn := rfl
@[simp] theorem withDph_dph : (s.withDph x).dph = x := rfl
@[simp] theorem withDph_snap : (s.withDph x).snap = s.snap := rfl
@[simp] theorem withDph_cur : (s.withDph x).cur = s.cur := rfl
@[simp] theorem withDph_val : (s.withDph x).val = s.val := rfl
@[simp] theorem withDph_faults : (s.withDph x).faults = s.faults := rfl
@[simp] theorem withDph_din : (s.withDph x).din = s.din := rfl
@[simp] theorem withDph_out : (s.withDph x).out = s.out := rfl
@[simp] theorem withDph_fgHeld : (s.withDph x).fgHeld = s.fgHeld := rfl
@[simp] theorem withDph_dispHeld : (s.withDph x).dispHeld = s.dispHeld := rfl
@[simp] theorem withDph_fgCmds : (s.withDph x).fgCmds = s.fgCmds := rfl
@[simp] theorem withDph_cbCmds : (s.withDph x).cbCmds = s.cbCmds := rfl
@[simp] theorem withDph_cbScript : (s.withDph x).cbScript = s.cbScript := rfl
@[simp] theorem withDph_sched : (s.withDph x).sched = s.sched := rfl
@[simp] theorem withDph_fresh : (s.withDph x).fresh = s.fresh := rfl
end

section
variable (s : State) (x : Word)
@[simp] theorem withSnap_cfg : (s.withSnap x).cfg = s.cfg := rfl
@[simp] theorem withSnap_cntr : (s.withSnap x).cntr = s.cntr := rfl
@[simp] theorem withSnap_istr : (s.withSnap x).istr = s.istr := rfl
@[simp] theorem withSnap_fn : (s.withSnap x).fn = s.fn := rfl
@[simp] theorem withSnap_daddr : (s.withSnap x).daddr = s.daddr := rfl
@[simp] theorem withSnap_epr : (s.withSnap x).epr = s.epr := rfl
@[simp] theorem withSnap_bd : (s.withSnap x).bd = s.bd := rfl
@[simp] theorem withSnap_pma : (s.withSnap x).pma = s.pma := rfl
@[simp] theorem withSnap_fba : (s.withSnap x).fba = s.fba := rfl
@[simp] theorem withSnap_conn : (s.withSnap x).conn = s.conn := rfl
@[simp] theorem withSnap_suspended : (s.withSnap x).suspended = s.suspended := rfl
@[simp] theorem withSnap_irqEn : (s.withSnap x).irqEn = s.irqEn := rfl
@[simp] theorem withSnap_dph : (s.withSnap x).dph = s.dph := rfl
@[simp] theorem withSnap_snap : (s.withSnap x).snap = x := rfl
@[simp] theorem withSnap_cur : (s.withSnap x).cur = s.cur := rfl
@[simp] theorem withSnap_val : (s.withSnap x).val = s.val := rfl
@[simp] theorem withSnap_faults : (s.withSnap x).faults = s.faults := rfl
@[simp] theorem withSnap_din : (s.withSnap x).din = s.din := rfl
@[simp] theorem withSnap_out : (s.withSnap x).out = s.out := rfl
@[simp] theorem withSnap_fgHeld : (s.withSnap x).fgHeld = s.fgHeld := rfl
@[simp] theorem withSnap_dispHeld : (s.withSnap x).dispHeld = s.dispHeld := rfl
@[simp] theorem withSnap_fgCmds : (s.withSnap x).fgCmds = s.fgCmds := rfl
@[simp] theorem withSnap_cbCmds : (s.withSnap x).cbCmds = s.cbCmds := rfl
@[simp] theorem withSnap_cbScript : (s.withSnap x).cbScript = s.cbScript := rfl
@[simp] theorem withSnap_sched : (s.withSnap x).sched = s.sched := rfl
@[simp] theorem withSnap_fresh : (s.withSnap x).fresh = s.fresh := rfl
end

section
variable (s : State) (x : Fin 16)
@[simp] theorem withCur_cfg : (s.withCur x).cfg = s.cfg := rfl
@[simp] theorem withCur_cntr : (s.withCur x).cntr = s.cntr := rfl
@[simp] theorem withCur_istr : (s.withCur x).istr = s.istr := rfl
@[simp] theorem withCur_fn : (s.withCur x).fn = s.fn := rfl
@[simp] theorem withCur_daddr : (s.withCur x).daddr = s.daddr := rfl
@[simp] theorem withCur_epr : (s.withCur x).epr = s.epr := rfl
@[simp] theorem withCur_bd : (s.withCur x).bd = s.bd := rfl
@[simp] theorem withCur_pma : (s.withCur x).pma = s.pma := rfl
@[simp] theorem withCur_fba : (s.withCur x).fba = s.fba := rfl
@[simp] theorem withCur_conn : (s.withCur x).conn = s.conn := rfl
@[simp] theorem withCur_suspended : (s.withCur x).suspended = s.suspended := rfl
@[simp] theorem withCur_irqEn : (s.withCur x).irqEn = s.irqEn := rfl
@[simp] theorem withCur_dph : (s.withCur x).dph = s.dph := rfl
@[simp] theorem withCur_snap : (s.withCur x).snap = s.snap := rfl
@[simp] theorem withCur_cur : (s.withCur x).cur = x := rfl
@[simp] theorem withCur_val : (s.withCur x).val = s.val := rfl
@[simp] theorem withCur_faults : (s.withCur x).faults = s.faults := rfl
@[simp] theorem withCur_din : (s.withCur x).din = s.din := rfl
@[simp] theorem withCur_out : (s.withCur x).out = s.out := rfl
@[simp] theorem withCur_fgHeld : (s.withCur x).fgHeld = s.fgHeld := rfl
@[simp] theorem withCur_dispHeld : (s.withCur x).dispHeld = s.dispHeld := rfl
@[simp] theorem withCur_fgCmds : (s.withCur x).fgCmds = s.fgCmds := rfl
@[simp] theorem withCur_cbCmds : (s.withCur x).cbCmds = s.cbCmds := rfl
@[simp] theorem withCur_cbScript : (s.withCur x).cbScript = s.cbScript := rfl
@[simp] theorem withCur_sched : (s.withCur x).sched = s.sched := rfl
@[simp] theorem withCur_fresh : (s.withCur x).fresh = s.fresh := rfl
end

section
variable (s : State) (x : Word)
@[simp] theorem withVal_cfg : (s.withVal x).cfg = s.cfg := rfl
@[simp] theorem withVal_cntr : (s.withVal x).cntr = s.cntr := rfl
@[simp] theorem withVal_istr : (s.withVal x).istr = s.istr := rfl
@[simp] theorem withVal_fn : (s.withVal x).fn = s.fn := rfl
@[simp] theorem withVal_daddr : (s.withVal x).daddr = s.daddr := rfl
@[simp] theorem withVal_epr : (s.withVal x).epr = s.epr := rfl
@[simp] theorem withVal_bd : (s.withVal x).bd = s.bd := rfl
@[simp] theorem withVal_pma : (s.withVal x).pma = s.pma := rfl
@[simp] theorem withVal_fba : (s.withVal x).fba = s.fba := rfl
@[simp] theorem withVal_conn : (s.withVal x).conn = s.conn := rfl
@[simp] theorem withVal_suspended : (s.withVal x).suspended = s.suspended := rfl
@[simp] theorem withVal_irqEn : (s.withVal x).irqEn = s.irqEn := rfl
@[simp] theorem withVal_dph : (s.withVal x).dph = s.dph := rfl
@[simp] theorem withVal_snap : (s.withVal x).snap = s.snap := rfl
@[simp] theorem withVal_cur : (s.withVal x).cur = s.cur := rfl
@[simp] theorem withVal_val : (s.withVal x).val = x := rfl
@[simp] theorem withVal_faults : (s.withVal x).faults = s.faults := rfl
@[simp] theorem withVal_din : (s.withVal x).din = s.din := rfl
@[simp] theorem withVal_out : (s.withVal x).out = s.out := rfl
@[simp] theorem withVal_fgHeld : (s.withVal x).fgHeld = s.fgHeld := rfl
@[simp] theorem withVal_dispHeld : (s.withVal x).dispHeld = s.dispHeld := rfl
@[simp] theorem withVal_fgCmds : (s.withVal x).fgCmds = s.fgCmds := rfl
@[simp] theorem withVal_cbCmds : (s.withVal x).cbCmds = s.cbCmds := rfl
@[simp] theorem withVal_cbScript : (s.withVal x).cbScript = s.cbScript := rfl
@[simp] theorem withVal_sched : (s.withVal x).sched = s.sched := rfl
@[simp] theorem withVal_fresh : (s.withVal x).fresh = s.fresh := rfl
end

section
variable (s : State) (x : FaultSet)
@[simp] theorem withFaults_cfg : (s.withFaults x).cfg = s.cfg := rfl
@[simp] theorem withFaults_cntr : (s.withFaults x).cntr = s.cntr := rfl
@[simp] theorem withFaults_istr : (s.withFaults x).istr = s.istr := rfl
@[simp] theorem withFaults_fn : (s.withFaults x).fn = s.fn := rfl
@[simp] theorem withFaults_daddr : (s.withFaults x).daddr = s.daddr := rfl
@[simp] theorem withFaults_epr : (s.withFaults x).epr = s.epr := rfl
@[simp] theorem withFaults_bd : (s.withFaults x).bd = s.bd := rfl
@[simp] theorem withFaults_pma : (s.withFaults x).pma = s.pma := rfl
@[simp] theorem withFaults_fba : (s.withFaults x).fba = s.fba := rfl
@[simp] theorem withFaults_conn : (s.withFaults x).conn = s.conn := rfl
@[simp] theorem withFaults_suspended : (s.withFaults x).suspended = s.suspended := rfl
@[simp] theorem withFaults_irqEn : (s.withFaults x).irqEn = s.irqEn := rfl
@[simp] theorem withFaults_dph : (s.withFaults x).dph = s.dph := rfl
@[simp] theorem withFaults_snap : (s.withFaults x).snap = s.snap := rfl
@[simp] theorem withFaults_cur : (s.withFaults x).cur = s.cur := rfl
@[simp] theorem withFaults_val : (s.withFaults x).val = s.val := rfl
@[simp] theorem withFaults_faults : (s.withFaults x).faults = x := rfl
@[simp] theorem withFaults_din : (s.withFaults x).din = s.din := rfl
@[simp] theorem withFaults_out : (s.withFaults x).out = s.out := rfl
@[simp] theorem withFaults_fgHeld : (s.withFaults x).fgHeld = s.fgHeld := rfl
@[simp] theorem withFaults_dispHeld : (s.withFaults x).dispHeld = s.dispHeld := rfl
@[simp] theorem withFaults_fgCmds : (s.withFaults x).fgCmds = s.fgCmds := rfl
@[simp] theorem withFaults_cbCmds : (s.withFaults x).cbCmds = s.cbCmds := rfl
@[simp] theorem withFaults_cbScript : (s.withFaults x).cbScript = s.cbScript := rfl
@[simp] theorem withFaults_sched : (s.withFaults x).sched = s.sched := rfl
@[simp] theorem withFaults_fresh : (s.withFaults x).fresh = s.fresh := rfl
end

section
variable (s : State) (x : List Byte)
@[simp] theorem withDin_cfg : (s.withDin x).cfg = s.cfg := rfl
@[simp] theorem withDin_cntr : (s.withDin x).cntr = s.cntr := rfl
@[simp] theorem withDin_istr : (s.withDin x).istr = s.istr := rfl
@[simp] theorem withDin_fn : (s.withDin x).fn = s.fn := rfl
@[simp] theorem withDin_daddr : (s.withDin x).daddr = s.daddr := rfl
@[simp] theorem withDin_epr : (s.withDin x).epr = s.epr := rfl
@[simp] theorem withDin_bd : (s.withDin x).bd = s.bd := rfl
@[simp] theorem withDin_pma : (s.withDin x).pma = s.pma := rfl
@[simp] theorem withDin_fba : (s.withDin x).fba = s.fba := rfl
@[simp] theorem withDin_conn : (s.withDin x).conn = s.conn := rfl
@[simp] theorem withDin_suspended : (s.withDin x).suspended = s.suspended := rfl
@[simp] theorem withDin_irqEn : (s.withDin x).irqEn = s.irqEn := rfl
@[simp] theorem withDin_dph : (s.withDin x).dph = s.dph := rfl
@[simp] theorem withDin_snap : (s.withDin x).snap = s.snap := rfl
@[simp] theorem withDin_cur : (s.withDin x).cur = s.cur := rfl
@[simp] theorem withDin_val : (s.withDin x).val = s.val := rfl
@[simp] theorem withDin_faults : (s.withDin x).faults = s.faults := rfl
@[simp] theorem withDin_din : (s.withDin x).din = x := rfl
@[simp] theorem withDin_out : (s.withDin x).out = s.out := rfl
@[simp] theorem withDin_fgHeld : (s.withDin x).fgHeld = s.fgHeld := rfl
@[simp] theorem withDin_dispHeld : (s.withDin x).dispHeld = s.dispHeld := rfl
@[simp] theorem withDin_fgCmds : (s.withDin x).fgCmds = s.fgCmds := rfl
@[simp] theorem withDin_cbCmds : (s.withDin x).cbCmds = s.cbCmds := rfl
@[simp] theorem withDin_cbScript : (s.withDin x).cbScript = s.cbScript := rfl
@[simp] theorem withDin_sched : (s.withDin x).sched = s.sched := rfl
@[simp] theorem withDin_fresh : (s.withDin x).fresh = s.fresh := rfl
end

section
variable (s : State) (x : List Output)
@[simp] theorem withOut_cfg : (s.withOut x).cfg = s.cfg := rfl
@[simp] theorem withOut_cntr : (s.withOut x).cntr = s.cntr := rfl
@[simp] theorem withOut_istr : (s.withOut x).istr = s.istr := rfl
@[simp] theorem withOut_fn : (s.withOut x).fn = s.fn := rfl
@[simp] theorem withOut_daddr : (s.withOut x).daddr = s.daddr := rfl
@[simp] theorem withOut_epr : (s.withOut x).epr = s.epr := rfl
@[simp] theorem withOut_bd : (s.withOut x).bd = s.bd := rfl
@[simp] theorem withOut_pma : (s.withOut x).pma = s.pma := rfl
@[simp] theorem withOut_fba : (s.withOut x).fba = s.fba := rfl
@[simp] theorem withOut_conn : (s.withOut x).conn = s.conn := rfl
@[simp] theorem withOut_suspended : (s.withOut x).suspended = s.suspended := rfl
@[simp] theorem withOut_irqEn : (s.withOut x).irqEn = s.irqEn := rfl
@[simp] theorem withOut_dph : (s.withOut x).dph = s.dph := rfl
@[simp] theorem withOut_snap : (s.withOut x).snap = s.snap := rfl
@[simp] theorem withOut_cur : (s.withOut x).cur = s.cur := rfl
@[simp] theorem withOut_val : (s.withOut x).val = s.val := rfl
@[simp] theorem withOut_faults : (s.withOut x).faults = s.faults := rfl
@[simp] theorem withOut_din : (s.withOut x).din = s.din := rfl
@[simp] theorem withOut_out : (s.withOut x).out = x := rfl
@[simp] theorem withOut_fgHeld : (s.withOut x).fgHeld = s.fgHeld := rfl
@[simp] theorem withOut_dispHeld : (s.withOut x).dispHeld = s.dispHeld := rfl
@[simp] theorem withOut_fgCmds : (s.withOut x).fgCmds = s.fgCmds := rfl
@[simp] theorem withOut_cbCmds : (s.withOut x).cbCmds = s.cbCmds := rfl
@[simp] theorem withOut_cbScript : (s.withOut x).cbScript = s.cbScript := rfl
@[simp] theorem withOut_sched : (s.withOut x).sched = s.sched := rfl
@[simp] theorem withOut_fresh : (s.withOut x).fresh = s.fresh := rfl
end

section
variable (s : State) (x : Option Frame)
@[simp] theorem withFgHeld_cfg : (s.withFgHeld x).cfg = s.cfg := rfl
@[simp] theorem withFgHeld_cntr : (s.withFgHeld x).cntr = s.cntr := rfl
@[simp] theorem withFgHeld_istr : (s.withFgHeld x).istr = s.istr := rfl
@[simp] theorem withFgHeld_fn : (s.withFgHeld x).fn = s.fn := rfl
@[simp] theorem withFgHeld_daddr : (s.withFgHeld x).daddr = s.daddr := rfl
@[simp] theorem withFgHeld_epr : (s.withFgHeld x).epr = s.epr := rfl
@[simp] theorem withFgHeld_bd : (s.withFgHeld x).bd = s.bd := rfl
@[simp] theorem withFgHeld_pma : (s.withFgHeld x).pma = s.pma := rfl
@[simp] theorem withFgHeld_fba : (s.withFgHeld x).fba = s.fba := rfl
@[simp] theorem withFgHeld_conn : (s.withFgHeld x).conn = s.conn := rfl
@[simp] theorem withFgHeld_suspended : (s.withFgHeld x).suspended = s.suspended := rfl
@[simp] theorem withFgHeld_irqEn : (s.withFgHeld x).irqEn = s.irqEn := rfl
@[simp] theorem withFgHeld_dph : (s.withFgHeld x).dph = s.dph := rfl
@[simp] theorem withFgHeld_snap : (s.withFgHeld x).snap = s.snap := rfl
@[simp] theorem withFgHeld_cur : (s.withFgHeld x).cur = s.cur := rfl
@[simp] theorem withFgHeld_val : (s.withFgHeld x).val = s.val := rfl
@[simp] theorem withFgHeld_faults : (s.withFgHeld x).faults = s.faults := rfl
@[simp] theorem withFgHeld_din : (s.withFgHeld x).din = s.din := rfl
@[simp] theorem withFgHeld_out : (s.withFgHeld x).out = s.out := rfl
@[simp] theorem withFgHeld_fgHeld : (s.withFgHeld x).fgHeld = x := rfl
@[simp] theorem withFgHeld_dispHeld : (s.withFgHeld x).dispHeld = s.dispHeld := rfl
@[simp] theorem withFgHeld_fgCmds : (s.withFgHeld x).fgCmds = s.fgCmds := rfl
@[simp] theorem withFgHeld_cbCmds : (s.withFgHeld x).cbCmds = s.cbCmds := rfl
@[simp] theorem withFgHeld_cbScript : (s.withFgHeld x).cbScript = s.cbScript := rfl
@[simp] theorem withFgHeld_sched : (s.withFgHeld x).sched = s.sched := rfl
@[simp] theorem withFgHeld_fresh : (s.withFgHeld x).fresh = s.fresh := rfl
end

section
variable (s : State) (x : Option Frame)
@[simp] theorem withDispHeld_cfg : (s.withDispHeld x).cfg = s.cfg := rfl
@[simp] theorem withDispHeld_cntr : (s.withDispHeld x).cntr = s.cntr := rfl
@[simp] theorem withDispHeld_istr : (s.withDispHeld x).istr = s.istr := rfl
@[simp] theorem withDispHeld_fn : (s.withDispHeld x).fn = s.fn := rfl
@[simp] theorem withDispHeld_daddr : (s.withDispHeld x).daddr = s.daddr := rfl
@[simp] theorem withDispHeld_epr : (s.withDispHeld x).epr = s.epr := rfl
@[simp] theorem withDispHeld_bd : (s.withDispHeld x).bd = s.bd := rfl
@[simp] theorem withDispHeld_pma : (s.withDispHeld x).pma = s.pma := rfl
@[simp] theorem withDispHeld_fba : (s.withDispHeld x).fba = s.fba := rfl
@[simp] theorem withDispHeld_conn : (s.withDispHeld x).conn = s.conn := rfl
@[simp] theorem withDispHeld_suspended : (s.withDispHeld x).suspended = s.suspended := rfl
@[simp] theorem withDispHeld_irqEn : (s.withDispHeld x).irqEn = s.irqEn := rfl
@[simp] theorem withDispHeld_dph : (s.withDispHeld x).dph = s.dph := rfl
@[simp] theorem withDispHeld_snap : (s.withDispHeld x).snap = s.snap := rfl
@[simp] theorem withDispHeld_cur : (s.withDispHeld x).cur = s.cur := rfl
@[simp] theorem withDispHeld_val : (s.withDispHeld x).val = s.val := rfl
@[simp] theorem withDispHeld_faults : (s.withDispHeld x).faults = s.faults := rfl
@[simp] theorem withDispHeld_din : (s.withDispHeld x).din = s.din := rfl
@[simp] theorem withDispHeld_out : (s.withDispHeld x).out = s.out := rfl
@[simp] theorem withDispHeld_fgHeld : (s.withDispHeld x).fgHeld = s.fgHeld := rfl
@[simp] theorem withDispHeld_dispHeld : (s.withDispHeld x).dispHeld = x := rfl
@[simp] theorem withDispHeld_fgCmds : (s.withDispHeld x).fgCmds = s.fgCmds := rfl
@[simp] theorem withDispHeld_cbCmds : (s.withDispHeld x).cbCmds = s.cbCmds := rfl
@[simp] theorem withDispHeld_cbScript : (s.withDispHeld x).cbScript = s.cbScript := rfl
@[simp] theorem withDispHeld_sched : (s.withDispHeld x).sched = s.sched := rfl
@[simp] theorem withDispHeld_fresh : (s.withDispHeld x).fresh = s.fresh := rfl
end

section
variable (s : State) (x : List Request)
@[simp] theorem withFgCmds_cfg : (s.withFgCmds x).cfg = s.cfg := rfl
@[simp] theorem withFgCmds_cntr : (s.withFgCmds x).cntr = s.cntr := rfl
@[simp] theorem withFgCmds_istr : (s.withFgCmds x).istr = s.istr := rfl
@[simp] theorem withFgCmds_fn : (s.withFgCmds x).fn = s.fn := rfl
@[simp] theorem withFgCmds_daddr : (s.withFgCmds x).daddr = s.daddr := rfl
@[simp] theorem withFgCmds_epr : (s.withFgCmds x).epr = s.epr := rfl
@[simp] theorem withFgCmds_bd : (s.withFgCmds x).bd = s.bd := rfl
@[simp] theorem withFgCmds_pma : (s.withFgCmds x).pma = s.pma := rfl
@[simp] theorem withFgCmds_fba : (s.withFgCmds x).fba = s.fba := rfl
@[simp] theorem withFgCmds_conn : (s.withFgCmds x).conn = s.conn := rfl
@[simp] theorem withFgCmds_suspended : (s.withFgCmds x).suspended = s.suspended := rfl
@[simp] theorem withFgCmds_irqEn : (s.withFgCmds x).irqEn = s.irqEn := rfl
@[simp] theorem withFgCmds_dph : (s.withFgCmds x).dph = s.dph := rfl
@[simp] theorem withFgCmds_snap : (s.withFgCmds x).snap = s.snap := rfl
@[simp] theorem withFgCmds_cur : (s.withFgCmds x).cur = s.cur := rfl
@[simp] theorem withFgCmds_val : (s.withFgCmds x).val = s.val := rfl
@[simp] theorem withFgCmds_faults : (s.withFgCmds x).faults = s.faults := rfl
@[simp] theorem withFgCmds_din : (s.withFgCmds x).din = s.din := rfl
@[simp] theorem withFgCmds_out : (s.withFgCmds x).out = s.out := rfl
@[simp] theorem withFgCmds_fgHeld : (s.withFgCmds x).fgHeld = s.fgHeld := rfl
@[simp] theorem withFgCmds_dispHeld : (s.withFgCmds x).dispHeld = s.dispHeld := rfl
@[simp] theorem withFgCmds_fgCmds : (s.withFgCmds x).fgCmds = x := rfl
@[simp] theorem withFgCmds_cbCmds : (s.withFgCmds x).cbCmds = s.cbCmds := rfl
@[simp] theorem withFgCmds_cbScript : (s.withFgCmds x).cbScript = s.cbScript := rfl
@[simp] theorem withFgCmds_sched : (s.withFgCmds x).sched = s.sched := rfl
@[simp] theorem withFgCmds_fresh : (s.withFgCmds x).fresh = s.fresh := rfl
end

section
variable (s : State) (x : List Request)
@[simp] theorem withCbCmds_cfg : (s.withCbCmds x).cfg = s.cfg := rfl
@[simp] theorem withCbCmds_cntr : (s.withCbCmds x).cntr = s.cntr := rfl
@[simp] theorem withCbCmds_istr : (s.withCbCmds x).istr = s.istr := rfl
@[simp] theorem withCbCmds_fn : (s.withCbCmds x).fn = s.fn := rfl
@[simp] theorem withCbCmds_daddr : (s.withCbCmds x).daddr = s.daddr := rfl
@[simp] theorem withCbCmds_epr : (s.withCbCmds x).epr = s.epr := rfl
@[simp] theorem withCbCmds_bd : (s.withCbCmds x).bd = s.bd := rfl
@[simp] theorem withCbCmds_pma : (s.withCbCmds x).pma = s.pma := rfl
@[simp] theorem withCbCmds_fba : (s.withCbCmds x).fba = s.fba := rfl
@[simp] theorem withCbCmds_conn : (s.withCbCmds x).conn = s.conn := rfl
@[simp] theorem withCbCmds_suspended : (s.withCbCmds x).suspended = s.suspended := rfl
@[simp] theorem withCbCmds_irqEn : (s.withCbCmds x).irqEn = s.irqEn := rfl
@[simp] theorem withCbCmds_dph : (s.withCbCmds x).dph = s.dph := rfl
@[simp] theorem withCbCmds_snap : (s.withCbCmds x).snap = s.snap := rfl
@[simp] theorem withCbCmds_cur : (s.withCbCmds x).cur = s.cur := rfl
@[simp] theorem withCbCmds_val : (s.withCbCmds x).val = s.val := rfl
@[simp] theorem withCbCmds_faults : (s.withCbCmds x).faults = s.faults := rfl
@[simp] theorem withCbCmds_din : (s.withCbCmds x).din = s.din := rfl
@[simp] theorem withCbCmds_out : (s.withCbCmds x).out = s.out := rfl
@[simp] theorem withCbCmds_fgHeld : (s.withCbCmds x).fgHeld = s.fgHeld := rfl
@[simp] theorem withCbCmds_dispHeld : (s.withCbCmds x).dispHeld = s.dispHeld := rfl
@[simp] theorem withCbCmds_fgCmds : (s.withCbCmds x).fgCmds = s.fgCmds := rfl
@[simp] theorem withCbCmds_cbCmds : (s.withCbCmds x).cbCmds = x := rfl
@[simp] theorem withCbCmds_cbScript : (s.withCbCmds x).cbScript = s.cbScript := rfl
@[simp] theorem withCbCmds_sched : (s.withCbCmds x).sched = s.sched := rfl
@[simp] theorem withCbCmds_fresh : (s.withCbCmds x).fresh = s.fresh := rfl
end

section
variable (s : State) (x : List (List Request))
@[simp] theorem withCbScript_cfg : (s.withCbScript x).cfg = s.cfg := rfl
@[simp] theorem withCbScript_cntr : (s.withCbScript x).cntr = s.cntr := rfl
@[simp] theorem withCbScript_istr : (s.withCbScript x).istr = s.istr := rfl
@[simp] theorem withCbScript_fn : (s.withCbScript x).fn = s.fn := rfl
@[simp] theorem withCbScript_daddr : (s.withCbScript x).daddr = s.daddr := rfl
@[simp] theorem withCbScript_epr : (s.withCbScript x).epr = s.epr := rfl
@[simp] theorem withCbScript_bd : (s.withCbScript x).bd = s.bd := rfl
@[simp] theorem withCbScript_pma : (s.withCbScript x).pma = s.pma := rfl
@[simp] theorem withCbScript_fba : (s.withCbScript x).fba = s.fba := rfl
@[simp] theorem withCbScript_conn : (s.withCbScript x).conn = s.conn := rfl
@[simp] theorem withCbScript_suspended : (s.withCbScript x).suspended = s.suspended := rfl
@[simp] theorem withCbScript_irqEn : (s.withCbScript x).irqEn = s.irqEn := rfl
@[simp] theorem withCbScript_dph : (s.withCbScript x).dph = s.dph := rfl
@[simp] theorem withCbScript_snap : (s.withCbScript x).snap = s.snap := rfl
@[simp] theorem withCbScript_cur : (s.withCbScript x).cur = s.cur := rfl
@[simp] theorem withCbScript_val : (s.withCbScript x).val = s.val := rfl
@[simp] theorem withCbScript_faults : (s.withCbScript x).faults = s.faults := rfl
@[simp] theorem withCbScript_din : (s.withCbScript x).din = s.din := rfl
@[simp] theorem withCbScript_out : (s.withCbScript x).out = s.out := rfl
@[simp] theorem withCbScript_fgHeld : (s.withCbScript x).fgHeld = s.fgHeld := rfl
@[simp] theorem withCbScript_dispHeld : (s.withCbScript x).dispHeld = s.dispHeld := rfl
@[simp] theorem withCbScript_fgCmds : (s.withCbScript x).fgCmds = s.fgCmds := rfl
@[simp] theorem withCbScript_cbCmds : (s.withCbScript x).cbCmds = s.cbCmds := rfl
@[simp] theorem withCbScript_cbScript : (s.withCbScript x).cbScript = x := rfl
@[simp] theorem withCbScript_sched : (s.withCbScript x).sched = s.sched := rfl
@[simp] theorem withCbScript_fresh : (s.withCbScript x).fresh = s.fresh := rfl
end

section
variable (s : State) (x : List Choice)
@[simp] theorem withSched_cfg : (s.withSched x).cfg = s.cfg := rfl
@[simp] theorem withSched_cntr : (s.withSched x).cntr = s.cntr := rfl
@[simp] theorem withSched_istr : (s.withSched x).istr = s.istr := rfl
@[simp] theorem withSched_fn : (s.withSched x).fn = s.fn := rfl
@[simp] theorem withSched_daddr : (s.withSched x).daddr = s.daddr := rfl
@[simp] theorem withSched_epr : (s.withSched x).epr = s.epr := rfl
@[simp] theorem withSched_bd : (s.withSched x).bd = s.bd := rfl
@[simp] theorem withSched_pma : (s.withSched x).pma = s.pma := rfl
@[simp] theorem withSched_fba : (s.withSched x).fba = s.fba := rfl
@[simp] theorem withSched_conn : (s.withSched x).conn = s.conn := rfl
@[simp] theorem withSched_suspended : (s.withSched x).suspended = s.suspended := rfl
@[simp] theorem withSched_irqEn : (s.withSched x).irqEn = s.irqEn := rfl
@[simp] theorem withSched_dph : (s.withSched x).dph = s.dph := rfl
@[simp] theorem withSched_snap : (s.withSched x).snap = s.snap := rfl
@[simp] theorem withSched_cur : (s.withSched x).cur = s.cur := rfl
@[simp] theorem withSched_val : (s.withSched x).val = s.val := rfl
@[simp] theorem withSched_faults : (s.withSched x).faults = s.faults := rfl
@[simp] theorem withSched_din : (s.withSched x).din = s.din := rfl
@[simp] theorem withSched_out : (s.withSched x).out = s.out := rfl
@[simp] theorem withSched_fgHeld : (s.withSched x).fgHeld = s.fgHeld := rfl
@[simp] theorem withSched_dispHeld : (s.withSched x).dispHeld = s.dispHeld := rfl
@[simp] theorem withSched_fgCmds : (s.withSched x).fgCmds = s.fgCmds := rfl
@[simp] theorem withSched_cbCmds : (s.withSched x).cbCmds = s.cbCmds := rfl
@[simp] theorem withSched_cbScript : (s.withSched x).cbScript = s.cbScript := rfl
@[simp] theorem withSched_sched : (s.withSched x).sched = x := rfl
@[simp] theorem withSched_fresh : (s.withSched x).fresh = s.fresh := rfl
end

section
variable (s : State) (x : Nat)
@[simp] theorem withFresh_cfg : (s.withFresh x).cfg = s.cfg := rfl
@[simp] theorem withFresh_cntr : (s.withFresh x).cntr = s.cntr := rfl
@[simp] theorem withFresh_istr : (s.withFresh x).istr = s.istr := rfl
@[simp] theorem withFresh_fn : (s.withFresh x).fn = s.fn := rfl
@[simp] theorem withFresh_daddr : (s.withFresh x).daddr = s.daddr := rfl
@[simp] theorem withFresh_epr : (s.withFresh x).epr = s.epr := rfl
@[simp] theorem withFresh_bd : (s.withFresh x).bd = s.bd := rfl
@[simp] theorem withFresh_pma : (s.withFresh x).pma = s.pma := rfl
@[simp] theorem withFresh_fba : (s.withFresh x).fba = s.fba := rfl
@[simp] theorem withFresh_conn : (s.withFresh x).conn = s.conn := rfl
@[simp] theorem withFresh_suspended : (s.withFresh x).suspended = s.suspended := rfl
@[simp] theorem withFresh_irqEn : (s.withFresh x).irqEn = s.irqEn := rfl
@[simp] theorem withFresh_dph : (s.withFresh x).dph = s.dph := rfl
@[simp] theorem withFresh_snap : (s.withFresh x).snap = s.snap := rfl
@[simp] theorem withFresh_cur : (s.withFresh x).cur = s.cur := rfl
@[simp] theorem withFresh_val : (s.withFresh x).val = s.val := rfl
@[simp] theorem withFresh_faults : (s.withFresh x).faults = s.faults := rfl
@[simp] theorem withFresh_din : (s.withFresh x).din = s.din := rfl
@[simp] theorem withFresh_out : (s.withFresh x).out = s.out := rfl
@[simp] theorem withFresh_fgHeld : (s.withFresh x).fgHeld = s.fgHeld := rfl
@[simp] theorem withFresh_dispHeld : (s.withFresh x).dispHeld = s.dispHeld := rfl
@[simp] theorem withFresh_fgCmds : (s.withFresh x).fgCmds = s.fgCmds := rfl
@[simp] theorem withFresh_cbCmds : (s.withFresh x).cbCmds = s.cbCmds := rfl
@[simp] theorem withFresh_cbScript : (s.withFresh x).cbScript = s.cbScript := rfl
@[simp] theorem withFresh_sched : (s.withFresh x).sched = s.sched := rfl
@[simp] theorem withFresh_fresh : (s.withFresh x).fresh = x := rfl
end

end Sys2Proof.Machine.State
end

