-- ==== Sys2Proof/Laws/Ops.lean ====
section
/-! SUPPORT. Each shared operation as one update of the fields it writes, so that no later proof unfolds it: the lemmas of Laws/State.lean then say what every other field holds. -/

namespace Sys2Proof.Machine

/-- `FAULTS` with one kind more. -/
def FaultSet.add (f : FaultSet) : Fault → FaultSet
  | .unspecifiedRead => { f with unspecifiedRead := true }
  | .arenaOverflow   => { f with arenaOverflow := true }

theorem raise_eq (f : Fault) (s : State) : raise f s = s.withFaults (s.faults.add f) := by cases f <;> rfl

theorem drawn_eq (s : State) : drawn s = s.withFresh (s.fresh + 1) := rfl

theorem put_eq (o : Output) (s : State) : put o s = s.withOut (s.out ++ [o]) := rfl

theorem writeCntr_eq (w : Word) (s : State) : writeCntr w s = s.withCntr (w &&& 0xFE0D) := rfl

theorem writeIstr_eq (w : Word) (s : State) : writeIstr w s = s.withIstr (s.istr &&& (w ||| 0x81FF)) := rfl

theorem writeDaddr_eq (w : Word) (s : State) : writeDaddr w s = s.withDaddr (w &&& 0x00FF) := rfl

theorem setEpr_eq (i : Fin 16) (v : Word) (s : State) :
    setEpr i v s = s.withEprAll (if i.val < s.cfg.nEp then s.epr.set i v else s.epr) := by
  unfold setEpr; split <;> rfl

theorem writeEpr_eq (i : Fin 16) (w : Word) (s : State) :
    writeEpr i w s =
      s.withEprAll (if i.val < s.cfg.nEp then s.epr.set i (eprAfterWrite s.epr[i] w) else s.epr) := setEpr_eq ..

theorem setBd_eq (i : Fin 16) (d : BufDesc) (s : State) :
    setBd i d s = s.withBdAll (if i.val < s.cfg.nEp then s.bd.set i d else s.bd) := by
  unfold setBd; split <;> rfl

theorem readCell_some {w : Nat} (v : BitVec w) (s : State) : readCell (some v) s = (v, s) := rfl

theorem readCell_none {w : Nat} (s : State) :
    readCell (none : Option (BitVec w)) s = (unspecified w s, drawn (raise .unspecifiedRead s)) := rfl

/-- Everything a read of a tracked cell does to the state: nothing, or it records the fault and draws a value. -/
theorem readCell_snd {w : Nat} (c : Option (BitVec w)) (s : State) :
    (readCell c s).2 =
      (s.withFaults (if c.isSome then s.faults else s.faults.add .unspecifiedRead)).withFresh
        (if c.isSome then s.fresh else s.fresh + 1) := by
  cases c <;> rfl

theorem electEp_snd (p : List (Fin 16)) (s : State) :
    (electEp p s).2 = s.withFresh (if p.length = 1 then s.fresh else s.fresh + 1) := by
  match p with
  | [] | [_] | _ :: _ :: _ => simp [electEp, drawn] <;> rfl

theorem readIstr_snd (s : State) :
    (readIstr s).2 = s.withFresh (if (pending s).length = 1 then s.fresh else s.fresh + 1) := electEp_snd ..

/-- The election names a member of `P` (R27). -/
theorem electEp_mem (p : List (Fin 16)) (s : State) (h : p ≠ []) : (electEp p s).1.toFin ∈ p := by
  match p, h with
  | [i], _ => simp [electEp]
  | i :: j :: r, _ =>
    simp only [electEp, BitVec.toFin_ofFin]
    have hlt : Config.choice s.fresh % (r.length + 2) < (i :: j :: r).length :=
      Nat.mod_lt (Config.choice s.fresh) (Nat.zero_lt_succ _)
    rw [List.getD_eq_getElem _ _ hlt]
    exact List.getElem_mem hlt

theorem mem_pending {s : State} {i : Fin 16} :
    i ∈ pending s ↔ i.val < s.cfg.nEp ∧ (ctrRx s.epr[i] = true ∨ ctrTx s.epr[i] = true) := by
  have h : i ∈ indices := by revert i; decide
  simp [pending, h]

theorem readFnr_snd (s : State) : (readFnr s).2 = drawn (readCell s.fn s).2 := rfl

/-- The low eleven bits of `FNR` are `FN` (R30). -/
theorem readFnr_frame (s : State) : (readFnr s).1.2 = (readCell s.fn s).1 := rfl

theorem advanceFba_eq (off : Word) (size : Nat) (s : State) :
    advanceFba off size s =
      (s.withFaults (if s.cfg.pmaSize < off.toNat + roundSize size then s.faults.add .arenaOverflow else s.faults)).withFba
        (some (BitVec.ofNat 16 (off.toNat + roundSize size))) := by
  unfold advanceFba; split <;> rfl

theorem enterDispatcher_eq (s : State) :
    enterDispatcher s = ((readIstr s).2.withSnap (readIstr s).1).withDph (.ev .reset) := rfl

/-! ## Sizes (R111, R121, R122) -/

theorem roundSize_even (n : Nat) : roundSize n % 2 = 0 := by
  unfold roundSize; split <;> omega

theorem le_roundSize (n : Nat) : n ≤ roundSize n := by
  unfold roundSize; split <;> omega

end Sys2Proof.Machine
end

