-- ==== Sys2Proof/Laws/Bus.lean ====
section
/-! SUPPORT. The moves of the bus agent: what each can do, and what no move writes (R225). -/

namespace Sys2Proof.Machine

/-- What no move of the bus agent writes. -/
structure BusFrame (s t : State) : Prop where
  cfg : t.cfg = s.cfg
  sched : t.sched = s.sched
  fba : t.fba = s.fba
  conn : t.conn = s.conn
  suspended : t.suspended = s.suspended
  irqEn : t.irqEn = s.irqEn
  dph : t.dph = s.dph
  snap : t.snap = s.snap
  cur : t.cur = s.cur
  val : t.val = s.val
  din : t.din = s.din
  fgHeld : t.fgHeld = s.fgHeld
  dispHeld : t.dispHeld = s.dispHeld
  fgCmds : t.fgCmds = s.fgCmds
  cbCmds : t.cbCmds = s.cbCmds
  cbScript : t.cbScript = s.cbScript

namespace BusFrame

theorem refl (s : State) : BusFrame s s := by constructor <;> rfl

theorem trans {s t u : State} (h : BusFrame s t) (k : BusFrame t u) : BusFrame s u where
  cfg := k.cfg.trans h.cfg
  sched := k.sched.trans h.sched
  fba := k.fba.trans h.fba
  conn := k.conn.trans h.conn
  suspended := k.suspended.trans h.suspended
  irqEn := k.irqEn.trans h.irqEn
  dph := k.dph.trans h.dph
  snap := k.snap.trans h.snap
  cur := k.cur.trans h.cur
  val := k.val.trans h.val
  din := k.din.trans h.din
  fgHeld := k.fgHeld.trans h.fgHeld
  dispHeld := k.dispHeld.trans h.dispHeld
  fgCmds := k.fgCmds.trans h.fgCmds
  cbCmds := k.cbCmds.trans h.cbCmds
  cbScript := k.cbScript.trans h.cbScript

theorem readCell {w : Nat} (c : Option (BitVec w)) (s : State) : BusFrame s (Machine.readCell c s).2 := by
  rw [readCell_snd]
  exact { refl s with }

end BusFrame

/-- Everything a reception can do: nothing; only the record of an unwritten count word; or the packet. -/
theorem rxDone_cases {i : Fin 16} {setup : Bool} {d : List Byte} {s t : State} (h : rxDone i setup d s = .ok t) :
    t = s ∨ (rxReady i setup d.length s = true ∧ t = (readCell s.bd[i].rxenc s).2) ∨
    (rxReady i setup d.length s = true ∧ ∃ cap, rxCap (readCell s.bd[i].rxenc s).1 = some cap ∧ d.length ≤ cap ∧
      storePacket i setup d (readCell s.bd[i].rxenc s).2 = .ok t) := by
  unfold rxDone at h
  split at h
  · rename_i hr
    simp only at h
    split at h
    · rename_i cap hc
      split at h
      · rename_i hl
        exact .inr (.inr ⟨hr, cap, hc, hl, h⟩)
      · exact .inr (.inl ⟨hr, by simpa using h.symm⟩)
    · exact .inr (.inl ⟨hr, by simpa using h.symm⟩)
  · exact .inl (by simpa using h.symm)

/-- Storing a packet: the words, then the length and the register. -/
theorem storePacket_cases {i : Fin 16} {setup : Bool} {d : List Byte} {s t : State} (h : storePacket i setup d s = .ok t) :
    ∃ s1, writeWords (readCell s.bd[i].rxaddr s).1.toNat
        (rxWords d (unspecified 8 (readCell s.bd[i].rxaddr s).2)) (drawn (readCell s.bd[i].rxaddr s).2) = .ok s1 ∧
      t = setEpr i (eprAfterRx s1.epr[i] setup)
        (setBd i { s1.bd[i] with rxlen := some (BitVec.ofNat 10 d.length) } s1) := by
  simp only [storePacket] at h
  split at h
  · simp at h
  · rename_i s1 h1
    exact ⟨s1, h1, by simpa using h.symm⟩

/-- Everything a transmission can do: nothing, or the packet read, put out and completed. -/
theorem txDone_cases {i : Fin 16} {s t : State} (h : txDone i s = .ok t) :
    t = s ∨ (txReady i s = true ∧ ∃ bs s1,
      readWords (readCell s.bd[i].txaddr s).1.toNat
        (wordsOf ((readCell s.bd[i].txcount (readCell s.bd[i].txaddr s).2).1.extractLsb' 0 10).toNat)
        (readCell s.bd[i].txcount (readCell s.bd[i].txaddr s).2).2 = .ok (bs, s1) ∧
      t = setEpr i (eprAfterTx s1.epr[i]) (put (.sent i (s1.epr[i].getLsbD 6)
        (bs.take ((readCell s.bd[i].txcount (readCell s.bd[i].txaddr s).2).1.extractLsb' 0 10).toNat)) s1)) := by
  unfold txDone at h
  split at h
  · rename_i hr
    simp only at h
    split at h
    · simp at h
    · rename_i bs s1 h1
      exact .inr ⟨hr, bs, s1, h1, by simpa using h.symm⟩
  · exact .inl (by simpa using h.symm)

theorem writeWords_busFrame {off : Nat} {ws : List Word} {s t : State} (h : writeWords off ws s = .ok t) :
    BusFrame s t := by
  rw [writeWords_frame h]
  exact { BusFrame.refl s with }

theorem readWords_busFrame {off m : Nat} {bs : List Byte} {s t : State} (h : readWords off m s = .ok (bs, t)) :
    BusFrame s t := by
  rw [(readWords_frame h).1]
  exact { BusFrame.refl s with }

/-- No move writes the working cells, the dispatcher's state, or anything of the software agents (R225). -/
theorem busMove_frame {m : BusMove} {s t : State} (h : busMove m s = .ok t) : BusFrame s t := by
  cases m with
  | rxDone i setup d =>
    rcases rxDone_cases h with rfl | ⟨-, rfl⟩ | ⟨-, cap, -, -, h⟩
    · exact .refl _
    · exact .readCell ..
    · obtain ⟨s1, h1, rfl⟩ := storePacket_cases h
      refine (BusFrame.readCell s.bd[i].rxenc s).trans ((BusFrame.readCell _ _).trans (BusFrame.trans
        (t := drawn _) { BusFrame.refl _ with } ((writeWords_busFrame h1).trans ?_)))
      rw [setEpr_eq, setBd_eq]
      exact { BusFrame.refl _ with }
  | txDone i =>
    rcases txDone_cases h with rfl | ⟨-, bs, s1, h1, rfl⟩
    · exact .refl _
    · refine (BusFrame.readCell _ s).trans ((BusFrame.readCell _ _).trans ((readWords_busFrame h1).trans ?_))
      rw [setEpr_eq, put_eq]
      exact { BusFrame.refl _ with }
  | _ =>
    simp only [busMove, Except.ok.injEq] at h
    subst h
    split
    · first | exact .refl _ | exact { BusFrame.refl _ with }
    · first | exact .refl _ | exact { BusFrame.refl _ with }

end Sys2Proof.Machine
end

