-- ==== Sys2Proof/Laws/PerInstr.lean ====
section
/-! SUPPORT. Per instruction: the encoding carries the opcode the map of R85 gives the command, or the bit the table of R94 tests. -/

namespace Sys2Proof.Laws.FixedBits

/-- The opcode of a command (R85). -/
def opcode : Instr → Option (BitVec 8)
  | .init => some 0x01
  | .connect _ => some 0x02
  | .setAddr _ => some 0x03
  | .configEp _ _ _ => some 0x04
  | .enableEp _ => some 0x05
  | .disableEp _ => some 0x06
  | .resetEp _ => some 0x07
  | .stallEp _ => some 0x08
  | .clrStall _ => some 0x09
  | .readEp _ => some 0x0A
  | .writeEp _ _ => some 0x0B
  | .getFrame => some 0x0C
  | .setConfig _ => some 0x0D
  | .alloc _ => some 0x10
  | .setStatus _ _ _ => some 0x11
  | .istrReset | .istrSusp | .istrWkup | .istrSof | .istrPmaovr | .istrErr | .istrCtr _ => none

/-- The bit of the snapshot a row of R94 tests. -/
def snapBit : Instr → Option Nat
  | .istrReset => some 10
  | .istrSusp => some 11
  | .istrWkup => some 12
  | .istrSof => some 9
  | .istrPmaovr => some 14
  | .istrErr => some 13
  | .istrCtr _ => some 15
  | .init | .connect _ | .setAddr _ | .configEp _ _ _ | .enableEp _ | .disableEp _ | .resetEp _ | .stallEp _
  | .clrStall _ | .readEp _ | .writeEp _ _ | .getFrame | .setConfig _ | .alloc _ | .setStatus _ _ _ => none

/-- A command's word has its opcode in bits 31:24; a snapshot's word has its bit set. -/
def Statement (i : Instr) : Prop :=
  match encode i with
  | .cmd w  => opcode i = some (w.extractLsb' 24 8)
  | .snap w => ∃ k, snapBit i = some k ∧ w.getLsbD k = true

theorem opcode_cmdWord (op ep : BitVec 8) (arg : Word) : (op ++ ep ++ arg).extractLsb' 24 8 = op := by
  apply BitVec.eq_of_getLsbD_eq
  intro k hk
  rw [BitVec.getLsbD_extractLsb', BitVec.getLsbD_append, BitVec.getLsbD_append]
  have h1 : ¬ 24 + k < 16 := by omega
  have h2 : ¬ 24 + k - 16 < 8 := by omega
  have h3 : 24 + k - 16 - 8 = k := by omega
  simp [hk, h1, h2, h3]

theorem init : Statement (.init) := congrArg some (opcode_cmdWord ..).symm

theorem connect (en : Bool) : Statement (.connect en) := congrArg some (opcode_cmdWord ..).symm

theorem setAddr (a : BitVec 7) : Statement (.setAddr a) := congrArg some (opcode_cmdWord ..).symm

theorem configEp (ep : EpId) (t : EpType) (mps : BitVec 11) : Statement (.configEp ep t mps) := congrArg some (opcode_cmdWord ..).symm

theorem enableEp (ep : EpId) : Statement (.enableEp ep) := congrArg some (opcode_cmdWord ..).symm

theorem disableEp (ep : EpId) : Statement (.disableEp ep) := congrArg some (opcode_cmdWord ..).symm

theorem resetEp (ep : EpId) : Statement (.resetEp ep) := congrArg some (opcode_cmdWord ..).symm

theorem stallEp (ep : EpId) : Statement (.stallEp ep) := congrArg some (opcode_cmdWord ..).symm

theorem clrStall (ep : EpId) : Statement (.clrStall ep) := congrArg some (opcode_cmdWord ..).symm

theorem readEp (ep : EpId) : Statement (.readEp ep) := congrArg some (opcode_cmdWord ..).symm

theorem writeEp (ep : EpId) (n : BitVec 10) : Statement (.writeEp ep n) := congrArg some (opcode_cmdWord ..).symm

theorem getFrame : Statement (.getFrame) := congrArg some (opcode_cmdWord ..).symm

theorem setConfig (c : BitVec 8) : Statement (.setConfig c) := congrArg some (opcode_cmdWord ..).symm

theorem alloc (n : Word) : Statement (.alloc n) := congrArg some (opcode_cmdWord ..).symm

theorem setStatus (ep : EpId) (r : Status) (t : Status) : Statement (.setStatus ep r t) := congrArg some (opcode_cmdWord ..).symm

theorem istrReset : Statement .istrReset := ⟨10, rfl, by decide⟩

theorem istrSusp : Statement .istrSusp := ⟨11, rfl, by decide⟩

theorem istrWkup : Statement .istrWkup := ⟨12, rfl, by decide⟩

theorem istrSof : Statement .istrSof := ⟨9, rfl, by decide⟩

theorem istrPmaovr : Statement .istrPmaovr := ⟨14, rfl, by decide⟩

theorem istrErr : Statement .istrErr := ⟨13, rfl, by decide⟩

theorem istrCtr (i : Fin 16) : Statement (.istrCtr i) := ⟨15, rfl, by revert i; decide⟩

end Sys2Proof.Laws.FixedBits
end

