-- ==== Sys2Proof/Laws/Run.lean ====
section
/-! SUPPORT. Running accesses: undisturbed boundaries, one access at a time, and what no access ever writes. -/

namespace Sys2Proof.Machine

/-! ## Undisturbed boundaries -/

theorem State.calm_zero (s : State) : s.calm 0 := by simp [State.calm]

theorem State.calm_of_le {m n : Nat} {s : State} (h : s.calm n) (hmn : m ≤ n) : s.calm m := by
  intro c hc
  exact h c (List.take_subset_take_left _ hmn hc)

theorem State.later_zero (s : State) : s.later 0 = s := rfl

theorem State.later_later (m n : Nat) (s : State) : (s.later m).later n = s.later (m + n) := by
  simp [State.later, State.withSched, List.drop_drop]

theorem State.calm_later {m n : Nat} {s : State} (h : s.calm (m + n)) : (s.later m).calm n := by
  intro c hc
  simp only [State.later, State.withSched_sched] at hc
  refine h c ?_
  rw [List.take_add]
  exact List.mem_append_right _ hc

/-- Whether boundaries are calm depends on the schedule alone. -/
theorem State.calm_congr {n : Nat} {s t : State} (h : t.sched = s.sched) (hs : s.calm n) : t.calm n := by
  simpa [State.calm, h] using hs

theorem boundary_calm {s : State} (h : s.calm 1) : boundary s = .ok (s.later 1, false) := by
  unfold boundary State.later
  rcases hs : s.sched with _ | ⟨c, cs⟩
  · rfl
  · have : c = .go := h c (by simp [hs])
    subst this; rfl

/-- Inside the dispatcher nothing preempts: no second invocation starts (R179). -/
theorem othersMove_of_not_idle {cs : List Choice} {s t : State} {b : Bool} (hd : s.dph ≠ .idle)
    (hb : ∀ m s t, busMove m s = .ok t → t.dph = s.dph) (h : othersMove cs s = .ok (t, b)) : b = false := by
  induction cs generalizing s with
  | nil => simp [othersMove] at h; exact h.2
  | cons c cs ih =>
    cases c with
    | go => simp [othersMove] at h; exact h.2
    | irq =>
      have : canStart s = false := by simp [canStart, hd]
      simp only [othersMove, this, Bool.false_eq_true, if_false] at h
      exact ih hd h
    | bus m =>
      simp only [othersMove] at h
      split at h
      · simp at h
      · rename_i s1 hm
        exact ih (by rw [hb _ _ _ hm]; exact hd) h

/-! ## One access at a time -/

theorem run_nil (l : Locals) (fin : Finish) (s : State) : run [] l fin s = .ok (finish fin l s) := rfl

/-- The last access, one that is no copy loop and no callback. -/
theorem run_last {a : Access} {l l1 : Locals} {fin : Finish} {s s1 : State} (he : a.isEmit = false)
    (h : performAll a l s = .ok (.whole l1 s1)) : run [a] l fin s = .ok (finish fin l1 s1) := by
  simp [run, h, he]

/-- An access before another one, with an undisturbed boundary between. -/
theorem run_cons_calm {a b : Access} {as : List Access} {l l1 : Locals} {fin : Finish} {s s1 : State}
    (he : a.isEmit = false) (h : performAll a l s = .ok (.whole l1 s1)) (hc : s1.calm 1) :
    run (a :: b :: as) l fin s = run (b :: as) l1 fin (s1.later 1) := by
  rw [run, h]
  simp [he, boundary_calm hc]

/-- A callback whose handler issues no command is an access like any other. -/
theorem run_emit_calm {a b : Access} {as : List Access} {l l1 : Locals} {fin : Finish} {s s1 : State}
    (h : performAll a l s = .ok (.whole l1 s1)) (hn : s1.cbCmds = []) (hc : s1.calm 1) :
    run (a :: b :: as) l fin s = run (b :: as) l1 fin (s1.later 1) := by
  rw [run, h]
  simp [hn, boundary_calm hc]

theorem run_emit_last {a : Access} {l l1 : Locals} {fin : Finish} {s s1 : State}
    (h : performAll a l s = .ok (.whole l1 s1)) (hn : s1.cbCmds = []) :
    run [a] l fin s = .ok (finish fin l1 s1) := by
  simp [run, h, hn]

/-- An access whose boundary brings the dispatcher: the rest is held with the values read (R71). -/
theorem run_cons_preempted {a b : Access} {as : List Access} {l l1 : Locals} {fin : Finish} {s s1 s2 : State}
    (he : a.isEmit = false) (h : performAll a l s = .ok (.whole l1 s1)) (hb : boundary s1 = .ok (s2, true)) :
    run (a :: b :: as) l fin s = .ok (s2.withFgHeld (some ⟨b :: as, l1, fin⟩)) := by
  rw [run, h]
  simp [he, hb]

/-- An access that is no copy loop is performed whole. -/
theorem performAll_of_perform {a : Access} {l l1 : Locals} {s s1 : State} (hl : ∀ k, a ≠ .load k)
    (h : perform a l s = .ok (l1, s1)) : performAll a l s = .ok (.whole l1 s1) := by
  cases a <;> first | exact absurd rfl (hl _) | simp [performAll, h]

/-! ## The schedule and an access -/

theorem readCell_withSched {w : Nat} (c : Option (BitVec w)) (s : State) (cs : List Choice) :
    readCell c (s.withSched cs) = ((readCell c s).1, (readCell c s).2.withSched cs) := by cases c <;> rfl

theorem memRead_withSched (off : Nat) (s : State) (cs : List Choice) :
    memRead off (s.withSched cs) = (memRead off s).map fun p => (p.1, p.2.withSched cs) := by
  unfold memRead readByte
  split
  · rfl
  · simp only [State.withSched_cfg]
    by_cases h : s.cfg.pmaSize < off + 2 <;>
      simp only [h, if_true, if_false, Except.map, State.withSched_pma, readCell_withSched]; rfl

theorem memWrite_withSched (off : Nat) (v : Word) (s : State) (cs : List Choice) :
    memWrite off v (s.withSched cs) = (memWrite off v s).map fun t => t.withSched cs := by
  unfold memWrite
  split
  · rfl
  · simp only [State.withSched_cfg]
    by_cases h : s.cfg.pmaSize < off + 2 <;> (simp only [h, if_true, if_false]; rfl)

/-- An access neither reads nor writes the schedule. -/
theorem perform_withSched (a : Access) (l : Locals) (s : State) (cs : List Choice) :
    perform a l (s.withSched cs) = (perform a l s).map fun p => (p.1, p.2.withSched cs) := by
  cases a with
  | load k =>
    simp only [perform, loadWord, memRead_withSched]
    cases memRead (l.off.toNat + 2 * k) s <;> rfl
  | store k w =>
    simp only [perform, memWrite_withSched]
    cases memWrite (l.off.toNat + 2 * k) w s <;> rfl
  | readFnr => simp only [perform, readFnr, State.withSched_fn, readCell_withSched]; rfl
  | readFba => simp only [perform, State.withSched_fba, readCell_withSched]; rfl
  | readTxaddr i => simp only [perform, State.withSched_bd, readCell_withSched]; rfl
  | readRxaddr i => simp only [perform, State.withSched_bd, readCell_withSched]; rfl
  | readRxlen i => simp only [perform, State.withSched_bd, readCell_withSched]; rfl
  | emitEp i ev =>
    simp only [perform, emit, State.withSched_cfg, State.withSched_cbScript, Except.map]
    cases s.cfg.epHandlers[i] <;> [rfl; (cases s.cbScript <;> rfl)]
  | emitBus ev =>
    simp only [perform, emit, State.withSched_cfg, State.withSched_cbScript, Except.map]
    cases busHandler s.cfg ev <;> [rfl; (cases s.cbScript <;> rfl)]
  | writeFba n =>
    simp only [perform, advanceFba, State.withSched_cfg, Except.map]
    by_cases h : s.cfg.pmaSize < l.off.toNat + roundSize n <;> (simp only [h, if_true, if_false]; rfl)
  | writeEpr i w | writeStatus i f w | writeAnd i w =>
    simp only [perform, writeEpr, setEpr, State.withSched_cfg, State.withSched_epr, Except.map]
    by_cases h : i.val < s.cfg.nEp <;> (simp only [h, if_true, if_false]; try rfl)
  | writeTxaddr i | writeRxaddr i | writeRxenc i w | writeTxcount i w =>
    simp only [perform, setBd, State.withSched_cfg, State.withSched_bd, Except.map]
    by_cases h : i.val < s.cfg.nEp <;> (simp only [h, if_true, if_false]; try rfl)
  | _ => rfl

theorem memRead_fields {off : Nat} {w : Word} {s t : State} (h : memRead off s = .ok (w, t)) :
    t = (s.withFaults t.faults).withFresh t.fresh := by
  conv_lhs => rw [memRead_frame h]
  rfl

theorem memWrite_fields {off : Nat} {v : Word} {s t : State} (h : memWrite off v s = .ok t) :
    t = (s.withPma t.pma).withFaults t.faults := by
  conv_lhs => rw [memWrite_frame h]
  rfl

theorem emit_eq (o : Output) (h : Handler) (s : State) :
    emit o h s =
      ((s.withOut (s.out ++ [o])).withCbCmds
        (if h = .installed then (s.cbScript.head?).getD s.cbCmds else s.cbCmds)).withCbScript
        (if h = .installed then s.cbScript.tail else s.cbScript) := by
  unfold emit
  cases h with
  | noop => rfl
  | installed => cases hs : s.cbScript <;> simp [put, State.withOut, State.withCbCmds, State.withCbScript, hs]

/-- A callback that issues no command is its output, and an installed handler's empty sequence is used up (R192, R193). -/
theorem emit_silent {o : Output} {h : Handler} {s : State} (hs : s.silent h) (hc : s.cbCmds = []) :
    emit o h s = (put o s).withCbScript (s.scriptAfter h) := by
  unfold emit State.scriptAfter
  cases h with
  | noop => rfl
  | installed =>
    cases hcs : s.cbScript with
    | nil => simp [put, State.withOut, State.withCbScript, hcs]
    | cons c rest =>
      have : c = [] := by simpa [State.silent, hcs] using hs
      simp [put, State.withOut, State.withCbCmds, State.withCbScript, this, hc]

/-- A callback whose handler is installed and has a next sequence issues it (R192). -/
theorem emit_issues {o : Output} {s : State} {c : List Request} {rest : List (List Request)} (hs : s.cbScript = c :: rest) :
    emit o .installed s = ((put o s).withCbCmds c).withCbScript rest := by
  simp [emit, hs]

/-! ## What each access can write -/

def Access.writesCntr : Access → Bool
  | .writeCntr _ | .finishConnect _ | .forceSuspend | .endSuspend => true
  | _ => false

def Access.writesIstr : Access → Bool
  | .writeIstr _ => true
  | _ => false

def Access.writesDaddr : Access → Bool
  | .setAddr _ | .defaultAddress => true
  | _ => false

/-- The endpoint register an access writes. -/
def Access.eprIndex : Access → Option (Fin 16)
  | .writeEpr i _ | .writeStatus i _ _ | .writeAnd i _ => some i
  | _ => none

def Access.writesBd : Access → Bool
  | .writeTxaddr _ | .writeRxaddr _ | .writeRxenc _ _ | .writeTxcount _ _ | .unwriteOthers => true
  | _ => false

def Access.isStore : Access → Bool
  | .store _ _ => true
  | _ => false

def Access.isLoad : Access → Bool
  | .load _ => true
  | _ => false

def Access.writesFba : Access → Bool
  | .zeroFba | .writeFba _ => true
  | _ => false

def Access.writesConn : Access → Bool
  | .finishConnect _ | .setAddr _ | .setConfig _ | .defaultAddress => true
  | _ => false

def Access.writesSuspended : Access → Bool
  | .finishConnect _ | .forceSuspend | .endSuspend | .defaultAddress => true
  | _ => false

def Access.isEnableIrq : Access → Bool
  | .enableIrq => true
  | _ => false

def Access.isLatch : Access → Bool
  | .latch _ => true
  | _ => false

/-- What an access from `s` to `t` leaves as it is, field by field. -/
structure Access.Frame (a : Access) (s t : State) : Prop where
  cfg : t.cfg = s.cfg
  sched : t.sched = s.sched
  dph : t.dph = s.dph
  snap : t.snap = s.snap
  din : t.din = s.din
  fgHeld : t.fgHeld = s.fgHeld
  dispHeld : t.dispHeld = s.dispHeld
  fgCmds : t.fgCmds = s.fgCmds
  fn : t.fn = s.fn
  cbCmds : a.isEmit = false → t.cbCmds = s.cbCmds
  cbScript : a.isEmit = false → t.cbScript = s.cbScript
  cntr : a.writesCntr = false → t.cntr = s.cntr
  istr : a.writesIstr = false → t.istr = s.istr
  daddr : a.writesDaddr = false → t.daddr = s.daddr
  epr : a.eprIndex = none → t.epr = s.epr
  eprOther : ∀ j : Fin 16, a.eprIndex ≠ some j → t.epr[j] = s.epr[j]
  bd : a.writesBd = false → t.bd = s.bd
  pma : a.isStore = false → t.pma = s.pma
  fba : a.writesFba = false → t.fba = s.fba
  conn : a.writesConn = false → t.conn = s.conn
  suspended : a.writesSuspended = false → t.suspended = s.suspended
  irqEn : a.isEnableIrq = false → t.irqEn = s.irqEn
  cur : a.isLatch = false → t.cur = s.cur
  val : a.isLatch = false → t.val = s.val

namespace Access.Frame

theorem refl (a : Access) (s : State) : a.Frame s s := by constructor <;> intros <;> rfl

theorem trans {a : Access} {s t u : State} (h : a.Frame s t) (k : a.Frame t u) : a.Frame s u where
  cfg := k.cfg.trans h.cfg
  sched := k.sched.trans h.sched
  dph := k.dph.trans h.dph
  snap := k.snap.trans h.snap
  din := k.din.trans h.din
  fgHeld := k.fgHeld.trans h.fgHeld
  dispHeld := k.dispHeld.trans h.dispHeld
  fgCmds := k.fgCmds.trans h.fgCmds
  fn := k.fn.trans h.fn
  cbCmds := fun e => (k.cbCmds e).trans (h.cbCmds e)
  cbScript := fun e => (k.cbScript e).trans (h.cbScript e)
  cntr := fun e => (k.cntr e).trans (h.cntr e)
  istr := fun e => (k.istr e).trans (h.istr e)
  daddr := fun e => (k.daddr e).trans (h.daddr e)
  epr := fun e => (k.epr e).trans (h.epr e)
  eprOther := fun j e => (k.eprOther j e).trans (h.eprOther j e)
  bd := fun e => (k.bd e).trans (h.bd e)
  pma := fun e => (k.pma e).trans (h.pma e)
  fba := fun e => (k.fba e).trans (h.fba e)
  conn := fun e => (k.conn e).trans (h.conn e)
  suspended := fun e => (k.suspended e).trans (h.suspended e)
  irqEn := fun e => (k.irqEn e).trans (h.irqEn e)
  cur := fun e => (k.cur e).trans (h.cur e)
  val := fun e => (k.val e).trans (h.val e)

variable {a : Access} (s : State)

theorem withCntr (h : a.writesCntr = true) (v) : a.Frame s (s.withCntr v) :=
  { refl a s with cntr := fun e => by simp [h] at e }

theorem withIstr (h : a.writesIstr = true) (v) : a.Frame s (s.withIstr v) :=
  { refl a s with istr := fun e => by simp [h] at e }

theorem withDaddr (h : a.writesDaddr = true) (v) : a.Frame s (s.withDaddr v) :=
  { refl a s with daddr := fun e => by simp [h] at e }

theorem withBdAll (h : a.writesBd = true) (v) : a.Frame s (s.withBdAll v) :=
  { refl a s with bd := fun e => by simp [h] at e }

theorem withPma (h : a.isStore = true) (v) : a.Frame s (s.withPma v) :=
  { refl a s with pma := fun e => by simp [h] at e }

theorem withFba (h : a.writesFba = true) (v) : a.Frame s (s.withFba v) :=
  { refl a s with fba := fun e => by simp [h] at e }

theorem withConn (h : a.writesConn = true) (v) : a.Frame s (s.withConn v) :=
  { refl a s with conn := fun e => by simp [h] at e }

theorem withSuspended (h : a.writesSuspended = true) (v) : a.Frame s (s.withSuspended v) :=
  { refl a s with suspended := fun e => by simp [h] at e }

theorem withIrqEn (h : a.isEnableIrq = true) (v) : a.Frame s (s.withIrqEn v) :=
  { refl a s with irqEn := fun e => by simp [h] at e }

theorem withCur (h : a.isLatch = true) (v) : a.Frame s (s.withCur v) :=
  { refl a s with cur := fun e => by simp [h] at e }

theorem withVal (h : a.isLatch = true) (v) : a.Frame s (s.withVal v) :=
  { refl a s with val := fun e => by simp [h] at e }

theorem withCbCmds (h : a.isEmit = true) (v) : a.Frame s (s.withCbCmds v) :=
  { refl a s with cbCmds := fun e => by simp [h] at e }

theorem withCbScript (h : a.isEmit = true) (v) : a.Frame s (s.withCbScript v) :=
  { refl a s with cbScript := fun e => by simp [h] at e }

theorem withFaults (v) : a.Frame s (s.withFaults v) := { refl a s with }

theorem withFresh (v) : a.Frame s (s.withFresh v) := { refl a s with }

theorem withOut (v) : a.Frame s (s.withOut v) := { refl a s with }

theorem writeEpr {i : Fin 16} (h : a.eprIndex = some i) (w : Word) : a.Frame s (Machine.writeEpr i w s) := by
  rw [writeEpr_eq]
  refine { refl a s with epr := fun e => by simp [h] at e, eprOther := fun j hj => ?_ }
  rw [h, ne_eq, Option.some.injEq] at hj
  simp only [State.withEprAll_epr]
  split
  · have : i.val ≠ j.val := fun e => hj (Fin.ext e)
    simp [this]
  · rfl

theorem readCell {w : Nat} (c : Option (BitVec w)) : a.Frame s (Machine.readCell c s).2 := by
  rw [readCell_snd]
  exact (withFaults s _).trans (withFresh _ _)

theorem emit (h : a.isEmit = true) (o : Output) (d : Handler) : a.Frame s (Machine.emit o d s) := by
  rw [emit_eq]
  exact ((withOut s _).trans (withCbCmds _ h _)).trans (withCbScript _ h _)

end Access.Frame

open Access.Frame in
theorem perform_frame {a : Access} {l l1 : Locals} {s t : State} (h : perform a l s = .ok (l1, t)) : a.Frame s t := by
  cases a with
  | load k =>
    simp only [perform, loadWord] at h
    split at h
    · simp at h
    · rename_i s1 h1
      split at h1
      · simp at h1
      · rename_i w s2 h2
        simp only [Except.ok.injEq, Prod.mk.injEq] at h h1
        rw [← h.2, ← h1, memRead_fields h2]
        exact (((withFaults s _).trans (withFresh _ _)).trans (withOut _ _)).trans (withOut _ _)
  | store k w =>
    simp only [perform] at h
    split at h
    · simp at h
    · rename_i s1 h1
      simp only [Except.ok.injEq, Prod.mk.injEq] at h
      rw [← h.2, memWrite_fields h1]
      exact (withPma s rfl _).trans (withFaults _ _)
  | _ =>
    simp only [perform, Except.ok.injEq, Prod.mk.injEq] at h
    obtain ⟨-, rfl⟩ := h
    first
      | exact refl _ s
      | exact Access.Frame.writeEpr s rfl _
      | exact Access.Frame.readCell s _
      | exact Access.Frame.emit s rfl _ _
      | exact withIrqEn s rfl _
      | exact withCntr s rfl _
      | exact withIstr s rfl _
      | exact withFba s rfl _
      | exact withConn s rfl _
      | exact withBdAll s rfl _
      | (rw [setBd_eq]; exact withBdAll s rfl _)
      | (rw [advanceFba_eq]; exact (withFaults s _).trans (withFba _ rfl _))
      | exact (Access.Frame.readCell s _).trans (withFresh _ _)
      | exact (withCntr s rfl _).trans (withSuspended _ rfl _)
      | exact (withDaddr s rfl _).trans (withConn _ rfl _)
      | exact (withCur s rfl _).trans (withVal _ rfl _)
      | exact ((withCntr s rfl _).trans (withConn _ rfl _)).trans (withSuspended _ rfl _)
      | exact ((withDaddr s rfl _).trans (withConn _ rfl _)).trans (withSuspended _ rfl _)

/-! ## A list of accesses with nothing coming between -/

/-- The handler an access calls. -/
def Access.handler (c : Config) : Access → Handler
  | .emitEp i _ => c.epHandlers[i]
  | .emitBus ev => busHandler c ev
  | _ => .noop

/-- The accesses of a list, one after another, and nothing else. -/
def performList : List Access → Locals → State → Except Refusal (Locals × State)
  | [], l, s => .ok (l, s)
  | a :: as, l, s =>
    match perform a l s with
    | .error r => .error r
    | .ok (l1, s1) => performList as l1 s1

theorem perform_sched_eq {a : Access} {l l1 : Locals} {s t : State} (h : perform a l s = .ok (l1, t)) (n : Nat) :
    perform a l (s.later n) = .ok (l1, t.later n) := by
  rw [State.later, perform_withSched, h]
  simp [Except.map, State.later, (perform_frame h).sched]

theorem performList_later (as : List Access) (l : Locals) (s : State) (n : Nat) :
    performList as l (s.later n) = (performList as l s).map fun p => (p.1, p.2.later n) := by
  induction as generalizing l s with
  | nil => rfl
  | cons a as ih =>
    simp only [performList]
    cases hp : perform a l s with
    | error r =>
      rw [State.later, perform_withSched, hp]
      rfl
    | ok p =>
      rw [perform_sched_eq hp n]
      exact ih p.1 p.2

/-- A callback whose handler issues no command leaves none to be issued. -/
theorem perform_callback {a : Access} {l l1 : Locals} {s t : State} (h : perform a l s = .ok (l1, t))
    (hc : a.isEmit = true → s.cbCmds = []) (he : a.isEmit = true → s.silent (a.handler s.cfg)) : t.cbCmds = s.cbCmds := by
  cases a with
  | emitEp i ev | emitBus ev =>
    simp only [perform, Except.ok.injEq, Prod.mk.injEq] at h
    obtain ⟨-, rfl⟩ := h
    have := he rfl
    simp only [Access.handler] at this
    rw [emit_silent this (hc rfl)]
    rfl
  | _ => exact (perform_frame h).cbCmds rfl

/-- An element that is no copy loop is made whole. -/
theorem performAll_whole {a : Access} {l : Locals} {s : State} (h : a.isLoad = false) :
    performAll a l s =
      match perform a l s with
      | .error r => .error r
      | .ok (l1, s1) => .ok (.whole l1 s1) := by
  cases a <;> first | rfl | simp [Access.isLoad] at h

/-- Undisturbed, a list of accesses without a copy loop and with at most one callback, one that issues no command, is its
accesses in order; one boundary is used up between each two. -/
theorem run_calm {as : List Access} {l : Locals} {fin : Finish} {s : State} (hl : ∀ a ∈ as, a.isLoad = false)
    (hcb : (∃ a ∈ as, a.isEmit = true) → s.cbCmds = []) (hs : ∀ a ∈ as, a.isEmit = true → s.silent (a.handler s.cfg))
    (h1 : as.countP Access.isEmit ≤ 1) (hc : s.calm (as.length - 1)) :
    run as l fin s = (performList as l s).map fun p => finish fin p.1 (p.2.later (as.length - 1)) := by
  induction as generalizing l s with
  | nil => rfl
  | cons a as ih =>
    have hal := hl a List.mem_cons_self
    rw [run]
    rw [performAll_whole hal, performList]
    cases hp : perform a l s with
    | error r => rfl
    | ok p =>
      obtain ⟨l1, s1⟩ := p
      have hf := perform_frame hp
      have hcs := perform_callback hp (fun e => hcb ⟨a, List.mem_cons_self, e⟩) (hs a List.mem_cons_self)
      have hnot : (a.isEmit && !s1.cbCmds.isEmpty) = false := by
        cases hae : a.isEmit with
        | false => rfl
        | true => simp [hcs, hcb ⟨a, List.mem_cons_self, hae⟩]
      simp only [hnot, Bool.false_eq_true, if_false]
      cases as with
      | nil => simp [performList, Except.map, State.later_zero]
      | cons b bs =>
        have hc1 : s1.calm 1 := State.calm_congr hf.sched (State.calm_of_le hc (by simp))
        simp only [boundary_calm hc1]
        have hsched : (s1.later 1).sched = s.sched.drop 1 := by simp [State.later, hf.sched]
        rw [ih (fun x hx => hl x (List.mem_cons_of_mem _ hx)) ?_ ?_ (le_trans (by simp [List.countP_cons]) h1) ?_]
        · have : performList (b :: bs) l1 (s1.later 1) =
              (performList (b :: bs) l1 s1).map fun p => (p.1, p.2.later 1) := performList_later ..
          rw [this]
          cases performList (b :: bs) l1 s1 with
          | error r => rfl
          | ok q => simp [Except.map, State.later_later, Nat.add_comm]
        · rintro ⟨x, hx, hxe⟩
          simpa [State.later, hcs] using hcb ⟨x, List.mem_cons_of_mem _ hx, hxe⟩
        · intro x hx hxe
          have hae : a.isEmit = false := by
            by_contra hae
            have : 0 < (b :: bs).countP Access.isEmit := List.countP_pos_iff.mpr ⟨x, hx, hxe⟩
            simp only [Bool.not_eq_false] at hae
            rw [List.countP_cons_of_pos hae] at h1
            omega
          simpa [State.silent, State.later, hf.cbScript hae, hf.cfg] using hs x (List.mem_cons_of_mem _ hx) hxe
        · refine State.calm_later (m := 1) (State.calm_congr hf.sched ?_)
          simpa [Nat.add_comm] using hc
/-- Undisturbed, accesses up to a callback that issues commands are made in order, and then the rest is held with the
values read (R192). -/
theorem run_calm_emit {as bs : List Access} {a : Access} {l : Locals} {fin : Finish} {s : State} {c : List Request}
    {rest : List (List Request)} (hl : ∀ x ∈ as, x.isLoad = false) (hn : ∀ x ∈ as, x.isEmit = false) (ha : a.isEmit = true)
    (hi : a.handler s.cfg = .installed) (hcs : s.cbScript = c :: rest) (hne : c ≠ []) (hc : s.calm as.length) :
    run (as ++ a :: bs) l fin s =
      (performList (as ++ [a]) l s).map fun p => (p.2.later as.length).withDispHeld (some ⟨bs, p.1, fin⟩) := by
  induction as generalizing l s with
  | nil =>
    cases a with
    | emitEp i ev | emitBus ev =>
      simp only [Access.handler] at hi
      simp [run, performAll, performList, perform, hi, emit_issues hcs, Access.isEmit, hne, Except.map, State.later_zero]
    | _ => simp [Access.isEmit] at ha
  | cons x as ih =>
    have hxl := hl x List.mem_cons_self
    have hxn := hn x List.mem_cons_self
    rw [List.cons_append, run]
    rw [performAll_whole hxl, List.cons_append, performList]
    cases hp : perform x l s with
    | error r => rfl
    | ok p =>
      obtain ⟨l1, s1⟩ := p
      have hf := perform_frame hp
      have hc1 : s1.calm 1 := State.calm_congr hf.sched (State.calm_of_le hc (by simp))
      have hrun : run (as ++ a :: bs) l1 fin (s1.later 1) =
          (performList (as ++ [a]) l1 (s1.later 1)).map fun p =>
            (p.2.later as.length).withDispHeld (some ⟨bs, p.1, fin⟩) := by
        refine ih (fun y hy => hl y (List.mem_cons_of_mem _ hy)) (fun y hy => hn y (List.mem_cons_of_mem _ hy)) ?_ ?_ ?_
        · simpa [State.later, hf.cfg] using hi
        · simpa [State.later, hf.cbScript hxn] using hcs
        · refine State.calm_later (m := 1) (State.calm_congr hf.sched ?_)
          simpa [Nat.add_comm] using hc
      have hlater : performList (as ++ [a]) l1 (s1.later 1) =
          (performList (as ++ [a]) l1 s1).map fun p => (p.1, p.2.later 1) := performList_later ..
      obtain ⟨b, ds, hbd⟩ : ∃ b ds, as ++ a :: bs = b :: ds := by cases as <;> exact ⟨_, _, rfl⟩
      simp only [hxn, Bool.false_and, Bool.false_eq_true, if_false]
      rw [hbd] at hrun ⊢
      simp only [boundary_calm hc1]
      rw [hrun, hlater]
      cases performList (as ++ [a]) l1 s1 with
      | error r => rfl
      | ok q => simp [Except.map, State.later_later, Nat.add_comm]

end Sys2Proof.Machine
end

