-- ==== Sys2Proof/Laws/Schedule.lean ====
section
/-! SUPPORT. Induction over every schedule: what holds after a list of accesses, whatever the other agents do between them. -/

namespace Sys2Proof.Machine

/-- What holds at a boundary still holds after it, if the moves on the schedule, the start of the dispatcher and the
using up of the schedule keep it. -/
theorem othersMove_rec {P : State → Prop}
    (hbus : ∀ m s t, Choice.bus m ∈ s.sched → busMove m s = .ok t → P s → P t)
    (henter : ∀ s, canStart s = true → P s → P (enterDispatcher s))
    (hsched : ∀ s cs, (∀ c ∈ cs, c ∈ s.sched) → P s → P (s.withSched cs))
    {cs : List Choice} {s t : State} {b : Bool} (hc : ∀ c ∈ cs, c ∈ s.sched) (hs : P s)
    (h : othersMove cs s = .ok (t, b)) : P t := by
  induction cs generalizing s with
  | nil =>
    simp only [othersMove, Except.ok.injEq, Prod.mk.injEq] at h
    rw [← h.1]
    exact hsched _ _ (by simp) hs
  | cons c cs ih =>
    have hcs : ∀ x ∈ cs, x ∈ s.sched := fun x hx => hc x (List.mem_cons_of_mem _ hx)
    cases c with
    | go =>
      simp only [othersMove, Except.ok.injEq, Prod.mk.injEq] at h
      rw [← h.1]
      exact hsched _ _ hcs hs
    | bus m =>
      simp only [othersMove] at h
      split at h
      · simp at h
      · rename_i s1 hm
        refine ih (fun x hx => ?_) (hbus m s s1 (hc _ List.mem_cons_self) hm hs) h
        rw [(busMove_frame hm).sched]
        exact hcs x hx
    | irq =>
      simp only [othersMove] at h
      split at h
      · rename_i hst
        simp only [Except.ok.injEq, Prod.mk.injEq] at h
        rw [← h.1]
        refine hsched _ _ (fun x hx => ?_) (henter s hst hs)
        rw [enterDispatcher_eq]
        simpa [readIstr_snd] using hcs x hx
      · exact ih hcs hs h

/-- What holds after a list of accesses, whatever comes between them: `Q` of the values read and the state is kept by
every access that may occur (`A`), and at every boundary; `R` holds of every way the list can be left. -/
theorem run_rec {A : Access → Prop} {Q : Locals → State → Prop} {R : State → Prop} {fin : Finish}
    (hload : ∀ j k, A (.load j) → A (.load k))
    (hperf : ∀ a l s l1 t, A a → Q l s → perform a l s = .ok (l1, t) → Q l1 t)
    (hother : ∀ l s t b, Q l s → boundary s = .ok (t, b) → Q l t)
    (hfin : ∀ l s, Q l s → R (finish fin l s))
    (hfg : ∀ l s t todo, Q l s → boundary s = .ok (t, true) → Q l t → R (t.withFgHeld (some ⟨todo, l, fin⟩)))
    (hdisp : ∀ a l l1 s t todo, A a → a.isEmit = true → Q l s → perform a l s = .ok (l1, t) → Q l1 t →
      R (t.withDispHeld (some ⟨todo, l1, fin⟩)))
    {as : List Access} {l : Locals} {s t : State} (hA : ∀ a ∈ as, A a) (hQ : Q l s) (h : run as l fin s = .ok t) : R t := by
  have hloop : ∀ m k l s p, A (.load 0) → Q l s → loadLoop l m k s = .ok p →
      match p with
      | .whole l1 s1 => Q l1 s1
      | .part _ s1 => ∃ s0, Q l s0 ∧ boundary s0 = .ok (s1, true) ∧ Q l s1 := by
    intro m
    induction m with
    | zero =>
      intro k l s p _ hq h
      simp only [loadLoop, Except.ok.injEq] at h
      subst h
      exact hq
    | succ m ih =>
      intro k l s p ha hq h
      simp only [loadLoop] at h
      split at h
      · simp at h
      · rename_i s1 h1
        have hq1 : Q l s1 := hperf (.load k) l s l s1 (hload _ _ ha) hq (by simp [perform, h1])
        split at h
        · simp only [Except.ok.injEq] at h
          subst h
          exact hq1
        · split at h
          · simp at h
          · rename_i s2 hb
            exact ih _ _ _ _ ha (hother _ _ _ _ hq1 hb) h
          · rename_i s2 hb
            simp only [Except.ok.injEq] at h
            subst h
            exact ⟨s1, hq1, hb, hother _ _ _ _ hq1 hb⟩
  induction as generalizing l s with
  | nil =>
    simp only [run, Except.ok.injEq] at h
    subst h
    exact hfin _ _ hQ
  | cons a as ih =>
    have ha := hA a List.mem_cons_self
    have hp : ∀ p, performAll a l s = .ok p →
        (∃ l1 s1, p = .whole l1 s1 ∧ Q l1 s1 ∧ (a.isEmit = true → perform a l s = .ok (l1, s1))) ∨
        (∃ a1 s0 s1, p = .part a1 s1 ∧ Q l s0 ∧ boundary s0 = .ok (s1, true) ∧ Q l s1) := by
      intro p hp
      cases a with
      | load k =>
        have := hloop _ _ _ _ _ (hload _ _ ha) hQ hp
        cases p with
        | whole l1 s1 => exact .inl ⟨l1, s1, rfl, this, fun h => by simp [Access.isEmit] at h⟩
        | part a1 s1 => exact .inr ⟨a1, this.choose, s1, rfl, this.choose_spec⟩
      | _ =>
        simp only [performAll] at hp
        split at hp
        · simp at hp
        · rename_i l1 s1 h1
          simp only [Except.ok.injEq] at hp
          exact .inl ⟨l1, s1, hp.symm, hperf _ _ _ _ _ ha hQ h1, fun _ => h1⟩
    rw [run] at h
    split at h
    · simp at h
    · rename_i a1 s1 h1
      obtain ⟨_, _, e, -⟩ | ⟨a2, s0, s2, e, h2, h3, h4⟩ := hp _ h1
      · simp at e
      · simp only [Progress.part.injEq] at e
        obtain ⟨rfl, rfl⟩ := e
        simp only [Except.ok.injEq] at h
        subst h
        exact hfg _ _ _ _ h2 h3 h4
    · rename_i l1 s1 h1
      obtain ⟨l2, s2, e, h2, h3⟩ | ⟨_, _, _, e, -⟩ := hp _ h1
      · simp only [Progress.whole.injEq] at e
        obtain ⟨rfl, rfl⟩ := e
        split at h
        · rename_i he
          simp only [Bool.and_eq_true] at he
          simp only [Except.ok.injEq] at h
          subst h
          exact hdisp _ _ _ _ _ _ ha he.1 hQ (h3 he.1) h2
        · cases as with
          | nil =>
            simp only [Except.ok.injEq] at h
            subst h
            exact hfin _ _ h2
          | cons b bs =>
            simp only at h
            split at h
            · simp at h
            · rename_i s3 hb
              exact ih (fun x hx => hA x (List.mem_cons_of_mem _ hx)) (hother _ _ _ _ h2 hb) h
            · rename_i s3 hb
              simp only [Except.ok.injEq] at h
              subst h
              exact hfg _ _ _ _ h2 hb (hother _ _ _ _ h2 hb)
      · simp at e

/-- The end of a command or service writes only the outputs or the phase. -/
theorem finish_eq (fin : Finish) (l : Locals) (s : State) :
    (∃ w, finish fin l s = s.withOut (s.out ++ [.result w])) ∨ ∃ p, fin = .phase p ∧ finish fin l s = s.withDph p := by
  cases fin with
  | phase p => exact .inr ⟨p, rfl, rfl⟩
  | _ => exact .inl ⟨_, rfl⟩

end Sys2Proof.Machine
end

