-- ==== Sys2Proof/Laws/Step.lean ====
section
/-! SUPPORT. What an instruction and a step are made of, and the induction every invariant of the machine goes by. -/

namespace Sys2Proof.Machine

/-- Everything `exec` can be: a refusal, a phase passed over, or a list of accesses from its first. -/
theorem exec_cases (i : Instr) (s : State) :
    (∃ r, exec i s = .refused r) ∨ (∃ p, exec i s = .next (s.withDph p)) ∨
    ∃ as l fin s1, exec i s = start as l fin s1 ∧ (s1 = s ∨ ∃ n, s1 = takeDin n s) ∧ l.off = 0 := by
  have hE : ∀ (k : Fin 16) (as : List Access) (l : Locals) (fin : Finish) (s1 : State),
      (s1 = s ∨ ∃ n, s1 = takeDin n s) → l.off = 0 →
      (∃ r, withEndpoint k s (start as l fin s1) = .refused r) ∨
      (∃ p, withEndpoint k s (start as l fin s1) = .next (s.withDph p)) ∨
      ∃ as' l' fin' s', withEndpoint k s (start as l fin s1) = start as' l' fin' s' ∧
        (s' = s ∨ ∃ n, s' = takeDin n s) ∧ l'.off = 0 := by
    intro k as l fin s1 h1 h2
    unfold withEndpoint
    split
    · exact .inr (.inr ⟨as, l, fin, s1, rfl, h1, h2⟩)
    · exact .inl ⟨_, rfl⟩
  cases i with
  | configEp ep t m =>
    simp only [exec, execConfigEp]
    by_cases h0 : ep.idx = 0
    · simp only [h0, if_true, withEndpoint]
      split <;> exact .inl ⟨_, rfl⟩
    · simp only [h0, if_false]
      exact hE _ _ _ _ _ (.inl rfl) rfl
  | enableEp ep | disableEp ep | resetEp ep | stallEp ep | clrStall ep | readEp ep | setStatus ep _ _ | istrCtr ep =>
    exact hE _ _ _ _ _ (.inl rfl) rfl
  | writeEp ep n => exact hE _ _ _ _ _ (.inr ⟨_, rfl⟩) rfl
  | istrPmaovr | istrErr =>
    simp only [exec, execIstrPmaovr, execIstrErr]
    split
    · exact .inr (.inr ⟨_, {}, _, s, rfl, .inl rfl, rfl⟩)
    · exact .inr (.inl ⟨_, rfl⟩)
  | _ =>
    simp only [exec, execInit, execConnect, execSetAddr, execGetFrame, execSetConfig, execAlloc, execIstrReset,
      execIstrSusp, execIstrWkup, execIstrSof, eventService]
    exact .inr (.inr ⟨_, {}, _, s, rfl, .inl rfl, rfl⟩)

/-- Two states with the same block: registers, descriptors, arena, working cells and `FAULTS`; the ports, the inputs,
the progress of the software agents, `DPH` and the dispatcher's values may differ. -/
structure SameBlock (s t : State) : Prop where
  cfg : t.cfg = s.cfg
  cntr : t.cntr = s.cntr
  istr : t.istr = s.istr
  fn : t.fn = s.fn
  daddr : t.daddr = s.daddr
  epr : t.epr = s.epr
  bd : t.bd = s.bd
  pma : t.pma = s.pma
  fba : t.fba = s.fba
  conn : t.conn = s.conn
  suspended : t.suspended = s.suspended
  irqEn : t.irqEn = s.irqEn
  faults : t.faults = s.faults

theorem SameBlock.refl (s : State) : SameBlock s s := by constructor <;> rfl

theorem sameBlock_enterDispatcher (s : State) : SameBlock s (enterDispatcher s) := by
  rw [enterDispatcher_eq, readIstr_snd]
  exact { SameBlock.refl s with }

theorem toOutcome_next {o : Except Refusal State} {t : State} (h : toOutcome o = .next t) : o = .ok t := by
  cases o with
  | ok s => simpa [toOutcome] using h
  | error r => simp [toOutcome] at h

section
variable {P : State → Prop} (hsame : ∀ s t, SameBlock s t → P s → P t)
  (hperf : ∀ a l s l1 t, P s → perform a l s = .ok (l1, t) → P t)
  (hbus : ∀ m s t, P s → busMove m s = .ok t → P t)

include hsame hperf hbus

/-- A property of the block that every access and every bus move keeps holds after any list of accesses. -/
theorem start_keeps {as : List Access} {l : Locals} {fin : Finish} {s t : State} (hs : P s)
    (h : start as l fin s = .next t) : P t := by
  refine run_rec (A := fun _ => True) (Q := fun _ s => P s) (R := P) (fun _ _ h => h)
    (fun a l s l1 t _ hq hp => hperf a l s l1 t hq hp) ?_ ?_ ?_ ?_ (fun _ _ => trivial) hs (toOutcome_next h)
  · intro _ s t b hq hb
    exact othersMove_rec (fun m s t _ hm hs => hbus m s t hs hm)
      (fun s _ hs => hsame _ _ (sameBlock_enterDispatcher s) hs)
      (fun s cs _ hs => hsame s _ { SameBlock.refl s with } hs) (fun _ h => h) hq hb
  · intro l s hq
    obtain ⟨w, e⟩ | ⟨p, -, e⟩ := finish_eq fin l s <;> rw [e] <;> exact hsame s _ { SameBlock.refl s with } hq
  · intro _ _ t todo _ _ hq
    exact hsame t _ { SameBlock.refl t with } hq
  · intro _ _ _ _ t todo _ _ _ _ hq
    exact hsame t _ { SameBlock.refl t with } hq

theorem exec_keeps {i : Instr} {s t : State} (hs : P s) (h : exec i s = .next t) : P t := by
  obtain ⟨r, e⟩ | ⟨p, e⟩ | ⟨as, l, fin, s1, e, hs1, -⟩ := exec_cases i s <;> rw [e] at h
  · simp at h
  · simp only [Host.Outcome.next.injEq] at h
    subst h
    exact hsame s _ { SameBlock.refl s with } hs
  · refine start_keeps hsame hperf hbus ?_ h
    obtain rfl | ⟨n, rfl⟩ := hs1
    · exact hs
    · exact hsame s _ { SameBlock.refl s with } hs

/-- Every invariant of the block goes by this: it need only be shown of one access and of one bus move. -/
theorem step_keeps {s t : State} (hs : P s) (h : step s = .next t) : P t := by
  have hS : ∀ s cs, P s → P (s.withSched cs) := fun s cs hs => hsame s _ { SameBlock.refl s with } hs
  have hissue : ∀ r s t, P s → issue r s = .next t → P t := by
    intro r s t hs h
    simp only [issue] at h
    split at h
    · exact exec_keeps hsame hperf hbus (hsame s (s.withDin r.data) { SameBlock.refl s with } hs) h
    all_goals simp at h
  have hphase : ∀ s t, P s → phaseTurn s = .next t → P t := by
    intro s t hs h
    simp only [phaseTurn] at h
    split at h
    · simp only [Host.Outcome.next.injEq] at h; subst h; exact hs
    · split at h
      · exact exec_keeps hsame hperf hbus hs h
      · simp only [skipEvent, Host.Outcome.next.injEq] at h
        subst h
        exact hsame s _ { SameBlock.refl s with } hs
    · have h1 : P ((readIstr s).2.withSnap (readIstr s).1) := by
        rw [readIstr_snd]
        exact hsame s _ { SameBlock.refl s with } hs
      simp only [loopTop] at h
      split at h
      · split at h
        · simp at h
        · rename_i s2 b hb
          refine exec_keeps hsame hperf hbus ?_ h
          exact othersMove_rec (fun m s t _ hm hs => hbus m s t hs hm)
            (fun s _ hs => hsame _ _ (sameBlock_enterDispatcher s) hs) (fun s cs _ hs => hS s cs hs)
            (fun _ h => h) h1 hb
      · simp only [Host.Outcome.next.injEq] at h
        subst h
        exact hsame ((readIstr s).2.withSnap (readIstr s).1) _ { SameBlock.refl _ with } h1
    · simp only [rxService] at h
      split at h
      · exact start_keeps hsame hperf hbus hs h
      · simp only [Host.Outcome.next.injEq] at h
        subst h
        exact hsame s _ { SameBlock.refl s with } hs
    · simp only [txService] at h
      split at h
      · exact start_keeps hsame hperf hbus hs h
      · simp only [Host.Outcome.next.injEq] at h
        subst h
        exact hsame s _ { SameBlock.refl s with } hs
  have hsoft : ∀ s t, P s → softwareTurn s = .next t → P t := by
    intro s t hs h
    simp only [softwareTurn] at h
    split at h
    · simp only [foregroundTurn] at h
      split at h
      · exact start_keeps hsame hperf hbus (hsame s (s.withFgHeld none) { SameBlock.refl s with } hs) h
      · split at h
        · rename_i r rs _
          exact hissue _ _ _ (hsame s (s.withFgCmds rs) { SameBlock.refl s with } hs) h
        · simp only [Host.Outcome.next.injEq] at h; subst h; exact hs
    · simp only [dispatcherTurn] at h
      split at h
      · rename_i r rs _
        exact hissue _ _ _ (hsame s (s.withCbCmds rs) { SameBlock.refl s with } hs) h
      · split at h
        · exact start_keeps hsame hperf hbus (hsame s (s.withDispHeld none) { SameBlock.refl s with } hs) h
        · exact hphase _ _ hs h
  simp only [step] at h
  split at h
  · simp only [turn] at h
    split at h
    · exact hbus _ _ _ (hS _ _ hs) (toOutcome_next h)
    · simp only [Host.Outcome.next.injEq] at h
      subst h
      unfold startIfReady
      split
      · exact hsame _ _ (sameBlock_enterDispatcher _) (hS _ _ hs)
      · exact hS _ _ hs
    · exact hsoft _ _ (hS _ _ hs) h
    · split at h
      · simp only [Host.Outcome.next.injEq] at h
        subst h
        exact hsame _ _ (sameBlock_enterDispatcher _) hs
      · exact hsoft _ _ hs h
  · simp at h

end

end Sys2Proof.Machine
end

