-- ==== Sys2Proof/Tests/Slice0.lean ====
section
/-! SUPPORT. The model's own tests: ill-formed instructions refused, the decoding of each constructor from a word of spec/95_test_vectors.md or of R83 to R94, one step of each instruction on a small state with the outcome that file gives, and for each statement with hypotheses a concrete state that meets them. -/

namespace Sys2Proof.Tests

set_option Elab.async false

open Sys2Proof Sys2Proof.Machine

/-! ## Helpers -/

/-- The outcome is a next state with the property. -/
def gives (o : Host.Outcome State Fault Refusal) (p : State → Bool) : Bool :=
  match o with
  | .next t    => p t
  | .fault _   => false
  | .refused _ => false

/-- The outcome is the refusal `r`. -/
def refuses (o : Host.Outcome State Fault Refusal) (r : Refusal) : Bool :=
  match o with
  | .next _    => false
  | .fault _   => false
  | .refused q => decide (q = r)

/-- After power-on, in the state the reset handler leaves `CNTR`, `DADDR`, `CONN`, `FBA` and `EPR[0]` in (spec section
11, end of program 1). -/
def up : State :=
  { State.powerOn Config.default with
    cntr := 0xFE00, daddr := 0x0080, conn := .defaultAddress, irqEn := true, fba := some 16
    epr := (Vector.replicate 16 0).set 0 0x3200 }

/-- `up` with `EPR[1] = v` and a descriptor record for endpoint 1. -/
def ep1 (v : Word) (d : BufDesc := {}) : State :=
  { up with epr := up.epr.set 1 v, bd := up.bd.set 1 d }

/-- Four written bytes at offset 16 (spec section 7.1). -/
def arena16 : Memory := [(16, 0x11), (17, 0x22), (18, 0x33), (19, 0x7F)]

/-- The start of spec section 7.1 row 1, with a receive length. -/
def received (n : BitVec 10) : State :=
  { ep1 0x2001 { rxaddr := some 16, rxlen := some n } with pma := arena16 }

/-- The start of spec section 7.2 row 1, with the bytes on `DIN`. -/
def toSend (d : List Byte) : State := { ep1 0x0021 { txaddr := some 80 } with din := d }

/-- A state about to issue a command. -/
def issuing (w : BitVec 32) (d : List Byte) (s : State) : State := { s with fgCmds := [⟨w, d⟩], sched := [.go] }

/-- The dispatcher at a phase. -/
def atPhase (p : Phase) (s : State) : State := { s with dph := p, sched := [.go] }

theorem calm_nil {n : Nat} {s : State} (h : s.sched = []) : s.calm n := by simp [State.calm, h]

theorem calm_go {n : Nat} {s : State} (h : s.sched = [.go]) : s.calm n := by
  cases n <;> simp [State.calm, h]

/-! ## Well-formedness -/

/-- An index from `N_EP` on is refused, for each constructor that uses an endpoint (R84). -/
theorem test_ill_formed_index :
    ([.configEp ⟨.OUT, 8⟩ .bulk 64, .enableEp ⟨.IN, 15⟩, .disableEp ⟨.OUT, 8⟩, .resetEp ⟨.OUT, 8⟩, .stallEp ⟨.OUT, 8⟩,
      .clrStall ⟨.OUT, 8⟩, .readEp ⟨.OUT, 8⟩, .writeEp ⟨.IN, 8⟩ 0, .setStatus ⟨.IN, 8⟩ .nak .nak,
      .istrCtr 8] : List Instr).all (fun i => !i.wf 8) = true := by decide

/-- The last register's index is accepted. -/
theorem test_well_formed_index : (Instr.enableEp ⟨.IN, 7⟩).wf 8 = true ∧ (Instr.enableEp ⟨.IN, 15⟩).wf 16 = true := by
  decide

theorem test_refused_index : decode 8 (.cmd 0x058F0000) = .error .badEndpoint := rfl
theorem test_refused_index_config : decode 8 (.cmd 0x04080008) = .error .badEndpoint := rfl
theorem test_refused_opcode : decode 8 (.cmd 0x12000000) = .error .badCommand := rfl
theorem test_refused_reserved_arg : decode 8 (.cmd 0x02000002) = .error .badCommand := rfl
theorem test_refused_reserved_ep : decode 8 (.cmd 0x05110000) = .error .badCommand := rfl
theorem test_refused_first_by_fields : decode 8 (.cmd 0x04102008) = .error .badCommand := rfl
theorem test_refused_status_bit : decode 8 (.cmd 0x11810040) = .error .badCommand := rfl
theorem test_no_event : decode 8 (.snap 0x01FF) = .error .noEvent := rfl

/-! ## Decoding, one word a constructor -/

theorem test_decode_INIT : decode 8 (.cmd 0x01000000) = .ok .init := rfl
theorem test_decode_CONNECT : decode 8 (.cmd 0x02000001) = .ok (.connect true) := rfl
theorem test_decode_SET_ADDR : decode 8 (.cmd 0x0300007F) = .ok (.setAddr 127) := rfl
theorem test_decode_CONFIG_EP : decode 8 (.cmd 0x04030BFF) = .ok (.configEp ⟨.OUT, 3⟩ .isochronous 1023) := rfl
theorem test_decode_ENABLE_EP : decode 8 (.cmd 0x05870000) = .ok (.enableEp ⟨.IN, 7⟩) := rfl
theorem test_decode_DISABLE_EP : decode 8 (.cmd 0x06810000) = .ok (.disableEp ⟨.IN, 1⟩) := rfl
theorem test_decode_RESET_EP : decode 8 (.cmd 0x07010000) = .ok (.resetEp ⟨.OUT, 1⟩) := rfl
theorem test_decode_STALL_EP : decode 8 (.cmd 0x08810000) = .ok (.stallEp ⟨.IN, 1⟩) := rfl
theorem test_decode_CLR_STALL : decode 8 (.cmd 0x09010000) = .ok (.clrStall ⟨.OUT, 1⟩) := rfl
theorem test_decode_READ_EP : decode 8 (.cmd 0x0A010000) = .ok (.readEp ⟨.OUT, 1⟩) := rfl
theorem test_decode_WRITE_EP : decode 8 (.cmd 0x0B8103FF) = .ok (.writeEp ⟨.IN, 1⟩ 1023) := rfl
theorem test_decode_GET_FRAME : decode 8 (.cmd 0x0C000000) = .ok .getFrame := rfl
theorem test_decode_SET_CONFIG : decode 8 (.cmd 0x0D000001) = .ok (.setConfig 1) := rfl
theorem test_decode_ALLOC : decode 8 (.cmd 0x1000FFFF) = .ok (.alloc 65535) := rfl
theorem test_decode_SET_STATUS : decode 8 (.cmd 0x11813020) = .ok (.setStatus ⟨.IN, 1⟩ .valid .nak) := rfl
theorem test_decode_ISTR_RESET : decode 8 (.snap 0x6400) = .ok .istrReset := rfl
theorem test_decode_ISTR_SUSP : decode 8 (.snap 0x1800) = .ok .istrSusp := rfl
theorem test_decode_ISTR_WKUP : decode 8 (.snap 0x1200) = .ok .istrWkup := rfl
theorem test_decode_ISTR_SOF : decode 8 (.snap 0x6200) = .ok .istrSof := rfl
theorem test_decode_ISTR_PMAOVR : decode 8 (.snap 0x6000) = .ok .istrPmaovr := rfl
theorem test_decode_ISTR_ERR : decode 8 (.snap 0xA001) = .ok .istrErr := rfl
theorem test_decode_ISTR_CTR : decode 8 (.snap 0x8002) = .ok (.istrCtr 2) := rfl

/-! ## One step an instruction, the outcomes of spec/95_test_vectors.md -/

theorem test_INIT : gives (exec .init State.reset) (fun t => t.irqEn && decide (t.out = [.result 0])) = true := by decide +kernel

theorem test_CONNECT :
    gives (exec (.connect true) { up with cntr := 0xFE0C, conn := .configured, suspended := true })
      (fun t => decide (t.cntr = 0x0400) && decide (t.conn = .awaitingReset) && !t.suspended) = true := by decide +kernel

theorem test_CONNECT_off :
    gives (exec (.connect false) up) (fun t => decide (t.cntr = 0x000D) && decide (t.conn = .poweredOff)) = true := by
  decide +kernel

theorem test_SET_ADDR :
    gives (exec (.setAddr 5) up) (fun t => decide (t.daddr = 0x0085) && decide (t.conn = .addressed)) = true := by decide +kernel

theorem test_SET_ADDR_configured :
    gives (exec (.setAddr 127) { up with conn := .configured })
      (fun t => decide (t.daddr = 0x00FF) && decide (t.conn = .configured)) = true := by decide +kernel

theorem test_SET_CONFIG :
    gives (exec (.setConfig 1) { up with conn := .addressed }) (fun t => decide (t.conn = .configured)) = true := by decide +kernel

theorem test_SET_CONFIG_elsewhere :
    gives (exec (.setConfig 1) up) (fun t => decide (t.conn = .defaultAddress)) = true := by decide +kernel

theorem test_GET_FRAME :
    gives (exec .getFrame { up with fn := some 0x2A5 }) (fun t => decide (t.out = [.result 0x000002A5])) = true := by
  decide +kernel

theorem test_ALLOC :
    gives (exec (.alloc 64) up) (fun t => decide (t.fba = some 80) && decide (t.out = [.result 16])) = true := by decide +kernel

theorem test_ALLOC_past_the_arena :
    gives (exec (.alloc 64) { up with fba := some 450 })
      (fun t => decide (t.fba = some 514) && t.faults.arenaOverflow && !t.faults.unspecifiedRead) = true := by decide +kernel

theorem test_CONFIG_EP_out :
    gives (exec (.configEp ⟨.OUT, 1⟩ .control 8) (ep1 0xE001 { rxlen := some 5 }))
      (fun t => decide (t.epr[1] = 0xE201) && decide (t.bd[1] = { rxaddr := some 16, rxenc := some 0x0800 })) = true := by
  decide +kernel

theorem test_CONFIG_EP_in :
    gives (exec (.configEp ⟨.IN, 1⟩ .interrupt 10) (ep1 0x3000))
      (fun t => decide (t.epr[1] = 0x3601) && decide (t.bd[1] = { txaddr := some 16 }) && decide (t.fba = some 26))
      = true := by decide +kernel

theorem test_CONFIG_EP_zero : refuses (exec (.configEp ⟨.OUT, 0⟩ .control 8) up) .ep0Config = true := by decide +kernel

theorem test_SET_STATUS :
    gives (exec (.setStatus ⟨.IN, 1⟩ .disabled .valid) (ep1 0x0621)) (fun t => decide (t.epr[1] = 0x0631)) = true := by
  decide +kernel

theorem test_SET_STATUS_one_direction :
    gives (exec (.setStatus ⟨.OUT, 1⟩ .valid .nak) (ep1 0x0621)) (fun t => decide (t.epr[1] = 0x3621)) = true := by decide +kernel

theorem test_RESET_EP :
    gives (exec (.resetEp ⟨.IN, 1⟩) (ep1 0x7671)) (fun t => decide (t.epr[1] = 0x7601)) = true := by decide +kernel

theorem test_RESET_EP_toggle_only :
    gives (exec (.resetEp ⟨.OUT, 1⟩) { ep1 0xF6F1 with cfg := { resetEpClearsStatus := false } })
      (fun t => decide (t.epr[1] = 0xB6F1)) = true := by decide +kernel

theorem test_ENABLE_EP :
    gives (exec (.enableEp ⟨.IN, 1⟩) (ep1 0x3001)) (fun t => decide (t.epr[1] = 0x3021)) = true := by decide +kernel

theorem test_DISABLE_EP :
    gives (exec (.disableEp ⟨.OUT, 1⟩) (ep1 0x3001)) (fun t => decide (t.epr[1] = 0x0001)) = true := by decide +kernel

theorem test_STALL_EP :
    gives (exec (.stallEp ⟨.IN, 1⟩) (ep1 0x0631)) (fun t => decide (t.epr[1] = 0x0611)) = true := by decide +kernel

theorem test_CLR_STALL :
    gives (exec (.clrStall ⟨.IN, 1⟩) (ep1 0x0651)) (fun t => decide (t.epr[1] = 0x0621)) = true := by decide +kernel

theorem test_CLR_STALL_valid :
    gives (exec (.clrStall ⟨.IN, 1⟩) { ep1 0x0651 with cfg := { clrStallIn := .valid } })
      (fun t => decide (t.epr[1] = 0x0631)) = true := by decide +kernel

theorem test_READ_EP :
    gives (exec (.readEp ⟨.IN, 1⟩) (received 3)) (fun t =>
      decide (t.epr[1] = 0x3001) && decide (t.out = [.dout 0x11, .dout 0x22, .dout 0x33, .dout 0x7F, .result 3]))
      = true := by decide +kernel

theorem test_READ_EP_empty :
    gives (exec (.readEp ⟨.OUT, 1⟩) (received 0)) (fun t => decide (t.epr[1] = 0x3001) && decide (t.out = [.result 0]))
      = true := by decide +kernel

theorem test_WRITE_EP :
    gives (exec (.writeEp ⟨.OUT, 1⟩ 3) (toSend [0xAA, 0xBB, 0xCC])) (fun t =>
      decide (t.pma = [(80, 0xAA), (81, 0xBB), (82, 0xCC), (83, 0x00)]) && decide (t.epr[1] = 0x0031) &&
      decide (t.bd[1].txcount = some 3) && decide (t.out = [.result 3])) = true := by decide +kernel

theorem test_WRITE_EP_at_the_end :
    gives (exec (.writeEp ⟨.IN, 1⟩ 4) { toSend [1, 2, 3, 4] with bd := up.bd.set 1 { txaddr := some 510 } }) (fun t =>
      decide (t.pma = [(510, 1), (511, 2)]) && t.faults.arenaOverflow && decide (t.epr[1] = 0x0031)) = true := by decide +kernel

theorem test_ISTR_RESET :
    gives (exec .istrReset { State.reset with cntr := 0x0400, istr := 0x6400 }) (fun t =>
      decide (t.cntr = 0xFE00) && decide (t.istr = 0x6000) && decide (t.fba = some 16) && decide (t.epr[0] = 0x3200) &&
      decide (t.bd[0] = { txaddr := some 0, rxaddr := some 8, rxenc := some 0x0800 }) && decide (t.daddr = 0x0080))
      = true := by decide +kernel

theorem test_ISTR_RESET_not_cleared :
    gives (exec .istrReset { up with epr := up.epr.set 0 0xFBF5, cfg := { mps0 := 64 } }) (fun t =>
      decide (t.epr[0] = 0xFAF0) && decide (t.fba = some 128) && decide (t.bd[0].rxenc = some 0x8020)) = true := by decide +kernel

theorem test_ISTR_SUSP :
    gives (exec .istrSusp { up with cntr := 0x9C00, istr := 0x0800 })
      (fun t => decide (t.cntr = 0x9C0C) && t.suspended && decide (t.istr = 0)) = true := by decide +kernel

theorem test_ISTR_WKUP :
    gives (exec .istrWkup { up with cntr := 0xFE0C, istr := 0x1000, suspended := true })
      (fun t => decide (t.cntr = 0xFE04) && !t.suspended && decide (t.istr = 0)) = true := by decide +kernel

theorem test_ISTR_SOF :
    gives (exec .istrSof { up with istr := 0x6200 })
      (fun t => decide (t.istr = 0x6000) && decide (t.out = [.busCall .startOfFrame])) = true := by decide +kernel

theorem test_ISTR_PMAOVR :
    gives (exec .istrPmaovr { up with istr := 0x6000 })
      (fun t => decide (t.istr = 0x2000) && decide (t.out = [.busCall (.error .overrun)])) = true := by decide +kernel

theorem test_ISTR_PMAOVR_disabled :
    gives (exec .istrPmaovr { up with istr := 0x6000, cfg := { errorEvent := false } })
      (fun t => decide (t.istr = 0x6000) && decide (t.out = [])) = true := by decide +kernel

theorem test_ISTR_ERR :
    gives (exec .istrErr { up with istr := 0x2000 })
      (fun t => decide (t.istr = 0) && decide (t.out = [.busCall (.error .generic)])) = true := by decide +kernel

theorem test_ISTR_CTR :
    gives (exec (.istrCtr 1) (ep1 0xE001))
      (fun t => decide (t.cur = 1) && decide (t.val = 0xE001) && decide (t.dph = .epRx)) = true := by decide +kernel

/-! ## The services of the endpoint loop and the bus agent (spec sections 6.2 and 8) -/

theorem test_rxService :
    gives (rxService { ep1 0xE2B1 with cur := 1, val := 0xE2B1 })
      (fun t => decide (t.epr[1] = 0x62B1) && decide (t.out = [.epCall 1 .out])) = true := by decide +kernel

theorem test_txService :
    gives (txService { ep1 0x62B1 with cur := 1, val := 0xE2B1 })
      (fun t => decide (t.epr[1] = 0x6231) && decide (t.out = [.epCall 1 .in_])) = true := by decide +kernel

theorem test_RxDone :
    gives (step { up with bd := up.bd.set 0 { rxaddr := some 8, rxenc := some 0x0800 }
                          sched := [.bus (.rxDone 0 true [0x80, 6, 0, 1, 0, 0, 0x40, 0])] }) (fun t =>
      decide (t.epr[0] = 0xEA00) && decide (t.bd[0].rxlen = some 8) &&
      decide (t.pma.map Prod.snd = [0x80, 6, 0, 1, 0, 0, 0x40, 0])) = true := by decide +kernel

theorem test_TxDone :
    gives (step { ep1 0x0632 { txaddr := some 80, txcount := some 1 } with
                  pma := [(80, 0x5A), (81, 0)], sched := [.bus (.txDone 1)] }) (fun t =>
      decide (t.epr[1] = 0x06E2) && decide (t.out = [.sent 1 false [0x5A]])) = true := by decide +kernel

theorem test_BusReset :
    gives (step { ep1 0x3021 with istr := 0x0200, sched := [.bus .busReset] }) (fun t =>
      decide (t.istr = 0x0600) && decide (t.epr = Vector.replicate 16 0) && decide (t.daddr = 0) &&
      decide (t.fba = some 16)) = true := by decide +kernel

theorem test_hazard_R272 :
    gives (exec (.stallEp ⟨.IN, 1⟩) { ep1 0x0031 { txaddr := some 80, txcount := some 2 } with
      pma := [(80, 1), (81, 2)], sched := [.bus (.txDone 1), .go] }) (fun t => decide (t.epr[1] = 0x0041)) = true := by
  decide +kernel

/-! ## Placing an instruction after reset -/

theorem test_fetch_command :
    gives (step (State.reset.withFetchWord 32 0x01000000)) (fun t => t.irqEn) = true := by decide +kernel

theorem test_fetch_snapshot :
    gives (step (State.reset.withFetchWord 16 0x8003)) (fun t => decide (t.cur = 3) && decide (t.dph = .epRx)) = true := by
  decide +kernel

/-! ## Witnesses: a concrete state and operands that meet the hypotheses of each statement, clause by clause -/

theorem test_witness_DecodeEncode :
    (Instr.writeEp ⟨.IN, 7⟩ 1023).wf 8 = true ∧ (Instr.istrCtr 15).wf 16 = true ∧ Instr.init.wf 1 = true := by decide +kernel

theorem test_witness_EncodeDecode : decode 1 (.cmd 0x11803030) = .ok (.setStatus ⟨.IN, 0⟩ .valid .valid) := rfl

theorem test_witness_StepRunsCommand_foreground :
    let s := issuing 0x0B810003 [0xAA, 0xBB, 0xCC] up
    s.cfg.wf = true ∧ s.sched = .go :: [] ∧ decode s.cfg.nEp (.cmd 0x0B810003) = .ok (.writeEp ⟨.IN, 1⟩ 3) ∧
    s.dph = .idle ∧ s.fgHeld = none ∧ s.fgCmds = ⟨0x0B810003, [0xAA, 0xBB, 0xCC]⟩ :: [] :=
  ⟨rfl, rfl, rfl, rfl, rfl, rfl⟩

theorem test_witness_StepRunsCommand_callback :
    let s := { atPhase .epRx up with cbCmds := [⟨0x0A000000, []⟩, ⟨0x0C000000, []⟩] }
    s.cfg.wf = true ∧ s.sched = .go :: [] ∧ decode s.cfg.nEp (.cmd 0x0A000000) = .ok (.readEp ⟨.OUT, 0⟩) ∧
    s.dph ≠ .idle ∧ s.cbCmds = ⟨0x0A000000, []⟩ :: [⟨0x0C000000, []⟩] :=
  ⟨rfl, rfl, rfl, by decide +kernel, rfl⟩

/-- For each of the six events, with its bit set alone and with no bit set. -/
theorem test_witness_StepRunsEventService (e : Event) :
    ∀ w ∈ [BitVec.twoPow 16 (eventBit e), 0],
      let s := { atPhase (.ev e) up with snap := w }
      s.cfg.wf = true ∧ s.dph = .ev e ∧ s.cbCmds = [] ∧ s.dispHeld = none ∧ s.sched = .go :: [] := by
  intro w _ s
  exact ⟨(by decide +kernel : Config.default.wf = true), rfl, rfl, rfl, rfl⟩

theorem test_witness_StepRunsCorrectTransfer :
    let s := { atPhase .epTop (ep1 0x8001) with epr := ((ep1 0x8001).epr.set 7 0x0087) }
    s.cfg.wf = true ∧ s.dph = .epTop ∧ s.cbCmds = [] ∧ s.dispHeld = none ∧ s.sched = .go :: [] ∧ s.calm 2 ∧
    pending s = [1, 7] ∧ pending s ≠ [] :=
  ⟨rfl, rfl, rfl, rfl, rfl, calm_go rfl, by decide +kernel, by decide +kernel⟩

theorem test_witness_StepRefusals_badCommand :
    (let s := issuing 0x0E000000 [] up
     s.cfg.wf = true ∧ s.sched = .go :: [] ∧ s.dph = .idle ∧ s.fgHeld = none ∧ s.fgCmds = ⟨0x0E000000, []⟩ :: []) ∧
    (let s := { atPhase .epTx up with cbCmds := [⟨0x05110000, []⟩] }
     s.cfg.wf = true ∧ s.sched = .go :: [] ∧ s.dph ≠ .idle ∧ s.cbCmds = ⟨0x05110000, []⟩ :: []) ∧
    ¬ wordFieldsOk 0x0E000000 ∧ ¬ wordFieldsOk 0x05110000 := by
  refine ⟨⟨rfl, rfl, rfl, rfl, rfl⟩, ⟨rfl, rfl, by decide +kernel, rfl⟩, ?_, ?_⟩
  · rintro ⟨⟨m, hm, -⟩, -⟩
    exact absurd hm (by simp [argReserved])
  · rintro ⟨-, h, -⟩
    exact absurd (h (by unfold wordUsesEp; decide +kernel)) (by decide +kernel)

theorem test_witness_StepRefusals_badEndpoint :
    (let s := issuing 0x05080000 [] up
     s.cfg.wf = true ∧ s.sched = .go :: [] ∧ s.dph = .idle ∧ s.fgHeld = none ∧ s.fgCmds = ⟨0x05080000, []⟩ :: [] ∧
     s.cfg.nEp ≤ ((0x05080000 : BitVec 32).extractLsb' 16 4).toNat) ∧
    (let s := { atPhase .epTx up with cbCmds := [⟨0x058F0000, []⟩] }
     s.cfg.wf = true ∧ s.sched = .go :: [] ∧ s.dph ≠ .idle ∧ s.cbCmds = ⟨0x058F0000, []⟩ :: [] ∧
     s.cfg.nEp ≤ ((0x058F0000 : BitVec 32).extractLsb' 16 4).toNat) ∧
    (wordFieldsOk 0x05080000 ∧ wordUsesEp ((0x05080000 : BitVec 32).extractLsb' 24 8)) ∧
    (wordFieldsOk 0x058F0000 ∧ wordUsesEp ((0x058F0000 : BitVec 32).extractLsb' 24 8)) := by
  refine ⟨⟨rfl, rfl, rfl, rfl, rfl, by decide +kernel⟩, ⟨rfl, rfl, by decide +kernel, rfl, by decide +kernel⟩, ⟨⟨⟨0xFFFF, rfl, rfl⟩, ?_, ?_⟩, ?_⟩,
    ⟨⟨⟨0xFFFF, rfl, rfl⟩, ?_, ?_⟩, ?_⟩⟩ <;> (unfold wordUsesEp; decide +kernel)

/-- Each constraint of R8 to R10 and R12 broken by one. -/
theorem test_witness_StepRefusals_badConfig :
    ((1 : Word) ≠ 0) ∧ (0 < 1) ∧ (16 < 17) ∧ (513 % 2 = 1) ∧ (0 < 2) ∧ (65534 < 65536) ∧
    [({ dblBufEp := 1 } : Config), { nEp := 0 }, { nEp := 17 }, { pmaSize := 513 }, { pmaSize := 0 }, { pmaSize := 65536 },
      { mps0 := 24 }].all (fun c => refuses (step (State.powerOn c)) .badConfig) = true := by decide +kernel

theorem test_witness_WriteEprByClass : (7 : Fin 16).val < up.cfg.nEp := by decide +kernel

theorem test_witness_ReadIstrDerived : pending (ep1 0x8001) ≠ [] ∧ pending up = [] := by decide +kernel

/-- The last word and the first of the arena. -/
theorem test_witness_ArenaWrite :
    510 % 2 = 0 ∧ 510 + 2 ≤ up.cfg.pmaSize ∧ 0 % 2 = 0 ∧ 0 + 2 ≤ up.cfg.pmaSize := by decide +kernel

theorem test_witness_ArenaRead :
    (received 3).pma.read 18 = some 0x33 ∧ (received 3).pma.read 19 = some 0x7F ∧
    (received 3).pma.read 20 = none ∧ (received 3).pma.read 21 = none ∧ 510 + 2 ≤ (received 3).cfg.pmaSize := by decide +kernel

theorem test_witness_ArenaLimits : 1 % 2 = 1 ∧ 511 % 2 = 1 ∧ 512 % 2 = 0 ∧ up.cfg.pmaSize < 512 + 2 := by decide +kernel

theorem test_witness_RoundSizeLaws : 62 ≤ 62 ∧ 62 < 63 := by decide +kernel

theorem test_witness_RxCapOfRxEnc :
    (62 % 2 = 0 ∧ 62 ≤ 62) ∧ (64 % 32 = 0 ∧ 64 ≤ 64) ∧ (2048 % 32 = 0 ∧ 2048 ≤ 2048) ∧
    ((0x7E00 : Word).getLsbD 15 = false ∧ (0x7E00 : Word).extractLsb' 0 9 = 0) ∧
    ((0x8000 : Word).getLsbD 15 = true ∧ (0x8000 : Word).extractLsb' 0 5 = 0) ∧
    ((0x0100 : Word).getLsbD 15 = false ∧ (0x0100 : Word).extractLsb' 0 9 ≠ 0) ∧
    ((0x8010 : Word).getLsbD 15 = true ∧ (0x8010 : Word).extractLsb' 0 5 ≠ 0) := by decide +kernel

theorem test_witness_ConnectResult : up.calm 1 := calm_nil rfl

theorem test_witness_GetFrameResult : ({ up with fn := some 0x7FF } : State).fn = some 0x7FF ∧ up.fn = none := by decide +kernel

theorem test_witness_AllocResult : up.calm 1 ∧ up.fba = some 16 ∧ State.reset.calm 1 ∧ State.reset.fba = none :=
  ⟨calm_nil rfl, rfl, calm_nil rfl, rfl⟩

theorem test_witness_ConfigEpResult :
    (7 : Fin 16) ≠ 0 ∧ (7 : Fin 16).val < up.cfg.nEp ∧ up.calm 4 ∧ up.fba = some 16 :=
  ⟨by decide +kernel, by decide +kernel, calm_nil rfl, rfl⟩

theorem test_witness_EndpointRefusals :
    (Instr.readEp ⟨.OUT, 8⟩).epIndex = some 8 ∧ up.cfg.nEp ≤ (8 : Fin 16).val ∧ 1 ≤ up.cfg.nEp := by decide +kernel

/-- For `StatusCommandsResult`, `ResetEpResult` and `ClrStallResult`. -/
theorem test_witness_StatusCommandsResult : (0 : Fin 16).val < up.cfg.nEp ∧ (7 : Fin 16).val < up.cfg.nEp ∧ up.calm 3 :=
  ⟨by decide +kernel, by decide +kernel, calm_nil rfl⟩

/-- The sequence of spec section 4.3 on `IN 1`. -/
theorem test_witness_LastStatusWins :
    let l : List (Status × Status) := [(.disabled, .valid), (.disabled, .stall), (.disabled, .nak), (.disabled, .nak)]
    let s := { ep1 0x0601 with irqEn := false, fgCmds := [⟨0x11810030, []⟩, ⟨0x11810010, []⟩, ⟨0x11810020, []⟩,
      ⟨0x11810020, []⟩, ⟨0x11810000, []⟩] }
    s.cfg.wf = true ∧ s.dph = .idle ∧ s.irqEn = false ∧ s.sched = [] ∧ s.fgHeld = none ∧ (1 : Fin 16).val < s.cfg.nEp ∧
    s.fgCmds = (l ++ [(Status.disabled, Status.disabled)]).map (fun p : Status × Status => ⟨0x11#8 ++ epByte ⟨.IN, 1⟩ ++ statWord p.1 p.2, []⟩) :=
  ⟨rfl, rfl, rfl, rfl, rfl, by decide +kernel, by decide +kernel⟩

/-- The first four rows of spec section 2.2. -/
theorem test_witness_AllocationsDisjoint :
    let sizes : List Word := [64, 10, 0, 1]
    let s := { up with irqEn := false, fgCmds := [⟨0x10000040, []⟩, ⟨0x1000000A, []⟩, ⟨0x10000000, []⟩, ⟨0x10000001, []⟩] }
    s.cfg.wf = true ∧ s.dph = .idle ∧ s.irqEn = false ∧ s.sched = [] ∧ s.fgHeld = none ∧ s.fba = some 16 ∧
    s.fgCmds = sizes.map (fun n => ⟨0x10#8 ++ 0#8 ++ n, []⟩) ∧
    (16 : Word).toNat + (sizes.map fun n => roundSize n.toNat).sum ≤ s.cfg.pmaSize :=
  ⟨rfl, rfl, rfl, rfl, rfl, rfl, by decide +kernel, by decide +kernel⟩

/-- An odd length and an empty packet. -/
theorem test_witness_ReadEpResult :
    ((1 : Fin 16).val < (received 3).cfg.nEp ∧ (received 3).bd[(1 : Fin 16)].rxaddr = some 16 ∧
      (received 3).bd[(1 : Fin 16)].rxlen = some 3 ∧ 16 + 2 * ((3 + 1) / 2) ≤ (received 3).cfg.pmaSize ∧
      (∀ k, k < 4 → (received 3).pma.read (16 + k) = ([0x11, 0x22, 0x33, 0x7F] : List Byte)[k]?) ∧
      (received 3).calm ((3 + 1) / 2 + 4)) ∧
    ((received 0).bd[(1 : Fin 16)].rxlen = some 0 ∧ ([] : List Byte).length = 2 * ((0 + 1) / 2) ∧ (received 0).calm 4) :=
  ⟨⟨by decide +kernel, by decide +kernel, by decide +kernel, by decide +kernel, by decide +kernel, calm_nil rfl⟩, by decide +kernel, by decide +kernel, calm_nil rfl⟩

/-- A completed read with an unwritten byte, one past the arena's end, a refused one, and an empty packet at an odd offset. -/
theorem test_witness_ReadEpAlways :
    ((1 : Fin 16).val < (received 6).cfg.nEp ∧ (received 6).calm 516 ∧
      gives (exec (.readEp ⟨.OUT, 1⟩) (received 6)) (fun t => t.faults.unspecifiedRead) = true) ∧
    (let s := { received 4 with bd := up.bd.set 1 { rxaddr := some 510, rxlen := some 4 }, pma := [(510, 1), (511, 2)] }
     s.calm 516 ∧ s.cfg.pmaSize < 510 + 2 * 1 + 2 ∧
      gives (exec (.readEp ⟨.OUT, 1⟩) s) (fun t => t.faults.arenaOverflow) = true) ∧
    (let s := { received 2 with bd := up.bd.set 1 { rxaddr := some 17, rxlen := some 2 } }
     s.calm 516 ∧ refuses (exec (.readEp ⟨.OUT, 1⟩) s) (.misaligned {}) = true) ∧
    (let s := { received 0 with bd := up.bd.set 1 { rxaddr := some 17, rxlen := some 0 } }
     s.calm 516 ∧ gives (exec (.readEp ⟨.OUT, 1⟩) s) (fun t => decide (t.out = [.result 0]) && decide (t.faults = {})) = true) :=
  ⟨⟨by decide +kernel, calm_nil rfl, by decide +kernel⟩, ⟨calm_nil rfl, by decide +kernel, by decide +kernel⟩,
    ⟨calm_nil rfl, by decide +kernel⟩, calm_nil rfl, by decide +kernel⟩

theorem test_witness_WriteEpResult :
    ((1 : Fin 16).val < (toSend []).cfg.nEp ∧ (toSend [1, 2, 3]).bd[(1 : Fin 16)].txaddr = some 80 ∧
      (80 : Word).toNat % 2 = 0 ∧ 80 + 2 * ((3 + 1) / 2) ≤ (toSend []).cfg.pmaSize ∧ 3 ≤ (toSend [1, 2, 3]).din.length ∧
      (toSend [1, 2, 3]).calm ((3 + 1) / 2 + 3)) ∧
    (0 ≤ (toSend []).din.length ∧ (toSend []).calm 3) :=
  ⟨⟨by decide +kernel, by decide +kernel, by decide +kernel, by decide +kernel, by decide +kernel, calm_nil rfl⟩, by decide +kernel, calm_nil rfl⟩

theorem test_witness_WriteEpAlways :
    (let s := { toSend [1, 2, 3, 4] with bd := up.bd.set 1 { txaddr := some 510 } }
     (1 : Fin 16).val < s.cfg.nEp ∧ s.calm 515 ∧ s.cfg.pmaSize < 510 + 2 * 1 + 2 ∧
      gives (exec (.writeEp ⟨.IN, 1⟩ 4) s) (fun t => t.faults.arenaOverflow) = true) ∧
    (gives (exec (.writeEp ⟨.IN, 1⟩ 0) (ep1 0)) (fun t => t.faults.unspecifiedRead) = true ∧
      (ep1 0).bd[(1 : Fin 16)].txaddr = none ∧ (ep1 0).calm 515) ∧
    (let s := { toSend [1, 2] with bd := up.bd.set 1 { txaddr := some 81 } }
     s.calm 515 ∧ refuses (exec (.writeEp ⟨.IN, 1⟩ 2) s) (.misaligned {}) = true) ∧
    (let s := { toSend [] with bd := up.bd.set 1 { txaddr := some 81 } }
     s.calm 515 ∧ gives (exec (.writeEp ⟨.IN, 1⟩ 0) s) (fun t => decide (t.out = [.result 0]) && decide (t.faults = {})) = true) :=
  ⟨⟨by decide +kernel, calm_nil rfl, by decide +kernel, by decide +kernel⟩, ⟨by decide +kernel, by decide +kernel, calm_nil rfl⟩,
    ⟨calm_nil rfl, by decide +kernel⟩, calm_nil rfl, by decide +kernel⟩

theorem test_witness_TransferRoundTrip :
    (1 : Fin 16).val < (toSend []).cfg.nEp ∧ (toSend []).sched = [] ∧
    (gives (exec (.writeEp ⟨.IN, 1⟩ 3) (toSend [0xAA, 0xBB, 0xCC])) fun t =>
      let u : State := { t with bd := t.bd.set 1 { t.bd[1] with rxaddr := some 80, rxlen := some 3 } }
      gives (exec (.readEp ⟨.OUT, 1⟩) u) fun v =>
        decide (v.out = [.result 3, .dout 0xAA, .dout 0xBB, .dout 0xCC, .dout 0, .result 3])) = true := by decide +kernel

/-- Every handler of a bus event is installed, and the class layer's next sequence is empty, the one after it not. -/
def nextEmpty (flag : Bool) : State :=
  let c : Config := { resetEvent := flag, suspendEvent := flag, wakeupEvent := flag, sofEvent := flag, errorEvent := flag,
                      busHandlers := ⟨.installed, .installed, .installed, .installed, .installed⟩ }
  { State.powerOn c with cbScript := [[], [⟨0x01000000, []⟩]] }

theorem nextEmpty_silent (h : Handler) (flag : Bool) : (nextEmpty flag).silent h := .inr rfl

/-- With a default handler; with an installed one that has nothing to do now, the flag set and clear; and with the
endpoint-0 buffers ending exactly at the arena's end, and past it. -/
theorem test_witness_ResetServiceResult :
    (up.cfg.wf = true ∧ up.calm 15 ∧ up.cbCmds = [] ∧ up.silent up.cfg.busHandlers.reset) ∧
    (∀ flag, (nextEmpty flag).cfg.wf = true ∧ (nextEmpty flag).calm 15 ∧ (nextEmpty flag).cbCmds = [] ∧
      (nextEmpty flag).silent (nextEmpty flag).cfg.busHandlers.reset ∧
      gives (exec .istrReset (nextEmpty flag)) (fun t => t.cbScript.length == if flag then 1 else 2) = true) ∧
    [({ pmaSize := 16 } : Config), { pmaSize := 14 }].all (fun c => c.wf && gives (exec .istrReset (State.powerOn c)) fun t =>
      decide (t.fba = some 16) && (t.faults.arenaOverflow == decide (c.pmaSize < 16))) = true :=
  ⟨⟨rfl, calm_nil rfl, rfl, .inl rfl⟩, fun flag => ⟨by cases flag <;> rfl, calm_nil rfl, rfl, nextEmpty_silent _ _,
    by cases flag <;> decide +kernel⟩, by decide +kernel⟩

/-- With default handlers; with installed ones that have nothing to do now, the flags set and clear; and with commands of
the error callback to come and its flag clear. -/
theorem test_witness_EventServicesResult :
    (up.cbCmds = [] ∧ up.calm 3 ∧ up.cntr &&& 0x01F2 = 0 ∧ up.cfg.errorEvent = true ∧
      up.silent up.cfg.busHandlers.suspend ∧ up.silent up.cfg.busHandlers.resume ∧
      up.silent up.cfg.busHandlers.startOfFrame ∧ up.silent up.cfg.busHandlers.error) ∧
    (∀ flag h, (nextEmpty flag).cbCmds = [] ∧ (nextEmpty flag).calm 3 ∧ (nextEmpty flag).cntr &&& 0x01F2 = 0 ∧
      (nextEmpty flag).cfg.errorEvent = flag ∧ (nextEmpty flag).silent h) ∧
    (let s := { State.powerOn { errorEvent := false, busHandlers := { error := .installed } } with
       cbScript := [[⟨0x01000000, []⟩]] }
     s.cbCmds = [] ∧ s.calm 3 ∧ s.cntr &&& 0x01F2 = 0 ∧ (s.cfg.errorEvent = true → s.silent s.cfg.busHandlers.error) ∧
      gives (exec .istrErr s) (fun t => t.cbScript.length == 1) = true) :=
  ⟨⟨rfl, calm_nil rfl, rfl, rfl, .inl rfl, .inl rfl, .inl rfl, .inl rfl⟩,
    fun flag h => ⟨rfl, calm_nil rfl, (by decide : (1 : Word) &&& 0x01F2 = 0), rfl, nextEmpty_silent h flag⟩,
    rfl, calm_nil rfl, by decide +kernel, by intro h; exact absurd h (by decide +kernel), by decide +kernel⟩

theorem test_witness_EndpointTurnResult : (7 : Fin 16).val < up.cfg.nEp ∧ up.calm 1 := ⟨by decide +kernel, calm_nil rfl⟩

/-- Each of the four clauses: both phases, the completion read as 1 and as 0. -/
theorem test_witness_EndpointServices :
    ∀ p ∈ [(Phase.epRx, (0xE001 : Word)), (.epRx, 0x6001), (.epTx, 0x00E1), (.epTx, 0x0061)],
      let s := { atPhase p.1 (ep1 p.2) with cur := 1, val := p.2 }
      s.cfg.wf = true ∧ s.cbCmds = [] ∧ s.dispHeld = none ∧ s.sched = .go :: [] ∧ s.calm 2 ∧ s.cur.val < s.cfg.nEp ∧
      s.silent s.cfg.epHandlers[s.cur] ∧ s.dph = p.1 ∧ s.val = p.2 := by
  intro p _
  exact ⟨(by decide : Config.default.wf = true), rfl, rfl, rfl, calm_go rfl, (by decide : (1 : Fin 16).val < Config.default.nEp),
    .inl (by decide : Config.default.epHandlers[(1 : Fin 16)] = .noop), rfl, rfl⟩

/-- An installed handler that has nothing to do now takes its empty sequence. -/
theorem test_witness_EndpointServices_installed :
    let s := { atPhase .epRx (ep1 0xE001) with
      cfg := { epHandlers := (Vector.replicate 16 .noop).set 1 .installed }, cur := 1, val := 0xE001,
      cbScript := [[], [⟨0x01000000, []⟩]] }
    s.silent s.cfg.epHandlers[s.cur] ∧ s.val.getLsbD 15 = true ∧ gives (step s) (fun t => t.cbScript.length == 1) = true :=
  ⟨.inr rfl, by decide +kernel, by decide +kernel⟩

theorem test_witness_EndpointServices_bits :
    (0xE001 : Word).getLsbD 15 = true ∧ (0x6001 : Word).getLsbD 15 = false ∧ (0x00E1 : Word).getLsbD 7 = true ∧
    (0x0061 : Word).getLsbD 7 = false := by decide +kernel

/-- The receive and the transmit service, on a register with both completions. -/
theorem test_witness_CallbackCommands_emit :
    let c : Config := { epHandlers := (Vector.replicate 16 .noop).set 1 .installed }
    let s := { ep1 0xE081 with cfg := c, cur := 1, val := 0xE081, cbScript := [[⟨0x0A010000, []⟩]] }
    s.cur.val < s.cfg.nEp ∧ s.val.getLsbD 15 = true ∧ s.val.getLsbD 7 = true ∧ s.cfg.epHandlers[s.cur] = .installed ∧
    s.cbScript = [⟨0x0A010000, []⟩] :: [] ∧ s.calm 1 :=
  ⟨by decide +kernel, by decide +kernel, by decide +kernel, by decide +kernel, rfl, calm_nil rfl⟩

/-- Each of the six event services waits before its clear. -/
theorem test_witness_CallbackCommands_event :
    let c : Config := { busHandlers := ⟨.installed, .installed, .installed, .installed, .installed⟩ }
    let s := { up with cfg := c, istr := 0x7E00, cbScript := [[⟨0x0A000000, []⟩]] }
    s.cfg.wf = true ∧ s.cbScript = [⟨0x0A000000, []⟩] :: [] ∧ s.calm 15 ∧
    ([.reset, .suspend, .wakeup, .sof, .overrun, .error] : List Event).all (fun e =>
      gives (exec (eventInstr e) s) fun t => decide (t.istr = 0x7E00) && decide (t.cbCmds = [⟨0x0A000000, []⟩]) &&
        match t.dispHeld with
        | some f => decide (f.todo = [.writeIstr (eventClear e)])
        | none => false) = true :=
  ⟨rfl, rfl, calm_nil rfl, by decide +kernel⟩

theorem test_witness_CallbackCommands_resume :
    (let s := { atPhase .epRx up with dispHeld := some ⟨[], {}, .phase .epTx⟩ }
     s.cfg.wf = true ∧ s.dph ≠ .idle ∧ s.cbCmds = [] ∧ s.sched = .go :: [] ∧ s.dispHeld = some ⟨[], {}, .phase .epTx⟩) ∧
    (let s := { atPhase (.ev .sof) up with istr := 0x0600, dispHeld := some ⟨[.writeIstr 0xFDFF], {}, .phase (.ev .overrun)⟩ }
     s.cfg.wf = true ∧ s.dph ≠ .idle ∧ s.cbCmds = [] ∧ s.sched = .go :: [] ∧
     s.dispHeld = some ⟨[.writeIstr (eventClear .sof)], {}, .phase (nextPhase .sof)⟩ ∧
     gives (step s) (fun t => decide (t.istr = 0x0400) && decide (t.dph = .ev .overrun)) = true) := by decide +kernel

/-- The interrupt taken, and held off in each of the three ways. -/
theorem test_witness_InterruptEntry :
    (let s := { ep1 0xE001 with sched := [.irq] }
     s.cfg.wf = true ∧ s.sched = .irq :: [] ∧ irq s = true ∧ s.irqEn = true ∧ s.dph = .idle ∧ pending s ≠ []) ∧
    (let s := { up with sched := [.irq] }
     s.cfg.wf = true ∧ s.sched = .irq :: [] ∧ irq s = false) ∧
    (let s := { ep1 0xE001 with irqEn := false, sched := [.irq] }
     irq s = true ∧ s.irqEn = false) ∧
    (let s := { ep1 0xE001 with dph := .epTop, sched := [.irq] }
     irq s = true ∧ s.dph ≠ .idle) := by decide +kernel

/-- A `SET_STATUS` preempted between its read and its write, with two completions pending. -/
theorem test_witness_InterruptEntry_preempting :
    let s := issuing 0x11813030 [] { ep1 0xE001 with epr := (ep1 0xE001).epr.set 2 0x06E2 }
    let s := { s with sched := [.go, .irq] }
    s.dph = .idle ∧ s.fgHeld = none ∧ gives (step s) (fun t => decide (t.dph ≠ .idle) && t.fgHeld.isSome) = true := by
  decide +kernel

theorem test_witness_InterruptReturn :
    let s := atPhase .epTop up
    s.cfg.wf = true ∧ s.dph = .epTop ∧ s.cbCmds = [] ∧ s.dispHeld = none ∧ s.sched = .go :: [] ∧ pending s = [] :=
  ⟨rfl, rfl, rfl, rfl, rfl, by decide +kernel⟩

theorem test_witness_ForegroundWaits :
    let s := { atPhase (.ev .sof) up with fgCmds := [⟨0x01000000, []⟩], fgHeld := some ⟨[.readFnr], {}, .frame⟩ }
    s.dph ≠ .idle ∧ gives (step s) (fun t => decide (t.fgCmds = s.fgCmds) && decide (t.fgHeld = s.fgHeld)) = true := by
  decide +kernel

/-- A `SET_STATUS` is preempted, and goes on when the dispatcher has returned (R276). -/
theorem test_witness_PreemptedStatusIsStale :
    let s := { ep1 0x8621 with sched := [.irq, .go] }
    (1 : Fin 16).val < s.cfg.nEp ∧ irq s = true ∧ s.irqEn = true ∧ s.dph = .idle ∧ s.sched = .irq :: [.go] ∧
    (gives (exec (.setStatus ⟨.IN, 1⟩ .disabled .valid) s) fun t =>
      let u : State := { t with dph := .idle, sched := [.go] }
      u.cfg.wf && decide (u.cfg.nEp = s.cfg.nEp) && u.fgHeld.isSome &&
      gives (step u) fun v => decide (v.epr[1] = 0x8631) && v.fgHeld.isNone) = true := by decide +kernel

/-- The reception and the transmission of R272 and R273. -/
theorem test_witness_CompletionInTheWindow :
    (let s := { ep1 0x3001 { rxaddr := some 16, rxenc := some 0x8020 } with sched := [.bus (.rxDone 1 false [7, 8]), .go] }
     (1 : Fin 16).val < s.cfg.nEp ∧ s.sched = .bus (.rxDone 1 false [7, 8]) :: .go :: [] ∧
     s.epr[(1 : Fin 16)].getLsbD 15 = false ∧
     gives (toOutcome (busMove (.rxDone 1 false [7, 8]) s)) (fun s1 => s1.epr[(1 : Fin 16)].getLsbD 15) = true) ∧
    (let s := { ep1 0x0031 { txaddr := some 80, txcount := some 0 } with sched := [.bus (.txDone 1), .go] }
     s.sched = .bus (.txDone 1) :: .go :: [] ∧ s.epr[(1 : Fin 16)].getLsbD 7 = false ∧
     gives (toOutcome (busMove (.txDone 1) s)) (fun s1 => s1.epr[(1 : Fin 16)].getLsbD 7) = true) := by decide +kernel

theorem test_witness_WriteProtections :
    (0xF6F1 : Word).getLsbD 15 = true ∧ (0xF6F1 : Word).getLsbD 7 = true ∧ 13 ≠ eventBit .sof ∧ 15 ≠ eventBit .reset := by
  decide +kernel

theorem test_witness_BusEvents :
    (∀ m ∈ [BusMove.busReset, .suspend, .sof 0x7FF, .err, .pmaOvr],
      let s := { up with sched := [.bus m] }
      s.cfg.wf = true ∧ s.cntr.getLsbD 0 = false ∧ s.cntr.getLsbD 3 = false ∧ s.sched = .bus m :: []) ∧
    (∀ m ∈ [BusMove.busReset, .wakeup],
      let s := { up with cntr := 0xFE0C, sched := [.bus m] }
      s.cfg.wf = true ∧ s.cntr.getLsbD 0 = false ∧ s.cntr.getLsbD 3 = true ∧ s.sched = .bus m :: []) := by decide +kernel

theorem test_witness_MovesNotEnabled_modes :
    (let s := { up with cntr := 0x0001, sched := [.bus .busReset] }
     s.cfg.wf = true ∧ s.sched = .bus .busReset :: [] ∧ s.cntr.getLsbD 0 = true) ∧
    (let s := { up with cntr := 0xFE0C, sched := [.bus .suspend] }
     s.sched = .bus .suspend :: [] ∧ s.cntr.getLsbD 3 = true ∧ BusMove.suspend ≠ .busReset ∧ BusMove.suspend ≠ .wakeup) ∧
    (let s := { up with sched := [.bus .wakeup] }
     s.sched = .bus .wakeup :: [] ∧ s.cntr.getLsbD 3 = false) := by decide +kernel

/-- Each way in which a reception is not enabled (spec section 8): no address, no register, not Valid, isochronous, a
setup packet on a Bulk endpoint, no capacity, a packet one above it, one above 1023 bytes. -/
theorem test_witness_MovesNotEnabled_receptions :
    ({ up with daddr := 0 } : State).daddr.getLsbD 7 = false ∧ up.cfg.nEp ≤ (8 : Fin 16).val ∧
    (ep1 0x2001).epr[(1 : Fin 16)].extractLsb' 12 2 ≠ 3 ∧ (ep1 0x3403).epr[(1 : Fin 16)].extractLsb' 9 2 = 2 ∧
    (ep1 0x3001).epr[(1 : Fin 16)].extractLsb' 9 2 ≠ 1 ∧ rxCap 0x0001 = none ∧
    (rxCap 0x0800 = some 8 ∧ 8 < ([0, 0, 0, 0, 0, 0, 0, 0, 0] : List Byte).length) ∧
    1023 < (List.replicate 1024 (0 : Byte)).length ∧
    (ep1 0x3001 { rxenc := some 0x0800 }).bd[(1 : Fin 16)].rxenc = some 0x0800 := by decide +kernel

theorem test_witness_MovesNotEnabled_transmissions :
    ({ up with daddr := 0 } : State).daddr.getLsbD 7 = false ∧ up.cfg.nEp ≤ (8 : Fin 16).val ∧
    (ep1 0x0021).epr[(1 : Fin 16)].extractLsb' 4 2 ≠ 3 ∧ (ep1 0x0431).epr[(1 : Fin 16)].extractLsb' 9 2 = 2 := by decide +kernel

/-- A reception as in R223: endpoint 1, Bulk, with a record and a packet. -/
def receiving (b : BufDesc) (d : List Byte) : State := { ep1 0x3001 b with sched := [.bus (.rxDone 1 false d)] }

/-- A setup packet of a full buffer on endpoint 0, and a packet on endpoint 1 that ends at the arena's end. -/
theorem test_witness_RxDoneResult :
    (let d : List Byte := [0x80, 6, 0, 1, 0, 0, 0x40, 0]
     let s := { up with bd := up.bd.set 0 { rxaddr := some 8, rxenc := some 0x0800 }, sched := [.bus (.rxDone 0 true d)] }
     s.cfg.wf = true ∧ s.sched = .bus (.rxDone 0 true d) :: [] ∧ s.cntr.getLsbD 0 = false ∧ s.cntr.getLsbD 3 = false ∧
     s.daddr.getLsbD 7 = true ∧ (0 : Fin 16).val < s.cfg.nEp ∧ s.epr[(0 : Fin 16)].extractLsb' 12 2 = 3 ∧
     s.epr[(0 : Fin 16)].extractLsb' 9 2 = 1 ∧ rxCap (readCell s.bd[(0 : Fin 16)].rxenc s).1 = some 8 ∧ d.length ≤ 8 ∧
     d.length ≤ 1023 ∧ (readCell s.bd[(0 : Fin 16)].rxaddr s).1.toNat % 2 = 0) ∧
    (let s := receiving { rxaddr := some 506, rxenc := some 0x8020 } [1, 2, 3, 4, 5, 6]
     s.epr[(1 : Fin 16)].extractLsb' 12 2 = 3 ∧ s.epr[(1 : Fin 16)].extractLsb' 9 2 = 0 ∧ rxCap 0x8020 = some 64 ∧
     gives (step s) (fun t => !t.faults.arenaOverflow && decide (t.pma.read 511 = some 6)) = true) := by decide +kernel

/-- No room, an odd offset, a last word past the arena, and an unwritten offset of an empty packet. -/
theorem test_witness_RxDoneResult_forms :
    gives (step (receiving { rxaddr := some 16, rxenc := some 0x0200 } [1, 2, 3])) (fun t => decide (t.epr[1] = 0x3001)) = true ∧
    refuses (step (receiving { rxaddr := some 17, rxenc := some 0x8020 } [1])) (.misaligned {}) = true ∧
    gives (step (receiving { rxaddr := some 510, rxenc := some 0x8020 } [1, 2, 3]))
      (fun t => t.faults.arenaOverflow && decide (t.pma = [(510, 1), (511, 2)]) && decide (t.epr[1] = 0xE001)) = true ∧
    gives (step (receiving { rxenc := some 0x8020 } []))
      (fun t => t.faults.unspecifiedRead && decide (t.epr[1] = 0xE001)) = true := by decide +kernel

/-- A transmission as in R224: endpoint 1, Interrupt, with a record. -/
def transmitting (b : BufDesc) (m : Memory) : State := { ep1 0x0631 b with pma := m, sched := [.bus (.txDone 1)] }

/-- One byte, and an empty packet. -/
theorem test_witness_TxDoneResult :
    (let s := transmitting { txaddr := some 80, txcount := some 1 } [(80, 0x5A), (81, 0)]
     s.cfg.wf = true ∧ s.sched = .bus (.txDone 1) :: [] ∧ s.cntr.getLsbD 0 = false ∧ s.cntr.getLsbD 3 = false ∧
     s.daddr.getLsbD 7 = true ∧ (1 : Fin 16).val < s.cfg.nEp ∧ s.epr[(1 : Fin 16)].extractLsb' 4 2 = 3 ∧
     s.epr[(1 : Fin 16)].extractLsb' 9 2 ≠ 2 ∧ s.bd[(1 : Fin 16)].txaddr = some 80 ∧ s.bd[(1 : Fin 16)].txcount = some 1 ∧
     ([0x5A, 0] : List Byte).length = 2 * ((1 + 1) / 2) ∧ 80 + 2 ≤ s.cfg.pmaSize ∧
     ∀ k, k < 2 → s.pma.read (80 + k) = ([0x5A, 0] : List Byte)[k]?) ∧
    (let s := transmitting { txaddr := some 512, txcount := some 0 } []
     s.epr[(1 : Fin 16)].extractLsb' 4 2 = 3 ∧ 512 + ([] : List Byte).length ≤ s.cfg.pmaSize) := by decide +kernel

/-- An odd offset, an unwritten byte, a last word past the arena, and an unwritten offset of an empty packet. -/
theorem test_witness_TxDoneResult_forms :
    refuses (step (transmitting { txaddr := some 81, txcount := some 1 } [])) (.misaligned {}) = true ∧
    gives (step (transmitting { txaddr := some 80, txcount := some 1 } []))
      (fun t => t.faults.unspecifiedRead && !t.faults.arenaOverflow && decide (t.epr[1] = 0x06E1)) = true ∧
    gives (step (transmitting { txaddr := some 510, txcount := some 3 } [(510, 1), (511, 2)]))
      (fun t => !t.faults.unspecifiedRead && t.faults.arenaOverflow && decide (t.epr[1] = 0x06E1)) = true ∧
    gives (step (transmitting { txcount := some 0 } []))
      (fun t => t.faults.unspecifiedRead && decide (t.out = [.sent 1 false []])) = true := by decide +kernel

/-- A reset, and a reception that changes a byte. -/
theorem test_witness_BusLimits :
    gives (toOutcome (busMove .busReset up)) (fun t => decide (t.epr[(0 : Fin 16)] = 0)) = true ∧
    gives (toOutcome (busMove (.rxDone 1 false [7, 8]) (ep1 0x3001 { rxaddr := some 16, rxenc := some 0x8020 })))
      (fun t => decide (t.pma.read 16 ≠ (ep1 0x3001).pma.read 16) && decide (statRx t.epr[(1 : Fin 16)] = 2)) = true := by
  decide +kernel

/-- A state from which every instruction gives a next state. -/
def ready : State :=
  { ep1 0x3031 { txaddr := some 80, rxaddr := some 16, rxlen := some 3 } with
    pma := arena16, din := [1, 2, 3], fn := some 0x2A5 }

/-- For `RegisterFrame`, `ArenaFrame` and `ConnectionTable`: each of the 22 instructions goes on. -/
theorem test_witness_frames :
    ([.init, .connect true, .connect false, .setAddr 5, .configEp ⟨.OUT, 1⟩ .bulk 64, .enableEp ⟨.IN, 1⟩,
      .disableEp ⟨.IN, 1⟩, .resetEp ⟨.OUT, 1⟩, .stallEp ⟨.IN, 1⟩, .clrStall ⟨.IN, 1⟩, .readEp ⟨.OUT, 1⟩] ++
     [.writeEp ⟨.IN, 1⟩ 3, .getFrame, .setConfig 1, .alloc 64, .setStatus ⟨.OUT, 1⟩ .stall .nak, .istrReset, .istrSusp,
      .istrWkup, .istrSof, .istrPmaovr, .istrErr, .istrCtr 1] : List Instr).all
      (fun i => gives (exec i ready) fun t => decide (t.cfg = ready.cfg)) = true := by decide +kernel

theorem test_witness_frames_schedule : ready.noBus ∧ ready.noReception ∧ ready.calm 15 :=
  ⟨fun _ => by simp [ready, ep1, up, State.powerOn], fun _ _ _ => by simp [ready, ep1, up, State.powerOn], calm_nil rfl⟩

/-- The invariant in a state with written bytes and registers, from which a command runs. -/
theorem test_witness_StepKeepsInvariant :
    (issuing 0x10000040 [] (received 3)).Inv ∧
    gives (step (issuing 0x10000040 [] (received 3))) (fun t => decide (t.fba = some 80)) = true := by
  refine ⟨⟨by decide +kernel, by decide +kernel, by decide +kernel, ?_, by decide +kernel, by decide +kernel, by decide +kernel, ?_, ?_⟩, by decide +kernel⟩
  · intro k
    simp only [issuing, received, arena16, Memory.read]
    grind
  · intro i; revert i; decide +kernel
  · intro i; revert i; decide +kernel

theorem test_witness_StepKeepsOffsetsEven :
    (issuing 0x10000040 [] (received 3)).OffsetsEven ∧
    gives (step (issuing 0x10000040 [] (received 3))) (fun t => !t.faults.unspecifiedRead) = true := by
  refine ⟨⟨?_, ?_, ?_, ?_, ?_⟩, by decide +kernel⟩
  · rintro v h; cases h; decide +kernel
  · intro i v h
    have none : ∀ i : Fin 16, (received 3).bd[i].txaddr = none := by decide
    exact absurd ((none i).symm.trans h) (by simp)
  · intro i v h
    have : ∀ i : Fin 16, (received 3).bd[i].rxaddr = none ∨ (received 3).bd[i].rxaddr = some 16 := by decide +kernel
    rcases this i with k | k
    · exact absurd (k.symm.trans h) (by simp)
    · cases k.symm.trans h; decide +kernel
  · rintro f h; cases h
  · rintro f h; cases h

theorem test_witness_FaultsAreRecorded :
    gives (step (issuing 0x0C000000 [] { up with faults := { arenaOverflow := true } }))
      (fun t => t.faults.has .arenaOverflow && t.faults.has .unspecifiedRead) = true := by decide +kernel

/-- Unwritten cells and bytes, and the first word and the first region past the arena's end. -/
theorem test_witness_FaultsAreRecorded_reads :
    State.reset.fba = none ∧ State.reset.fn = none ∧ State.reset.bd[(7 : Fin 16)].txaddr = none ∧
    State.reset.bd[(7 : Fin 16)].rxaddr = none ∧ State.reset.bd[(7 : Fin 16)].rxlen = none ∧
    State.reset.pma.read 510 = none ∧ 510 + 2 * 0 + 2 ≤ State.reset.cfg.pmaSize ∧
    State.reset.cfg.pmaSize < 510 + 2 * 1 + 2 ∧ State.reset.cfg.pmaSize < 510 + roundSize 3 := by decide +kernel

/-- A refused step on a state in which a read of an unwritten cell is recorded. -/
theorem test_witness_FaultsAreRecorded_misaligned :
    let s := issuing 0x0A010000 [] { received 2 with
      bd := up.bd.set 1 { rxaddr := some 17, rxlen := some 2 }, faults := { unspecifiedRead := true } }
    s.faults.unspecifiedRead = true ∧ refuses (step s) (.misaligned { unspecifiedRead := true }) = true := by decide +kernel

theorem test_witness_BusResetServed :
    let s := { up with sched := [.bus .busReset] }
    s.cfg.wf = true ∧ s.dph = .idle ∧ s.irqEn = true ∧ s.cntr.getLsbD 0 = false ∧ s.cntr.getLsbD 10 = true ∧ s.istr = 0 ∧
    s.cbCmds = [] ∧ s.dispHeld = none ∧ s.silent s.cfg.busHandlers.reset ∧ s.sched = [.bus .busReset] :=
  ⟨rfl, rfl, rfl, by decide +kernel, by decide +kernel, rfl, rfl, rfl, .inl rfl, rfl⟩

/-- The state of spec section 6.3. -/
theorem test_witness_DrainsTwoEndpoints :
    let s := { ep1 0xE001 with epr := (ep1 0xE001).epr.set 2 0x06E2, dph := .epTop }
    s.cfg.wf = true ∧ s.dph = .epTop ∧ s.cbCmds = [] ∧ s.dispHeld = none ∧ s.sched = [] ∧ s.cbScript = [] ∧
    pending s = [1, 2] := ⟨rfl, rfl, rfl, rfl, rfl, rfl, by decide +kernel⟩

theorem test_witness_InvocationEnds :
    let s := { ep1 0xE001 with dph := .ev .reset, snap := 0x8401 }
    s.cfg.wf = true ∧ s.dph ≠ .idle ∧ s.cbCmds = [] ∧ s.dispHeld = none ∧ s.sched = [] ∧ s.cbScript = [] :=
  ⟨rfl, by decide +kernel, rfl, rfl, rfl, rfl⟩

end Sys2Proof.Tests
end

section
/-! Settles O57. `FAULTS` only grows (R18, R52); every read of an unwritten value and every access past the arena is
recorded (R112, R64, R65, R244); and an odd offset comes from a recorded `UnspecifiedRead` (R246): the cursor, the buffer
offsets and the offset a command has read are even until one is recorded, and only an access at an odd offset is
refused as `Misaligned`. -/

namespace Sys2Proof.Machine

/-! ## `FAULTS` only grows -/

/-- Every kind recorded in `f` is recorded in `g`. -/
def FaultSet.Sub (f g : FaultSet) : Prop := ∀ k, f.has k = true → g.has k = true

theorem FaultSet.Sub.refl (f : FaultSet) : f.Sub f := fun _ h => h

theorem FaultSet.Sub.trans {f g h : FaultSet} (a : f.Sub g) (b : g.Sub h) : f.Sub h := fun k e => b k (a k e)

theorem FaultSet.has_add (f : FaultSet) (k j : Fault) : (f.add k).has j = (decide (j = k) || f.has j) := by
  cases k <;> cases j <;> simp [FaultSet.add, FaultSet.has]

theorem FaultSet.sub_add (f : FaultSet) (k : Fault) : f.Sub (f.add k) := fun j h => by simp [has_add, h]

/-- What is not recorded after was not recorded before. -/
theorem FaultSet.Sub.unread {f g : FaultSet} (h : f.Sub g) (hg : g.unspecifiedRead = false) :
    f.unspecifiedRead = false :=
  Bool.eq_false_iff.2 fun e => by simpa [FaultSet.has, hg] using h .unspecifiedRead e

theorem raise_records (f : Fault) (s : State) : (raise f s).faults.has f = true := by simp [raise_eq, FaultSet.has_add]

theorem readCell_faults {w : Nat} (c : Option (BitVec w)) (s : State) : s.faults.Sub (readCell c s).2.faults := by
  cases c with
  | some v => exact .refl _
  | none => rw [readCell_none, raise_eq]; exact FaultSet.sub_add _ _

theorem memRead_faults {off : Nat} {w : Word} {s t : State} (h : memRead off s = .ok (w, t)) : s.faults.Sub t.faults := by
  unfold memRead at h
  split at h
  · cases h
  · split at h <;> cases h
    · rw [raise_eq]; exact FaultSet.sub_add _ _
    · exact (readCell_faults _ _).trans (readCell_faults _ _)

theorem memWrite_faults {off : Nat} {v : Word} {s t : State} (h : memWrite off v s = .ok t) : s.faults.Sub t.faults := by
  obtain ⟨-, ⟨-, rfl⟩ | ⟨-, rfl⟩⟩ := memWrite_cases h
  · rw [raise_eq]; exact FaultSet.sub_add _ _
  · exact .refl _

theorem readWords_faults {m off : Nat} {bs : List Byte} {s t : State} (h : readWords off m s = .ok (bs, t)) :
    s.faults.Sub t.faults := by
  induction m generalizing off bs s with
  | zero => cases h; exact .refl _
  | succ m ih =>
    simp only [readWords] at h
    split at h
    · cases h
    · rename_i h1
      split at h <;> cases h
      rename_i h2
      exact (memRead_faults h1).trans (ih h2)

theorem writeWords_faults {ws : List Word} {off : Nat} {s t : State} (h : writeWords off ws s = .ok t) :
    s.faults.Sub t.faults := by
  induction ws generalizing off s with
  | nil => cases h; exact .refl _
  | cons w ws ih =>
    simp only [writeWords] at h
    split at h
    · cases h
    · rename_i h1
      exact (memWrite_faults h1).trans (ih h)

/-- Every move of the bus agent keeps the recorded faults. -/
theorem busMove_faults {m : BusMove} {s t : State} (h : busMove m s = .ok t) : s.faults.Sub t.faults := by
  cases m with
  | rxDone i setup d =>
    rcases rxDone_cases h with rfl | ⟨-, rfl⟩ | ⟨-, cap, -, -, h⟩
    · exact .refl _
    · exact readCell_faults _ _
    · obtain ⟨s1, h1, rfl⟩ := storePacket_cases h
      have hw := writeWords_faults h1
      rw [setEpr_eq, setBd_eq]
      exact ((readCell_faults _ _).trans (readCell_faults _ _)).trans hw
  | txDone i =>
    rcases txDone_cases h with rfl | ⟨-, bs, s1, h1, rfl⟩
    · exact .refl _
    · have hr := readWords_faults h1
      rw [setEpr_eq, put_eq]
      exact ((readCell_faults _ _).trans (readCell_faults _ _)).trans hr
  | _ =>
    simp only [busMove, Except.ok.injEq] at h
    subst h
    split <;> exact .refl _

theorem loadWord_faults {k : Nat} {l : Locals} {s t : State} (h : loadWord k l s = .ok t) : s.faults.Sub t.faults := by
  unfold loadWord at h
  split at h <;> cases h
  rename_i h1
  have hr := memRead_faults h1
  exact hr

/-- Every access keeps the recorded faults. -/
theorem perform_faults {a : Access} {l l1 : Locals} {s t : State} (h : perform a l s = .ok (l1, t)) :
    s.faults.Sub t.faults := by
  cases a with
  | load k =>
    simp only [perform] at h
    split at h <;> cases h
    rename_i h1
    exact loadWord_faults h1
  | store k w =>
    simp only [perform] at h
    split at h <;> cases h
    rename_i h1
    exact memWrite_faults h1
  | readFnr | readFba | readTxaddr | readRxaddr | readRxlen => cases h; exact readCell_faults _ _
  | writeFba n =>
    cases h
    rw [advanceFba_eq]
    simp only [State.withFba_faults, State.withFaults_faults]
    split
    · exact FaultSet.sub_add _ _
    · exact .refl _
  | writeEpr | writeStatus | writeAnd => cases h; rw [writeEpr_eq]; exact .refl _
  | writeTxaddr | writeRxaddr | writeRxenc | writeTxcount => cases h; rw [setBd_eq]; exact .refl _
  | emitEp | emitBus => cases h; rw [emit_eq]; exact .refl _
  | _ => cases h; exact .refl _

/-- A step that gives a next state keeps every recorded fault (R18, R52) and the configuration. -/
theorem step_keeps_faults_cfg {s t : State} (h : step s = .next t) : s.faults.Sub t.faults ∧ t.cfg = s.cfg :=
  step_keeps (P := fun u => s.faults.Sub u.faults ∧ u.cfg = s.cfg)
    (fun _ _ e p => ⟨by rw [e.faults]; exact p.1, e.cfg.trans p.2⟩)
    (fun _ _ _ _ _ p e => ⟨p.1.trans (perform_faults e), (perform_frame e).cfg.trans p.2⟩)
    (fun _ _ _ p e => ⟨p.1.trans (busMove_faults e), (busMove_frame e).cfg.trans p.2⟩)
    ⟨.refl _, rfl⟩ h

/-! ## What an access records -/

theorem readCell_none_records {w : Nat} {c : Option (BitVec w)} (h : c = none) (s : State) :
    (readCell c s).2.faults.has .unspecifiedRead = true := by
  subst h; exact raise_records .unspecifiedRead s

/-- The access goes on, and `f` is recorded. -/
def Records (a : Access) (l : Locals) (s : State) (f : Fault) : Prop :=
  ∃ l' t, perform a l s = .ok (l', t) ∧ t.faults.has f = true

/-- A word of the copy loop with an unwritten byte is recorded (R62, R244). -/
theorem load_unwritten_records {k : Nat} {l : Locals} {s : State} (he : (l.off.toNat + 2 * k) % 2 = 0)
    (hb : l.off.toNat + 2 * k + 2 ≤ s.cfg.pmaSize)
    (hu : s.pma.read (l.off.toNat + 2 * k) = none ∨ s.pma.read (l.off.toNat + 2 * k + 1) = none) :
    Records (.load k) l s .unspecifiedRead := by
  have hin : ¬ s.cfg.pmaSize < l.off.toNat + 2 * k + 2 := Nat.not_lt.2 hb
  refine ⟨_, _, by simp only [perform, loadWord, memRead, he, hin, if_false, Nat.zero_ne_one]; rfl, ?_⟩
  simp only [put_eq, State.withOut_faults]
  rcases hu with hlo | hhi
  · exact readCell_faults _ _ _ (readCell_none_records hlo s)
  · refine readCell_none_records ?_ _
    rwa [readByte, readCell_snd]

/-- A word of the copy loop past the arena is recorded (R65). -/
theorem load_past_records {k : Nat} {l : Locals} {s : State} (he : (l.off.toNat + 2 * k) % 2 = 0)
    (hb : s.cfg.pmaSize < l.off.toNat + 2 * k + 2) : Records (.load k) l s .arenaOverflow := by
  refine ⟨_, _, by simp only [perform, loadWord, memRead, he, hb, if_true, if_false, Nat.zero_ne_one]; rfl, ?_⟩
  simp only [put_eq, drawn_eq, State.withOut_faults, State.withFresh_faults]
  exact raise_records .arenaOverflow s

/-- A store past the arena is dropped and recorded (R65). -/
theorem store_past_records {k : Nat} {w : Word} {l : Locals} {s : State} (he : (l.off.toNat + 2 * k) % 2 = 0)
    (hb : s.cfg.pmaSize < l.off.toNat + 2 * k + 2) : Records (.store k w) l s .arenaOverflow :=
  ⟨_, _, by simp only [perform, memWrite_outside he hb]; rfl, raise_records .arenaOverflow s⟩

/-- An allocation that ends past the arena is recorded (R112, R115). -/
theorem writeFba_past_records {n : Nat} {l : Locals} {s : State} (hb : s.cfg.pmaSize < l.off.toNat + roundSize n) :
    Records (.writeFba n) l s .arenaOverflow :=
  ⟨_, _, rfl, by simpa [advanceFba, hb] using raise_records .arenaOverflow s⟩

/-! ## Offsets are even until `UnspecifiedRead` is recorded -/

/-- The cursor and the buffer offsets are even. -/
structure State.CellsEven (s : State) : Prop where
  fba    : ∀ v, s.fba = some v → v.toNat % 2 = 0
  txaddr : ∀ (i : Fin 16) v, s.bd[i].txaddr = some v → v.toNat % 2 = 0
  rxaddr : ∀ (i : Fin 16) v, s.bd[i].rxaddr = some v → v.toNat % 2 = 0

/-- Unless `UnspecifiedRead` is recorded, every cell that holds an offset is even and so is the offset a command has
read (R44, R64). -/
def EvenUnlessRead (l : Locals) (s : State) : Prop :=
  s.faults.unspecifiedRead = false → s.CellsEven ∧ l.off.toNat % 2 = 0

theorem EvenUnlessRead.withOff {l l1 : Locals} {s : State} (h : EvenUnlessRead l s) (h1 : l1.off.toNat % 2 = 0) :
    EvenUnlessRead l1 s := fun hu => ⟨(h hu).1, h1⟩

theorem EvenUnlessRead.congr {l : Locals} {s t : State} (e : SameBlock s t) (h : EvenUnlessRead l s) :
    EvenUnlessRead l t := by
  intro hu
  obtain ⟨hc, hl⟩ := h (e.faults ▸ hu)
  exact ⟨⟨by rw [e.fba]; exact hc.fba, by rw [e.bd]; exact hc.txaddr, by rw [e.bd]; exact hc.rxaddr⟩, hl⟩

/-- A read that has recorded nothing found a written cell and left the state alone. -/
theorem readCell_of_unread {w : Nat} {c : Option (BitVec w)} {s : State}
    (h : (readCell c s).2.faults.unspecifiedRead = false) : c = some (readCell c s).1 ∧ (readCell c s).2 = s := by
  cases c with
  | some v => exact ⟨rfl, rfl⟩
  | none => cases h

/-- Changing fields of one descriptor record keeps every property `P` of the records that the new one has. -/
theorem setBd_forall {P : BufDesc → Prop} {i : Fin 16} {d : BufDesc} {s : State} (hs : ∀ j : Fin 16, P s.bd[j])
    (hd : P d) (j : Fin 16) : P (setBd i d s).bd[j] := by
  rw [setBd_eq, State.withBdAll_bd]
  split
  · rw [Fin.getElem_fin, Vector.getElem_set]
    split
    · exact hd
    · exact hs j
  · exact hs j

/-- The buffer offsets of a record are even. -/
def BufDesc.Even (d : BufDesc) : Prop :=
  (∀ v, d.txaddr = some v → v.toNat % 2 = 0) ∧ ∀ v, d.rxaddr = some v → v.toNat % 2 = 0

theorem State.CellsEven.bd {s : State} (h : s.CellsEven) (i : Fin 16) : s.bd[i].Even := ⟨h.txaddr i, h.rxaddr i⟩

theorem State.CellsEven.of_bd {s : State} (hf : ∀ v, s.fba = some v → v.toNat % 2 = 0)
    (hb : ∀ i : Fin 16, s.bd[i].Even) : s.CellsEven := ⟨hf, fun i => (hb i).1, fun i => (hb i).2⟩

theorem State.CellsEven.setBd {i : Fin 16} {d : BufDesc} {s : State} (h : s.CellsEven) (hd : d.Even) :
    (setBd i d s).CellsEven :=
  .of_bd (by rw [setBd_eq]; exact h.fba) (setBd_forall h.bd hd)

theorem State.CellsEven.unwriteOthers {s : State} (h : s.CellsEven) : (unwriteOthers s).CellsEven := by
  refine .of_bd h.fba fun j => ?_
  rw [Machine.unwriteOthers, State.withBdAll_bd, Fin.getElem_fin, Vector.getElem_set]
  split
  · exact h.bd 0
  · simp [BufDesc.Even]

/-- An allocation moves an even cursor by an even size (R111, R112). -/
theorem advanced_even {off : Word} (h : off.toNat % 2 = 0) (n : Nat) :
    (BitVec.ofNat 16 (off.toNat + roundSize n)).toNat % 2 = 0 := by
  have := roundSize_even n
  rw [BitVec.toNat_ofNat]
  omega

/-- An access that writes neither the cursor nor a descriptor leaves the cells even. -/
theorem State.CellsEven.perform {a : Access} {l l1 : Locals} {s t : State} (h : perform a l s = .ok (l1, t))
    (hf : a.writesFba = false) (hb : a.writesBd = false) (hs : s.CellsEven) : t.CellsEven := by
  have frame := perform_frame h
  exact .of_bd (by rw [frame.fba hf]; exact hs.fba) (by rw [frame.bd hb]; exact hs.bd)

/-- Every access keeps the cells and the offset read even, unless it records `UnspecifiedRead`. -/
theorem perform_keeps_even {a : Access} {l l1 : Locals} {s t : State} (hs : EvenUnlessRead l s)
    (h : perform a l s = .ok (l1, t)) : EvenUnlessRead l1 t := by
  intro hu
  obtain ⟨hc, hl⟩ := hs ((perform_faults h).unread hu)
  cases a with
  | readFba =>
    refine ⟨hc.perform h rfl rfl, ?_⟩
    cases h
    exact hc.fba _ (readCell_of_unread hu).1
  | readTxaddr i =>
    refine ⟨hc.perform h rfl rfl, ?_⟩
    cases h
    exact hc.txaddr i _ (readCell_of_unread hu).1
  | readRxaddr i =>
    refine ⟨hc.perform h rfl rfl, ?_⟩
    cases h
    exact hc.rxaddr i _ (readCell_of_unread hu).1
  | zeroFba => cases h; exact ⟨.of_bd (by rintro _ ⟨⟩; rfl) hc.bd, hl⟩
  | writeFba n =>
    cases h
    rw [advanceFba_eq]
    exact ⟨.of_bd (by rintro _ ⟨⟩; exact advanced_even hl n) hc.bd, hl⟩
  | writeTxaddr i => cases h; exact ⟨hc.setBd ⟨by rintro _ ⟨⟩; exact hl, hc.rxaddr i⟩, hl⟩
  | writeRxaddr i => cases h; exact ⟨hc.setBd ⟨hc.txaddr i, by rintro _ ⟨⟩; exact hl⟩, hl⟩
  | writeRxenc i _ | writeTxcount i _ => cases h; exact ⟨hc.setBd (hc.bd i), hl⟩
  | unwriteOthers => cases h; exact ⟨hc.unwriteOthers, hl⟩
  | load | store =>
    refine ⟨hc.perform h rfl rfl, ?_⟩
    simp only [Machine.perform] at h
    split at h <;> cases h
    exact hl
  | _ => exact ⟨hc.perform h rfl rfl, by cases h; exact hl⟩

/-- No move of the bus agent writes a buffer offset (R225). -/
theorem busMove_bd_even {m : BusMove} {s t : State} (h : busMove m s = .ok t) (hs : ∀ i : Fin 16, s.bd[i].Even) :
    ∀ i : Fin 16, t.bd[i].Even := by
  cases m with
  | rxDone i setup d =>
    rcases rxDone_cases h with rfl | ⟨-, rfl⟩ | ⟨-, cap, -, -, h⟩
    · exact hs
    · rw [readCell_snd]; exact hs
    · obtain ⟨s1, h1, rfl⟩ := storePacket_cases h
      have hbd : s1.bd = s.bd := by
        rw [writeWords_frame h1]
        simp [readCell_snd, drawn_eq]
      have h1s : ∀ j : Fin 16, s1.bd[j].Even := by rw [hbd]; exact hs
      rw [setEpr_eq, State.withEprAll_bd]
      exact setBd_forall h1s (h1s i)
  | txDone i =>
    rcases txDone_cases h with rfl | ⟨-, bs, s1, h1, rfl⟩
    · exact hs
    · rw [setEpr_eq, put_eq, (readWords_frame h1).1]
      simpa [readCell_snd] using hs
  | _ =>
    simp only [busMove, Except.ok.injEq] at h
    subst h
    split <;> exact hs

theorem busMove_keeps_even {m : BusMove} {l : Locals} {s t : State} (hs : EvenUnlessRead l s)
    (h : busMove m s = .ok t) : EvenUnlessRead l t := by
  intro hu
  obtain ⟨hc, hl⟩ := hs ((busMove_faults h).unread hu)
  exact ⟨.of_bd (by rw [(busMove_frame h).fba]; exact hc.fba) (busMove_bd_even h hc.bd), hl⟩

theorem boundary_keeps_even {l : Locals} {s t : State} {b : Bool} (hs : EvenUnlessRead l s)
    (h : boundary s = .ok (t, b)) : EvenUnlessRead l t :=
  othersMove_rec (P := EvenUnlessRead l) (fun _ _ _ _ e p => busMove_keeps_even p e)
    (fun s _ p => p.congr (sameBlock_enterDispatcher s)) (fun s _ _ p => p.congr { SameBlock.refl s with })
    (fun _ h => h) hs h

/-! ## A refusal as `Misaligned` carries `UnspecifiedRead` -/

/-- A refusal as `Misaligned` carries `UnspecifiedRead` (R246; assumption log 14). -/
def Refusal.CarriesRead (r : Refusal) : Prop := ∀ f, r = .misaligned f → f.unspecifiedRead = true

theorem Refusal.carriesRead_of_odd {off : Nat} {s : State} (he : s.faults.unspecifiedRead = false → off % 2 = 0)
    (ho : off % 2 = 1) : (Refusal.misaligned s.faults).CarriesRead := by
  rintro f ⟨⟩
  by_contra hu
  have := he (Bool.eq_false_iff.2 hu)
  omega

theorem memRead_refusal {off : Nat} {s : State} {r : Refusal} (he : s.faults.unspecifiedRead = false → off % 2 = 0)
    (h : memRead off s = .error r) : r.CarriesRead := by
  unfold memRead at h
  split at h
  · cases h; exact Refusal.carriesRead_of_odd he ‹_›
  · split at h <;> cases h

theorem memWrite_refusal {off : Nat} {v : Word} {s : State} {r : Refusal}
    (he : s.faults.unspecifiedRead = false → off % 2 = 0) (h : memWrite off v s = .error r) : r.CarriesRead := by
  unfold memWrite at h
  split at h
  · cases h; exact Refusal.carriesRead_of_odd he ‹_›
  · split at h <;> cases h

theorem readWords_refusal {m off : Nat} {s : State} {r : Refusal}
    (he : s.faults.unspecifiedRead = false → off % 2 = 0) (h : readWords off m s = .error r) : r.CarriesRead := by
  induction m generalizing off s with
  | zero => cases h
  | succ m ih =>
    simp only [readWords] at h
    split at h
    · rename_i h1; cases h; exact memRead_refusal he h1
    · rename_i h1
      split at h <;> cases h
      rename_i h2
      refine ih (fun hu => ?_) h2
      have := he ((memRead_faults h1).unread hu)
      omega

theorem writeWords_refusal {ws : List Word} {off : Nat} {s : State} {r : Refusal}
    (he : s.faults.unspecifiedRead = false → off % 2 = 0) (h : writeWords off ws s = .error r) : r.CarriesRead := by
  induction ws generalizing off s with
  | nil => cases h
  | cons w ws ih =>
    simp only [writeWords] at h
    split at h
    · rename_i h1; cases h; exact memWrite_refusal he h1
    · rename_i h1
      refine ih (fun hu => ?_) h
      have := he ((memWrite_faults h1).unread hu)
      omega

theorem storePacket_refusal {i : Fin 16} {setup : Bool} {d : List Byte} {l : Locals} {s : State} {r : Refusal}
    (hs : EvenUnlessRead l s) (h : storePacket i setup d s = .error r) : r.CarriesRead := by
  simp only [storePacket] at h
  split at h <;> cases h
  rename_i h1
  refine writeWords_refusal (fun hu => ?_) h1
  obtain ⟨hw, he⟩ := readCell_of_unread (c := s.bd[i].rxaddr) (s := s) hu
  exact (hs (by rw [← he]; exact hu)).1.rxaddr i _ hw

theorem rxDone_refusal {i : Fin 16} {setup : Bool} {d : List Byte} {l : Locals} {s : State} {r : Refusal}
    (hs : EvenUnlessRead l s) (h : rxDone i setup d s = .error r) : r.CarriesRead := by
  have hs1 : EvenUnlessRead l (readCell s.bd[i].rxenc s).2 := by
    intro hu
    have he := (readCell_of_unread hu).2
    rw [he] at hu ⊢
    exact hs hu
  unfold rxDone at h
  split at h
  · simp only at h
    split at h
    · split at h
      · exact storePacket_refusal hs1 h
      · cases h
    · cases h
  · cases h

theorem txDone_refusal {i : Fin 16} {l : Locals} {s : State} {r : Refusal} (hs : EvenUnlessRead l s)
    (h : txDone i s = .error r) : r.CarriesRead := by
  unfold txDone at h
  split at h
  · simp only at h
    split at h <;> cases h
    rename_i h1
    refine readWords_refusal (fun hu => ?_) h1
    have hu1 := (readCell_faults _ _).unread hu
    obtain ⟨hw, he⟩ := readCell_of_unread hu1
    exact (hs (by rw [← he]; exact hu1)).1.txaddr i _ hw
  · cases h

theorem busMove_refusal {m : BusMove} {l : Locals} {s : State} {r : Refusal} (hs : EvenUnlessRead l s)
    (h : busMove m s = .error r) : r.CarriesRead := by
  cases m with
  | rxDone i setup d => exact rxDone_refusal hs h
  | txDone i => exact txDone_refusal hs h
  | _ => cases h

theorem othersMove_refusal {cs : List Choice} {l : Locals} {s : State} {r : Refusal} (hs : EvenUnlessRead l s)
    (h : othersMove cs s = .error r) : r.CarriesRead := by
  induction cs generalizing s with
  | nil => cases h
  | cons c cs ih =>
    cases c with
    | go => cases h
    | bus m =>
      simp only [othersMove] at h
      split at h
      · rename_i h1; cases h; exact busMove_refusal hs h1
      · rename_i h1; exact ih (busMove_keeps_even hs h1) h
    | irq =>
      simp only [othersMove] at h
      split at h
      · cases h
      · exact ih hs h

theorem boundary_refusal {l : Locals} {s : State} {r : Refusal} (hs : EvenUnlessRead l s)
    (h : boundary s = .error r) : r.CarriesRead := othersMove_refusal hs h

theorem loadWord_refusal {k : Nat} {l : Locals} {s : State} {r : Refusal} (hs : EvenUnlessRead l s)
    (h : loadWord k l s = .error r) : r.CarriesRead := by
  unfold loadWord at h
  split at h <;> cases h
  rename_i h1
  refine memRead_refusal (fun hu => ?_) h1
  have := (hs hu).2
  omega

theorem loadWord_keeps_even {k : Nat} {l : Locals} {s t : State} (hs : EvenUnlessRead l s)
    (h : loadWord k l s = .ok t) : EvenUnlessRead l t :=
  perform_keeps_even (a := .load k) (l1 := l) hs (by simp only [perform, h])

/-- Of the accesses only those of the arena are refused. -/
theorem perform_refusal {a : Access} {l : Locals} {s : State} {r : Refusal} (hs : EvenUnlessRead l s)
    (h : perform a l s = .error r) : r.CarriesRead := by
  cases a with
  | load k =>
    simp only [perform] at h
    split at h <;> cases h
    rename_i h1
    exact loadWord_refusal hs h1
  | store k w =>
    simp only [perform] at h
    split at h <;> cases h
    rename_i h1
    refine memWrite_refusal (fun hu => ?_) h1
    have := (hs hu).2
    omega
  | _ => cases h

/-- How an element of an access list may go: made whole with even offsets, left inside, or refused with the cause. -/
def EvenProgress : Except Refusal Progress → Prop
  | .ok (.whole l s) => EvenUnlessRead l s
  | .ok (.part _ _)  => True
  | .error r         => r.CarriesRead

theorem loadLoop_even {m k : Nat} {l : Locals} {s : State} (hs : EvenUnlessRead l s) :
    EvenProgress (loadLoop l m k s) := by
  induction m generalizing k s with
  | zero => exact hs
  | succ m ih =>
    simp only [loadLoop]
    split
    · exact loadWord_refusal hs ‹_›
    · rename_i s1 h1
      have hs1 := loadWord_keeps_even hs h1
      split
      · exact hs1
      · split
        · exact boundary_refusal hs1 ‹_›
        · rename_i hb
          exact ih (boundary_keeps_even hs1 hb)
        · trivial

theorem performAll_even {a : Access} {l : Locals} {s : State} (hs : EvenUnlessRead l s) :
    EvenProgress (performAll a l s) := by
  cases hl : a.isLoad with
  | true =>
    cases a with
    | load k => exact loadLoop_even hs
    | _ => cases hl
  | false =>
    rw [performAll_whole hl]
    cases hp : perform a l s with
    | error r => exact perform_refusal hs hp
    | ok p => exact perform_keeps_even hs hp

/-- A list of accesses that is refused as `Misaligned` carries `UnspecifiedRead`, under every schedule. -/
theorem run_refusal {as : List Access} {l : Locals} {fin : Finish} {s : State} {r : Refusal} (hs : EvenUnlessRead l s)
    (h : run as l fin s = .error r) : r.CarriesRead := by
  induction as generalizing l s with
  | nil => cases h
  | cons a as ih =>
    have hp := performAll_even (a := a) hs
    rw [run] at h
    split at h
    · rename_i h1
      cases h
      rwa [h1] at hp
    · cases h
    · rename_i l1 s1 h1
      rw [h1] at hp
      split at h
      · cases h
      · split at h
        · cases h
        · split at h
          · rename_i hb; cases h; exact boundary_refusal hp hb
          · rename_i hb; exact ih (boundary_keeps_even hp hb) h
          · cases h

/-! ## What a step can be -/

theorem SameBlock.trans {s t u : State} (h : SameBlock s t) (k : SameBlock t u) : SameBlock s u where
  cfg := k.cfg.trans h.cfg
  cntr := k.cntr.trans h.cntr
  istr := k.istr.trans h.istr
  fn := k.fn.trans h.fn
  daddr := k.daddr.trans h.daddr
  epr := k.epr.trans h.epr
  bd := k.bd.trans h.bd
  pma := k.pma.trans h.pma
  fba := k.fba.trans h.fba
  conn := k.conn.trans h.conn
  suspended := k.suspended.trans h.suspended
  irqEn := k.irqEn.trans h.irqEn
  faults := k.faults.trans h.faults

/-- What the values of a command start from in a step from `s`: no offset read, or those of a held command. -/
def StartValues (s : State) (l : Locals) : Prop :=
  l.off = 0 ∨ ∃ f, (s.fgHeld = some f ∨ s.dispHeld = some f) ∧ l = f.vars

/-- Everything a step from `s` can be, with nothing before it but what leaves the block as it is. -/
inductive StepForm (s : State) : Host.Outcome State Fault Refusal → Prop
  /-- A refusal of another kind than `Misaligned`. -/
  | refused {r : Refusal} (hr : ∀ f, r ≠ .misaligned f) : StepForm s (.refused r)
  /-- A next state with no access made: the dispatcher starts, a phase is passed over, or nothing happens. -/
  | next (t : State) : StepForm s (.next t)
  /-- A move of the bus agent. -/
  | bus (m : BusMove) {s1 : State} (h : SameBlock s s1) : StepForm s (toOutcome (busMove m s1))
  /-- Accesses of a command or service. -/
  | accesses (as : List Access) (l : Locals) (fin : Finish) {s1 : State} (h : SameBlock s s1) (hl : StartValues s l) :
      StepForm s (start as l fin s1)
  /-- A boundary that is refused, inside the loop's top (R187). -/
  | boundary {s1 : State} {r : Refusal} (h : SameBlock s s1) (hb : Machine.boundary s1 = .error r) : StepForm s (.refused r)
  /-- Accesses after a boundary, inside the loop's top (R187). -/
  | afterBoundary (as : List Access) (fin : Finish) {s1 s2 : State} {b : Bool} (h : SameBlock s s1)
      (hb : Machine.boundary s1 = .ok (s2, b)) : StepForm s (start as {} fin s2)

namespace StepForm

theorem withEndpoint {s s1 : State} {o : Host.Outcome State Fault Refusal} (i : Fin 16) (h : StepForm s o) :
    StepForm s (Machine.withEndpoint i s1 o) := by
  unfold Machine.withEndpoint
  split
  · exact h
  · exact refused nofun

theorem exec (i : Instr) {s s1 : State} (h : SameBlock s s1) : StepForm s (exec i s1) := by
  cases i with
  | configEp ep t m =>
    refine withEndpoint _ ?_
    split
    · exact refused nofun
    · exact accesses _ _ _ h (.inl rfl)
  | enableEp | disableEp | resetEp | stallEp | clrStall | readEp | setStatus | istrCtr =>
    exact withEndpoint _ (accesses _ _ _ h (.inl rfl))
  | writeEp ep n => exact withEndpoint _ (accesses _ _ _ (h.trans { SameBlock.refl s1 with }) (.inl rfl))
  | istrPmaovr | istrErr =>
    simp only [Machine.exec, execIstrPmaovr, execIstrErr]
    split
    · exact accesses _ _ _ h (.inl rfl)
    · exact next _
  | init | setAddr | setConfig | getFrame =>
    simp only [Machine.exec, execInit, execSetAddr, execSetConfig, execGetFrame]
    exact accesses _ _ _ h (.inl rfl)
  | _ => exact accesses _ _ _ h (.inl rfl)

theorem issue (r : Request) {s s1 : State} (h : SameBlock s s1) : StepForm s (issue r s1) := by
  unfold Machine.issue
  split
  · exact exec _ (h.trans { SameBlock.refl s1 with })
  all_goals exact refused nofun

theorem loopTop {s s1 : State} (h : SameBlock s s1) : StepForm s (loopTop s1) := by
  have hr : SameBlock s ((readIstr s1).2.withSnap (readIstr s1).1) := by
    rw [readIstr_snd]
    exact h.trans { SameBlock.refl s1 with }
  simp only [Machine.loopTop]
  split
  · split
    · exact boundary hr ‹_›
    · rename_i hb
      exact withEndpoint _ (afterBoundary _ _ hr hb)
  · exact next _

theorem phaseTurn {s s1 : State} (h : SameBlock s s1) : StepForm s (phaseTurn s1) := by
  unfold Machine.phaseTurn
  split
  · exact next _
  · split
    · exact exec _ h
    · exact next _
  · exact loopTop h
  · unfold rxService
    split
    · exact accesses _ _ _ h (.inl rfl)
    · exact next _
  · unfold txService
    split
    · exact accesses _ _ _ h (.inl rfl)
    · exact next _

/-- The schedule is all that a turn has used up when the software agent goes on. -/
theorem softwareTurn (s : State) (cs : List Choice) : StepForm s (softwareTurn (s.withSched cs)) := by
  have h : SameBlock s (s.withSched cs) := { SameBlock.refl s with }
  unfold Machine.softwareTurn
  split
  · unfold foregroundTurn
    split
    · exact accesses _ _ _ { SameBlock.refl s with } (.inr ⟨_, .inl ‹_›, rfl⟩)
    · split
      · exact issue _ { SameBlock.refl s with }
      · exact next _
  · unfold dispatcherTurn
    split
    · exact issue _ { SameBlock.refl s with }
    · split
      · exact accesses _ _ _ { SameBlock.refl s with } (.inr ⟨_, .inr ‹_›, rfl⟩)
      · exact phaseTurn h

end StepForm

theorem step_form (s : State) : StepForm s (step s) := by
  unfold step
  split
  · unfold turn
    split
    · exact .bus _ { SameBlock.refl s with }
    · exact .next _
    · exact .softwareTurn s _
    · split
      · exact .next _
      · exact StepForm.softwareTurn s s.sched
  · exact .refused nofun

theorem toOutcome_ne_fault (o : Except Refusal State) (f : Fault) : toOutcome o ≠ .fault f := by cases o <;> nofun

theorem toOutcome_refused {o : Except Refusal State} {r : Refusal} (h : toOutcome o = .refused r) : o = .error r := by
  cases o <;> cases h
  rfl

/-- No step ends in a fault (R18, R244). -/
theorem StepForm.ne_fault {s : State} {o : Host.Outcome State Fault Refusal} (h : StepForm s o) (f : Fault) :
    o ≠ .fault f := by
  cases h with
  | refused | next | boundary => nofun
  | bus | accesses | afterBoundary => exact toOutcome_ne_fault _ f

theorem State.OffsetsEven.cells {s : State} (h : s.OffsetsEven) : s.CellsEven := ⟨h.fba, h.txaddr, h.rxaddr⟩

/-- Where the offsets are even, a command starts from an even one. -/
theorem StartValues.even {s : State} {l : Locals} (h : StartValues s l) (hs : s.OffsetsEven) : l.off.toNat % 2 = 0 := by
  obtain h | ⟨f, hf | hf, rfl⟩ := h
  · rw [h]; rfl
  · exact hs.fg f hf
  · exact hs.disp f hf

/-- A step refused as `Misaligned` carries the `UnspecifiedRead` its offset came from (R64, R246). -/
theorem StepForm.refusal {s : State} {r : Refusal} (h : StepForm s (.refused r))
    (hs : s.faults.unspecifiedRead = false → s.OffsetsEven) : r.CarriesRead := by
  have hs0 : EvenUnlessRead {} s := fun hu => ⟨(hs hu).cells, rfl⟩
  generalize ho : Host.Outcome.refused r = o at h
  cases h with
  | refused hr => cases ho; exact fun f e => absurd e (hr f)
  | next => cases ho
  | bus m e => exact busMove_refusal (hs0.congr e) (toOutcome_refused ho.symm)
  | accesses as l fin e hl =>
    have hsl : EvenUnlessRead l s := fun hu => ⟨(hs hu).cells, hl.even (hs hu)⟩
    exact run_refusal (hsl.congr e) (toOutcome_refused ho.symm)
  | boundary e hb => cases ho; exact boundary_refusal (hs0.congr e) hb
  | afterBoundary as fin e hb =>
    exact run_refusal (boundary_keeps_even (hs0.congr e) hb) (toOutcome_refused ho.symm)

/-- Settles O57: faults only grow by `step_keeps`, each access that meets an unwritten value or the arena's end records
it, and a refusal as `Misaligned` is traced to the read its odd offset came from. -/
theorem faultsAreRecorded : Obligations.FaultsAreRecorded := by
  unfold Obligations.FaultsAreRecorded
  refine ⟨fun s => ⟨(step_form s).ne_fault, fun t h => step_keeps_faults_cfg h⟩, fun l s => ?_, fun s f hs h => ?_⟩
  · refine ⟨fun h => ⟨_, _, rfl, readCell_none_records h s⟩, fun h => ⟨_, _, rfl, readCell_none_records h s⟩,
      fun i => ⟨fun h => ⟨_, _, rfl, readCell_none_records h s⟩, fun h => ⟨_, _, rfl, readCell_none_records h s⟩,
        fun h => ⟨_, _, rfl, readCell_none_records h s⟩⟩, fun n h => writeFba_past_records h, fun he k w => ?_⟩
    have hk : (l.off.toNat + 2 * k) % 2 = 0 := by omega
    exact ⟨fun hb hu => load_unwritten_records hk hb hu, fun hb => ⟨load_past_records hk hb, store_past_records hk hb⟩⟩
  · have hf := step_form s
    rw [h] at hf
    exact hf.refusal hs f rfl

end Sys2Proof.Machine
end

section
/-! Settles O55. The registers and the arena keep their invariant (R22, R23, R26, R31, R38, R43, R63, R65): each update
of the state that an access or a move of the bus agent is made of keeps it. -/

namespace Sys2Proof.Machine

/-! ## The arena -/

/-- The written bytes of the arena: in canonical form, inside the bounds, words whole (R43, R63, R65). -/
structure State.ArenaInv (s : State) : Prop where
  canonical : s.pma.wf
  bounds : ∀ c ∈ s.pma, c.1 < s.cfg.pmaSize
  paired : s.pma.paired

theorem State.ArenaInv.memWrite {off : Nat} {v : Word} {s t : State} (hs : s.ArenaInv) (h : memWrite off v s = .ok t) :
    t.ArenaInv := ⟨memWrite_wf hs.canonical h, memWrite_bounds hs.bounds h, memWrite_paired hs.paired h⟩

theorem State.ArenaInv.writeWords {ws : List Word} {off : Nat} {s t : State} (hs : s.ArenaInv)
    (h : writeWords off ws s = .ok t) : t.ArenaInv := by
  induction ws generalizing off s with
  | nil => cases h; exact hs
  | cons w ws ih =>
    simp only [Machine.writeWords] at h
    split at h
    · cases h
    · rename_i h1
      exact ih (hs.memWrite h1) h

/-! ## The updates that keep the invariant -/

theorem and_and_eq_zero {v w m : Word} (h : v &&& m = 0) : v &&& w &&& m = 0 := by
  rw [BitVec.and_assoc, BitVec.and_comm w, ← BitVec.and_assoc, h]
  exact BitVec.zero_and

namespace State.Inv

variable {s : State}

theorem arena (h : s.Inv) : s.ArenaInv := ⟨h.arenaCanonical, h.arenaBounds, h.arenaPaired⟩

theorem congr {t : State} (e : SameBlock s t) (h : s.Inv) : t.Inv where
  config := by rw [e.cfg]; exact h.config
  arenaCanonical := by rw [e.pma]; exact h.arenaCanonical
  arenaBounds := by rw [e.pma, e.cfg]; exact h.arenaBounds
  arenaPaired := by rw [e.pma]; exact h.arenaPaired
  cntrReserved := by rw [e.cntr]; exact h.cntrReserved
  istrStored := by rw [e.istr]; exact h.istrStored
  daddrReserved := by rw [e.daddr]; exact h.daddrReserved
  absentEpr := by rw [e.cfg, e.epr]; exact h.absentEpr
  absentBd := by rw [e.cfg, e.bd]; exact h.absentBd

/-- New written bytes, and faults recorded. -/
theorem withArena (h : s.Inv) {m : Memory} {f : FaultSet} (ha : (s.withPma m).ArenaInv) :
    ((s.withPma m).withFaults f).Inv :=
  { h with arenaCanonical := ha.canonical, arenaBounds := ha.bounds, arenaPaired := ha.paired }

theorem memWrite {off : Nat} {v : Word} {t : State} (h : s.Inv) (e : memWrite off v s = .ok t) : t.Inv := by
  have ha := h.arena.memWrite e
  rw [memWrite_fields e] at ha ⊢
  exact h.withArena ⟨ha.canonical, ha.bounds, ha.paired⟩

theorem writeWords {off : Nat} {ws : List Word} {t : State} (h : s.Inv) (e : writeWords off ws s = .ok t) : t.Inv := by
  have ha := h.arena.writeWords e
  rw [writeWords_frame e] at ha ⊢
  exact h.withArena ⟨ha.canonical, ha.bounds, ha.paired⟩

theorem withCntr (h : s.Inv) {v : Word} (hv : v &&& 0x01F2 = 0) : (s.withCntr v).Inv := { h with cntrReserved := hv }

theorem withIstr (h : s.Inv) {v : Word} (hv : v &&& 0x81FF = 0) : (s.withIstr v).Inv := { h with istrStored := hv }

theorem withDaddr (h : s.Inv) {v : Word} (hv : v &&& 0xFF00 = 0) : (s.withDaddr v).Inv := { h with daddrReserved := hv }

/-- A software write of `CNTR` leaves its reserved bits 0 (R23, R25). -/
theorem writeCntr (h : s.Inv) (w : Word) : (writeCntr w s).Inv :=
  h.withCntr (by rw [cntrAfterWrite, BitVec.and_assoc]; exact BitVec.and_zero)

/-- A software write of `ISTR` sets no bit (R29). -/
theorem writeIstr (h : s.Inv) (w : Word) : (writeIstr w s).Inv :=
  h.withIstr (and_and_eq_zero h.istrStored)

/-- A software write of `DADDR` leaves bits 15:8 0 (R31). -/
theorem writeDaddr (h : s.Inv) (w : Word) : (writeDaddr w s).Inv :=
  h.withDaddr (by rw [daddrAfterWrite, BitVec.and_assoc]; exact BitVec.and_zero)

/-- Only a register that exists is written (R22). -/
theorem setEpr (h : s.Inv) (i : Fin 16) (v : Word) : (setEpr i v s).Inv := by
  unfold Machine.setEpr
  split
  · refine { h with absentEpr := fun j hj => ?_ }
    rw [State.withEprAll_cfg] at hj
    have hne : i.val ≠ j.val := by omega
    simpa [Vector.getElem_set_ne _ _ hne] using h.absentEpr j hj
  · exact h

/-- Only a record that exists is written (R38). -/
theorem setBd (h : s.Inv) (i : Fin 16) (d : BufDesc) : (setBd i d s).Inv := by
  unfold Machine.setBd
  split
  · refine { h with absentBd := fun j hj => ?_ }
    rw [State.withBdAll_cfg] at hj
    have hne : i.val ≠ j.val := by omega
    simpa [Vector.getElem_set_ne _ _ hne] using h.absentBd j hj
  · exact h

/-- Unwriting the other records writes none that does not exist (R163). -/
theorem unwriteOthers (h : s.Inv) : (unwriteOthers s).Inv := by
  refine { h with absentBd := fun j hj => ?_ }
  rw [Machine.unwriteOthers, State.withBdAll_bd, Fin.getElem_fin, Vector.getElem_set]
  split
  · rename_i h0
    have hj0 : j = 0 := Fin.ext h0.symm
    subst hj0
    exact h.absentBd 0 hj
  · simp

theorem readCell (h : s.Inv) {w : Nat} (c : Option (BitVec w)) : (readCell c s).2.Inv := by
  rw [readCell_snd]
  exact { h with }

theorem memRead (h : s.Inv) {off : Nat} {w : Word} {t : State} (e : memRead off s = .ok (w, t)) : t.Inv := by
  rw [memRead_fields e]
  exact { h with }

theorem put (h : s.Inv) (o : Output) : (put o s).Inv := { h with }

/-- An event of the bus is a stored bit (R26, R28). -/
theorem setEvent (h : s.Inv) (e : Event) : (setEvent e s).Inv :=
  h.withIstr (by rw [BitVec.and_or_distrib_right, h.istrStored]; cases e <;> rfl)

end State.Inv

theorem perform_keeps_inv {a : Access} {l l1 : Locals} {s t : State} (hs : s.Inv) (h : perform a l s = .ok (l1, t)) :
    t.Inv := by
  cases a with
  | load k =>
    simp only [perform, loadWord] at h
    split at h <;> cases h
    rename_i h1
    split at h1 <;> cases h1
    rename_i h2
    exact ((hs.memRead h2).put _).put _
  | store k w =>
    simp only [perform] at h
    split at h <;> cases h
    rename_i h1
    exact hs.memWrite h1
  | writeCntr | finishConnect | forceSuspend | endSuspend => cases h; exact { hs.writeCntr _ with }
  | writeIstr => cases h; exact hs.writeIstr _
  | setAddr | defaultAddress => cases h; exact { hs.writeDaddr _ with }
  | writeEpr | writeStatus | writeAnd => cases h; exact hs.setEpr _ _
  | writeTxaddr | writeRxaddr | writeRxenc | writeTxcount => cases h; exact hs.setBd _ _
  | unwriteOthers => cases h; exact hs.unwriteOthers
  | readFba | readTxaddr | readRxaddr | readRxlen => cases h; exact hs.readCell _
  | readFnr => cases h; rw [readFnr_snd]; exact { hs.readCell s.fn with }
  | writeFba n => cases h; rw [advanceFba_eq]; exact { hs with }
  | emitEp | emitBus => cases h; rw [emit_eq]; exact { hs with }
  | _ => cases h; exact { hs with }

theorem ite_keeps {P : State → Prop} {c : Prop} [Decidable c] {s t : State} (hs : P s) (ht : P t) :
    P (if c then s else t) := by split <;> assumption

theorem busReset_keeps_inv {s : State} (hs : s.Inv) : (busReset s).Inv :=
  { hs.setEvent .reset with absentEpr := fun i _ => by simp [busReset], daddrReserved := BitVec.zero_and }

theorem wakeup_keeps_inv {s : State} (hs : s.Inv) : (wakeup s).Inv :=
  (hs.setEvent .wakeup).withCntr (and_and_eq_zero hs.cntrReserved)

theorem busMove_keeps_inv {m : BusMove} {s t : State} (hs : s.Inv) (h : busMove m s = .ok t) : t.Inv := by
  cases m with
  | rxDone i setup d =>
    rcases rxDone_cases h with rfl | ⟨-, rfl⟩ | ⟨-, cap, -, -, h⟩
    · exact hs
    · exact hs.readCell _
    · obtain ⟨s1, h1, rfl⟩ := storePacket_cases h
      have hd : (drawn (readCell (readCell s.bd[i].rxenc s).2.bd[i].rxaddr (readCell s.bd[i].rxenc s).2).2).Inv :=
        { (hs.readCell _).readCell _ with }
      exact ((hd.writeWords h1).setBd _ _).setEpr _ _
  | txDone i =>
    rcases txDone_cases h with rfl | ⟨-, bs, s1, h1, rfl⟩
    · exact hs
    · have hr : s1.Inv := by
        rw [(readWords_frame h1).1]
        exact { (hs.readCell _).readCell _ with }
      exact (hr.put _).setEpr _ _
  | busReset => cases h; exact ite_keeps hs (busReset_keeps_inv hs)
  | wakeup => cases h; exact ite_keeps (wakeup_keeps_inv hs) hs
  | sof f => cases h; exact ite_keeps { hs.setEvent .sof with } hs
  | suspend | err | pmaOvr => cases h; exact ite_keeps (hs.setEvent _) hs

/-- Settles O55: each access and each move of the bus agent keeps the invariant, and so does a step, by `step_keeps`. -/
theorem stepKeepsInvariant : Obligations.StepKeepsInvariant := by
  unfold Obligations.StepKeepsInvariant
  intro s t hs h
  exact step_keeps (fun _ _ e p => p.congr e) (fun _ _ _ _ _ p e => perform_keeps_inv p e)
    (fun _ _ _ p e => busMove_keeps_inv p e) hs h

end Sys2Proof.Machine
end

section
/-! Settles O56 and O54. The offset a held command has read is even until `UnspecifiedRead` is recorded (R44, R64, R71):
it is the offset some access has read, or the one it was held with. -/

namespace Sys2Proof.Machine

/-! ## What a next state is made of -/

/-- The same block, and no command or service newly held. -/
structure SameOrReleased (s t : State) : Prop extends SameBlock s t where
  fgHeld : t.fgHeld = s.fgHeld ∨ t.fgHeld = none
  dispHeld : t.dispHeld = s.dispHeld ∨ t.dispHeld = none

theorem SameOrReleased.of_eq {s t : State} (h : SameBlock s t) (hf : t.fgHeld = s.fgHeld)
    (hd : t.dispHeld = s.dispHeld) :
    SameOrReleased s t := ⟨h, .inl hf, .inl hd⟩

theorem SameOrReleased.refl (s : State) : SameOrReleased s s := .of_eq (.refl s) rfl rfl

theorem SameOrReleased.enterDispatcher (s : State) : SameOrReleased s (enterDispatcher s) := by
  refine .of_eq (sameBlock_enterDispatcher s) ?_ ?_ <;> simp [enterDispatcher_eq, readIstr_snd]

namespace SameOrReleased

variable {s t : State} (h : SameOrReleased s t)
include h

theorem withSched (cs : List Choice) : SameOrReleased s (t.withSched cs) := { h with }
theorem withFgCmds (rs : List Request) : SameOrReleased s (t.withFgCmds rs) := { h with }
theorem withCbCmds (rs : List Request) : SameOrReleased s (t.withCbCmds rs) := { h with }
theorem releaseFg : SameOrReleased s (t.withFgHeld none) := { h with fgHeld := .inr rfl }
theorem releaseDisp : SameOrReleased s (t.withDispHeld none) := { h with dispHeld := .inr rfl }

end SameOrReleased

/-- Every way a step from `s` can come to a next state, but for what leaves the block as it is and holds nothing new.
`StepForm` says nothing of a next state reached without an access; for the held commands that case counts too. -/
inductive NextForm (s : State) : State → Prop
  /-- No access is made: the dispatcher starts, a phase is passed over, or nothing happens. -/
  | quiet {t : State} (h : SameOrReleased s t) : NextForm s t
  /-- A move of the bus agent. -/
  | bus (m : BusMove) {s1 t : State} (h : SameOrReleased s s1) (e : busMove m s1 = .ok t) : NextForm s t
  /-- Accesses of a command or service. -/
  | accesses (as : List Access) (l : Locals) (fin : Finish) {s1 t : State} (h : SameOrReleased s s1)
      (hl : StartValues s l) (e : run as l fin s1 = .ok t) : NextForm s t
  /-- Accesses after a boundary, inside the loop's top (R187). -/
  | afterBoundary (as : List Access) (fin : Finish) {s1 s2 t : State} {b : Bool} (h : SameOrReleased s s1)
      (hb : Machine.boundary s1 = .ok (s2, b)) (e : run as {} fin s2 = .ok t) : NextForm s t

theorem withEndpoint_next {i : Fin 16} {s t : State} {k : Host.Outcome State Fault Refusal}
    (h : withEndpoint i s k = .next t) : k = .next t := by
  unfold withEndpoint at h
  split at h
  · exact h
  · cases h

namespace NextForm

variable {s s1 t : State}

theorem exec {i : Instr} (h : SameOrReleased s s1) (e : exec i s1 = .next t) : NextForm s t := by
  obtain ⟨r, he⟩ | ⟨p, he⟩ | ⟨as, l, fin, s2, he, hs2, hl⟩ := exec_cases i s1 <;> rw [he] at e
  · cases e
  · cases e; exact quiet { h with }
  · have h2 : SameOrReleased s s2 := by
      obtain rfl | ⟨n, rfl⟩ := hs2
      · exact h
      · exact { h with }
    exact accesses as l fin h2 (.inl hl) (toOutcome_next e)

theorem issue {r : Request} (h : SameOrReleased s s1) (e : issue r s1 = .next t) : NextForm s t := by
  unfold Machine.issue at e
  split at e
  · exact exec (s1 := s1.withDin r.data) { h with } e
  all_goals cases e

theorem loopTop (h : SameOrReleased s s1) (e : loopTop s1 = .next t) : NextForm s t := by
  have hr : SameOrReleased s ((readIstr s1).2.withSnap (readIstr s1).1) := by
    rw [readIstr_snd]
    exact { h with }
  simp only [Machine.loopTop] at e
  split at e
  · split at e
    · cases e
    · rename_i hb
      exact afterBoundary _ _ hr hb (toOutcome_next (withEndpoint_next e))
  · cases e; exact quiet { hr with }

theorem phaseTurn (h : SameOrReleased s s1) (e : phaseTurn s1 = .next t) : NextForm s t := by
  unfold Machine.phaseTurn at e
  split at e
  · cases e; exact quiet h
  · split at e
    · exact exec h e
    · cases e; exact quiet { h with }
  · exact loopTop h e
  · unfold rxService at e
    split at e
    · exact accesses _ _ _ h (.inl rfl) (toOutcome_next e)
    · cases e; exact quiet { h with }
  · unfold txService at e
    split at e
    · exact accesses _ _ _ h (.inl rfl) (toOutcome_next e)
    · cases e; exact quiet { h with }

/-- The schedule is all that a turn has used up when the software agent goes on. -/
theorem softwareTurn {cs : List Choice} (e : softwareTurn (s.withSched cs) = .next t) : NextForm s t := by
  have h : SameOrReleased s (s.withSched cs) := (SameOrReleased.refl s).withSched cs
  unfold Machine.softwareTurn at e
  split at e
  · unfold foregroundTurn at e
    split at e
    · exact accesses _ _ _ h.releaseFg (.inr ⟨_, .inl ‹_›, rfl⟩) (toOutcome_next e)
    · split at e
      · exact issue (h.withFgCmds _) e
      · cases e; exact quiet h
  · unfold dispatcherTurn at e
    split at e
    · exact issue (h.withCbCmds _) e
    · split at e
      · exact accesses _ _ _ h.releaseDisp (.inr ⟨_, .inr ‹_›, rfl⟩) (toOutcome_next e)
      · exact phaseTurn h e

end NextForm

theorem step_nextForm {s t : State} (e : step s = .next t) : NextForm s t := by
  unfold step at e
  split at e
  · unfold turn at e
    split at e
    · exact .bus _ ((SameOrReleased.refl s).withSched _) (toOutcome_next e)
    · rename_i cs _
      cases e
      unfold startIfReady
      split
      · exact .quiet { SameOrReleased.enterDispatcher (s.withSched cs) with }
      · exact .quiet { SameOrReleased.refl s with }
    · exact .softwareTurn e
    · split at e
      · cases e; exact .quiet (.enterDispatcher s)
      · exact NextForm.softwareTurn (cs := s.sched) e
  · cases e

/-! ## Held offsets -/

/-- Unless `UnspecifiedRead` is recorded, every offset is even, the one a command has read among them (R44, R64). -/
def OffsetsEvenUnlessRead (l : Locals) (s : State) : Prop :=
  s.faults.unspecifiedRead = false → s.OffsetsEven ∧ l.off.toNat % 2 = 0

namespace OffsetsEvenUnlessRead

variable {l l1 : Locals} {s t : State}

theorem cells (h : OffsetsEvenUnlessRead l s) : EvenUnlessRead l s := fun hu => ⟨(h hu).1.cells, (h hu).2⟩

/-- What keeps the cells and the offset read even, and changes no held offset, keeps all offsets even. -/
theorem of_cells (h : OffsetsEvenUnlessRead l s) (ht : EvenUnlessRead l1 t) (hs : s.faults.Sub t.faults)
    (hf : t.fgHeld = s.fgHeld) (hd : t.dispHeld = s.dispHeld) : OffsetsEvenUnlessRead l1 t := by
  intro hu
  obtain ⟨hc, hl⟩ := ht hu
  have he := (h (hs.unread hu)).1
  exact ⟨⟨hc.fba, hc.txaddr, hc.rxaddr, hf ▸ he.fg, hd ▸ he.disp⟩, hl⟩

theorem congr (h : OffsetsEvenUnlessRead l s) (e : SameOrReleased s t) : OffsetsEvenUnlessRead l t := by
  intro hu
  obtain ⟨he, hl⟩ := h (e.faults ▸ hu)
  refine ⟨⟨by rw [e.fba]; exact he.fba, by rw [e.bd]; exact he.txaddr, by rw [e.bd]; exact he.rxaddr, ?_, ?_⟩, hl⟩
  · obtain hf | hf := e.fgHeld <;> rw [hf]
    · exact he.fg
    · nofun
  · obtain hd | hd := e.dispHeld <;> rw [hd]
    · exact he.disp
    · nofun

theorem perform {a : Access} (h : OffsetsEvenUnlessRead l s) (e : perform a l s = .ok (l1, t)) :
    OffsetsEvenUnlessRead l1 t :=
  h.of_cells (perform_keeps_even h.cells e) (perform_faults e) (perform_frame e).fgHeld (perform_frame e).dispHeld

theorem busMove {m : BusMove} (h : OffsetsEvenUnlessRead l s) (e : busMove m s = .ok t) : OffsetsEvenUnlessRead l t :=
  h.of_cells (busMove_keeps_even h.cells e) (busMove_faults e) (busMove_frame e).fgHeld (busMove_frame e).dispHeld

theorem boundary {b : Bool} (h : OffsetsEvenUnlessRead l s) (e : boundary s = .ok (t, b)) : OffsetsEvenUnlessRead l t :=
  othersMove_rec (P := OffsetsEvenUnlessRead l) (fun _ _ _ _ e p => p.busMove e)
    (fun s _ p => p.congr (.enterDispatcher s)) (fun s _ _ p => p.congr { SameOrReleased.refl s with })
    (fun _ h => h) h e

/-- A command held with even offsets (R71). -/
theorem holdFg {as : List Access} {fin : Finish} (h : OffsetsEvenUnlessRead l s) :
    OffsetsEvenUnlessRead l (s.withFgHeld (some ⟨as, l, fin⟩)) := fun hu =>
  ⟨{ (h hu).1 with fg := by rintro _ ⟨⟩; exact (h hu).2 }, (h hu).2⟩

/-- A service held with even offsets (R192). -/
theorem holdDisp {as : List Access} {fin : Finish} (h : OffsetsEvenUnlessRead l s) :
    OffsetsEvenUnlessRead l (s.withDispHeld (some ⟨as, l, fin⟩)) := fun hu =>
  ⟨{ (h hu).1 with disp := by rintro _ ⟨⟩; exact (h hu).2 }, (h hu).2⟩

theorem finish (fin : Finish) (h : OffsetsEvenUnlessRead l s) : OffsetsEvenUnlessRead l (finish fin l s) := by
  obtain ⟨w, e⟩ | ⟨p, -, e⟩ := finish_eq fin l s <;> rw [e] <;> exact h.congr { SameOrReleased.refl s with }

/-- A list of accesses keeps all offsets even, under every schedule. -/
theorem run {as : List Access} {fin : Finish} (h : OffsetsEvenUnlessRead l s) (e : run as l fin s = .ok t) :
    ∃ l1, OffsetsEvenUnlessRead l1 t :=
  run_rec (A := fun _ => True) (Q := OffsetsEvenUnlessRead) (R := fun t => ∃ l1, OffsetsEvenUnlessRead l1 t)
    (hload := fun _ _ h => h)
    (hperf := fun _ _ _ _ _ _ q e => q.perform e)
    (hother := fun _ _ _ _ q e => q.boundary e)
    (hfin := fun l _ q => ⟨l, q.finish fin⟩)
    (hfg := fun l _ _ _ _ _ q => ⟨l, q.holdFg⟩)
    (hdisp := fun _ _ l1 _ _ _ _ _ _ _ q => ⟨l1, q.holdDisp⟩)
    (hA := fun _ _ => trivial) (hQ := h) e

theorem startValues (hs : s.faults.unspecifiedRead = false → s.OffsetsEven) (hl : StartValues s l) :
    OffsetsEvenUnlessRead l s := fun hu => ⟨hs hu, hl.even (hs hu)⟩

end OffsetsEvenUnlessRead

theorem NextForm.offsetsEven {s t : State} (h : NextForm s t) (hs : s.faults.unspecifiedRead = false → s.OffsetsEven) :
    ∃ l, OffsetsEvenUnlessRead l t := by
  have hs0 : OffsetsEvenUnlessRead {} s := .startValues hs (.inl rfl)
  cases h with
  | quiet e => exact ⟨{}, hs0.congr e⟩
  | bus m e h => exact ⟨{}, (hs0.congr e).busMove h⟩
  | accesses as l fin e hl h => exact ((OffsetsEvenUnlessRead.startValues hs hl).congr e).run h
  | afterBoundary as fin e hb h => exact ((hs0.congr e).boundary hb).run h

/-- Settles O56: every next state comes from accesses, boundaries and bus moves, and each keeps all offsets even. -/
theorem stepKeepsOffsetsEven : Obligations.StepKeepsOffsetsEven := by
  unfold Obligations.StepKeepsOffsetsEven
  intro s t hs h hu
  obtain ⟨l, hl⟩ := (step_nextForm h).offsetsEven hs
  exact (hl hu).1

/-! ## After power-on -/

theorem powerOn_inv {c : Config} (hc : c.wf = true) : (State.powerOn c).Inv where
  config := hc
  arenaCanonical := List.Pairwise.nil
  arenaBounds := nofun
  arenaPaired := fun _ => rfl
  cntrReserved := (by decide : (0x0001 : Word) &&& 0x01F2 = 0)
  istrStored := BitVec.zero_and
  daddrReserved := BitVec.zero_and
  absentEpr := fun i _ => by simp [State.powerOn]
  absentBd := fun i _ => by simp [State.powerOn]

theorem powerOn_offsetsEven (c : Config) : (State.powerOn c).OffsetsEven where
  fba := nofun
  txaddr := fun i v => by simp [State.powerOn]
  rxaddr := fun i v => by simp [State.powerOn]
  fg := nofun
  disp := nofun

/-- Settles O54, for every configuration within its constraints. -/
theorem resetInvariant : Obligations.ResetInvariant := by
  unfold Obligations.ResetInvariant
  exact ⟨powerOn_inv rfl, powerOn_offsetsEven _⟩

end Sys2Proof.Machine
end

section
/-! Settles O10, O11, O12 and O53. The software reads and writes of `ISTR` and `CNTR` bit by bit (R25 to R29), and the
interrupt request (R50). -/

namespace Sys2Proof.Machine

/-! ## Masks -/

theorem word_ne_zero_iff {v : Word} : v ≠ 0 ↔ ∃ k, k < 16 ∧ v.getLsbD k = true := by
  rw [← not_iff_not, not_not]
  constructor
  · rintro rfl ⟨k, -, hk⟩
    simp at hk
  · intro h
    refine BitVec.eq_of_getLsbD_eq fun k hk => ?_
    simpa using fun e => h ⟨k, hk, e⟩

/-- Bits 14:9 (R26). -/
theorem getLsbD_storedMask : ∀ {k : Nat}, k < 16 → (0x7E00 : Word).getLsbD k = decide (9 ≤ k ∧ k ≤ 14) := by decide

/-- Bits 15:9 (R50). -/
theorem getLsbD_eventMask : ∀ {k : Nat}, k < 16 → (0xFE00 : Word).getLsbD k = decide (9 ≤ k) := by decide

/-- The bits of `ISTR` a write ignores (R29). -/
theorem getLsbD_ignoredMask : ∀ {k : Nat}, k < 16 → (0x81FF : Word).getLsbD k = decide (k < 9 ∨ k = 15) := by decide

/-- The named bits of `CNTR` (R23, R25). -/
theorem getLsbD_cntrMask :
    ∀ {k : Nat}, k < 16 → (0xFE0D : Word).getLsbD k = decide (9 ≤ k ∨ k = 3 ∨ k = 2 ∨ k = 0) := by decide

theorem getLsbD_bit15 : ∀ {k : Nat}, k < 16 → (0x8000 : Word).getLsbD k = decide (k = 15) := by decide

/-! ## A read of `ISTR` -/

theorem ctrPending_iff {s : State} : ctrPending s = true ↔ pending s ≠ [] := by
  simp [ctrPending]

theorem istrEvents_getLsbD (s : State) {k : Nat} (hk : k < 16) :
    (istrEvents s).getLsbD k =
      (s.istr.getLsbD k && decide (9 ≤ k ∧ k ≤ 14) || decide (k = 15) && ctrPending s) := by
  rw [istrEvents, BitVec.getLsbD_or, BitVec.getLsbD_and, getLsbD_storedMask hk]
  cases ctrPending s
  · simp
  · rw [if_pos rfl, getLsbD_bit15 hk, Bool.and_true]

/-- The election reaches bits 3:0 alone. -/
theorem readIstr_getLsbD (s : State) {k : Nat} (h4 : 4 ≤ k) : (readIstr s).1.getLsbD k = (istrEvents s).getLsbD k := by
  have he : (electEp (pending s) s).1.getLsbD k = false := BitVec.getLsbD_of_ge _ _ h4
  simp [readIstr, he]

theorem readIstr_index (s : State) : (readIstr s).1.extractLsb' 0 4 = (electEp (pending s) s).1 := by
  refine BitVec.eq_of_getLsbD_eq fun k hk => ?_
  have he : (istrEvents s).getLsbD k = false := by
    rw [istrEvents_getLsbD s (by omega), decide_eq_false (by omega), decide_eq_false (by omega)]
    simp
  rw [BitVec.getLsbD_extractLsb', readIstr, BitVec.getLsbD_or, Nat.zero_add, he]
  simp [hk, show k < 16 by omega]

theorem readIstr_bit15 (s : State) : (readIstr s).1.getLsbD 15 = ctrPending s := by
  rw [readIstr_getLsbD s (by omega), istrEvents_getLsbD s (by omega)]
  simp

theorem readIstr_stored (s : State) {k : Nat} (h1 : 9 ≤ k) (h2 : k ≤ 14) :
    (readIstr s).1.getLsbD k = s.istr.getLsbD k := by
  rw [readIstr_getLsbD s (by omega), istrEvents_getLsbD s (by omega)]
  simp [h1, h2, show k ≠ 15 by omega]

theorem readIstr_reserved (s : State) {k : Nat} (h1 : 4 ≤ k) (h2 : k ≤ 8) : (readIstr s).1.getLsbD k = false := by
  rw [readIstr_getLsbD s h1, istrEvents_getLsbD s (by omega)]
  simp [show ¬ 9 ≤ k by omega, show k ≠ 15 by omega]

/-- With a completion pending, bits 3:0 name a pending endpoint (R27). -/
theorem readIstr_index_mem {s : State} (h : pending s ≠ []) : ((readIstr s).1.extractLsb' 0 4).toFin ∈ pending s := by
  rw [readIstr_index]
  exact electEp_mem _ _ h

/-- A read of `ISTR` gives what R26 and R27 allow. -/
theorem istrReads_readIstr (s : State) : s.istrReads (readIstr s).1 := by
  refine ⟨fun k => readIstr_stored s, by rw [readIstr_bit15, ctrPending_iff], readIstr_index_mem, ?_⟩
  refine BitVec.eq_of_getLsbD_eq fun k hk => ?_
  simp [readIstr_reserved s (show 4 ≤ 4 + k by omega) (show 4 + k ≤ 8 by omega)]

/-- Settles O11: each bit of a read of `ISTR`, and the election's member of the pending set. -/
theorem readIstrDerived : Obligations.ReadIstrDerived := by
  unfold Obligations.ReadIstrDerived
  intro s
  exact ⟨fun _ => mem_pending, by rw [readIstr_bit15, ctrPending_iff], readIstr_index_mem, fun _ => readIstr_stored s,
    fun _ => readIstr_reserved s, _, readIstr_snd s⟩

/-! ## The interrupt request -/

theorem ctrPending_iff_exists {s : State} :
    ctrPending s = true ↔ ∃ i : Fin 16, i.val < s.cfg.nEp ∧ (ctrRx s.epr[i] = true ∨ ctrTx s.epr[i] = true) := by
  rw [ctrPending_iff, ne_eq, List.eq_nil_iff_forall_not_mem, not_forall_not]
  exact exists_congr fun _ => mem_pending

/-- The request is some event bit with its enable bit (R50). -/
theorem irq_iff {s : State} :
    irq s = true ↔ ∃ k, k < 16 ∧ 9 ≤ k ∧ (istrEvents s).getLsbD k = true ∧ s.cntr.getLsbD k = true := by
  rw [irq, decide_eq_true_iff, word_ne_zero_iff]
  refine exists_congr fun k => and_congr_right fun hk => ?_
  rw [BitVec.getLsbD_and, BitVec.getLsbD_and, getLsbD_eventMask hk]
  simp only [Bool.and_eq_true, decide_eq_true_iff]
  tauto

/-- Settles O12: the event bits of `ISTR` are the stored ones and bit 15. -/
theorem interruptRequest : Obligations.InterruptRequest := by
  unfold Obligations.InterruptRequest
  intro s
  rw [irq_iff]
  constructor
  · rintro ⟨k, hk, h9, he, hc⟩
    rw [istrEvents_getLsbD s hk] at he
    rcases Nat.lt_or_ge k 15 with h15 | h15
    · have : k ≠ 15 := by omega
      simp only [this, decide_false, Bool.false_and, Bool.or_false, Bool.and_eq_true] at he
      exact .inl ⟨k, h9, by omega, he.1, hc⟩
    · obtain rfl : k = 15 := by omega
      exact .inr ⟨hc, ctrPending_iff_exists.1 (by simpa using he)⟩
  · rintro (⟨k, h9, h14, hi, hc⟩ | ⟨hc, hp⟩)
    · refine ⟨k, by omega, h9, ?_, hc⟩
      rw [istrEvents_getLsbD s (by omega)]
      simp [hi, h9, h14]
    · refine ⟨15, by omega, by omega, ?_, hc⟩
      rw [istrEvents_getLsbD s (by omega)]
      simpa using ctrPending_iff_exists.2 hp

/-! ## Writes of `CNTR` and `ISTR` -/

/-- The dispatcher's write of `0x7FFF` clears no stored bit (R187). -/
theorem writeIstr_0x7FFF (s : State) : writeIstr 0x7FFF s = s := by
  have : s.istr &&& (0x7FFF ||| 0x81FF) = s.istr := BitVec.and_allOnes
  rw [writeIstr_eq, this]
  rfl

theorem cntrAfterWrite_named (w : Word) {k : Nat} (hk : 9 ≤ k ∨ k = 3 ∨ k = 2 ∨ k = 0) :
    (cntrAfterWrite w).getLsbD k = w.getLsbD k := by
  rcases Nat.lt_or_ge k 16 with h | h
  · rw [cntrAfterWrite, BitVec.getLsbD_and, getLsbD_cntrMask h, decide_eq_true hk, Bool.and_true]
  · rw [BitVec.getLsbD_of_ge _ _ h, BitVec.getLsbD_of_ge _ _ h]

theorem cntrAfterWrite_reserved (w : Word) {k : Nat} (hk : (4 ≤ k ∧ k ≤ 8) ∨ k = 1) :
    (cntrAfterWrite w).getLsbD k = false := by
  rw [cntrAfterWrite, BitVec.getLsbD_and, getLsbD_cntrMask (by omega), decide_eq_false (by omega), Bool.and_false]

theorem istrAfterWrite_stored (v w : Word) {k : Nat} (h1 : 9 ≤ k) (h2 : k ≤ 14) :
    (istrAfterWrite v w).getLsbD k = (v.getLsbD k && w.getLsbD k) := by
  rw [istrAfterWrite, BitVec.getLsbD_and, BitVec.getLsbD_or, getLsbD_ignoredMask (by omega), decide_eq_false (by omega),
    Bool.or_false]

theorem istrAfterWrite_ignored (v w : Word) {k : Nat} (hk : k < 9 ∨ k = 15) :
    (istrAfterWrite v w).getLsbD k = v.getLsbD k := by
  rw [istrAfterWrite, BitVec.getLsbD_and, BitVec.getLsbD_or, getLsbD_ignoredMask (by omega), decide_eq_true hk,
    Bool.or_true, Bool.and_true]

/-- Settles O10: the written words bit by bit. -/
theorem writeCntrAndIstr : Obligations.WriteCntrAndIstr := by
  unfold Obligations.WriteCntrAndIstr
  intro s w
  exact ⟨⟨_, rfl, fun _ => cntrAfterWrite_named w, fun _ => cntrAfterWrite_reserved w⟩,
    ⟨_, rfl, fun _ => istrAfterWrite_stored s.istr w, fun _ => istrAfterWrite_ignored s.istr w⟩, writeIstr_0x7FFF s⟩

/-! ## After power-on -/

/-- With no event bit set there is no request (R50). -/
theorem irq_eq_false {s : State} (hi : s.istr = 0) (hp : pending s = []) : irq s = false := by
  have hc : ctrPending s = false := by simp [ctrPending, hp]
  simp [irq, istrEvents, hi, hc]

theorem powerOn_pending (c : Config) : pending (State.powerOn c) = [] := by
  refine List.eq_nil_iff_forall_not_mem.2 fun i hi => ?_
  have := (mem_pending.1 hi).2
  simp [State.powerOn, ctrRx, ctrTx] at this

/-- Settles O53: the fields as power-on writes them, and no event bit for the request. -/
theorem powerOnState : Obligations.PowerOnState := by
  unfold Obligations.PowerOnState
  have hr : ∀ (α : Type) (x : α) (i : Fin 16), (Vector.replicate 16 x)[i] = x := fun _ _ i => by simp
  have hbd : ∀ i : Fin 16, State.reset.bd[i] = {} := hr _ _
  refine ⟨rfl, rfl, rfl, rfl, hr _ _, fun i => ?_, fun _ => rfl, rfl, rfl, rfl, rfl, rfl, rfl, rfl,
    irq_eq_false rfl (powerOn_pending _)⟩
  rw [hbd]
  exact ⟨rfl, rfl, rfl, rfl, rfl⟩

end Sys2Proof.Machine
end

section
/-! Settles O7, O36, O39 and O40. The interrupt: entry from `Idle`, alone and inside a command (R176, R177, R71), the
endpoint loop's top (R187), and the return (R178). -/

namespace Sys2Proof.Machine

/-! ## The dispatcher's turn -/

/-- A `go` is the software agent's turn (R70). -/
theorem step_go {s : State} {cs : List Choice} (hwf : s.cfg.wf = true) (hs : s.sched = .go :: cs) :
    step s = softwareTurn (s.withSched cs) := by
  simp [step, turn, hwf, hs]

/-- Inside the dispatcher, with no callback running and no service waiting, the phase is served (R180). -/
theorem softwareTurn_phase {s : State} (hd : s.dph ≠ .idle) (hc : s.cbCmds = []) (hh : s.dispHeld = none) :
    softwareTurn s = phaseTurn s := by
  unfold softwareTurn
  split
  · contradiction
  · simp [dispatcherTurn, hc, hh]

theorem step_go_epTop {s : State} {cs : List Choice} (hwf : s.cfg.wf = true) (hs : s.sched = .go :: cs)
    (hd : s.dph = .epTop) (hc : s.cbCmds = []) (hh : s.dispHeld = none) : step s = loopTop (s.withSched cs) := by
  rw [step_go hwf hs, softwareTurn_phase (s := s.withSched cs) (by simp [hd]) hc hh]
  simp [phaseTurn, hd]

/-- The state after the read of `ISTR` at the loop's top. -/
theorem readIstr_snap (s : State) :
    ∃ n, (readIstr s).2.withSnap (readIstr s).1 = { s with snap := (readIstr s).1, fresh := n } := by
  rw [readIstr_snd]
  exact ⟨_, rfl⟩

/-- With nothing pending the invocation ends (R178). -/
theorem loopTop_none {s : State} (hp : pending s = []) :
    loopTop s = .next (leaveDispatcher ((readIstr s).2.withSnap (readIstr s).1)) := by
  have h15 : (readIstr s).1.getLsbD 15 = false := by
    rw [readIstr_bit15, Bool.eq_false_iff, ne_eq, ctrPending_iff]
    exact fun h => h hp
  simp only [loopTop, h15, Bool.false_eq_true, if_false]

/-- With a completion pending the named endpoint's turn runs (R187). -/
theorem loopTop_pending {s : State} (hp : pending s ≠ []) (hc : s.calm 1) :
    loopTop s = exec (.istrCtr ((readIstr s).1.extractLsb' 0 4).toFin)
      (((readIstr s).2.withSnap (readIstr s).1).later 1) := by
  have h15 : (readIstr s).1.getLsbD 15 = true := by rw [readIstr_bit15, ctrPending_iff.2 hp]
  have hb := boundary_calm (s := (readIstr s).2.withSnap (readIstr s).1)
    (State.calm_congr (by rw [readIstr_snd]; rfl) hc)
  simp only [loopTop, h15, hb, if_true]

/-- Settles O7: at the loop's top the read of `ISTR` names a pending endpoint, whose turn runs. -/
theorem stepRunsCorrectTransfer : Obligations.StepRunsCorrectTransfer := by
  unfold Obligations.StepRunsCorrectTransfer
  intro s cs hwf hd hc hh hs hcalm hp
  have hcs : (s.withSched cs).calm 1 := fun c hc => hcalm c (by simpa [hs] using .inr hc)
  obtain ⟨n, hn⟩ := readIstr_snap (s.withSched cs)
  refine ⟨_, _, n, readIstr_index_mem (s := s.withSched cs) hp, ?_, rfl, ?_⟩
  · rw [readIstr_bit15, ctrPending_iff]
    exact hp
  · rw [step_go_epTop hwf hs hd hc hh, loopTop_pending (s := s.withSched cs) hp hcs, hn]
    rfl

/-- Settles O40: with nothing pending the loop's top takes the snapshot and leaves the dispatcher. -/
theorem interruptReturn : Obligations.InterruptReturn := by
  unfold Obligations.InterruptReturn
  intro s cs hwf hd hc hh hs hp
  obtain ⟨n, hn⟩ := readIstr_snap (s.withSched cs)
  refine ⟨_, n, ?_, istrReads_readIstr (s.withSched cs)⟩
  rw [step_go_epTop hwf hs hd hc hh, loopTop_none (s := s.withSched cs) hp, hn]
  rfl

/-- A turn of the endpoint loop latches the named register (R187). -/
theorem exec_istrCtr_calm {s : State} {i : Fin 16} (hi : i.val < s.cfg.nEp) (hc : s.calm 1) :
    exec (.istrCtr i) s = .next { s with cur := i, val := s.epr[i], dph := .epRx, sched := s.sched.drop 1 } := by
  have hrun := run_calm (as := [.writeIstr 0x7FFF, .latch i]) (l := {}) (fin := .phase .epRx) (s := s)
    (by simp [Access.isLoad]) (by simp [Access.isEmit]) (by simp [Access.isEmit]) (by simp [Access.isEmit]) hc
  simp only [exec, execIstrCtr, withEndpoint, hi, if_true, start, hrun, performList, perform, writeIstr_0x7FFF]
  rfl

/-- Settles O36, by the two accesses of a turn. -/
theorem endpointTurnResult : Obligations.EndpointTurnResult := by
  unfold Obligations.EndpointTurnResult
  intro s i hi hc
  exact exec_istrCtr_calm hi hc

/-! ## Entry -/

/-- The dispatcher has just started: its first phase, and a snapshot of `ISTR` as it is (R177). -/
def State.Entered (s : State) : Prop := s.dph = .ev .reset ∧ s.istrReads s.snap

theorem enterDispatcher_entered (s : State) : (enterDispatcher s).Entered := by
  obtain ⟨n, hn⟩ := readIstr_snap s
  rw [enterDispatcher_eq, hn]
  exact ⟨rfl, istrReads_readIstr s⟩

/-- Between two accesses of a foreground command the dispatcher stays idle, or starts and preempts the command (R71). -/
theorem othersMove_idle {cs : List Choice} {s t : State} {b : Bool} (hd : s.dph = .idle)
    (h : othersMove cs s = .ok (t, b)) : if b then t.Entered else t.dph = .idle := by
  induction cs generalizing s with
  | nil => cases h; exact hd
  | cons c cs ih =>
    cases c with
    | go => cases h; exact hd
    | bus m =>
      simp only [othersMove] at h
      split at h
      · cases h
      · rename_i s1 hm
        exact ih (by rw [(busMove_frame hm).dph, hd]) h
    | irq =>
      simp only [othersMove] at h
      split at h
      · cases h; exact enterDispatcher_entered s
      · exact ih hd h

/-- How an element of a foreground command's list may go: made whole with the dispatcher idle, or preempted. -/
def IdleProgress : Except Refusal Progress → Prop
  | .ok (.whole _ s) => s.dph = .idle
  | .ok (.part _ s)  => s.Entered
  | .error _         => True

theorem loadLoop_idle {m k : Nat} {l : Locals} {s : State} (hd : s.dph = .idle) : IdleProgress (loadLoop l m k s) := by
  induction m generalizing k s with
  | zero => exact hd
  | succ m ih =>
    simp only [loadLoop]
    split
    · trivial
    · rename_i s1 h1
      have hp : perform (.load k) l s = .ok (l, s1) := by simp only [perform, h1]
      have hd1 : s1.dph = .idle := (perform_frame hp).dph.trans hd
      split
      · exact hd1
      · split
        · trivial
        · rename_i hb
          exact ih (othersMove_idle hd1 hb)
        · rename_i hb
          exact othersMove_idle hd1 hb

theorem performAll_idle {a : Access} {l : Locals} {s : State} (hd : s.dph = .idle) :
    IdleProgress (performAll a l s) := by
  cases hl : a.isLoad with
  | true =>
    cases a with
    | load k => exact loadLoop_idle hd
    | _ => cases hl
  | false =>
    rw [performAll_whole hl]
    cases hp : perform a l s with
    | error r => trivial
    | ok p => exact (perform_frame hp).dph.trans hd

/-- A foreground command's accesses leave the dispatcher idle, or just started. -/
theorem run_idle {as : List Access} {l : Locals} {fin : Finish} {s t : State} (hfin : ∀ p, fin ≠ .phase p)
    (hd : s.dph = .idle) (h : run as l fin s = .ok t) : t.dph = .idle ∨ t.Entered := by
  have hfinish : ∀ l s, s.dph = .idle → (finish fin l s).dph = .idle := by
    intro l s hs
    obtain ⟨w, e⟩ | ⟨p, hp, -⟩ := finish_eq fin l s
    · rw [e]; exact hs
    · exact absurd hp (hfin p)
  induction as generalizing l s with
  | nil => cases h; exact .inl (hfinish _ _ hd)
  | cons a as ih =>
    have hp := performAll_idle (a := a) (l := l) hd
    rw [run] at h
    split at h
    · cases h
    · rename_i h1
      rw [h1] at hp
      cases h
      exact .inr hp
    · rename_i h1
      rw [h1] at hp
      split at h
      · cases h; exact .inl hp
      · split at h
        · cases h; exact .inl (hfinish _ _ hp)
        · split at h
          · cases h
          · rename_i hb; exact ih (othersMove_idle hp hb) h
          · rename_i hb; cases h; exact .inr (othersMove_idle hp hb)

/-! ## Commands are no services -/

/-- A command word never decodes to a row of the snapshot table (R85, R94). -/
theorem decode_cmd_not_snapshot {nEp : Nat} {w : BitVec 32} {i : Instr} (h : decode nEp (.cmd w) = .ok i) :
    Laws.FixedBits.snapBit i = none := by
  have hrows : ∀ r ∈ cmdRows, Laws.FixedBits.snapBit (r.build w) = none := by simp [cmdRows, Laws.FixedBits.snapBit]
  simp only [decode] at h
  split at h
  · rename_i r hr
    unfold checkIndex at h
    split at h <;> cases h
    exact hrows r (List.mem_of_find?_eq_some hr)
  · cases h

/-- A command returns a result word; it moves no phase (R90). -/
theorem exec_command_cases {i : Instr} {s t : State} (hi : Laws.FixedBits.snapBit i = none) (h : exec i s = .next t) :
    ∃ as l fin s1, run as l fin s1 = .ok t ∧ (∀ p, fin ≠ .phase p) ∧ s1.dph = s.dph := by
  cases i with
  | configEp ep ty m =>
    have h1 := withEndpoint_next h
    split at h1
    · cases h1
    · exact ⟨_, _, _, _, toOutcome_next h1, nofun, rfl⟩
  | enableEp | disableEp | resetEp | stallEp | clrStall | readEp | setStatus | writeEp =>
    exact ⟨_, _, _, _, toOutcome_next (withEndpoint_next h), nofun, rfl⟩
  | init | connect | setAddr | setConfig | getFrame | alloc =>
    simp only [exec, execInit, execConnect, execSetAddr, execSetConfig, execGetFrame, execAlloc] at h
    exact ⟨_, _, _, _, toOutcome_next h, nofun, rfl⟩
  | istrReset | istrSusp | istrWkup | istrSof | istrPmaovr | istrErr | istrCtr => cases hi

theorem issue_idle {r : Request} {s t : State} (hd : s.dph = .idle) (h : issue r s = .next t) :
    t.dph = .idle ∨ t.Entered := by
  unfold issue at h
  split at h
  · rename_i hdec
    obtain ⟨as, l, fin, s1, hrun, hfin, hs1⟩ := exec_command_cases (decode_cmd_not_snapshot hdec) h
    exact run_idle hfin (hs1.trans hd) hrun
  all_goals cases h

theorem softwareTurn_idle {s t : State} (hd : s.dph = .idle) (hf : ∀ f p, s.fgHeld = some f → f.fin ≠ .phase p)
    (h : softwareTurn s = .next t) : t.dph = .idle ∨ t.Entered := by
  simp only [softwareTurn, hd, foregroundTurn] at h
  split at h
  · exact run_idle (s := s.withFgHeld none) (hf _ · ‹_›) hd (toOutcome_next h)
  · split at h
    · rename_i r rs _
      exact issue_idle (s := s.withFgCmds rs) hd h
    · cases h; exact .inl hd

/-- From `Idle` a step leaves the dispatcher idle, or just started. -/
theorem step_idle {s t : State} (hd : s.dph = .idle) (hf : ∀ f p, s.fgHeld = some f → f.fin ≠ .phase p)
    (h : step s = .next t) : t.dph = .idle ∨ t.Entered := by
  unfold step at h
  split at h
  · unfold turn at h
    split at h
    · exact .inl ((busMove_frame (toOutcome_next h)).dph.trans hd)
    · cases h
      unfold startIfReady
      split
      · exact .inr (enterDispatcher_entered _)
      · exact .inl hd
    · rename_i cs _
      exact softwareTurn_idle (s := s.withSched cs) hd hf h
    · split at h
      · cases h; exact .inr (enterDispatcher_entered _)
      · exact softwareTurn_idle hd hf h
  · cases h

theorem canStart_iff {s : State} : canStart s = true ↔ irq s = true ∧ s.irqEn = true ∧ s.dph = .idle := by
  simp [canStart, and_assoc]

theorem step_irq {s : State} {cs : List Choice} (hwf : s.cfg.wf = true) (hs : s.sched = .irq :: cs) :
    step s = .next (startIfReady (s.withSched cs)) := by
  simp [step, turn, hwf, hs]

/-- Settles O39: the start in the schedule, and from `Idle` a command runs until the dispatcher comes in. -/
theorem interruptEntry : Obligations.InterruptEntry := by
  unfold Obligations.InterruptEntry
  refine ⟨fun s cs hwf hs => ⟨fun hirq hen hd => ?_, fun hno => ?_⟩, fun s t hd hf h hne => ?_⟩
  · have hc : canStart (s.withSched cs) = true := canStart_iff.2 ⟨hirq, hen, hd⟩
    obtain ⟨n, hn⟩ := readIstr_snap (s.withSched cs)
    refine ⟨_, n, ?_, istrReads_readIstr (s.withSched cs)⟩
    rw [step_irq hwf hs, startIfReady, if_pos hc, enterDispatcher_eq, hn]
    rfl
  · have hc : canStart (s.withSched cs) ≠ true := by
      rw [ne_eq, canStart_iff]
      rintro ⟨hirq, hen, hd⟩
      obtain h | h | h := hno
      · exact absurd (h.symm.trans hirq) nofun
      · exact absurd (h.symm.trans hen) nofun
      · exact h hd
    rw [step_irq hwf hs, startIfReady, if_neg hc]
    rfl
  · obtain h | h := step_idle hd hf h
    · exact absurd h hne
    · exact h

end Sys2Proof.Machine
end

section
/-! Settles O50. Which registers and working cells an instruction can change: those its accesses write; of the cells no
bus move writes this holds under every schedule, of the others with no bus move ahead (R44, R47, R144, R192, R195). -/

namespace Sys2Proof.Machine

/-! ## A list of accesses keeps what none of them writes -/

/-- The same block and working cells `cur` and `val`; the ports, the schedule, the progress of the agents, `DPH` and the
snapshot may differ. -/
structure SameCells (s t : State) : Prop extends SameBlock s t where
  cur : t.cur = s.cur
  val : t.val = s.val

theorem SameCells.refl (s : State) : SameCells s s := ⟨.refl s, rfl, rfl⟩

theorem SameCells.enterDispatcher (s : State) : SameCells s (enterDispatcher s) := by
  refine ⟨sameBlock_enterDispatcher s, ?_, ?_⟩ <;> simp [enterDispatcher_eq, readIstr_snd]

/-- The value `f` is as in `s`, and the schedule is what is left of that of `s`. -/
def KeepsFrom {α : Type} (f : State → α) (s u : State) : Prop := f u = f s ∧ ∀ c ∈ u.sched, c ∈ s.sched

section
variable {α : Type} {f : State → α} {A : Access → Prop} (hcells : ∀ s t, SameCells s t → f t = f s)
  (hload : ∀ j k, A (.load j) → A (.load k))
  (hperf : ∀ a l s l1 t, A a → perform a l s = .ok (l1, t) → f t = f s)

include hcells hload hperf

/-- A value that no access of the list and no bus move ahead changes is as before, under every schedule. -/
theorem run_keeps_value {as : List Access} {l : Locals} {fin : Finish} {s t : State}
    (hbus : ∀ m u v, Choice.bus m ∈ s.sched → busMove m u = .ok v → f v = f u) (hA : ∀ a ∈ as, A a)
    (h : run as l fin s = .ok t) : f t = f s := by
  have hsame : ∀ {u v : State}, KeepsFrom f s u → SameCells u v → f v = f s := fun p e => (hcells _ _ e).trans p.1
  refine run_rec (A := A) (Q := fun _ => KeepsFrom f s) (R := fun u => f u = f s) hload ?_ ?_ ?_ ?_ ?_ hA
    ⟨rfl, fun _ h => h⟩ h
  · intro a l u l1 v ha p e
    exact ⟨(hperf a l u l1 v ha e).trans p.1, by rw [(perform_frame e).sched]; exact p.2⟩
  · intro _ u v b p e
    refine othersMove_rec (P := KeepsFrom f s) (fun m u v hm e p => ?_) (fun u _ p => ?_) (fun u cs hc p => ?_)
      (fun _ h => h) p e
    · exact ⟨(hbus m u v (p.2 _ hm) e).trans p.1, by rw [(busMove_frame e).sched]; exact p.2⟩
    · refine ⟨hsame p (.enterDispatcher u), ?_⟩
      rw [enterDispatcher_eq, readIstr_snd]
      exact p.2
    · exact ⟨hsame p { SameCells.refl u with }, fun c h => p.2 c (hc c h)⟩
  · intro l u p
    obtain ⟨w, e⟩ | ⟨q, -, e⟩ := finish_eq fin l u <;> rw [e] <;> exact hsame p { SameCells.refl u with }
  · intro _ _ u _ _ _ p
    exact hsame p { SameCells.refl u with }
  · intro _ _ _ _ u _ _ _ _ _ p
    exact hsame p { SameCells.refl u with }

end

/-! ## The accesses of an instruction -/

/-- The accesses of `CLR_STALL`: those of `RESET_EP`, then of `SET_STATUS` (R143). -/
def clrStallAccesses (c : Config) (ep : EpId) : List Access :=
  resetEpAccesses c ep ++ setStatusAccesses ep (statWord .valid (clrStallTx c))

/-- The accesses of an event service: the handler, the callback, the write that clears the bit (R180). -/
def serviceAccesses (e : Event) (handler : List Access) (enabled : Bool) (ev : BusEvent) : List Access :=
  handler ++ (if enabled then [.emitBus ev] else []) ++ [.writeIstr (eventClear e)]

/-- The accesses of an instruction issued in a state, in order (R71); none where a phase is passed over. -/
def accessesOf (s : State) : Instr → List Access
  | .init => [.enableIrq]
  | .connect en => [.writeCntr 0x0001, .finishConnect en]
  | .setAddr a => [.setAddr a]
  | .configEp ep t mps => configAccesses ep t mps.toNat
  | .enableEp ep => setStatusAccesses ep (statWord .valid .nak)
  | .disableEp ep => setStatusAccesses ep (statWord .disabled .disabled)
  | .resetEp ep => resetEpAccesses s.cfg ep
  | .stallEp ep => setStatusAccesses ep (statWord .stall .stall)
  | .clrStall ep => clrStallAccesses s.cfg ep
  | .readEp ep => readAccesses ep.idx
  | .writeEp ep n => writeAccesses ep.idx n.toNat (dinByte s) s.cfg.padByte
  | .getFrame => [.readFnr]
  | .setConfig c => [.setConfig c]
  | .alloc n => allocAccesses n.toNat
  | .setStatus ep rx tx => setStatusAccesses ep (statWord rx tx)
  | .istrReset => serviceAccesses .reset (resetHandler s.cfg) s.cfg.resetEvent .reset
  | .istrSusp => serviceAccesses .suspend suspendHandler s.cfg.suspendEvent .suspend
  | .istrWkup => serviceAccesses .wakeup wakeupHandler s.cfg.wakeupEvent .resume
  | .istrSof => serviceAccesses .sof sofHandler s.cfg.sofEvent .startOfFrame
  | .istrPmaovr => if s.cfg.errorEvent then serviceAccesses .overrun [] true (.error .overrun) else []
  | .istrErr => if s.cfg.errorEvent then serviceAccesses .error [] true (.error .generic) else []
  | .istrCtr i => [.writeIstr 0x7FFF, .latch i]

/-- An instruction that goes on runs its accesses, its bytes taken from `DIN`. -/
theorem exec_runs {i : Instr} {s t : State} (h : exec i s = .next t) :
    ∃ l fin s1, run (accessesOf s i) l fin s1 = .ok t ∧ SameCells s s1 ∧ s1.sched = s.sched := by
  cases i with
  | configEp ep ty m =>
    have h1 := withEndpoint_next h
    split at h1
    · cases h1
    · exact ⟨_, _, s, toOutcome_next h1, .refl s, rfl⟩
  | enableEp | disableEp | resetEp | stallEp | clrStall | readEp | setStatus | istrCtr =>
    exact ⟨_, _, s, toOutcome_next (withEndpoint_next h), .refl s, rfl⟩
  | writeEp ep n =>
    exact ⟨_, _, takeDin n.toNat s, toOutcome_next (withEndpoint_next h), { SameCells.refl s with }, rfl⟩
  | istrPmaovr | istrErr =>
    simp only [exec, execIstrPmaovr, execIstrErr] at h
    simp only [accessesOf]
    split at h
    · rename_i he
      rw [if_pos he]
      exact ⟨_, _, s, toOutcome_next h, .refl s, rfl⟩
    · rename_i he
      rw [if_neg he]
      cases h
      exact ⟨{}, .phase _, s, rfl, .refl s, rfl⟩
  | _ =>
    simp only [exec, execInit, execConnect, execSetAddr, execSetConfig, execGetFrame, execAlloc, execIstrReset,
      execIstrSusp, execIstrWkup, execIstrSof] at h
    exact ⟨_, _, s, toOutcome_next h, .refl s, rfl⟩

/-- A value that no access of the instruction and no bus move ahead changes is as before. -/
theorem exec_keeps_value {α : Type} {f : State → α} {A : Access → Prop} {i : Instr} {s t : State}
    (hcells : ∀ s t, SameCells s t → f t = f s) (hload : ∀ j k, A (.load j) → A (.load k))
    (hperf : ∀ a l s l1 t, A a → perform a l s = .ok (l1, t) → f t = f s)
    (hbus : ∀ m u v, Choice.bus m ∈ s.sched → busMove m u = .ok v → f v = f u)
    (hA : ∀ a ∈ accessesOf s i, A a) (h : exec i s = .next t) : f t = f s := by
  obtain ⟨l, fin, s1, hr, hs1, hsched⟩ := exec_runs h
  exact (run_keeps_value hcells hload hperf (by rw [hsched]; exact hbus) hA hr).trans (hcells _ _ hs1)

/-! ## The register or cell an access writes -/

/-- The registers and working cells of which the frame speaks; `turn` is `cur` and `val`. -/
inductive Cell where
  | cntr
  | istr
  | daddr
  | epr (i : Fin 16)
  | fba
  | irqEn
  | turn

/-- The cell an access writes, if any: no access writes two. -/
def Access.cell : Access → Option Cell
  | .writeCntr _ | .finishConnect _ | .forceSuspend | .endSuspend => some .cntr
  | .writeIstr _ => some .istr
  | .setAddr _ | .defaultAddress => some .daddr
  | .writeEpr i _ | .writeStatus i _ _ | .writeAnd i _ => some (.epr i)
  | .zeroFba | .writeFba _ => some .fba
  | .enableIrq => some .irqEn
  | .latch _ => some .turn
  | .setConfig _ | .readFnr | .readCntr | .readEpr _ | .readFba | .readTxaddr _ | .readRxaddr _ | .readRxlen _
  | .writeTxaddr _ | .writeRxaddr _ | .writeRxenc _ _ | .writeTxcount _ _ | .unwriteOthers | .load _ | .store _ _
  | .emitEp _ _ | .emitBus _ => none

/-- What an access leaves as it is, cell by cell (the fields of `Access.Frame`). -/
structure KeepsCells (a : Access) (s t : State) : Prop where
  cntr : a.cell ≠ some .cntr → t.cntr = s.cntr
  istr : a.cell ≠ some .istr → t.istr = s.istr
  daddr : a.cell ≠ some .daddr → t.daddr = s.daddr
  eprOther : ∀ i : Fin 16, a.cell ≠ some (.epr i) → t.epr[i] = s.epr[i]
  fba : a.cell ≠ some .fba → t.fba = s.fba
  irqEn : a.cell ≠ some .irqEn → t.irqEn = s.irqEn
  cur : a.cell ≠ some .turn → t.cur = s.cur
  val : a.cell ≠ some .turn → t.val = s.val

theorem Access.Frame.keepsCells {a : Access} {s t : State} (h : a.Frame s t) : KeepsCells a s t where
  cntr hc := h.cntr (Bool.eq_false_iff.2 fun e => hc (by cases a <;> cases e <;> rfl))
  istr hc := h.istr (Bool.eq_false_iff.2 fun e => hc (by cases a <;> cases e; rfl))
  daddr hc := h.daddr (Bool.eq_false_iff.2 fun e => hc (by cases a <;> cases e <;> rfl))
  eprOther i hc := h.eprOther i fun e => hc (by cases a <;> cases e <;> rfl)
  fba hc := h.fba (Bool.eq_false_iff.2 fun e => hc (by cases a <;> cases e <;> rfl))
  irqEn hc := h.irqEn (Bool.eq_false_iff.2 fun e => hc (by cases a <;> cases e; rfl))
  cur hc := h.cur (Bool.eq_false_iff.2 fun e => hc (by cases a <;> cases e; rfl))
  val hc := h.val (Bool.eq_false_iff.2 fun e => hc (by cases a <;> cases e; rfl))

theorem perform_keepsCells {a : Access} {l l1 : Locals} {s t : State} (h : perform a l s = .ok (l1, t)) :
    KeepsCells a s t := (perform_frame h).keepsCells

/-- The cells the accesses of an instruction write (R44, R47, R144, R192, R195). -/
def cellsOf : Instr → List Cell
  | .init => [.irqEn]
  | .connect _ => [.cntr]
  | .setAddr _ => [.daddr]
  | .alloc _ => [.fba]
  | .configEp ep _ _ => [.fba, .epr ep.idx]
  | .enableEp ep | .disableEp ep | .resetEp ep | .stallEp ep | .clrStall ep | .readEp ep | .writeEp ep _
  | .setStatus ep _ _ => [.epr ep.idx]
  | .getFrame | .setConfig _ => []
  | .istrReset => [.cntr, .fba, .epr 0, .daddr, .istr]
  | .istrSusp | .istrWkup => [.cntr, .istr]
  | .istrSof | .istrPmaovr | .istrErr => [.istr]
  | .istrCtr _ => [.istr, .turn]

/-! ## What holds of each access of a list -/

section
variable {P : Access → Prop}

@[simp] theorem forall_mem_allocAccesses {n : Nat} : (∀ a ∈ allocAccesses n, P a) ↔ P .readFba ∧ P (.writeFba n) := by
  simp [allocAccesses]

@[simp] theorem forall_mem_bufferAccesses {ep : EpId} {n : Nat} :
    (∀ a ∈ bufferAccesses ep n, P a) ↔
      (ep.dir = .IN → P (.writeTxaddr ep.idx)) ∧
      (ep.dir = .OUT → P (.writeRxaddr ep.idx) ∧ P (.writeRxenc ep.idx (rxEnc (roundSize n)))) := by
  unfold bufferAccesses
  split <;> simp [*]

@[simp] theorem forall_mem_configAccesses {ep : EpId} {t : EpType} {n : Nat} :
    (∀ a ∈ configAccesses ep t n, P a) ↔
      (∀ a ∈ allocAccesses n, P a) ∧ (∀ a ∈ bufferAccesses ep n, P a) ∧ P (.writeEpr ep.idx (configWord t ep.idx)) := by
  rw [configAccesses, List.forall_mem_append, List.forall_mem_append, List.forall_mem_singleton, and_assoc]

@[simp] theorem forall_mem_setStatusAccesses {ep : EpId} {stat : Word} :
    (∀ a ∈ setStatusAccesses ep stat, P a) ↔ P (.readEpr ep.idx) ∧ P (.writeStatus ep.idx (selField ep.dir) stat) := by
  simp [setStatusAccesses]

@[simp] theorem forall_mem_resetEpAccesses {c : Config} {ep : EpId} :
    (∀ a ∈ resetEpAccesses c ep, P a) ↔
      P (.readEpr ep.idx) ∧ P (.writeAnd ep.idx (MASK ||| resetBits c ep.dir)) := by
  simp [resetEpAccesses]

@[simp] theorem forall_mem_clrStallAccesses {c : Config} {ep : EpId} :
    (∀ a ∈ clrStallAccesses c ep, P a) ↔
      (∀ a ∈ resetEpAccesses c ep, P a) ∧ ∀ a ∈ setStatusAccesses ep (statWord .valid (clrStallTx c)), P a :=
  List.forall_mem_append

@[simp] theorem forall_mem_readAccesses {i : Fin 16} :
    (∀ a ∈ readAccesses i, P a) ↔
      (P (.readRxaddr i) ∧ P (.readRxlen i) ∧ P (.load 0)) ∧
        ∀ a ∈ setStatusAccesses ⟨.OUT, i⟩ (rxStat .valid), P a := by
  rw [readAccesses, List.forall_mem_append]
  simp

@[simp] theorem forall_mem_storeAccesses {n : Nat} {data : Nat → Byte} {pad : Byte} :
    (∀ a ∈ storeAccesses n data pad, P a) ↔ ∀ k < wordsOf n, P (.store k (packetWord n data pad k)) := by
  simp [storeAccesses]

@[simp] theorem forall_mem_writeAccesses {i : Fin 16} {n : Nat} {data : Nat → Byte} {pad : Byte} :
    (∀ a ∈ writeAccesses i n data pad, P a) ↔
      (P (.readTxaddr i) ∧ ∀ a ∈ storeAccesses n data pad, P a) ∧ P (.writeTxcount i (BitVec.ofNat 16 n)) ∧
        ∀ a ∈ setStatusAccesses ⟨.IN, i⟩ (txStat .valid), P a := by
  rw [writeAccesses, List.forall_mem_append, List.forall_mem_cons, List.forall_mem_cons]

@[simp] theorem forall_mem_ep0Buffers {c : Config} :
    (∀ a ∈ ep0Buffers c, P a) ↔
      ((P .zeroFba ∧ ∀ a ∈ allocAccesses c.mps0, P a) ∧ P (.writeTxaddr 0) ∧ ∀ a ∈ allocAccesses c.mps0, P a) ∧
        P (.writeRxaddr 0) ∧ P (.writeRxenc 0 (rxEnc c.mps0)) := by
  rw [ep0Buffers, List.forall_mem_append, List.forall_mem_append, List.forall_mem_cons, List.forall_mem_cons]
  simp

@[simp] theorem forall_mem_resetHandler {c : Config} :
    (∀ a ∈ resetHandler c, P a) ↔
      (((P (.writeCntr (resetMask c)) ∧ ∀ a ∈ ep0Buffers c, P a) ∧ P .unwriteOthers ∧ P (.writeEpr 0 0x8280)) ∧
        ∀ a ∈ setStatusAccesses ⟨.OUT, 0⟩ (rxStat .valid), P a) ∧ P .defaultAddress := by
  rw [resetHandler, List.forall_mem_append, List.forall_mem_append, List.forall_mem_append, List.forall_mem_cons]
  simp

@[simp] theorem forall_mem_serviceAccesses {e : Event} {handler : List Access} {enabled : Bool} {ev : BusEvent} :
    (∀ a ∈ serviceAccesses e handler enabled ev, P a) ↔
      ((∀ a ∈ handler, P a) ∧ (enabled = true → P (.emitBus ev))) ∧ P (.writeIstr (eventClear e)) := by
  rw [serviceAccesses, List.forall_mem_append, List.forall_mem_append, List.forall_mem_singleton]
  cases enabled <;> simp

end

/-- The accesses of an instruction write no other cells than those of the table. -/
theorem accessesOf_cells (i : Instr) (s : State) : ∀ a ∈ accessesOf s i, ∀ c, a.cell = some c → c ∈ cellsOf i := by
  cases i with
  | istrPmaovr | istrErr =>
    simp only [accessesOf]
    split <;> simp [Access.cell, cellsOf]
  | _ => simp [accessesOf, suspendHandler, wakeupHandler, sofHandler, Access.cell, cellsOf]

/-! ## The statement -/

section
variable {i : Instr} {s t : State} (h : exec i s = .next t)
include h

theorem exec_cfg : t.cfg = s.cfg :=
  exec_keeps_value (A := fun _ => True) (fun _ _ e => e.cfg) (fun _ _ h => h)
    (fun _ _ _ _ _ _ e => (perform_frame e).cfg)
    (fun _ _ _ _ e => (busMove_frame e).cfg) (fun _ _ => trivial) h

/-- A value that only accesses which write the cell `c` change, and no bus move ahead, is as before after an instruction
that does not write `c`. -/
theorem exec_keeps_cell {α : Type} {f : State → α} {c : Cell} (hc : c ∉ cellsOf i)
    (hcells : ∀ s t, SameCells s t → f t = f s)
    (hperf : ∀ a l s l1 t, a.cell ≠ some c → perform a l s = .ok (l1, t) → f t = f s)
    (hbus : ∀ m u v, Choice.bus m ∈ s.sched → busMove m u = .ok v → f v = f u) : f t = f s :=
  exec_keeps_value (A := fun a => a.cell ≠ some c) hcells (fun _ _ h => h) hperf hbus
    (fun a ha e => hc (accessesOf_cells i s a ha c e)) h

theorem exec_fba (hc : .fba ∉ cellsOf i) : t.fba = s.fba :=
  exec_keeps_cell h hc (fun _ _ e => e.fba) (fun _ _ _ _ _ ha e => (perform_keepsCells e).fba ha)
    (fun _ _ _ _ e => (busMove_frame e).fba)

theorem exec_irqEn (hc : .irqEn ∉ cellsOf i) : t.irqEn = s.irqEn :=
  exec_keeps_cell h hc (fun _ _ e => e.irqEn) (fun _ _ _ _ _ ha e => (perform_keepsCells e).irqEn ha)
    (fun _ _ _ _ e => (busMove_frame e).irqEn)

theorem exec_cur_val (hc : .turn ∉ cellsOf i) : t.cur = s.cur ∧ t.val = s.val :=
  ⟨exec_keeps_cell h hc (fun _ _ e => e.cur) (fun _ _ _ _ _ ha e => (perform_keepsCells e).cur ha)
    (fun _ _ _ _ e => (busMove_frame e).cur),
   exec_keeps_cell h hc (fun _ _ e => e.val) (fun _ _ _ _ _ ha e => (perform_keepsCells e).val ha)
    (fun _ _ _ _ e => (busMove_frame e).val)⟩

variable (hn : s.noBus)
include hn

theorem exec_fn : t.fn = s.fn :=
  exec_keeps_value (A := fun _ => True) (fun _ _ e => e.fn) (fun _ _ h => h) (fun _ _ _ _ _ _ e => (perform_frame e).fn)
    (fun _ _ _ hm => absurd hm (hn _)) (fun _ _ => trivial) h

theorem exec_cntr (hc : .cntr ∉ cellsOf i) : t.cntr = s.cntr :=
  exec_keeps_cell h hc (fun _ _ e => e.cntr) (fun _ _ _ _ _ ha e => (perform_keepsCells e).cntr ha)
    (fun _ _ _ hm => absurd hm (hn _))

theorem exec_daddr (hc : .daddr ∉ cellsOf i) : t.daddr = s.daddr :=
  exec_keeps_cell h hc (fun _ _ e => e.daddr) (fun _ _ _ _ _ ha e => (perform_keepsCells e).daddr ha)
    (fun _ _ _ hm => absurd hm (hn _))

theorem exec_istr (hc : .istr ∉ cellsOf i) : t.istr = s.istr :=
  exec_keeps_cell h hc (fun _ _ e => e.istr) (fun _ _ _ _ _ ha e => (perform_keepsCells e).istr ha)
    (fun _ _ _ hm => absurd hm (hn _))

theorem exec_epr (j : Fin 16) (hc : .epr j ∉ cellsOf i) : t.epr[j] = s.epr[j] :=
  exec_keeps_cell (f := fun s => s.epr[j]) h hc (fun _ _ e => by rw [e.epr])
    (fun _ _ _ _ _ ha e => (perform_keepsCells e).eprOther j ha) (fun _ _ _ hm => absurd hm (hn _))

theorem exec_epr_all (hc : ∀ j, .epr j ∉ cellsOf i) : t.epr = s.epr :=
  Vector.ext fun j hj => exec_epr h hn ⟨j, hj⟩ (hc _)

end

/-- Settles O50: an instruction writes the cells of the table and no others. -/
theorem registerFrame : Obligations.RegisterFrame := by
  unfold Obligations.RegisterFrame
  intro i s t h
  refine ⟨exec_cfg h, ?fba, ?irqEn, ?turn, fun hn => ⟨exec_fn h hn, ?cntr, ?daddr, ?istr, ?epr⟩⟩
  case fba =>
    cases i with
    | alloc | configEp | istrReset => trivial
    | _ => exact exec_fba h (by simp [cellsOf])
  case irqEn =>
    cases i with
    | init => cases h; rfl
    | _ => exact exec_irqEn h (by simp [cellsOf])
  case turn =>
    cases i with
    | istrCtr => trivial
    | _ => exact exec_cur_val h (by simp [cellsOf])
  case cntr =>
    cases i with
    | connect | istrReset | istrSusp | istrWkup => trivial
    | _ => exact exec_cntr h hn (by simp [cellsOf])
  case daddr =>
    cases i with
    | setAddr | istrReset => trivial
    | _ => exact exec_daddr h hn (by simp [cellsOf])
  case istr =>
    cases i with
    | istrReset | istrSusp | istrWkup | istrSof | istrPmaovr | istrErr | istrCtr => trivial
    | _ => exact exec_istr h hn (by simp [cellsOf])
  case epr =>
    cases i with
    | configEp | enableEp | disableEp | resetEp | stallEp | clrStall | readEp | writeEp | setStatus | istrReset =>
      exact fun j hj => exec_epr h hn j (by simp [cellsOf, hj])
    | _ => exact exec_epr_all h hn (by simp [cellsOf])

end Sys2Proof.Machine
end

section
/-! Settles O59. One pass of the endpoint loop with nothing coming between (R187, R188, R189, R197): a turn serves one
pending endpoint and leaves the others pending. -/

namespace Sys2Proof.Machine

/-! ## The dispatcher alone -/

/-- Nothing comes between: no schedule ahead, no callback running or waited for, and no commands for one to issue. -/
structure State.Undisturbed (s : State) : Prop where
  wf : s.cfg.wf = true
  sched : s.sched = []
  cbCmds : s.cbCmds = []
  dispHeld : s.dispHeld = none
  cbScript : s.cbScript = []

theorem State.Undisturbed.congr {s t : State} (h : s.Undisturbed) (hc : t.cfg = s.cfg) (hs : t.sched = s.sched)
    (hb : t.cbCmds = s.cbCmds) (hd : t.dispHeld = s.dispHeld) (hr : t.cbScript = s.cbScript) : t.Undisturbed :=
  ⟨by rw [hc]; exact h.wf, hs.trans h.sched, hb.trans h.cbCmds, hd.trans h.dispHeld, hr.trans h.cbScript⟩

theorem State.Undisturbed.calm {s : State} (h : s.Undisturbed) (n : Nat) : s.calm n := by simp [State.calm, h.sched]

theorem State.Undisturbed.silent {s : State} (h : s.Undisturbed) (d : Handler) : s.silent d := by
  simp [State.silent, h.cbScript]

theorem State.Undisturbed.scriptAfter {s : State} (h : s.Undisturbed) (d : Handler) : s.scriptAfter d = s.cbScript := by
  cases d <;> simp [State.scriptAfter, h.cbScript]

theorem State.Undisturbed.later {s : State} (h : s.Undisturbed) (n : Nat) : s.later n = s := by
  have hs : s.sched.drop n = s.sched := by simp [h.sched]
  rw [State.later, hs]
  rfl

/-- Undisturbed inside the dispatcher, a step serves the phase. -/
theorem step_undisturbed {s : State} (h : s.Undisturbed) (hd : s.dph ≠ .idle) : step s = phaseTurn s := by
  have hc : canStart s = false := by simp [canStart, hd]
  simp only [step, h.wf, turn, h.sched, hc, if_true, Bool.false_eq_true, if_false]
  exact softwareTurn_phase hd h.cbCmds h.dispHeld

theorem steps_one {s t : State} (h : step s = .next t) : steps 1 s = .next t := by simp [steps, h]

theorem steps_succ {s t : State} (n : Nat) (h : step s = .next t) : steps (n + 1) s = steps n t := by simp [steps, h]

theorem steps_add {s t : State} {m : Nat} (n : Nat) (h : steps m s = .next t) : steps (m + n) s = steps n t := by
  induction m generalizing s with
  | zero => cases h; rw [Nat.zero_add]
  | succ m ih =>
    rw [Nat.add_right_comm]
    simp only [steps] at h ⊢
    split at h
    · exact ih h
    all_goals cases h

/-! ## The endpoint services -/

/-- A completion served: its bit cleared in the register of the turn, and its callback put out (R188, R189); nothing if
the bit was not read as 1. -/
def serve (done : Bool) (m : Word) (ev : EpEvent) (s : State) : State :=
  if done then put (.epCall s.cur ev) (writeEpr s.cur (s.val &&& m) s) else s

section
variable {done : Bool} {m : Word} {ev : EpEvent} {s : State}

theorem serve_true : serve true m ev s = put (.epCall s.cur ev) (writeEpr s.cur (s.val &&& m) s) := rfl

theorem serve_cfg : (serve done m ev s).cfg = s.cfg := by
  cases done
  · rfl
  · rw [serve_true, writeEpr_eq]; rfl

theorem serve_cur : (serve done m ev s).cur = s.cur := by
  cases done
  · rfl
  · rw [serve_true, writeEpr_eq]; rfl

theorem serve_val : (serve done m ev s).val = s.val := by
  cases done
  · rfl
  · rw [serve_true, writeEpr_eq]; rfl

theorem serve_out : (serve done m ev s).out = s.out ++ if done then [.epCall s.cur ev] else [] := by
  cases done
  · exact (List.append_nil _).symm
  · rw [serve_true, writeEpr_eq]; rfl

theorem serve_epr_other {j : Fin 16} (hj : j ≠ s.cur) : (serve done m ev s).epr[j] = s.epr[j] := by
  cases done
  · rfl
  · refine (Access.Frame.writeEpr (a := .writeAnd s.cur m) s rfl (s.val &&& m)).eprOther j ?_
    simpa [Access.eprIndex] using hj.symm

theorem serve_epr_cur {i : Fin 16} (hc : s.cur = i) (hi : i.val < s.cfg.nEp) :
    (serve done m ev s).epr[i] = if done then eprAfterWrite s.epr[i] (s.val &&& m) else s.epr[i] := by
  subst hc
  cases done
  · rfl
  · simp [serve_true, put_eq, writeEpr_eq, hi]

theorem serve_undisturbed (h : s.Undisturbed) : (serve done m ev s).Undisturbed := by
  cases done
  · exact h
  · rw [serve_true, writeEpr_eq]
    exact h.congr rfl rfl rfl rfl rfl

/-- The accesses of an endpoint service, undisturbed. -/
theorem start_serve {p : Phase} (h : s.Undisturbed) :
    start [.writeAnd s.cur m, .emitEp s.cur ev] { val := s.val } (.phase p) s =
      .next ((serve true m ev s).withDph p) := by
  have hw : (writeEpr s.cur (s.val &&& m) s).Undisturbed := by
    rw [writeEpr_eq]
    exact h.congr rfl rfl rfl rfl rfl
  have hrun := run_calm (as := [.writeAnd s.cur m, .emitEp s.cur ev]) (l := { val := s.val }) (fin := .phase p) (s := s)
    (by simp [Access.isLoad]) (fun _ => h.cbCmds) (fun _ _ _ => h.silent _) (by simp [Access.isEmit]) (h.calm _)
  have hlater := (serve_undisturbed (done := true) (m := m) (ev := ev) h).later 1
  rw [start, hrun]
  simp only [performList, perform, emit_silent (hw.silent _) hw.cbCmds, hw.scriptAfter]
  exact congrArg (fun u : State => Host.Outcome.next (u.withDph p)) hlater
end

/-- The state after the receive service (R188). -/
def afterRx (s : State) : State :=
  (serve (ctrRx s.val) 0x0F8F (if setupBit s.val then .setup else .out) s).withDph .epTx

/-- The state after the transmit service (R189). -/
def afterTx (s : State) : State := (serve (ctrTx s.val) 0x8F0F .in_ s).withDph .epTop

theorem rxService_undisturbed {s : State} (h : s.Undisturbed) : rxService s = .next (afterRx s) := by
  unfold rxService afterRx
  cases ctrRx s.val
  · rfl
  · exact start_serve h

theorem txService_undisturbed {s : State} (h : s.Undisturbed) : txService s = .next (afterTx s) := by
  unfold txService afterTx
  cases ctrTx s.val
  · rfl
  · exact start_serve h

/-! ## A turn of the endpoint loop -/

theorem ctrRx_eprAfterWrite (old w : Word) : ctrRx (eprAfterWrite old w) = (ctrRx old && ctrRx w) := by
  simp [ctrRx, eprAfterWrite]

theorem ctrTx_eprAfterWrite (old w : Word) : ctrTx (eprAfterWrite old w) = (ctrTx old && ctrTx w) := by
  simp [ctrTx, eprAfterWrite]

theorem exec_istrCtr_undisturbed {s : State} {i : Fin 16} (h : s.Undisturbed) (hi : i.val < s.cfg.nEp) :
    exec (.istrCtr i) s = .next { s with cur := i, val := s.epr[i], dph := .epRx } := by
  have hs : s.sched.drop 1 = s.sched := by simp [h.sched]
  rw [exec_istrCtr_calm hi (h.calm 1), hs]

/-- The state after the loop's top has named endpoint `i`, with the snapshot `w`. -/
def State.latched (i : Fin 16) (w : Word) (n : Nat) (s : State) : State :=
  { s with snap := w, fresh := n, cur := i, val := s.epr[i], dph := .epRx }

/-- The loop's top latches some pending endpoint (R187). -/
theorem phaseTurn_pending {s : State} (h : s.Undisturbed) (hd : s.dph = .epTop) (hp : pending s ≠ []) :
    ∃ i ∈ pending s, ∃ w n, phaseTurn s = .next (s.latched i w n) := by
  obtain ⟨n, hn⟩ := readIstr_snap s
  have hi := readIstr_index_mem hp
  have hu : ({ s with snap := (readIstr s).1, fresh := n } : State).Undisturbed := h.congr rfl rfl rfl rfl rfl
  refine ⟨_, hi, (readIstr s).1, n, ?_⟩
  simp only [phaseTurn, hd]
  rw [loopTop_pending hp (h.calm 1), hn, hu.later]
  exact exec_istrCtr_undisturbed hu (mem_pending.1 hi).1

/-- With nothing pending the loop's top ends the invocation, and nothing of the block has changed (R178). -/
theorem phaseTurn_none {s : State} (hd : s.dph = .epTop) (hp : pending s = []) :
    ∃ w n, phaseTurn s = .next { s with snap := w, dph := .idle, fresh := n } := by
  obtain ⟨n, hn⟩ := readIstr_snap s
  refine ⟨(readIstr s).1, n, ?_⟩
  simp only [phaseTurn, hd]
  rw [loopTop_none hp, hn]
  rfl

/-- Both services of one turn leave no completion bit, whichever were set (R188, R189). -/
theorem completions_cleared (v : Word) :
    let a := if ctrRx v then eprAfterWrite v (v &&& 0x0F8F) else v
    let b := if ctrTx v then eprAfterWrite a (v &&& 0x8F0F) else a
    ctrRx b = false ∧ ctrTx b = false := by
  have hrx : ctrRx (v &&& 0x0F8F) = false := by simp [ctrRx]
  have htx : ctrTx (v &&& 0x8F0F) = false := by simp [ctrTx]
  cases h1 : ctrRx v <;> cases h2 : ctrTx v <;>
    simp only [ctrRx_eprAfterWrite, ctrTx_eprAfterWrite, h1, h2, hrx, htx, if_true, if_false, Bool.false_eq_true,
      Bool.and_false, Bool.false_and, and_self]

/-- The callbacks of the completions in `v`, the register of endpoint `i` (R188, R189). -/
def turnCalls (i : Fin 16) (v : Word) : List Output :=
  (if ctrRx v then [.epCall i (if setupBit v then .setup else .out)] else []) ++
    (if ctrTx v then [.epCall i .in_] else [])

/-- The turn of endpoint `i` has been served from `s` to `t`: its callbacks put out, its completions cleared, and every
other register as it was. -/
structure TurnServed (i : Fin 16) (s t : State) : Prop where
  undisturbed : t.Undisturbed
  dph : t.dph = .epTop
  cfg : t.cfg = s.cfg
  out : t.out = s.out ++ turnCalls i s.epr[i]
  cleared : ctrRx t.epr[i] = false ∧ ctrTx t.epr[i] = false
  eprOther : ∀ j : Fin 16, j ≠ i → t.epr[j] = s.epr[j]

/-- Both services of a latched turn, with nothing between the latch and the writes. -/
theorem services_turnServed {s : State} (h : s.Undisturbed) (hi : s.cur.val < s.cfg.nEp) (hv : s.val = s.epr[s.cur]) :
    TurnServed s.cur s (afterTx (afterRx s)) := by
  have hval : (afterRx s).val = s.val := serve_val
  have hcur : (afterRx s).cur = s.cur := serve_cur
  have hcfg : (afterRx s).cfg = s.cfg := serve_cfg
  have hrx : (afterRx s).Undisturbed := (serve_undisturbed h).congr rfl rfl rfl rfl rfl
  refine ⟨(serve_undisturbed hrx).congr rfl rfl rfl rfl rfl, rfl, serve_cfg.trans hcfg, ?_, ?_, fun j hj => ?_⟩
  · have h1 : (afterRx s).out = _ := serve_out
    have h2 : (afterTx (afterRx s)).out = _ := serve_out
    rw [h2, h1, hval, hcur, hv, List.append_assoc]
    rfl
  · have h1 : (afterRx s).epr[s.cur] = _ := serve_epr_cur rfl hi
    have h2 : (afterTx (afterRx s)).epr[s.cur] = _ := serve_epr_cur hcur (by rw [hcfg]; exact hi)
    rw [h2, h1, hval, hv]
    exact completions_cleared _
  · exact (serve_epr_other (hcur ▸ hj)).trans (serve_epr_other hj)

/-- The three steps of one turn: the latch, the receive and the transmit service. -/
theorem steps_turn {s : State} (h : s.Undisturbed) (hd : s.dph = .epTop) (hp : pending s ≠ []) :
    ∃ i ∈ pending s, ∃ t, steps 3 s = .next t ∧ TurnServed i s t := by
  obtain ⟨i, hi, w, n, hlatch⟩ := phaseTurn_pending h hd hp
  have hl : (s.latched i w n).Undisturbed := h.congr rfl rfl rfl rfl rfl
  have hserved := services_turnServed hl (mem_pending.1 hi).1 rfl
  have hr : (afterRx (s.latched i w n)).Undisturbed := (serve_undisturbed hl).congr rfl rfl rfl rfl rfl
  have h1 : step s = .next (s.latched i w n) := by rw [step_undisturbed h (by simp [hd]), hlatch]
  have h2 : step (s.latched i w n) = .next (afterRx (s.latched i w n)) := by
    rw [step_undisturbed hl nofun]
    exact rxService_undisturbed hl
  have h3 : step (afterRx (s.latched i w n)) = .next (afterTx (afterRx (s.latched i w n))) := by
    rw [step_undisturbed hr nofun]
    exact txService_undisturbed hr
  refine ⟨i, hi, _, ?_, { hserved with }⟩
  rw [steps_succ 2 h1, steps_succ 1 h2, steps_one h3]

/-- A served turn takes its endpoint out of the pending ones (R27). -/
theorem TurnServed.pending {i : Fin 16} {s t : State} (h : TurnServed i s t) :
    pending t = (pending s).filter (· ≠ i) := by
  unfold Machine.pending
  rw [List.filter_filter]
  refine List.filter_congr fun j _ => ?_
  rw [h.cfg]
  by_cases hj : j = i
  · subst hj
    simpa using fun _ => h.cleared
  · simp [h.eprOther j hj, hj]

theorem turnCalls_rx {i : Fin 16} {v : Word} (h : v.getLsbD 15 = true) :
    .epCall i (if v.getLsbD 11 then .setup else .out) ∈ turnCalls i v := by
  have : ctrRx v = true := h
  simp [turnCalls, this, setupBit]

theorem turnCalls_tx {i : Fin 16} {v : Word} (h : v.getLsbD 7 = true) : .epCall i .in_ ∈ turnCalls i v := by
  have : ctrTx v = true := h
  simp [turnCalls, this]

/-- Two turns serve the two pending endpoints, in the order the reads of `ISTR` name them. -/
theorem steps_two_turns {s : State} {i j : Fin 16} (h : s.Undisturbed) (hd : s.dph = .epTop) (hij : i ≠ j)
    (hp : pending s = [i, j]) :
    ∃ a b t, steps 6 s = .next t ∧ ((a = i ∧ b = j) ∨ (a = j ∧ b = i)) ∧ t.Undisturbed ∧ t.dph = .epTop ∧
      pending t = [] ∧ t.out = s.out ++ (turnCalls a s.epr[a] ++ turnCalls b s.epr[b]) := by
  obtain ⟨a, ha, t1, h1, s1⟩ := steps_turn h hd (by simp [hp])
  obtain ⟨b, hab, hp1⟩ : ∃ b, ((a = i ∧ b = j) ∨ (a = j ∧ b = i)) ∧ pending t1 = [b] := by
    rw [s1.pending, hp]
    rw [hp] at ha
    obtain rfl | rfl : a = i ∨ a = j := by simpa using ha
    · exact ⟨j, .inl ⟨rfl, rfl⟩, by simp [hij.symm]⟩
    · exact ⟨i, .inr ⟨rfl, rfl⟩, by simp [hij]⟩
  have hba : b ≠ a := by
    obtain ⟨rfl, rfl⟩ | ⟨rfl, rfl⟩ := hab
    · exact hij.symm
    · exact hij
  obtain ⟨b', hb, t2, h2, s2⟩ := steps_turn s1.undisturbed s1.dph (by simp [hp1])
  obtain rfl : b' = b := by simpa [hp1] using hb
  refine ⟨a, b', t2, (steps_add 3 h1).trans h2, hab, s2.undisturbed, s2.dph, by simp [s2.pending, hp1], ?_⟩
  rw [s2.out, s1.out, s1.eprOther _ hba, List.append_assoc]

/-- Settles O59: two turns, and a read of `ISTR` that finds nothing pending. -/
theorem drainsTwoEndpoints : Obligations.DrainsTwoEndpoints := by
  unfold Obligations.DrainsTwoEndpoints
  intro s hwf hd hc hh hs hscript hp
  obtain ⟨a, b, t, h6, hab, ht, htd, htp, hout⟩ := steps_two_turns ⟨hwf, hs, hc, hh, hscript⟩ hd (by decide) hp
  obtain ⟨w, n, hend⟩ := phaseTurn_none htd htp
  have h7 : step t = _ := (step_undisturbed ht (by simp [htd])).trans hend
  refine ⟨_, _, (steps_add 1 h6).trans (steps_one h7), rfl, htp, hout, fun i hi => ?_⟩
  have hmem : turnCalls i s.epr[i] ⊆ turnCalls a s.epr[a] ++ turnCalls b s.epr[b] := by
    have : i = a ∨ i = b := by omega
    obtain rfl | rfl := this
    · exact List.subset_append_left _ _
    · exact List.subset_append_right _ _
  exact ⟨fun h => hmem (turnCalls_rx h), fun h => hmem (turnCalls_tx h)⟩

end Sys2Proof.Machine
end

section
/-! Settles O13, O14 and O15. One word of the arena, and a run of words at an even offset, inside the arena and past it:
what is read or stored, and exactly which faults are recorded (R61 to R65). -/

namespace Sys2Proof.Machine

/-! ## The two bytes of a word -/

/-- A word is its bytes, the second above the first (R61). -/
theorem extractLsb'_append_extractLsb' (v : Word) : v.extractLsb' 8 8 ++ v.extractLsb' 0 8 = v := by
  refine BitVec.eq_of_getLsbD_eq fun k hk => ?_
  rw [BitVec.getLsbD_append, BitVec.getLsbD_extractLsb', BitVec.getLsbD_extractLsb']
  by_cases h : k < 8
  · simp [h]
  · simp [h, show k - 8 < 8 by omega, show 8 + (k - 8) = k by omega]

theorem append_eq_shiftLeft_or (hi lo : Byte) : hi ++ lo = hi.setWidth 16 <<< 8 ||| lo.setWidth 16 := by
  refine BitVec.eq_of_getLsbD_eq fun k hk => ?_
  rw [BitVec.getLsbD_append, BitVec.getLsbD_or, BitVec.getLsbD_shiftLeft, BitVec.getLsbD_setWidth,
    BitVec.getLsbD_setWidth]
  by_cases h : k < 8
  · simp [h, hk]
  · simp [h, hk, show k - 8 < 16 by omega, BitVec.getLsbD_of_ge lo k (by omega)]

/-! ## One word -/

/-- A read inside the arena: the byte at the offset, then the next one (R62). -/
theorem memRead_inside {off : Nat} {s : State} (he : off % 2 = 0) (hb : off + 2 ≤ s.cfg.pmaSize) :
    memRead off s =
      .ok ((readCell (s.pma.read (off + 1)) (readByte off s).2).1 ++ (readByte off s).1,
        (readCell (s.pma.read (off + 1)) (readByte off s).2).2) := by
  have hnext : readByte (off + 1) (readByte off s).2 = readCell (s.pma.read (off + 1)) (readByte off s).2 := by
    rw [readByte, readByte, readCell_snd]
    rfl
  simp [memRead, he, Nat.not_lt.2 hb, hnext]

/-- A read past the arena is recorded and gives a free word (R65). -/
theorem memRead_outside {off : Nat} {s : State} (he : off % 2 = 0) (hb : s.cfg.pmaSize < off + 2) :
    memRead off s = .ok (unspecified 16 s, drawn (raise .arenaOverflow s)) := by
  simp [memRead, he, hb]

theorem readCell_fst {w : Nat} {c : Option (BitVec w)} {v : BitVec w} (h : c = some v) (s : State) :
    (readCell c s).1 = v := by subst h; rfl

/-- Settles O14: a read of both bytes, each written or not. -/
theorem arenaRead : Obligations.ArenaRead := by
  unfold Obligations.ArenaRead
  intro s off he hb
  refine ⟨fun lo hi hlo hhi => ?_, fun hu => ?_⟩
  · rw [memRead_written he hb hlo hhi, append_eq_shiftLeft_or]
  · refine ⟨(readCell (s.pma.read (off + 1)) (readByte off s).2).1 ++ (readByte off s).1,
      (readCell (s.pma.read (off + 1)) (readByte off s).2).2.fresh, ?_, fun b hlo => ?_, fun b hhi => ?_⟩
    · rw [memRead_inside he hb, readByte]
      congr 2
      rcases hu with hu | hu <;> rw [hu]
      · cases s.pma.read (off + 1) <;> rfl
      · cases s.pma.read off <;> rfl
    · rw [extractLsb'_append_lo, readByte, readCell_fst hlo]
    · rw [extractLsb'_append_hi, readCell_fst hhi]

/-- Settles O15: the alignment is checked first, then the bound. -/
theorem arenaLimits : Obligations.ArenaLimits := by
  unfold Obligations.ArenaLimits
  intro s off v
  exact ⟨fun ho => ⟨memWrite_misaligned ho, memRead_misaligned ho⟩,
    fun he hb => ⟨memWrite_outside he hb, _, _, memRead_outside he hb⟩⟩

/-! ## Words read -/

/-- `m` words from `off` have been read as `bs`, with the faults that belong to them recorded and nothing else changed
but the counter of free values (R62, R65). -/
structure WordsRead (off m : Nat) (s : State) (bs : List Byte) (t : State) : Prop where
  frame : t = (s.withFaults t.faults).withFresh t.fresh
  length : bs.length = 2 * m
  written : ∀ k b, k < 2 * m → off + 2 * (k / 2) + 2 ≤ s.cfg.pmaSize → s.pma.read (off + k) = some b →
    bs[k]? = some b
  unspecified : t.faults.unspecifiedRead = true ↔ s.faults.unspecifiedRead = true ∨
    ∃ k, k < 2 * m ∧ off + 2 * (k / 2) + 2 ≤ s.cfg.pmaSize ∧ s.pma.read (off + k) = none
  overflow : t.faults.arenaOverflow = true ↔
    s.faults.arenaOverflow = true ∨ (m ≠ 0 ∧ s.cfg.pmaSize < off + 2 * m)

theorem WordsRead.nil (off : Nat) (s : State) : WordsRead off 0 s [] s where
  frame := rfl
  length := rfl
  written := by omega
  unspecified := by simp
  overflow := by simp

theorem readCell_unspecified {w : Nat} (c : Option (BitVec w)) (s : State) :
    (readCell c s).2.faults.unspecifiedRead = true ↔ s.faults.unspecifiedRead = true ∨ c = none := by
  cases c with
  | some v => simp [readCell_some]
  | none => simp [readCell_none, raise_eq, drawn_eq, FaultSet.add]

theorem readCell_overflow {w : Nat} (c : Option (BitVec w)) (s : State) :
    (readCell c s).2.faults.arenaOverflow = s.faults.arenaOverflow := by
  cases c <;> rfl

/-- A run of two bytes: index 0 or 1. -/
theorem exists_lt_two_iff {P : Nat → Prop} : (∃ k, k < 2 * 1 ∧ P k) ↔ P 0 ∨ P 1 := by
  constructor
  · rintro ⟨k, hk, h⟩
    obtain rfl | rfl : k = 0 ∨ k = 1 := by omega
    · exact .inl h
    · exact .inr h
  · rintro (h | h)
    · exact ⟨0, by omega, h⟩
    · exact ⟨1, by omega, h⟩

/-- One word: refused at an odd offset, recorded past the arena, else its two bytes. -/
theorem memRead_wordsRead {off : Nat} {w : Word} {s t : State} (h : memRead off s = .ok (w, t)) :
    WordsRead off 1 s [w.extractLsb' 0 8, w.extractLsb' 8 8] t := by
  have he : off % 2 = 0 := by
    by_contra ho
    rw [memRead_misaligned (by omega)] at h
    cases h
  have hframe := memRead_fields h
  rcases Nat.lt_or_ge s.cfg.pmaSize (off + 2) with hb | hb
  · rw [memRead_outside he hb] at h
    cases h
    refine ⟨hframe, rfl, by omega, ?_, ?_⟩
    · rw [exists_lt_two_iff]
      simp [raise_eq, drawn_eq, FaultSet.add]
      omega
    · simp [raise_eq, drawn_eq, FaultSet.add]
      omega
  · rw [memRead_inside he hb] at h
    cases h
    refine ⟨hframe, rfl, fun k b hk _ hr => ?_, ?_, ?_⟩
    · obtain rfl | rfl : k = 0 ∨ k = 1 := by omega
      · rw [extractLsb'_append_lo, readByte]; exact congrArg some (readCell_fst hr s)
      · rw [extractLsb'_append_hi, readCell_fst hr]; rfl
    · rw [exists_lt_two_iff, readCell_unspecified, readByte, readCell_unspecified]
      simp [hb, or_assoc]
    · rw [readCell_overflow, readByte, readCell_overflow]
      simp
      omega

/-- A word and the words after it. -/
theorem WordsRead.cons {off m : Nat} {s s1 t : State} {lo hi : Byte} {bs : List Byte}
    (h : WordsRead off 1 s [lo, hi] s1) (h1 : WordsRead (off + 2) m s1 bs t) :
    WordsRead off (m + 1) s (lo :: hi :: bs) t := by
  have hcfg : s1.cfg = s.cfg := by rw [h.frame]; rfl
  have hpma : s1.pma = s.pma := by rw [h.frame]; rfl
  have hword : ∀ k, off + (2 * (k / 2) + 2) + 2 = off + 2 * ((k + 2) / 2) + 2 := by omega
  have hbyte : ∀ k, off + 2 + k = off + (k + 2) := by omega
  obtain ⟨hf1, hl1, hw1, hu1, ho1⟩ := h1
  simp only [hcfg, hpma, hword, hbyte] at hw1 hu1 ho1
  refine ⟨?_, by simp [hl1]; omega, fun k b hk hb hr => ?_, ?_, ?_⟩
  · rw [hf1, h.frame]; rfl
  · match k with
    | 0 => exact h.written 0 b (by omega) hb hr
    | 1 => exact h.written 1 b (by omega) hb hr
    | k + 2 => exact hw1 k b (by omega) hb hr
  · rw [hu1, h.unspecified, or_assoc, exists_lt_two_iff]
    refine or_congr_right ⟨?_, ?_⟩
    · rintro ((h0 | h0) | ⟨k, hk, h2⟩)
      · exact ⟨0, by omega, h0⟩
      · exact ⟨1, by omega, h0⟩
      · exact ⟨k + 2, by omega, h2⟩
    · rintro ⟨k, hk, h2⟩
      match k with
      | 0 => exact .inl (.inl h2)
      | 1 => exact .inl (.inr h2)
      | k + 2 => exact .inr ⟨k, by omega, h2⟩
  · rw [ho1, h.overflow, or_assoc]
    refine or_congr_right ?_
    omega

theorem readWords_wordsRead {m off : Nat} {bs : List Byte} {s t : State} (h : readWords off m s = .ok (bs, t)) :
    WordsRead off m s bs t := by
  induction m generalizing off s bs with
  | zero => cases h; exact .nil _ _
  | succ m ih =>
    simp only [readWords] at h
    split at h
    · cases h
    · rename_i h1
      split at h <;> cases h
      exact (memRead_wordsRead h1).cons (ih ‹_›)

/-- At an even offset every word is read. -/
theorem readWords_even {off : Nat} (he : off % 2 = 0) (m : Nat) (s : State) :
    ∃ bs t, readWords off m s = .ok (bs, t) := by
  induction m generalizing off s with
  | zero => exact ⟨[], s, rfl⟩
  | succ m ih =>
    obtain ⟨w, s1, h1⟩ : ∃ w s1, memRead off s = .ok (w, s1) := by
      rcases Nat.lt_or_ge s.cfg.pmaSize (off + 2) with hb | hb
      · exact ⟨_, _, memRead_outside he hb⟩
      · exact ⟨_, _, memRead_inside he hb⟩
    obtain ⟨bs, t, h2⟩ := ih (off := off + 2) (by omega) s1
    exact ⟨w.extractLsb' 0 8 :: w.extractLsb' 8 8 :: bs, t, by simp only [readWords, h1, h2]⟩

theorem readWords_misaligned {off m : Nat} {s : State} (ho : off % 2 = 1) (hm : m ≠ 0) :
    readWords off m s = .error (.misaligned s.faults) := by
  obtain ⟨m, rfl⟩ := Nat.exists_eq_succ_of_ne_zero hm
  simp only [readWords, memRead_misaligned ho]

/-- The words of a count are read at an even offset, and an offset that is not used need not be even. -/
theorem readWords_wordsRead_of_even {off m : Nat} (h : off % 2 = 0 ∨ m = 0) (s : State) :
    ∃ bs t, readWords off m s = .ok (bs, t) ∧ WordsRead off m s bs t := by
  obtain ⟨bs, t, h1⟩ : ∃ bs t, readWords off m s = .ok (bs, t) := by
    obtain he | rfl := h
    · exact readWords_even he m s
    · exact ⟨[], s, rfl⟩
  exact ⟨bs, t, h1, readWords_wordsRead h1⟩

/-! ## Words stored -/

/-- The words `ws` have been stored from `off`: those inside the arena as they stand, one past it recorded and dropped,
and every other byte as before (R63, R65). -/
structure WordsStored (off : Nat) (ws : List Word) (s t : State) : Prop where
  frame : t = (s.withPma t.pma).withFaults t.faults
  faults : t.faults = { s.faults with
    arenaOverflow := s.faults.arenaOverflow || decide (ws ≠ [] ∧ s.cfg.pmaSize < off + 2 * ws.length) }
  stored : ∀ k w, ws[k]? = some w → off + 2 * k + 2 ≤ s.cfg.pmaSize →
    t.pma.read (off + 2 * k) = some (w.extractLsb' 0 8) ∧ t.pma.read (off + 2 * k + 1) = some (w.extractLsb' 8 8)
  other : ∀ a, a < off ∨ off + 2 * ws.length ≤ a ∨ s.cfg.pmaSize ≤ a → t.pma.read a = s.pma.read a

theorem WordsStored.nil (off : Nat) (s : State) : WordsStored off [] s s where
  frame := rfl
  faults := by simp
  stored := by simp
  other _ _ := rfl

theorem memWrite_wordsStored {off : Nat} {v : Word} {s t : State} (h : memWrite off v s = .ok t) :
    WordsStored off [v] s t := by
  have hframe := memWrite_fields h
  obtain ⟨he, ⟨hb, rfl⟩ | ⟨hb, rfl⟩⟩ := memWrite_cases h
  · refine ⟨hframe, ?_, fun k w hk hin => ?_, fun _ _ => rfl⟩
    · simp [hb, raise_eq, FaultSet.add]
    · omega
  · refine ⟨hframe, ?_, fun k w hk _ => ?_, fun a ha => ?_⟩
    · simp [Nat.not_lt.2 hb]
    · obtain ⟨rfl, rfl⟩ : k = 0 ∧ v = w := by
        cases k with
        | zero => exact ⟨rfl, by simpa using hk⟩
        | succ k => simp at hk
      refine ⟨?_, Memory.read_write_same _ _ _⟩
      rw [State.withPma_pma, Memory.read_write_other _ _ (by omega)]
      exact Memory.read_write_same _ _ _
    · simp only [List.length_singleton] at ha
      rw [State.withPma_pma, Memory.read_write_other _ _ (by omega), Memory.read_write_other _ _ (by omega)]

/-- A word written inside the arena is read back (R62, R63). -/
theorem memRead_of_memWrite {off : Nat} {v : Word} {s t : State} (h : memWrite off v s = .ok t)
    (hb : off + 2 ≤ s.cfg.pmaSize) : memRead off t = .ok (v, t) := by
  obtain ⟨hlo, hhi⟩ := (memWrite_wordsStored h).stored 0 v rfl hb
  have hcfg : t.cfg = s.cfg := by rw [memWrite_fields h]; rfl
  rw [memRead_written (memWrite_cases h).1 (by rw [hcfg]; exact hb) hlo hhi, extractLsb'_append_extractLsb']

/-- Settles O13, by the bytes a stored word leaves. -/
theorem arenaWrite : Obligations.ArenaWrite := by
  unfold Obligations.ArenaWrite
  intro s off v he hb
  have h := memWrite_inside (v := v) he hb
  obtain ⟨hlo, hhi⟩ := (memWrite_wordsStored h).stored 0 v rfl (by omega)
  exact ⟨_, h, rfl, hlo, hhi, fun a h0 h1 => memWrite_outside_word h (by omega), memRead_of_memWrite h hb⟩

/-- A word and the words after it. -/
theorem WordsStored.cons {off : Nat} {v : Word} {ws : List Word} {s s1 t : State} (h : WordsStored off [v] s s1)
    (h1 : WordsStored (off + 2) ws s1 t) : WordsStored off (v :: ws) s t := by
  have hcfg : s1.cfg = s.cfg := by rw [h.frame]; rfl
  obtain ⟨hframe1, hf1, hs1, ho1⟩ := h1
  rw [hcfg] at hf1 hs1 ho1
  refine ⟨?_, ?_, fun k w hk hb => ?_, fun a ha => ?_⟩
  · rw [hframe1, h.frame]
    rfl
  · have hor : (s.faults.arenaOverflow || decide (s.cfg.pmaSize < off + 2) ||
        decide (ws ≠ [] ∧ s.cfg.pmaSize < off + 2 + 2 * ws.length)) =
        (s.faults.arenaOverflow || decide (v :: ws ≠ [] ∧ s.cfg.pmaSize < off + 2 * (v :: ws).length)) := by
      rw [Bool.or_assoc, ← Bool.decide_or]
      congr 2
      cases ws with
      | nil => simp
      | cons => simp; omega
    rw [hf1, ← hor, h.faults]
    simp
  · cases k with
    | zero =>
      rw [ho1 _ (by omega), ho1 _ (by omega)]
      exact h.stored 0 w (by simpa using hk) hb
    | succ k =>
      have := hs1 k w (by simpa using hk) (by omega)
      rwa [show off + 2 + 2 * k = off + 2 * (k + 1) by omega] at this
  · rw [List.length_cons] at ha
    rw [ho1 a (by omega), h.other a (by simp only [List.length_singleton]; omega)]

theorem writeWords_wordsStored {ws : List Word} {off : Nat} {s t : State} (h : writeWords off ws s = .ok t) :
    WordsStored off ws s t := by
  induction ws generalizing off s with
  | nil => cases h; exact .nil _ _
  | cons w ws ih =>
    simp only [writeWords] at h
    split at h
    · cases h
    · rename_i h1
      exact (memWrite_wordsStored h1).cons (ih h)

/-- At an even offset every word is stored or dropped. -/
theorem writeWords_even {off : Nat} (he : off % 2 = 0) (ws : List Word) (s : State) :
    ∃ t, writeWords off ws s = .ok t := by
  induction ws generalizing off s with
  | nil => exact ⟨_, rfl⟩
  | cons w ws ih =>
    obtain ⟨s1, h1⟩ : ∃ s1, memWrite off w s = .ok s1 := by
      rcases Nat.lt_or_ge s.cfg.pmaSize (off + 2) with hb | hb
      · exact ⟨_, memWrite_outside he hb⟩
      · exact ⟨_, memWrite_inside he hb⟩
    obtain ⟨t, h2⟩ := ih (off := off + 2) (by omega) s1
    exact ⟨t, by simp only [writeWords, h1, h2]⟩

theorem writeWords_misaligned {off : Nat} {ws : List Word} {s : State} (ho : off % 2 = 1) (hw : ws ≠ []) :
    writeWords off ws s = .error (.misaligned s.faults) := by
  obtain ⟨w, ws, rfl⟩ := List.exists_cons_of_ne_nil hw
  simp only [writeWords, memWrite_misaligned ho]

/-! ## Packets stored -/

/-- The words of an `n`-byte packet (R205, R223). -/
def packetWords (n : Nat) (data : Nat → Byte) (pad : Byte) : List Word :=
  (List.range (wordsOf n)).map (packetWord n data pad)

@[simp] theorem packetWords_length (n : Nat) (data : Nat → Byte) (pad : Byte) :
    (packetWords n data pad).length = wordsOf n := by simp [packetWords]

theorem wordsOf_eq_zero {n : Nat} : wordsOf n = 0 ↔ n = 0 := by unfold wordsOf; omega

theorem packetWords_eq_nil {n : Nat} {data : Nat → Byte} {pad : Byte} : packetWords n data pad = [] ↔ n = 0 := by
  rw [← List.length_eq_zero_iff, packetWords_length, wordsOf_eq_zero]

/-- A packet of `n` bytes has been stored from `off` by its words: each byte inside the arena, an odd packet's last with
`pad` above it, and every other byte as before (R63, R65, R205). -/
structure PacketStored (off n : Nat) (data : Nat → Byte) (pad : Byte) (s t : State) : Prop where
  frame : t = (s.withPma t.pma).withFaults t.faults
  faults : t.faults = { s.faults with
    arenaOverflow := s.faults.arenaOverflow || decide (n ≠ 0 ∧ s.cfg.pmaSize < off + 2 * wordsOf n) }
  byte : ∀ k, k < n → off + 2 * (k / 2) + 2 ≤ s.cfg.pmaSize → t.pma.read (off + k) = some (data k)
  pad : n % 2 = 1 → off + n + 1 ≤ s.cfg.pmaSize → t.pma.read (off + n) = some pad
  other : ∀ a, a < off ∨ off + 2 * wordsOf n ≤ a ∨ s.cfg.pmaSize ≤ a → t.pma.read a = s.pma.read a

theorem WordsStored.packet {off n : Nat} {data : Nat → Byte} {pad : Byte} {s t : State}
    (h : WordsStored off (packetWords n data pad) s t) : PacketStored off n data pad s t := by
  obtain ⟨hframe, hf, hs, ho⟩ := h
  simp only [packetWords_length, ne_eq, packetWords_eq_nil] at hf ho
  have hword : ∀ j, 2 * j < n → off + 2 * j + 2 ≤ s.cfg.pmaSize →
      t.pma.read (off + 2 * j) = some (data (2 * j)) ∧
      t.pma.read (off + 2 * j + 1) = some (if 2 * j + 1 < n then data (2 * j + 1) else pad) := by
    intro j hj hb
    have hw : (packetWords n data pad)[j]? = some (packetWord n data pad j) := by
      simp [packetWords, show j < wordsOf n by unfold wordsOf; omega]
    have := hs j _ hw hb
    rwa [packetWord, extractLsb'_append_lo, extractLsb'_append_hi] at this
  refine ⟨hframe, hf, fun k hk hb => ?_, fun hn hb => ?_, ho⟩
  · obtain ⟨hlo, hhi⟩ := hword (k / 2) (by omega) hb
    obtain hk2 | hk2 := Nat.mod_two_eq_zero_or_one k
    · rwa [show 2 * (k / 2) = k by omega] at hlo
    · rwa [show off + 2 * (k / 2) + 1 = off + k by omega, show 2 * (k / 2) + 1 = k by omega, if_pos hk] at hhi
  · have hhi := (hword (n / 2) (by omega) (by omega)).2
    rwa [show off + 2 * (n / 2) + 1 = off + n by omega, if_neg (by omega)] at hhi

/-- A packet is stored at an even offset, and an offset that is not used need not be even. -/
theorem writeWords_packetStored {off n : Nat} (h : off % 2 = 0 ∨ n = 0) (data : Nat → Byte) (pad : Byte) (s : State) :
    ∃ t, writeWords off (packetWords n data pad) s = .ok t ∧ PacketStored off n data pad s t := by
  obtain ⟨t, h1⟩ : ∃ t, writeWords off (packetWords n data pad) s = .ok t := by
    obtain he | rfl := h
    · exact writeWords_even he _ s
    · exact ⟨s, rfl⟩
  exact ⟨t, h1, (writeWords_wordsStored h1).packet⟩

end Sys2Proof.Machine
end

section
/-! Settles O5, O41 and O42. Whose turn a step is (R70): the next command of the current software agent, the foreground
agent waiting while the dispatcher runs (R179), and a preempted command that goes on with the values it has read (R71). -/

namespace Sys2Proof.Machine

/-! ## The next command -/

theorem issue_decoded {r : Request} {s : State} {i : Instr} (h : decode s.cfg.nEp (.cmd r.word) = .ok i) :
    issue r s = exec i (s.withDin r.data) := by
  simp only [issue, h]

theorem softwareTurn_of_idle {s : State} (hd : s.dph = .idle) : softwareTurn s = foregroundTurn s := by
  simp only [softwareTurn, hd]

theorem softwareTurn_of_ne_idle {s : State} (hd : s.dph ≠ .idle) : softwareTurn s = dispatcherTurn s := by
  unfold softwareTurn
  split
  · contradiction
  · rfl

/-- With no command held the foreground agent presents its next one (R80). -/
theorem foregroundTurn_command {s : State} {r : Request} {rs : List Request} (hh : s.fgHeld = none)
    (hc : s.fgCmds = r :: rs) : foregroundTurn s = issue r (s.withFgCmds rs) := by
  simp only [foregroundTurn, hh, hc]

/-- A running callback presents its next command (R192). -/
theorem dispatcherTurn_command {s : State} {r : Request} {rs : List Request} (hc : s.cbCmds = r :: rs) :
    dispatcherTurn s = issue r (s.withCbCmds rs) := by
  simp only [dispatcherTurn, hc]

/-- Settles O5: the turn is the current agent's, and its next command is decoded and performed. -/
theorem stepRunsCommand : Obligations.StepRunsCommand := by
  unfold Obligations.StepRunsCommand
  intro s r rs cs i hwf hs hdec
  refine ⟨fun hd hh hc => ?_, fun hd hc => ?_⟩
  · rw [step_go hwf hs, softwareTurn_of_idle (s := s.withSched cs) hd]
    rw [foregroundTurn_command (s := s.withSched cs) hh hc]
    exact issue_decoded (s := (s.withSched cs).withFgCmds rs) hdec
  · rw [step_go hwf hs, softwareTurn_of_ne_idle (s := s.withSched cs) hd]
    rw [dispatcherTurn_command (s := s.withSched cs) hc]
    exact issue_decoded (s := (s.withSched cs).withCbCmds rs) hdec

/-! ## The foreground agent waits -/

/-- Inside the dispatcher, with the foreground agent as it was in `s`. -/
structure FgWaits (s u : State) : Prop where
  dph : u.dph ≠ .idle
  fgHeld : u.fgHeld = s.fgHeld
  fgCmds : u.fgCmds = s.fgCmds

theorem FgWaits.boundary {s u v : State} {b : Bool} (h : FgWaits s u) (e : boundary u = .ok (v, b)) : FgWaits s v := by
  refine othersMove_rec (P := FgWaits s) (fun m u v _ hm h => ?_) (fun u hst h => ?_) (fun u cs _ h => { h with })
    (fun _ h => h) h e
  · have hf := busMove_frame hm
    exact ⟨by rw [hf.dph]; exact h.dph, hf.fgHeld.trans h.fgHeld, hf.fgCmds.trans h.fgCmds⟩
  · exact absurd (canStart_iff.1 hst).2.2 h.dph

/-- Accesses made inside the dispatcher never preempt, so they hold no foreground command (R179). -/
theorem FgWaits.run {s u t : State} {as : List Access} {l : Locals} {fin : Finish} (h : FgWaits s u)
    (e : run as l fin u = .ok t) : t.fgHeld = s.fgHeld ∧ t.fgCmds = s.fgCmds := by
  refine run_rec (A := fun _ => True) (Q := fun _ => FgWaits s)
    (R := fun t => t.fgHeld = s.fgHeld ∧ t.fgCmds = s.fgCmds) (fun _ _ h => h) ?_ (fun _ _ _ _ h e => h.boundary e)
    ?_ ?_ (fun _ _ _ _ _ _ _ _ _ _ h => ⟨h.fgHeld, h.fgCmds⟩) (fun _ _ => trivial) h e
  · intro a l u l1 v _ h e
    have hf := perform_frame e
    exact ⟨by rw [hf.dph]; exact h.dph, hf.fgHeld.trans h.fgHeld, hf.fgCmds.trans h.fgCmds⟩
  · intro l u h
    obtain ⟨w, e⟩ | ⟨p, -, e⟩ := finish_eq fin l u <;> rw [e] <;> exact ⟨h.fgHeld, h.fgCmds⟩
  · intro _ u v _ h e _
    have := othersMove_of_not_idle h.dph (fun _ _ _ e => (busMove_frame e).dph) e
    cases this

theorem FgWaits.exec {s u t : State} {i : Instr} (h : FgWaits s u) (e : exec i u = .next t) :
    t.fgHeld = s.fgHeld ∧ t.fgCmds = s.fgCmds := by
  obtain ⟨r, he⟩ | ⟨p, he⟩ | ⟨as, l, fin, u1, he, hu1, -⟩ := exec_cases i u <;> rw [he] at e
  · cases e
  · cases e; exact ⟨h.fgHeld, h.fgCmds⟩
  · have h1 : FgWaits s u1 := by
      obtain rfl | ⟨n, rfl⟩ := hu1
      · exact h
      · exact { h with }
    exact h1.run (toOutcome_next e)

theorem FgWaits.issue {s u t : State} {r : Request} (h : FgWaits s u) (e : issue r u = .next t) :
    t.fgHeld = s.fgHeld ∧ t.fgCmds = s.fgCmds := by
  unfold Machine.issue at e
  split at e
  · exact FgWaits.exec (u := u.withDin r.data) { h with } e
  all_goals cases e

theorem FgWaits.loopTop {s u t : State} (h : FgWaits s u) (e : loopTop u = .next t) :
    t.fgHeld = s.fgHeld ∧ t.fgCmds = s.fgCmds := by
  have hr : FgWaits s ((readIstr u).2.withSnap (readIstr u).1) := by
    rw [readIstr_snd]
    exact { h with }
  simp only [Machine.loopTop] at e
  split at e
  · split at e
    · cases e
    · rename_i hb
      exact (hr.boundary hb).exec e
  · cases e; exact ⟨hr.fgHeld, hr.fgCmds⟩

theorem FgWaits.phaseTurn {s u t : State} (h : FgWaits s u) (e : phaseTurn u = .next t) :
    t.fgHeld = s.fgHeld ∧ t.fgCmds = s.fgCmds := by
  unfold Machine.phaseTurn at e
  split at e
  · cases e; exact ⟨h.fgHeld, h.fgCmds⟩
  · split at e
    · exact h.exec e
    · cases e; exact ⟨h.fgHeld, h.fgCmds⟩
  · exact h.loopTop e
  · unfold rxService at e
    split at e
    · exact h.run (toOutcome_next e)
    · cases e; exact ⟨h.fgHeld, h.fgCmds⟩
  · unfold txService at e
    split at e
    · exact h.run (toOutcome_next e)
    · cases e; exact ⟨h.fgHeld, h.fgCmds⟩

theorem FgWaits.softwareTurn {s u t : State} (h : FgWaits s u) (e : softwareTurn u = .next t) :
    t.fgHeld = s.fgHeld ∧ t.fgCmds = s.fgCmds := by
  rw [softwareTurn_of_ne_idle h.dph] at e
  unfold dispatcherTurn at e
  split at e
  · rename_i rs _
    exact FgWaits.issue (u := u.withCbCmds rs) { h with } e
  · split at e
    · exact FgWaits.run (u := u.withDispHeld none) { h with } (toOutcome_next e)
    · exact h.phaseTurn e

/-- Settles O41: every step from inside the dispatcher is a bus move, a start that cannot be, or the dispatcher's turn. -/
theorem foregroundWaits : Obligations.ForegroundWaits := by
  unfold Obligations.ForegroundWaits
  intro s t hd e
  have h : ∀ cs, FgWaits s (s.withSched cs) := fun cs => ⟨hd, rfl, rfl⟩
  have hno : ∀ u : State, u.dph = s.dph → ¬ canStart u = true := fun u hu hst => hd (hu ▸ (canStart_iff.1 hst).2.2)
  unfold step at e
  split at e
  · unfold turn at e
    split at e
    · have hf := busMove_frame (toOutcome_next e)
      exact ⟨hf.fgHeld, hf.fgCmds⟩
    · rename_i cs _
      cases e
      rw [startIfReady, if_neg (hno (s.withSched cs) rfl)]
      exact ⟨rfl, rfl⟩
    · exact (h _).softwareTurn e
    · rw [if_neg (hno s rfl)] at e
      exact (h s.sched).softwareTurn e
  · cases e

/-! ## A preempted command -/

/-- The start of the dispatcher at a boundary preempts the command (R71, R176). -/
theorem boundary_irq {s : State} {cs : List Choice} (hst : canStart s = true) (hs : s.sched = .irq :: cs) :
    boundary s = .ok ((enterDispatcher s).withSched cs, true) := by
  simp [boundary, hs, othersMove, hst]

/-- The foreground agent goes on with the command it holds (R71). -/
theorem step_go_held {s : State} {f : Frame} {cs : List Choice} (hwf : s.cfg.wf = true) (hd : s.dph = .idle)
    (hf : s.fgHeld = some f) (hs : s.sched = .go :: cs) :
    step s = resume f ((s.withSched cs).withFgHeld none) := by
  rw [step_go hwf hs, softwareTurn_of_idle (s := s.withSched cs) hd]
  simp only [foregroundTurn, State.withSched_fgHeld, hf]

/-- A `SET_STATUS` held between its read, which gave `val`, and its write (R71, R134). -/
def heldStatus (ep : EpId) (stat val : Word) : Frame :=
  ⟨[.writeStatus ep.idx (selField ep.dir) stat], { val := val }, .zero⟩

/-- The write of a held `SET_STATUS`, from the value it has read (R134). -/
theorem resume_heldStatus {s : State} {ep : EpId} (hi : ep.idx.val < s.cfg.nEp) (stat val : Word) :
    resume (heldStatus ep stat val) s =
      .next ((s.withEprAll
        (s.epr.set ep.idx (eprAfterWrite s.epr[ep.idx] (statusWrite val (selField ep.dir) stat)))).withOut
          (s.out ++ [.result 0])) := by
  have hrun := run_last (a := .writeStatus ep.idx (selField ep.dir) stat) (l := { val := val }) (fin := .zero) (s := s)
    rfl rfl
  rw [resume, start, heldStatus, hrun, writeEpr_eq, if_pos hi]
  rfl

/-- Settles O42: the command is preempted after its read, and its write is made from the value read. -/
theorem preemptedStatusIsStale : Obligations.PreemptedStatusIsStale := by
  unfold Obligations.PreemptedStatusIsStale
  intro s ep rx tx cs hi hirq hen hd hs
  obtain ⟨n, hn⟩ := readIstr_snap s
  refine ⟨(readIstr s).1, n, heldStatus ep (statWord rx tx) s.epr[ep.idx], ?_, istrReads_readIstr s,
    fun u ds hwf hnEp hud huf hus => ?_⟩
  · have hb := boundary_irq (canStart_iff.2 ⟨hirq, hen, hd⟩) hs
    have hrun := run_cons_preempted (a := .readEpr ep.idx) (b := .writeStatus ep.idx (selField ep.dir) (statWord rx tx))
      (as := []) (l := {}) (fin := .zero) rfl rfl hb
    rw [enterDispatcher_eq, hn] at hrun
    simp only [exec, execSetStatus, withEndpoint, hi, if_true, start, setStatusAccesses, hrun]
    rfl
  · have hui : ep.idx.val < u.cfg.nEp := hnEp ▸ hi
    rw [step_go_held hwf hud huf hus, resume_heldStatus (s := (u.withSched ds).withFgHeld none) hui]
    rcases ep with ⟨_ | _, i⟩ <;> rfl

end Sys2Proof.Machine
end

section
/-! Settles O47 and O48. A reception and a transmission that are enabled, in every form: with the packet and the fields
written, and with an unwritten, odd or outside one (R62 to R65, R223, R224, R246). -/

namespace Sys2Proof.Machine

/-! ## Reads of fields -/

/-- A read of a tracked cell changes `FAULTS`, where an unwritten one is recorded, and the counter of free values (R244). -/
theorem readCell_next {w : Nat} (c : Option (BitVec w)) (s : State) :
    ∃ n, (readCell c s).2 =
      { s with faults := { s.faults with unspecifiedRead := s.faults.unspecifiedRead || c.isNone }, fresh := n } := by
  cases c with
  | some v => exact ⟨s.fresh, by simp [readCell_some]⟩
  | none => exact ⟨_, by rw [Option.isNone_none, Bool.or_true]; rfl⟩

/-- Two reads of tracked cells, one after the other. -/
theorem readCell_readCell_next {w v : Nat} (c : Option (BitVec w)) (d : Option (BitVec v)) (s : State) :
    ∃ n, (readCell d (readCell c s).2).2 =
      { s with
        faults := { s.faults with unspecifiedRead := s.faults.unspecifiedRead || c.isNone || d.isNone }
        fresh := n } := by
  obtain ⟨n, hn⟩ := readCell_next c s
  obtain ⟨m, hm⟩ := readCell_next d (readCell c s).2
  exact ⟨m, by rw [hm, hn]⟩

theorem readCell_bd {w : Nat} (c : Option (BitVec w)) (s : State) : (readCell c s).2.bd = s.bd := by
  cases c <;> rfl

theorem step_bus {s : State} {m : BusMove} {cs : List Choice} (hwf : s.cfg.wf = true) (hs : s.sched = .bus m :: cs) :
    step s = toOutcome (busMove m (s.withSched cs)) := by
  simp [step, turn, hwf, hs]

/-! ## Reception -/

theorem rxWords_eq (d : List Byte) (pad : Byte) : rxWords d pad = packetWords d.length (fun k => d.getD k 0) pad := rfl

section
variable {i : Fin 16} {setup : Bool} {d : List Byte} {s : State}

/-- There is no room for the packet: only the read of the receive-count word is left (R223; assumption log 17). -/
theorem rxDone_without_room (hr : rxReady i setup d.length s = true)
    (hroom : ¬ ∃ cap, rxCap (readCell s.bd[i].rxenc s).1 = some cap ∧ d.length ≤ cap) :
    rxDone i setup d s = .ok (readCell s.bd[i].rxenc s).2 := by
  unfold rxDone
  simp only [hr, if_true]
  split
  · rename_i cap hcap
    rw [if_neg fun h => hroom ⟨cap, hcap, h⟩]
  · rfl

theorem rxDone_with_room (hr : rxReady i setup d.length s = true)
    (hroom : ∃ cap, rxCap (readCell s.bd[i].rxenc s).1 = some cap ∧ d.length ≤ cap) :
    rxDone i setup d s = storePacket i setup d (readCell s.bd[i].rxenc s).2 := by
  obtain ⟨cap, hcap, hle⟩ := hroom
  simp only [rxDone, hr, if_true, hcap, hle]

theorem storePacket_misaligned (ho : (readCell s.bd[i].rxaddr s).1.toNat % 2 = 1) (hd : d ≠ []) :
    storePacket i setup d s = .error (.misaligned (readCell s.bd[i].rxaddr s).2.faults) := by
  have hw : rxWords d (unspecified 8 (readCell s.bd[i].rxaddr s).2) ≠ [] := by
    rw [rxWords_eq, ne_eq, packetWords_eq_nil, List.length_eq_zero_iff]
    exact hd
  simp only [storePacket, writeWords_misaligned ho hw]
  rfl

/-- The words of the packet are stored; then the length and the register are written (R223). -/
theorem storePacket_even (hi : i.val < s.cfg.nEp) (he : (readCell s.bd[i].rxaddr s).1.toNat % 2 = 0 ∨ d = []) :
    ∃ t1 pad, PacketStored (readCell s.bd[i].rxaddr s).1.toNat d.length (fun k => d.getD k 0) pad
        (drawn (readCell s.bd[i].rxaddr s).2) t1 ∧
      storePacket i setup d s = .ok { s with
        pma := t1.pma
        bd := s.bd.set i { s.bd[i] with rxlen := some (BitVec.ofNat 10 d.length) }
        epr := s.epr.set i (eprAfterRx s.epr[i] setup)
        faults := t1.faults
        fresh := t1.fresh } := by
  rw [← List.length_eq_zero_iff] at he
  obtain ⟨t1, h1, hst⟩ := writeWords_packetStored he (fun k => d.getD k 0)
    (unspecified 8 (readCell s.bd[i].rxaddr s).2) (drawn (readCell s.bd[i].rxaddr s).2)
  refine ⟨t1, _, hst, ?_⟩
  obtain ⟨n, hn⟩ := readCell_next s.bd[i].rxaddr s
  have ht1 := hst.frame
  rw [hn] at ht1
  rw [← rxWords_eq] at h1
  simp only [storePacket, h1]
  generalize t1.pma = m at ht1 ⊢
  generalize t1.faults = f at ht1 ⊢
  subst ht1
  rw [setEpr_eq, setBd_eq]
  simp only [drawn, State.withFresh, State.withPma, State.withFaults, State.withBdAll, State.withEprAll, hi, if_true]

end

/-- The register after a reception, in the one form of R223. -/
theorem eprAfterRx_eq (v : Word) (setup : Bool) :
    eprAfterRx v setup = ((v ^^^ 0x4000) &&& 0x47FF) ||| 0xA000 ||| (if setup then 0x0800 else 0) := by
  have hset : (0x2000 : Word) ||| (if setup then 0x0800 else 0) ||| 0x8000 = 0xA000 ||| (if setup then 0x0800 else 0) := by
    cases setup <;> rfl
  rw [eprAfterRx, BitVec.or_assoc, BitVec.or_assoc, ← BitVec.or_assoc 0x2000, hset, BitVec.or_assoc]

/-- Settles O47: the receive-count word decides, then the packet is stored by its words. -/
theorem rxDoneResult : Obligations.RxDoneResult := by
  unfold Obligations.RxDoneResult
  intro s i setup d cs hwf hs hres hsusp haddr hi hstat htype hsetup hlen enc off room
  have hr : rxReady i setup d.length (s.withSched cs) = true := by
    simp only [rxReady, busActive, Bool.and_eq_true, Bool.or_eq_true, Bool.not_eq_true', decide_eq_true_iff]
    exact ⟨⟨⟨⟨⟨⟨⟨hres, hsusp⟩, haddr⟩, hi⟩, hstat⟩, htype⟩, by
      cases setup
      · exact .inl rfl
      · exact .inr (hsetup rfl)⟩, hlen⟩
  have henc : readCell (s.withSched cs).bd[i].rxenc (s.withSched cs) = (enc.1, enc.2.withSched cs) :=
    readCell_withSched _ _ _
  have hoff : readCell (enc.2.withSched cs).bd[i].rxaddr (enc.2.withSched cs) = (off.1, off.2.withSched cs) := by
    rw [readCell_withSched, State.withSched_bd, readCell_bd]
  have hstep : step s = toOutcome (rxDone i setup d (s.withSched cs)) := step_bus hwf hs
  obtain ⟨n1, hn1⟩ : ∃ n, enc.2 = _ := readCell_next s.bd[i].rxenc s
  obtain ⟨n2, hn2⟩ : ∃ n, off.2 = _ := readCell_readCell_next s.bd[i].rxenc s.bd[i].rxaddr s
  refine ⟨fun hroom => ?_, fun hroom ho hd => ?_, fun hroom he => ?_⟩
  · rw [hstep, rxDone_without_room hr (by rw [henc]; exact hroom), henc, hn1]
    rfl
  · rw [hstep, rxDone_with_room hr (by rw [henc]; exact hroom), henc, storePacket_misaligned (by rw [hoff]; exact ho) hd,
      hoff]
    rfl
  · have hi1 : i.val < (enc.2.withSched cs).cfg.nEp := by rw [hn1]; exact hi
    obtain ⟨t1, pad, hst, hok⟩ := storePacket_even (setup := setup) (d := d) hi1 (by rw [hoff]; exact he)
    rw [hoff, hn2] at hst
    have hdone := (rxDone_with_room hr (by rw [henc]; exact hroom)).trans ((congrArg _ (congrArg Prod.snd henc)).trans hok)
    refine ⟨_, hstep.trans (congrArg toOutcome hdone), ?_, fun k hk hb => ?_, fun hn hb => ?_, hst.other⟩
    · simp only [hst.faults, hn1, eprAfterRx_eq, State.withSched]
      simp [wordsOf, drawn, State.withFresh]
    · simpa [hk] using hst.byte k hk hb
    · rw [hst.pad hn hb]
      rfl

/-! ## Transmission -/

section
variable {i : Fin 16} {s : State}

theorem txDone_misaligned (hr : txReady i s = true) (ho : (readCell s.bd[i].txaddr s).1.toNat % 2 = 1)
    (hn : ((readCell s.bd[i].txcount (readCell s.bd[i].txaddr s).2).1.extractLsb' 0 10).toNat ≠ 0) :
    txDone i s = .error (.misaligned (readCell s.bd[i].txcount (readCell s.bd[i].txaddr s).2).2.faults) := by
  simp only [txDone, hr, if_true, readWords_misaligned ho (wordsOf_eq_zero.not.2 hn)]

/-- The words of the packet are read; then it is put out and the register is written (R224). -/
theorem txDone_sent (hr : txReady i s = true) {bs : List Byte} {s1 : State}
    (h : readWords (readCell s.bd[i].txaddr s).1.toNat
      (wordsOf ((readCell s.bd[i].txcount (readCell s.bd[i].txaddr s).2).1.extractLsb' 0 10).toNat)
      (readCell s.bd[i].txcount (readCell s.bd[i].txaddr s).2).2 = .ok (bs, s1)) :
    txDone i s = .ok { s with
      epr := s.epr.set i (eprAfterTx s.epr[i])
      faults := s1.faults
      fresh := s1.fresh
      out := s.out ++ [.sent i (s.epr[i].getLsbD 6)
        (bs.take ((readCell s.bd[i].txcount (readCell s.bd[i].txaddr s).2).1.extractLsb' 0 10).toNat)] } := by
  have hi : i.val < s.cfg.nEp := by simp [txReady] at hr; tauto
  obtain ⟨n, hn⟩ := readCell_readCell_next s.bd[i].txaddr s.bd[i].txcount s
  have hs1 := (readWords_wordsRead h).frame
  rw [hn] at hs1
  simp only [txDone, hr, if_true, h]
  generalize s1.faults = f at hs1 ⊢
  generalize s1.fresh = k at hs1 ⊢
  subst hs1
  rw [setEpr_eq]
  simp only [put, State.withFresh, State.withFaults, State.withOut, State.withEprAll, hi, if_true]

end

/-- The register after a transmission, in the one form of R224. -/
theorem eprAfterTx_eq (v : Word) : eprAfterTx v = ((v ^^^ 0x0040) &&& 0xFFCF) ||| 0x00A0 := by
  rw [eprAfterTx, BitVec.or_assoc]
  rfl

/-- Settles O48: the words of the packet are read as they are written, or with what is missing recorded. -/
theorem txDoneResult : Obligations.TxDoneResult := by
  unfold Obligations.TxDoneResult
  intro s i cs hwf hs hres hsusp haddr hi hstat htype after
  have hr : txReady i (s.withSched cs) = true := by
    simp only [txReady, busActive, Bool.and_eq_true, Bool.not_eq_true', decide_eq_true_iff]
    exact ⟨⟨⟨⟨⟨hres, hsusp⟩, haddr⟩, hi⟩, hstat⟩, htype⟩
  have hstep : step s = toOutcome (txDone i (s.withSched cs)) := step_bus hwf hs
  have hafter : after = eprAfterTx s.epr[i] := (eprAfterTx_eq _).symm
  clear_value after
  subst hafter
  refine ⟨fun off cnt p hoff hcnt he hp hb hread => ?_, ?_⟩
  · have hw : readWords off.toNat (wordsOf (cnt.extractLsb' 0 10).toNat) (s.withSched cs) = .ok (p, s.withSched cs) :=
      readWords_written he (by rw [wordsOf, ← hp]; exact hb) hp (fun k hk => hread k (by rw [hp]; exact hk))
    have hsent := txDone_sent hr (bs := p) (s1 := s.withSched cs)
    simp only [State.withSched_bd, hoff, hcnt, readCell_some] at hsent
    rw [hstep, hsent hw]
    rfl
  · intro off cnt n words
    have hoff : readCell (s.withSched cs).bd[i].txaddr (s.withSched cs) = (off.1, off.2.withSched cs) :=
      readCell_withSched _ _ _
    have hcnt : readCell (s.withSched cs).bd[i].txcount (off.2.withSched cs) = (cnt.1, cnt.2.withSched cs) :=
      readCell_withSched _ _ _
    obtain ⟨m, hm⟩ : ∃ m, cnt.2 = _ := readCell_readCell_next s.bd[i].txaddr s.bd[i].txcount s
    refine ⟨fun ho hn => ?_, fun he => ?_⟩
    · have hbad := txDone_misaligned hr
      rw [hoff, hcnt] at hbad
      rw [hstep, hbad ho hn]
      rfl
    · have hwords : words = 0 ↔ n = 0 := wordsOf_eq_zero
      obtain ⟨bs, s1, h1, hw⟩ := readWords_wordsRead_of_even (he.imp_right hwords.2) (cnt.2.withSched cs)
      have hsent := txDone_sent hr (bs := bs) (s1 := s1)
      rw [hoff, hcnt] at hsent
      refine ⟨_, bs.take n, hstep.trans (congrArg toOutcome (hsent h1)), ?_, rfl, fun k b hk hb hread => ?_, ?_, ?_⟩
      · rw [List.length_take, hw.length]
        exact Nat.min_eq_left (by omega)
      · rw [List.getElem?_take_of_lt hk]
        rw [hm] at hw
        exact hw.written k b (by omega) hb hread
      · rw [hm] at hw
        simpa [or_assoc] using hw.unspecified
      · rw [hm] at hw
        simpa [hwords] using hw.overflow

end Sys2Proof.Machine
end

section
/-! Settles O30 and O32. `READ_EP` and `WRITE_EP` with nothing coming between their accesses, on any state: the copy loop
is a read of the packet's words, the stores are a write of them (R201, R205). -/

namespace Sys2Proof.Machine

/-! ## The outputs, the schedule and the arena -/

/-- A state with other outputs and another schedule ahead: what no read of the arena looks at. -/
def State.withPorts (s : State) (o : List Output) (cs : List Choice) : State := (s.withOut o).withSched cs

@[simp] theorem State.withPorts_cfg (s : State) (o : List Output) (cs : List Choice) :
    (s.withPorts o cs).cfg = s.cfg := rfl

@[simp] theorem State.later_cfg (s : State) (n : Nat) : (s.later n).cfg = s.cfg := rfl

theorem State.withPorts_self (s : State) : s.withPorts s.out s.sched = s := rfl

theorem readCell_withPorts {w : Nat} (c : Option (BitVec w)) (s : State) (o : List Output) (cs : List Choice) :
    readCell c (s.withPorts o cs) = ((readCell c s).1, (readCell c s).2.withPorts o cs) := by cases c <;> rfl

theorem memRead_withPorts (off : Nat) (s : State) (o : List Output) (cs : List Choice) :
    memRead off (s.withPorts o cs) = (memRead off s).map fun p => (p.1, p.2.withPorts o cs) := by
  rcases Nat.mod_two_eq_zero_or_one off with he | ho
  · rcases Nat.lt_or_ge s.cfg.pmaSize (off + 2) with hb | hb
    · rw [memRead_outside he hb, memRead_outside (s := s.withPorts o cs) he hb]
      rfl
    · rw [memRead_inside he hb, memRead_inside (s := s.withPorts o cs) he hb]
      have hlo : readByte off (s.withPorts o cs) = ((readByte off s).1, (readByte off s).2.withPorts o cs) :=
        readCell_withPorts _ _ _ _
      rw [hlo, readCell_withPorts]
      rfl
  · rw [memRead_misaligned ho, memRead_misaligned ho]
    rfl

theorem readWords_withPorts (off m : Nat) (s : State) (o : List Output) (cs : List Choice) :
    readWords off m (s.withPorts o cs) = (readWords off m s).map fun p => (p.1, p.2.withPorts o cs) := by
  induction m generalizing off s with
  | zero => rfl
  | succ m ih =>
    simp only [readWords, memRead_withPorts]
    cases memRead off s with
    | error r => rfl
    | ok p =>
      simp only [Except.map, ih]
      cases readWords (off + 2) m p.2 <;> rfl

theorem boundary_withPorts {s : State} (hc : s.calm 1) (t : State) (o : List Output) :
    boundary (t.withPorts o s.sched) = .ok (t.withPorts o (s.sched.drop 1), false) :=
  boundary_calm (s := t.withPorts o s.sched) hc

/-! ## `READ_EP` -/

/-- A word of the copy loop is put out, its lower byte first. -/
theorem loadWord_eq (k : Nat) (l : Locals) (s : State) :
    loadWord k l s = (memRead (l.off.toNat + 2 * k) s).map fun p =>
      p.2.withPorts (s.out ++ [p.1.extractLsb' 0 8, p.1.extractLsb' 8 8].map .dout) s.sched := by
  unfold loadWord
  cases h : memRead (l.off.toNat + 2 * k) s with
  | error r => rfl
  | ok p =>
    obtain ⟨w, t⟩ := p
    have hout : t.out = s.out := by rw [memRead_fields h]; rfl
    have hsched : t.sched = s.sched := by rw [memRead_fields h]; rfl
    simp [Except.map, put, State.withPorts, State.withOut, State.withSched, hout, hsched]

/-- Undisturbed, the copy loop is a read of its words, put out in order; one boundary is used up between each two. -/
theorem loadLoop_calm {m k : Nat} {l : Locals} {s : State} (hc : s.calm (m - 1)) :
    loadLoop l m k s = (readWords (l.off.toNat + 2 * k) m s).map fun p =>
      .whole l (p.2.withPorts (s.out ++ p.1.map .dout) (s.sched.drop (m - 1))) := by
  induction m generalizing k s with
  | zero => simp [loadLoop, readWords, Except.map, State.withPorts_self]
  | succ m ih =>
    simp only [loadLoop, readWords, loadWord_eq]
    cases h : memRead (l.off.toNat + 2 * k) s with
    | error r => rfl
    | ok p =>
      obtain ⟨w, t⟩ := p
      cases m with
      | zero => simp [Except.map, readWords]
      | succ m =>
        have hc1 : s.calm (1 + m) := Nat.add_comm m 1 ▸ hc
        have hnext : ∀ o, loadLoop l (m + 1) (k + 1) (t.withPorts o (s.sched.drop 1)) =
            (readWords (l.off.toNat + 2 * k + 2) (m + 1) t).map fun p =>
              .whole l (p.2.withPorts (o ++ p.1.map .dout) (s.sched.drop (m + 1))) := by
          intro o
          rw [ih (s := t.withPorts o (s.sched.drop 1)) (State.calm_later hc1), readWords_withPorts,
            show l.off.toNat + 2 * (k + 1) = l.off.toNat + 2 * k + 2 by omega]
          cases readWords (l.off.toNat + 2 * k + 2) (m + 1) t with
          | error r => rfl
          | ok q => simp [Except.map, State.withPorts, State.withOut, State.withSched]
        simp only [Except.map, boundary_withPorts (State.calm_of_le hc1 (by omega)), hnext, Nat.succ_ne_zero, if_false]
        cases readWords (l.off.toNat + 2 * k + 2) (m + 1) t with
        | error r => rfl
        | ok q => simp

theorem performAll_load_calm {l : Locals} {s : State} (hc : s.calm (wordsOf l.len.toNat - 1)) :
    performAll (.load 0) l s = (readWords l.off.toNat (wordsOf l.len.toNat) s).map fun p =>
      .whole l (p.2.withPorts (s.out ++ p.1.map .dout) (s.sched.drop (wordsOf l.len.toNat - 1))) :=
  loadLoop_calm (k := 0) hc

/-- Writing the status `VALID` from the value read sets the selected field, and no other bit changes (R131, R134). -/
theorem eprAfterWrite_statusWrite_selField (v : Word) (d : Dir) :
    eprAfterWrite v (statusWrite v (selField d) (selField d)) = v ||| selField d := by
  cases d
  all_goals
    refine BitVec.eq_of_getLsbD_eq fun k hk => ?_
    simp only [eprAfterWrite, statusWrite, selField, MASK, BitVec.getLsbD_or, BitVec.getLsbD_and, BitVec.getLsbD_xor]
    interval_cases k <;> simp

/-- The read and the write that arm an endpoint (R134, R201, R205). -/
theorem performList_arm {i : Fin 16} {s : State} (hi : i.val < s.cfg.nEp) (d : Dir) (l : Locals) :
    performList (setStatusAccesses ⟨d, i⟩ (selField d)) l s =
      .ok ({ l with val := s.epr[i] }, s.withEprAll (s.epr.set i (s.epr[i] ||| selField d))) := by
  simp only [setStatusAccesses, performList, perform, writeEpr_eq, hi, if_true, eprAfterWrite_statusWrite_selField]

/-- The result word of a byte count (R90). -/
theorem resultWord_count (n : BitVec 10) : resultWord (n.setWidth 16) = n.setWidth 32 :=
  BitVec.eq_of_toNat_eq (by simp only [resultWord, BitVec.toNat_setWidth]; omega)

theorem rxStat_valid : rxStat .valid = selField .OUT := rfl

theorem txStat_valid : txStat .valid = selField .IN := rfl

theorem run_arm_calm {i : Fin 16} {s : State} (hi : i.val < s.cfg.nEp) (hc : s.calm 1) (d : Dir) (l : Locals) :
    run (setStatusAccesses ⟨d, i⟩ (selField d)) l .count s = .ok { s with
      epr := s.epr.set i (s.epr[i] ||| selField d)
      sched := s.sched.drop 1
      out := s.out ++ [.result (l.len.setWidth 32)] } := by
  rw [run_calm (as := setStatusAccesses ⟨d, i⟩ (selField d)) (by simp [Access.isLoad])
    (by simp [Access.isEmit]) (by simp [Access.isEmit]) (by simp [setStatusAccesses, Access.isEmit]) hc,
    performList_arm hi, ← resultWord_count]
  rfl

/-- The two field reads of `READ_EP`, undisturbed. -/
theorem run_readAccesses_calm {i : Fin 16} {s : State} (hc : s.calm 2) :
    run (readAccesses i) {} .count s =
      run (.load 0 :: setStatusAccesses ⟨.OUT, i⟩ (rxStat .valid))
        { off := (readCell s.bd[i].rxaddr s).1
          len := (readCell s.bd[i].rxlen (readCell s.bd[i].rxaddr s).2).1 } .count
        ((readCell s.bd[i].rxlen (readCell s.bd[i].rxaddr s).2).2.later 2) := by
  obtain ⟨n, hn⟩ := readCell_next s.bd[i].rxaddr s
  obtain ⟨m, hm⟩ := readCell_next s.bd[i].rxlen (readCell s.bd[i].rxaddr s).2
  have h1 : (readCell s.bd[i].rxaddr s).2.calm 1 := State.calm_congr (by rw [hn]) (State.calm_of_le hc (by omega))
  have h2 : (readCell s.bd[i].rxlen (readCell s.bd[i].rxaddr s).2).2.calm (1 + 1) :=
    State.calm_congr (by rw [hm, hn]) hc
  have hlen : readCell ((readCell s.bd[i].rxaddr s).2.later 1).bd[i].rxlen ((readCell s.bd[i].rxaddr s).2.later 1) =
      ((readCell s.bd[i].rxlen (readCell s.bd[i].rxaddr s).2).1,
        (readCell s.bd[i].rxlen (readCell s.bd[i].rxaddr s).2).2.later 1) := by
    rw [State.later, readCell_withSched, State.withSched_bd, readCell_bd, hm]
    rfl
  have hread : performAll (.readRxlen i) { off := (readCell s.bd[i].rxaddr s).1 }
      ((readCell s.bd[i].rxaddr s).2.later 1) =
        .ok (.whole { off := (readCell s.bd[i].rxaddr s).1
                      len := (readCell s.bd[i].rxlen (readCell s.bd[i].rxaddr s).2).1 }
          ((readCell s.bd[i].rxlen (readCell s.bd[i].rxaddr s).2).2.later 1)) := by
    simp only [performAll, perform, hlen]
  rw [readAccesses, List.cons_append, List.cons_append, List.cons_append, List.nil_append, run_cons_calm rfl rfl h1,
    run_cons_calm rfl hread (State.calm_later h2), State.later_later]

/-- The copy loop and the arming of `READ_EP`, undisturbed (R201). -/
theorem run_load_calm {i : Fin 16} {l : Locals} {s t : State} {bs : List Byte} (hi : i.val < s.cfg.nEp)
    (hc : s.calm (max 1 (wordsOf l.len.toNat) + 1)) (h : readWords l.off.toNat (wordsOf l.len.toNat) s = .ok (bs, t)) :
    run (.load 0 :: setStatusAccesses ⟨.OUT, i⟩ (rxStat .valid)) l .count s = .ok { s with
      epr := s.epr.set i (s.epr[i] ||| 0x3000)
      faults := t.faults
      fresh := t.fresh
      sched := s.sched.drop (max 1 (wordsOf l.len.toNat) + 1)
      out := s.out ++ bs.map .dout ++ [.result (l.len.setWidth 32)] } := by
  have hloop := performAll_load_calm (l := l) (s := s) (State.calm_of_le hc (by omega))
  rw [h] at hloop
  have hdrop : wordsOf l.len.toNat - 1 + 2 = max 1 (wordsOf l.len.toNat) + 1 := by omega
  generalize wordsOf l.len.toNat - 1 = k at hloop hdrop
  rw [← hdrop] at hc ⊢
  have h1 : (t.withPorts (s.out ++ bs.map .dout) (s.sched.drop k)).calm (1 + 1) :=
    State.calm_congr (t := t.withPorts (s.out ++ bs.map .dout) (s.sched.drop k)) rfl (State.calm_later hc)
  have ht := (readWords_wordsRead h).frame
  generalize t.faults = f at ht ⊢
  generalize t.fresh = n at ht ⊢
  subst ht
  rw [rxStat_valid, setStatusAccesses, run_cons_calm rfl hloop (State.calm_of_le h1 (by omega)), ← setStatusAccesses]
  refine (run_arm_calm (by simpa using hi) (State.calm_later h1) .OUT l).trans ?_
  simp [State.later, State.withSched, State.withPorts, State.withOut, State.withFresh, State.withFaults, selField]

/-- The copy loop refuses an odd offset at its first word (R64). -/
theorem run_load_misaligned {as : List Access} {l : Locals} {fin : Finish} {s : State} (ho : l.off.toNat % 2 = 1)
    (hl : wordsOf l.len.toNat ≠ 0) : run (.load 0 :: as) l fin s = .error (.misaligned s.faults) := by
  obtain ⟨m, hm⟩ := Nat.exists_eq_succ_of_ne_zero hl
  simp [run, performAll, hm, loadLoop, loadWord, memRead_misaligned ho]

theorem wordsOf_toNat_eq_zero {n : BitVec 10} : wordsOf n.toNat = 0 ↔ n = 0 := by
  rw [wordsOf_eq_zero, BitVec.toNat_eq]
  rfl

/-- Settles O30: the two fields are read, then the words they name, and the endpoint is armed. -/
theorem readEpAlways : Obligations.ReadEpAlways := by
  unfold Obligations.ReadEpAlways
  intro s ep hi hc off len words
  have hexec : exec (.readEp ep) s = toOutcome (run (readAccesses ep.idx) {} .count s) := by
    simp only [exec, execReadEp, withEndpoint, hi, if_true, start]
  rw [run_readAccesses_calm (State.calm_of_le hc (by omega))] at hexec
  obtain ⟨n, hn⟩ : ∃ n, len.2 = _ := readCell_readCell_next s.bd[ep.idx].rxaddr s.bd[ep.idx].rxlen s
  have hwords : words = 0 ↔ len.1 = 0 := wordsOf_toNat_eq_zero
  have hle : words ≤ 512 := by have := len.1.isLt; omega
  have hcl : (len.2.later 2).calm 514 := State.calm_later (m := 2) (n := 514) (State.calm_congr (by rw [hn]) hc)
  have hi2 : ep.idx.val < (len.2.later 2).cfg.nEp := by rw [State.later_cfg, hn]; exact hi
  refine ⟨fun ho hl => ?_, fun he => ?_⟩
  · have hbad := run_load_misaligned (as := setStatusAccesses ⟨.OUT, ep.idx⟩ (rxStat .valid))
      (l := { off := off.1, len := len.1 }) (fin := .count) (s := len.2.later 2) ho (hwords.not.2 hl)
    exact hexec.trans (congrArg toOutcome hbad)
  · obtain ⟨bs, t, h1, hw⟩ := readWords_wordsRead_of_even (he.imp_right hwords.2) (len.2.later 2)
    have hrun := run_load_calm (l := { off := off.1, len := len.1 }) hi2
      (State.calm_of_le hcl (show max 1 words + 1 ≤ 514 by omega)) h1
    rw [hn] at hw
    refine ⟨_, bs, hexec.trans (congrArg toOutcome hrun), hw.length, ?_, fun k b hb hk => hw.written k b hk hb, ?_, ?_⟩
    · have hdrop : 2 + (max 1 (wordsOf len.1.toNat) + 1) = 3 + max 1 words := by
        rw [show wordsOf len.1.toNat = words from rfl]
        omega
      rw [hn]
      simp [State.later, State.withSched, hdrop]
    · simpa [State.later, or_assoc] using hw.unspecified
    · simpa [State.later, hwords] using hw.overflow

/-! ## `WRITE_EP` -/

/-- The stores of a packet are a write of its words (R205). -/
theorem performList_stores (f : Nat → Word) (l : Locals) (k m : Nat) (s : State) :
    performList ((List.range' k m).map fun j => .store j (f j)) l s =
      (writeWords (l.off.toNat + 2 * k) ((List.range' k m).map f) s).map fun t => (l, t) := by
  induction m generalizing k s with
  | zero => rfl
  | succ m ih =>
    simp only [List.range'_succ, List.map_cons, performList, perform, writeWords]
    cases memWrite (l.off.toNat + 2 * k) (f k) s with
    | error r => rfl
    | ok t => exact ih (k + 1) t

theorem performList_storeAccesses (n : Nat) (data : Nat → Byte) (pad : Byte) (l : Locals) (s : State) :
    performList (storeAccesses n data pad) l s =
      (writeWords l.off.toNat (packetWords n data pad) s).map fun t => (l, t) := by
  rw [storeAccesses, packetWords, List.range_eq_range']
  exact performList_stores _ l 0 _ s

theorem performList_append (as bs : List Access) (l : Locals) (s : State) :
    performList (as ++ bs) l s = (performList as l s).bind fun p => performList bs p.1 p.2 := by
  induction as generalizing l s with
  | nil => rfl
  | cons a as ih =>
    simp only [List.cons_append, performList]
    cases perform a l s with
    | error r => rfl
    | ok p => exact ih p.1 p.2

theorem storeAccesses_length (n : Nat) (data : Nat → Byte) (pad : Byte) :
    (storeAccesses n data pad).length = wordsOf n := by simp [storeAccesses]

theorem writeAccesses_length (i : Fin 16) (n : Nat) (data : Nat → Byte) (pad : Byte) :
    (writeAccesses i n data pad).length = wordsOf n + 4 := by
  simp [writeAccesses, storeAccesses_length, setStatusAccesses]

/-- Undisturbed, `WRITE_EP` is its accesses in order (R205). -/
theorem run_writeAccesses_calm {i : Fin 16} {n : Nat} {data : Nat → Byte} {pad : Byte} {l : Locals} {s : State}
    (hc : s.calm (wordsOf n + 3)) :
    run (writeAccesses i n data pad) l .count s =
      (performList (writeAccesses i n data pad) l s).map fun p => finish .count p.1 (p.2.later (wordsOf n + 3)) := by
  have hn : ∀ a ∈ writeAccesses i n data pad, a.isEmit = false := by simp [Access.isEmit]
  have hlen : (writeAccesses i n data pad).length - 1 = wordsOf n + 3 := by rw [writeAccesses_length]; rfl
  rw [run_calm (by simp [Access.isLoad]) ?_ ?_ ?_ (by rw [hlen]; exact hc), hlen]
  · rintro ⟨a, ha, he⟩
    exact absurd he (by simp [hn a ha])
  · intro a ha he
    exact absurd he (by simp [hn a ha])
  · rw [List.countP_eq_zero.2 (by simpa using hn)]
    omega

section
variable {i : Fin 16} {n : Nat} {data : Nat → Byte} {pad : Byte} {l : Locals} {s : State}

theorem performList_writeAccesses_misaligned (ho : (readCell s.bd[i].txaddr s).1.toNat % 2 = 1) (hn : n ≠ 0) :
    performList (writeAccesses i n data pad) l s = .error (.misaligned (readCell s.bd[i].txaddr s).2.faults) := by
  have hw : packetWords n data pad ≠ [] := packetWords_eq_nil.not.2 hn
  rw [writeAccesses, performList_append]
  simp only [performList, perform, performList_storeAccesses, writeWords_misaligned ho hw]
  rfl

/-- The accesses of `WRITE_EP`: the packet stored, its length recorded, the endpoint armed (R205). -/
theorem performList_writeAccesses_even (hi : i.val < s.cfg.nEp)
    (he : (readCell s.bd[i].txaddr s).1.toNat % 2 = 0 ∨ n = 0) :
    ∃ t1 v, PacketStored (readCell s.bd[i].txaddr s).1.toNat n data pad (readCell s.bd[i].txaddr s).2 t1 ∧
      performList (writeAccesses i n data pad) l s =
        .ok ({ l with off := (readCell s.bd[i].txaddr s).1, val := v }, { s with
          pma := t1.pma
          bd := s.bd.set i { s.bd[i] with txcount := some (BitVec.ofNat 16 n) }
          epr := s.epr.set i (s.epr[i] ||| 0x0030)
          faults := t1.faults
          fresh := t1.fresh }) := by
  obtain ⟨t1, h1, hst⟩ := writeWords_packetStored he data pad (readCell s.bd[i].txaddr s).2
  obtain ⟨k, hk⟩ := readCell_next s.bd[i].txaddr s
  have hfirst : performList (.readTxaddr i :: storeAccesses n data pad) l s =
      .ok ({ l with off := (readCell s.bd[i].txaddr s).1 }, t1) := by
    simp only [performList, perform, performList_storeAccesses, h1]
    rfl
  have ht1 := hst.frame
  rw [hk] at ht1
  rw [writeAccesses, performList_append, hfirst]
  simp only [Except.bind, performList, perform]
  refine ⟨t1, s.epr[i], hst, ?_⟩
  generalize t1.pma = m at ht1 ⊢
  generalize t1.faults = f at ht1 ⊢
  subst ht1
  rw [setBd_eq, txStat_valid, performList_arm (by exact hi)]
  simp [State.withPma, State.withFaults, State.withBdAll, State.withEprAll, hi, selField]

end

/-- Settles O32: the offset is read, the packet stored by its words, and the endpoint armed. -/
theorem writeEpAlways : Obligations.WriteEpAlways := by
  unfold Obligations.WriteEpAlways
  intro s ep n hi hc off words
  have hle : words ≤ 512 := by have := n.isLt; omega
  have hexec : exec (.writeEp ep n) s =
      toOutcome (run (writeAccesses ep.idx n.toNat (dinByte s) s.cfg.padByte) { len := n } .count (takeDin n.toNat s)) := by
    simp only [exec, execWriteEp, withEndpoint, hi, if_true, start]
  rw [run_writeAccesses_calm (s := takeDin n.toNat s) (State.calm_of_le hc (show words + 3 ≤ 515 by omega))] at hexec
  obtain ⟨k, hk⟩ : ∃ k, off.2 = _ := readCell_next s.bd[ep.idx].txaddr (takeDin n.toNat s)
  have hn : n.toNat = 0 ↔ n = 0 := by
    rw [BitVec.toNat_eq]
    rfl
  refine ⟨fun ho h0 => ?_, fun he => ?_⟩
  · have hbad := performList_writeAccesses_misaligned (s := takeDin n.toNat s) (data := dinByte s) (pad := s.cfg.padByte)
      (l := { len := n }) ho (hn.not.2 h0)
    rw [hexec, hbad]
    rfl
  · obtain ⟨t1, v, hst, hok⟩ := performList_writeAccesses_even (s := takeDin n.toNat s) (data := dinByte s)
      (pad := s.cfg.padByte) (l := { len := n }) hi (he.imp_right hn.2)
    rw [hok] at hexec
    have hst : PacketStored off.1.toNat n.toNat (dinByte s) s.cfg.padByte off.2 t1 := hst
    rw [hk] at hst
    have hbytes : ∀ j, j < n.toNat → off.1.toNat + 2 * (j / 2) + 2 ≤ s.cfg.pmaSize →
        (t1.pma.read (off.1.toNat + j)).isSome = true ∧
        ∀ b, s.din[j]? = some b → t1.pma.read (off.1.toNat + j) = some b := by
      intro j hj hb
      have hbyte := hst.byte j hj hb
      refine ⟨by rw [hbyte]; rfl, fun b hd => ?_⟩
      rw [hbyte, dinByte, List.getD_eq_getElem?_getD, hd, Option.getD_some]
    refine ⟨_, hexec, ?_, hbytes, hst.pad, hst.other⟩
    have hwords : wordsOf n.toNat = words := rfl
    simp [finish, put, resultWord_count, hst.faults, State.later, State.withSched, State.withOut, takeDin, hwords, hn]

end Sys2Proof.Machine
end

section
/-! Settles O2, O3, O4 and O1. Command words and instructions, both ways, row by row of the opcode table (R83 to R88, R97),
the snapshots (R94), and R95 on the fields of a word. -/

namespace Sys2Proof

/-! ## The fields of a word (R83) -/

theorem append_inj_iff {m n : Nat} {a c : BitVec m} {b d : BitVec n} : a ++ b = c ++ d ↔ a = c ∧ b = d := by
  refine ⟨fun h => ⟨?_, ?_⟩, fun ⟨h1, h2⟩ => h1 ▸ h2 ▸ rfl⟩
  · simpa only [BitVec.extractLsb'_append_eq_left] using congrArg (BitVec.extractLsb' n m) h
  · simpa only [BitVec.extractLsb'_append_eq_right] using congrArg (BitVec.extractLsb' 0 n) h

theorem exists_append {m n : Nat} (v : BitVec (m + n)) : ∃ (hi : BitVec m) (lo : BitVec n), v = hi ++ lo :=
  ⟨_, _, BitVec.extractLsb'_append_extractLsb'.symm⟩

/-- A mask over two fields is one over each. -/
theorem append_and_eq_zero_iff {m n : Nat} {a p : BitVec m} {b q : BitVec n} :
    (a ++ b) &&& (p ++ q) = 0#(m + n) ↔ a &&& p = 0#m ∧ b &&& q = 0#n := by
  rw [BitVec.and_append, ← BitVec.zero_append_zero, append_inj_iff]

/-- A field under zeros has no bit where they are. -/
theorem zero_append_and {m n : Nat} (v : BitVec n) : (0#m ++ v) &&& (BitVec.allOnes m ++ 0#n) = 0#(m + n) :=
  append_and_eq_zero_iff.2 ⟨BitVec.zero_and, BitVec.and_zero⟩

/-- A field whose upper bits are 0 is its lower bits under zeros. -/
theorem zero_append_extractLsb' {m n : Nat} {v : BitVec (m + n)} (h : v &&& (BitVec.allOnes m ++ 0#n) = 0#(m + n)) :
    0#m ++ v.extractLsb' 0 n = v := by
  obtain ⟨hi, lo, rfl⟩ := exists_append v
  rw [append_and_eq_zero_iff, BitVec.and_allOnes] at h
  rw [BitVec.extractLsb'_append_eq_right, h.1]

theorem extractLsb'_append_append {k m n : Nat} (a : BitVec k) (b : BitVec m) (v : BitVec n) :
    (a ++ (b ++ v)).extractLsb' 0 n = v := by
  rw [BitVec.extractLsb'_append_eq_of_add_le (by omega), BitVec.extractLsb'_append_eq_right]

theorem word_fields (w : BitVec 32) : w.extractLsb' 24 8 ++ w.extractLsb' 16 8 ++ w.extractLsb' 0 16 = w := by
  rw [BitVec.extractLsb'_append_extractLsb'_eq_extractLsb' (x := w) (start₁ := 16) (len₁ := 8) rfl]
  exact BitVec.extractLsb'_append_extractLsb' (w := 16) (len := 16) (x := w)

theorem extractLsb'_op (op ep : BitVec 8) (arg : Word) : (op ++ ep ++ arg).extractLsb' 24 8 = op :=
  Laws.FixedBits.opcode_cmdWord op ep arg

theorem extractLsb'_ep (op ep : BitVec 8) (arg : Word) : (op ++ ep ++ arg).extractLsb' 16 8 = ep := by
  rw [BitVec.extractLsb'_append_eq_of_le (by decide)]
  exact BitVec.extractLsb'_append_eq_right

theorem extractLsb'_arg (op ep : BitVec 8) (arg : Word) {k n : Nat} (h : k + n ≤ 16) :
    (op ++ ep ++ arg).extractLsb' k n = arg.extractLsb' k n :=
  BitVec.extractLsb'_append_eq_of_add_le h

theorem extractLsb'_idx (op ep : BitVec 8) (arg : Word) : (op ++ ep ++ arg).extractLsb' 16 4 = ep.extractLsb' 0 4 := by
  rw [BitVec.extractLsb'_append_eq_of_le (by decide), BitVec.extractLsb'_append_eq_of_add_le (by decide)]

theorem getLsbD_dir (op ep : BitVec 8) (arg : Word) : (op ++ ep ++ arg).getLsbD 23 = ep.getLsbD 7 := by
  simp only [BitVec.getLsbD_append, Nat.reduceLT, Nat.reduceSub, if_true, if_false]

/-! ## The codes of a field, both ways -/

theorem dirOf_dirBit (d : Dir) : dirOf ((dirBit d).getLsbD 0) = d := by cases d <;> rfl

theorem typeOf_typeField (t : EpType) : typeOf (typeField t) = t := by cases t <;> rfl

theorem typeField_typeOf : ∀ b, typeField (typeOf b) = b := by decide

theorem statusOf_statusCode (st : Status) : statusOf (statusCode st) = st := by cases st <;> rfl

theorem statusCode_statusOf : ∀ b, statusCode (statusOf b) = b := by decide

theorem epOf_fields (op ep : BitVec 8) (arg : Word) :
    epOf (op ++ ep ++ arg) = ⟨dirOf (ep.getLsbD 7), (ep.extractLsb' 0 4).toFin⟩ := by
  rw [epOf, getLsbD_dir, extractLsb'_idx]

theorem epOf_epByte (op : BitVec 8) (e : EpId) (arg : Word) : epOf (op ++ epByte e ++ arg) = e := by
  have hdir : (epByte e).getLsbD 7 = (dirBit e.dir).getLsbD 0 := by
    simp only [epByte, BitVec.getLsbD_append, Nat.reduceLT, Nat.reduceSub, if_false]
  have hidx : (epByte e).extractLsb' 0 4 = BitVec.ofFin e.idx := BitVec.extractLsb'_append_eq_right
  rw [epOf_fields, hdir, hidx, dirOf_dirBit]

/-- By evaluation on the 256 bytes. -/
theorem epByte_epOf {op ep : BitVec 8} {arg : Word} (h : ep &&& 0x70 = 0) : epByte (epOf (op ++ ep ++ arg)) = ep := by
  rw [epOf_fields]
  revert ep
  decide +kernel

theorem epByte_reserved : ∀ e : EpId, epByte e &&& 0x70 = 0 := by
  rintro ⟨d, i⟩
  cases d <;> revert i <;> decide

/-! ## The arguments of several fields (R86, R88) -/

theorem configArg_reserved (t : BitVec 2) (mps : BitVec 11) : (0#3 ++ t ++ mps) &&& 0xE000 = 0 :=
  append_and_eq_zero_iff.2 ⟨zero_append_and (m := 3) t, BitVec.and_zero⟩

theorem configArg_type (t : BitVec 2) (mps : BitVec 11) : (0#3 ++ t ++ mps).extractLsb' 11 2 = t := by
  rw [BitVec.extractLsb'_append_eq_of_le (by decide)]
  exact BitVec.extractLsb'_append_eq_right

/-- The argument of `CONFIG_EP` in its fields (R88). -/
theorem configArg_fields {arg : Word} (h : arg &&& 0xE000 = 0) :
    0#3 ++ arg.extractLsb' 11 2 ++ arg.extractLsb' 0 11 = arg := by
  obtain ⟨hi, mps, rfl⟩ := exists_append (m := 5) (n := 11) arg
  obtain ⟨z, t, rfl⟩ := exists_append (m := 3) (n := 2) hi
  have h : (z ++ t ++ mps) &&& (7#3 ++ 0#2 ++ 0#11) = 0#(3 + 2 + 11) := h
  obtain ⟨⟨hz, -⟩, -⟩ := by simpa only [append_and_eq_zero_iff] using h
  obtain rfl : z = 0#3 := BitVec.and_allOnes.symm.trans hz
  rw [configArg_type, BitVec.extractLsb'_append_eq_right]

theorem statusArg_reserved : ∀ rx tx : BitVec 2, (0#2 ++ rx ++ 0#6 ++ tx ++ 0#4) &&& 0xCFCF = 0 := by decide

theorem statusArg_rx : ∀ rx tx : BitVec 2, (0#2 ++ rx ++ 0#6 ++ tx ++ 0#4).extractLsb' 12 2 = rx := by decide

theorem statusArg_tx : ∀ rx tx : BitVec 2, (0#2 ++ rx ++ 0#6 ++ tx ++ 0#4).extractLsb' 4 2 = tx := by decide

/-- The argument of `SET_STATUS` in its fields (R86). -/
theorem statusArg_fields {arg : Word} (h : arg &&& 0xCFCF = 0) :
    0#2 ++ arg.extractLsb' 12 2 ++ 0#6 ++ arg.extractLsb' 4 2 ++ 0#4 = arg := by
  obtain ⟨v, z4, rfl⟩ := exists_append (m := 12) (n := 4) arg
  obtain ⟨v, tx, rfl⟩ := exists_append (m := 10) (n := 2) v
  obtain ⟨v, z6, rfl⟩ := exists_append (m := 4) (n := 6) v
  obtain ⟨z2, rx, rfl⟩ := exists_append (m := 2) (n := 2) v
  have h : (z2 ++ rx ++ z6 ++ tx ++ z4) &&& (3#2 ++ 0#2 ++ 0x3F#6 ++ 0#2 ++ 0xF#4) = 0#(2 + 2 + 6 + 2 + 4) := h
  obtain ⟨⟨⟨⟨h2, -⟩, h6⟩, -⟩, h4⟩ := by simpa only [append_and_eq_zero_iff] using h
  obtain rfl : z2 = 0#2 := BitVec.and_allOnes.symm.trans h2
  obtain rfl : z4 = 0#4 := BitVec.and_allOnes.symm.trans h4
  obtain rfl : z6 = 0#6 := BitVec.and_allOnes.symm.trans h6
  exact congrArg₂ (fun rx tx => 0#2 ++ rx ++ 0#6 ++ tx ++ 0#4) (statusArg_rx rx tx) (statusArg_tx rx tx)

/-! ## The rows of the table -/

/-- The opcode of a row (R85). -/
def CmdRow.op (r : CmdRow) : BitVec 8 := r.bits.extractLsb' 24 8

/-- The bits of the `EP` field a row wants to be 0 (R84, R95). -/
def CmdRow.epMask (r : CmdRow) : BitVec 8 := r.mask.extractLsb' 16 8

/-- The bits of the `ARG` field a row wants to be 0 (R86 to R88, R95). -/
def CmdRow.argMask (r : CmdRow) : Word := r.mask.extractLsb' 0 16

/-- A row tests the whole opcode, and otherwise only that bits are 0. -/
theorem cmdRows_masks : ∀ r ∈ cmdRows, r.bits = r.op ++ 0#8 ++ 0#16 ∧ r.mask = 0xFF#8 ++ r.epMask ++ r.argMask := by
  decide

/-- No two rows have the same opcode (R85). -/
theorem cmdRows_op_nodup : (cmdRows.map CmdRow.op).Nodup := by decide

section
variable {r : CmdRow} (hr : r ∈ cmdRows)
include hr

/-- What a row tests, field by field (R97). -/
theorem row_matches_iff {w : BitVec 32} : w &&& r.mask = r.bits ↔
    w.extractLsb' 24 8 = r.op ∧ w.extractLsb' 16 8 &&& r.epMask = 0 ∧ w.extractLsb' 0 16 &&& r.argMask = 0 := by
  obtain ⟨hbits, hmask⟩ := cmdRows_masks r hr
  have hop : w.extractLsb' 24 8 &&& 0xFF#8 = w.extractLsb' 24 8 := BitVec.and_allOnes
  conv_lhs => rw [← word_fields w, hbits, hmask]
  rw [BitVec.and_append, BitVec.and_append, append_inj_iff, append_inj_iff, hop, and_assoc]
  rfl

/-- The rows are disjoint, so the row that matches is the one found (R97). -/
theorem cmdRow_of_matches {w : BitVec 32} (hm : w &&& r.mask = r.bits) : cmdRow w = some r := by
  cases hf : cmdRow w with
  | none => simpa [hm] using List.find?_eq_none.1 hf r hr
  | some q =>
    have hq := List.mem_of_find?_eq_some hf
    have hqm : w &&& q.mask = q.bits := by simpa using List.find?_some hf
    have hop := ((row_matches_iff hq).1 hqm).1.symm.trans ((row_matches_iff hr).1 hm).1
    rw [List.inj_on_of_nodup_map cmdRows_op_nodup hq hr hop]

theorem decode_of_matches {nEp : Nat} {w : BitVec 32} (hm : w &&& r.mask = r.bits) :
    decode nEp (.cmd w) = checkIndex nEp (r.build w) := by
  simp only [decode, cmdRow_of_matches hr hm]

end

/-- Everything the decoding of a command word can be (R97): the index check on its row, or no row. -/
theorem decode_cmd_cases (nEp : Nat) (w : BitVec 32) :
    (∃ r ∈ cmdRows, w &&& r.mask = r.bits ∧ decode nEp (.cmd w) = checkIndex nEp (r.build w)) ∨
    ((∀ r ∈ cmdRows, w &&& r.mask ≠ r.bits) ∧ decode nEp (.cmd w) = .error .badCommand) := by
  by_cases h : ∃ r ∈ cmdRows, w &&& r.mask = r.bits
  · obtain ⟨r, hr, hm⟩ := h
    exact .inl ⟨r, hr, hm, decode_of_matches hr hm⟩
  · push Not at h
    have hn : cmdRow w = none := List.find?_eq_none.2 fun r hr => by simpa using h r hr
    exact .inr ⟨h, by simp only [decode, hn]⟩

theorem checkIndex_ok {nEp : Nat} {i j : Instr} : checkIndex nEp i = .ok j ↔ i.wf nEp = true ∧ i = j := by
  unfold checkIndex
  split <;> simp_all

/-! ## Decoding what is encoded -/

/-- A word made of a row's opcode and of fields with its reserved bits 0 decodes by that row. -/
theorem decode_cmdWord {nEp : Nat} {i : Instr} {op ep : BitVec 8} {arg : Word} {r : CmdRow} (hr : r ∈ cmdRows)
    (hwf : i.wf nEp = true) (hop : op = r.op) (hep : ep &&& r.epMask = 0) (harg : arg &&& r.argMask = 0)
    (hb : r.build (op ++ ep ++ arg) = i) : decode nEp (cmdWord op ep arg) = .ok i := by
  have hm : (op ++ ep ++ arg) &&& r.mask = r.bits := by
    rw [row_matches_iff hr, extractLsb'_op, extractLsb'_ep, extractLsb'_arg _ _ _ (by decide), BitVec.extractLsb'_eq_self]
    exact ⟨hop, hep, harg⟩
  rw [cmdWord, decode_of_matches hr hm, hb, checkIndex_ok]
  exact ⟨hwf, rfl⟩

/-- Every command decodes to itself, by the row of its opcode (R85). -/
theorem decode_encode_command {nEp : Nat} {i : Instr} (hwf : i.wf nEp = true) (hs : Laws.FixedBits.snapBit i = none) :
    decode nEp (encode i) = .ok i := by
  have hrow (k : Fin 15) : cmdRows[k] ∈ cmdRows := List.getElem_mem _
  cases i with
  | init => exact decode_cmdWord (hrow 0) hwf rfl rfl rfl rfl
  | connect en =>
    refine decode_cmdWord (hrow 1) hwf rfl rfl (zero_append_and (m := 15) _) (congrArg Instr.connect ?_)
    cases en <;> rfl
  | setAddr a =>
    exact decode_cmdWord (hrow 2) hwf rfl rfl (zero_append_and (m := 9) a)
      (congrArg Instr.setAddr (extractLsb'_append_append ..))
  | configEp ep t mps =>
    refine decode_cmdWord (hrow 3) hwf rfl (epByte_reserved ep) (configArg_reserved _ mps) ?_
    change Instr.configEp (epOf _) (typeOf _) _ = _
    rw [epOf_epByte, extractLsb'_arg _ _ _ (by decide), configArg_type, typeOf_typeField, extractLsb'_append_append]
  | enableEp ep => exact decode_cmdWord (hrow 4) hwf rfl (epByte_reserved ep) rfl (congrArg _ (epOf_epByte ..))
  | disableEp ep => exact decode_cmdWord (hrow 5) hwf rfl (epByte_reserved ep) rfl (congrArg _ (epOf_epByte ..))
  | resetEp ep => exact decode_cmdWord (hrow 6) hwf rfl (epByte_reserved ep) rfl (congrArg _ (epOf_epByte ..))
  | stallEp ep => exact decode_cmdWord (hrow 7) hwf rfl (epByte_reserved ep) rfl (congrArg _ (epOf_epByte ..))
  | clrStall ep => exact decode_cmdWord (hrow 8) hwf rfl (epByte_reserved ep) rfl (congrArg _ (epOf_epByte ..))
  | readEp ep => exact decode_cmdWord (hrow 9) hwf rfl (epByte_reserved ep) rfl (congrArg _ (epOf_epByte ..))
  | writeEp ep n =>
    exact decode_cmdWord (hrow 10) hwf rfl (epByte_reserved ep) (zero_append_and (m := 6) n)
      (congrArg₂ Instr.writeEp (epOf_epByte ..) (extractLsb'_append_append ..))
  | getFrame => exact decode_cmdWord (hrow 11) hwf rfl rfl rfl rfl
  | setConfig c =>
    exact decode_cmdWord (hrow 12) hwf rfl rfl (zero_append_and (m := 8) c)
      (congrArg Instr.setConfig (extractLsb'_append_append ..))
  | alloc n =>
    exact decode_cmdWord (hrow 13) hwf rfl rfl BitVec.and_zero (congrArg Instr.alloc BitVec.extractLsb'_append_eq_right)
  | setStatus ep rx tx =>
    refine decode_cmdWord (hrow 14) hwf rfl (epByte_reserved ep) (statusArg_reserved ..) ?_
    change Instr.setStatus (epOf _) (statusOf _) (statusOf _) = _
    rw [epOf_epByte, extractLsb'_arg _ _ _ (by decide), extractLsb'_arg _ _ _ (by decide), statusArg_rx, statusArg_tx,
      statusOf_statusCode, statusOf_statusCode]
  | istrReset | istrSusp | istrWkup | istrSof | istrPmaovr | istrErr | istrCtr => cases hs

/-- The snapshot with no other bit than 15 decodes by the last row (R94). -/
theorem decode_encode_istrCtr (nEp : Nat) (i : Fin 16) :
    decode nEp (encode (.istrCtr i)) = checkIndex nEp (.istrCtr i) := by
  have hbit (k : Nat) (hk : 4 ≤ k) :
      (0x800#12 ++ (BitVec.ofFin i : BitVec 4)).getLsbD k = (0x800#12).getLsbD (k - 4) := by
    rw [BitVec.getLsbD_append, if_neg (by omega)]
  have hrow : snapRow (0x800#12 ++ (BitVec.ofFin i : BitVec 4)) = snapRows[6] := by
    simp only [snapRow, snapRows, List.find?, hbit 10 (by decide), hbit 11 (by decide), hbit 12 (by decide),
      hbit 9 (by decide), hbit 14 (by decide), hbit 13 (by decide), hbit 15 (by decide)]
    rfl
  have hidx : (0x800#12 ++ (BitVec.ofFin i : BitVec 4)).extractLsb' 0 4 = BitVec.ofFin i :=
    BitVec.extractLsb'_append_eq_right
  simp only [encode, decode, hrow]
  exact congrArg (fun v => checkIndex nEp (.istrCtr v.toFin)) hidx

/-- Settles O2: a command decodes by the row of its opcode, a snapshot by the row of its one bit. -/
theorem decodeEncode : Obligations.DecodeEncode := by
  unfold Obligations.DecodeEncode
  intro nEp i hwf
  cases i with
  | istrCtr i =>
    rw [decode_encode_istrCtr, checkIndex_ok]
    exact ⟨hwf, rfl⟩
  | istrReset | istrSusp | istrWkup | istrSof | istrPmaovr | istrErr => rfl
  | _ => exact decode_encode_command hwf rfl

/-! ## Encoding what is decoded -/

/-- The row's opcode over fields with its reserved bits 0 is the word of the instruction the row builds from it. -/
theorem encode_build : ∀ r ∈ cmdRows, ∀ (ep : BitVec 8) (arg : Word), ep &&& r.epMask = 0 → arg &&& r.argMask = 0 →
    encode (r.build (r.op ++ ep ++ arg)) = cmdWord r.op ep arg := by
  have hep {ep : BitVec 8} (h : ep &&& 0xFF = 0) : 0 = ep := h.symm.trans BitVec.and_allOnes
  have harg {arg : Word} (h : arg &&& 0xFFFF = 0) : 0 = arg := h.symm.trans BitVec.and_allOnes
  have hlow {m n : Nat} {a : BitVec 16} {arg : BitVec (m + n)} (h : arg &&& (BitVec.allOnes m ++ 0#n) = 0#(m + n)) :
      0#m ++ (a ++ arg).extractLsb' 0 n = arg := by
    rw [BitVec.extractLsb'_append_eq_of_add_le (by omega)]
    exact zero_append_extractLsb' h
  simp only [cmdRows, List.cons_append, List.nil_append, List.forall_mem_cons]
  refine ⟨?init, ?connect, ?setAddr, ?configEp, ?enableEp, ?disableEp, ?resetEp, ?stallEp, ?clrStall, ?readEp, ?writeEp,
    ?getFrame, ?setConfig, ?alloc, ?setStatus, nofun⟩ <;> intro ep arg he ha
  case init | getFrame => exact congrArg₂ (cmdWord _) (hep he) (harg ha)
  case enableEp | disableEp | resetEp | stallEp | clrStall | readEp =>
    exact congrArg₂ (cmdWord _) (epByte_epOf he) (harg ha)
  case setAddr => exact congrArg₂ (cmdWord _) (hep he) (hlow (m := 9) (n := 7) ha)
  case setConfig => exact congrArg₂ (cmdWord _) (hep he) (hlow (m := 8) (n := 8) ha)
  case alloc => exact congrArg₂ (cmdWord _) (hep he) BitVec.extractLsb'_append_eq_right
  case writeEp => exact congrArg₂ (cmdWord _) (epByte_epOf he) (hlow (m := 6) (n := 10) ha)
  case configEp =>
    refine congrArg₂ (cmdWord _) (epByte_epOf he) (Eq.trans ?_ (configArg_fields ha))
    rw [typeField_typeOf, extractLsb'_arg _ _ _ (by decide), extractLsb'_arg _ _ _ (by decide)]
  case setStatus =>
    refine congrArg₂ (cmdWord _) (epByte_epOf he) (Eq.trans ?_ (statusArg_fields ha))
    rw [statusCode_statusOf, statusCode_statusOf, extractLsb'_arg _ _ _ (by decide), extractLsb'_arg _ _ _ (by decide)]
  case connect =>
    refine congrArg₂ (cmdWord _) (hep he) (Eq.trans ?_ (hlow (m := 15) (n := 1) (a := 0x02#8 ++ ep) ha))
    rw [← BitVec.setWidth_eq_extractLsb' (by decide), BitVec.setWidth_one]
    rfl

/-- Settles O3: the row that decodes the word builds an instruction whose encoding has the row's opcode and the word's
fields. -/
theorem encodeDecode : Obligations.EncodeDecode := by
  unfold Obligations.EncodeDecode
  intro nEp w i h
  rcases decode_cmd_cases nEp w with ⟨r, hr, hm, hd⟩ | ⟨-, hd⟩
  · obtain ⟨hwf, rfl⟩ := checkIndex_ok.1 (hd.symm.trans h)
    obtain ⟨hop, hep, harg⟩ := (row_matches_iff hr).1 hm
    have henc := encode_build r hr _ _ hep harg
    rw [← hop, word_fields] at henc
    exact ⟨henc.trans (congrArg Code.cmd (word_fields w)), hwf⟩
  · cases hd.symm.trans h

/-! ## R95 on the fields of a word -/

/-- The masks of a row are the reserved bits R95 gives its opcode. -/
theorem cmdRows_reserved : ∀ r ∈ cmdRows, argReserved r.op = some r.argMask ∧
    (wordUsesEp r.op ∧ r.epMask = 0x70 ∨ ¬ wordUsesEp r.op ∧ r.epMask = 0xFF) := by
  unfold wordUsesEp
  decide

/-- An opcode that R95 does not reserve is one of the table's; by evaluation on the 256 opcodes. -/
theorem mem_ops_of_argReserved : ∀ op : BitVec 8, (argReserved op).isSome → op ∈ cmdRows.map CmdRow.op := by
  decide +kernel

/-- A word's fields are right exactly when a row of the table matches it (R95, R97). -/
theorem wordFieldsOk_iff {w : BitVec 32} : wordFieldsOk w ↔ ∃ r ∈ cmdRows, w &&& r.mask = r.bits := by
  constructor
  · rintro ⟨⟨m, hm, harg⟩, hep, hno⟩
    obtain ⟨r, hr, hop⟩ := List.mem_map.1 (mem_ops_of_argReserved _ (Option.isSome_of_eq_some hm))
    obtain ⟨hmask, huse⟩ := cmdRows_reserved r hr
    rw [← hop] at hm hep hno
    refine ⟨r, hr, (row_matches_iff hr).2 ⟨hop.symm, ?_, ?_⟩⟩
    · rcases huse with ⟨hu, he⟩ | ⟨hu, he⟩
      · rw [he, hep hu]
      · rw [hno hu]
        exact BitVec.zero_and
    · cases hm.symm.trans hmask
      exact harg
  · rintro ⟨r, hr, hm⟩
    obtain ⟨hop, hep, harg⟩ := (row_matches_iff hr).1 hm
    obtain ⟨hmask, huse⟩ := cmdRows_reserved r hr
    rw [wordFieldsOk, hop]
    refine ⟨⟨_, hmask, harg⟩, fun hu => ?_, fun hu => ?_⟩
    · rcases huse with ⟨-, he⟩ | ⟨hn, -⟩
      · rw [← he, hep]
      · exact absurd hu hn
    · rcases huse with ⟨hn, -⟩ | ⟨-, he⟩
      · exact absurd hn hu
      · rw [he] at hep
        exact BitVec.and_allOnes.symm.trans hep

/-- The instructions of the rows that use `EP` have its index, the others none (R85). -/
theorem build_epIndex (w : BitVec 32) : ∀ r ∈ cmdRows,
    wordUsesEp r.op ∧ (r.build w).epIndex = some (epOf w).idx ∨ ¬ wordUsesEp r.op ∧ (r.build w).epIndex = none := by
  simp [cmdRows, Instr.epIndex, wordUsesEp, CmdRow.op]

theorem build_wf_iff {nEp : Nat} {w : BitVec 32} {r : CmdRow} (hr : r ∈ cmdRows) (hm : w &&& r.mask = r.bits) :
    (r.build w).wf nEp = true ↔ (wordUsesEp (w.extractLsb' 24 8) → (w.extractLsb' 16 4).toNat < nEp) := by
  rw [((row_matches_iff hr).1 hm).1, Instr.wf]
  rcases build_epIndex w r hr with ⟨hu, hi⟩ | ⟨hu, hi⟩
  · simp only [hi, hu, decide_eq_true_eq, true_imp_iff]
    rfl
  · simp only [hi, hu, false_imp_iff]

theorem checkIndex_badEndpoint {nEp : Nat} {i : Instr} : checkIndex nEp i = .error .badEndpoint ↔ ¬ i.wf nEp = true := by
  unfold checkIndex
  split <;> simp_all

theorem checkIndex_ne_badCommand {nEp : Nat} {i : Instr} : checkIndex nEp i ≠ .error .badCommand := by
  unfold checkIndex
  split <;> nofun

/-- Settles O4: the fields are right exactly when a row matches, and then the index check decides. -/
theorem wellFormedWords : Obligations.WellFormedWords := by
  unfold Obligations.WellFormedWords
  intro nEp w
  rcases decode_cmd_cases nEp w with ⟨r, hr, hm, hd⟩ | ⟨hno, hd⟩
  · have hf : wordFieldsOk w := wordFieldsOk_iff.2 ⟨r, hr, hm⟩
    have hwf := build_wf_iff (nEp := nEp) hr hm
    rw [hd]
    refine ⟨?_, ?_, iff_of_false checkIndex_ne_badCommand (not_not.2 hf)⟩
    · simp only [checkIndex_ok, exists_and_left, exists_eq', and_true, hwf, hf, true_and]
    · simp only [checkIndex_badEndpoint, hwf, hf, true_and, Classical.not_imp, not_lt]
  · have hf : ¬ wordFieldsOk w := fun h =>
      let ⟨r, hr, hm⟩ := wordFieldsOk_iff.1 h
      hno r hr hm
    rw [hd]
    exact ⟨iff_of_false nofun fun h => hf h.1, iff_of_false nofun fun h => hf h.1, iff_of_true rfl hf⟩

/-- Settles O1, by evaluation. -/
theorem sampleWordsDecode : Obligations.SampleWordsDecode :=
  ⟨rfl, rfl, rfl, rfl, rfl, rfl, rfl, rfl, rfl, rfl⟩

end Sys2Proof
end

section
/-! Settles O6, O8 and O23. What a step serves in an event phase (R94, R180), and the refusals of a command, of an endpoint
index and of a configuration (R84, R95, R125, R245). -/

namespace Sys2Proof.Machine

theorem withEndpoint_absent {i : Fin 16} {s : State} {k : Host.Outcome State Fault Refusal} (h : s.cfg.nEp ≤ i.val) :
    withEndpoint i s k = .refused .badEndpoint :=
  if_neg (by omega)

/-- Settles O23: an instruction that uses an endpoint checks its index first, and `CONFIG_EP` then that it is not 0. -/
theorem endpointRefusals : Obligations.EndpointRefusals := by
  unfold Obligations.EndpointRefusals
  refine ⟨fun s i k hi hk => ?_, fun s d type mps h => ?_⟩
  · cases i <;> cases hi <;> exact withEndpoint_absent hk
  · simp only [exec, execConfigEp, withEndpoint, if_true]
    exact if_pos h

theorem issue_badCommand {r : Request} {s : State} (h : decode s.cfg.nEp (.cmd r.word) = .error .badCommand) :
    issue r s = .refused .badCommand := by
  simp only [issue, h]

theorem issue_badEndpoint {r : Request} {s : State} (h : decode s.cfg.nEp (.cmd r.word) = .error .badEndpoint) :
    issue r s = .refused .badEndpoint := by
  simp only [issue, h]

/-- In either context the current software agent presents its next command (R70, R80, R192). -/
theorem step_go_issue {s : State} {r : Request} {rs : List Request} {cs : List Choice} (hwf : s.cfg.wf = true)
    (hs : s.sched = .go :: cs)
    (hnext : (s.dph = .idle ∧ s.fgHeld = none ∧ s.fgCmds = r :: rs) ∨ (s.dph ≠ .idle ∧ s.cbCmds = r :: rs)) :
    ∃ u, u.cfg = s.cfg ∧ step s = issue r u := by
  rcases hnext with ⟨hd, hh, hc⟩ | ⟨hd, hc⟩
  · refine ⟨(s.withSched cs).withFgCmds rs, rfl, ?_⟩
    rw [step_go hwf hs, softwareTurn_of_idle (s := s.withSched cs) hd]
    exact foregroundTurn_command (s := s.withSched cs) hh hc
  · refine ⟨(s.withSched cs).withCbCmds rs, rfl, ?_⟩
    rw [step_go hwf hs, softwareTurn_of_ne_idle (s := s.withSched cs) hd]
    exact dispatcherTurn_command (s := s.withSched cs) hc

theorem step_badConfig {s : State} (h : s.cfg.wf ≠ true) : step s = .refused .badConfig := if_neg h

/-- Settles O8: the next command is presented, and what its word decodes to is O4; the configuration is tested before. -/
theorem stepRefusals : Obligations.StepRefusals := by
  unfold Obligations.StepRefusals
  refine ⟨fun s r rs cs hwf hs hnext => ?_, fun s hbad => step_badConfig fun hwf => ?_⟩
  · obtain ⟨u, hu, hstep⟩ := step_go_issue hwf hs hnext
    obtain ⟨-, hep, hcmd⟩ := wellFormedWords s.cfg.nEp r.word
    rw [← hu] at hep hcmd ⊢
    refine ⟨fun h => ?_, fun hf huse hidx => ?_⟩
    · rw [hstep, issue_badCommand (hcmd.2 h)]
    · rw [hstep, issue_badEndpoint (hep.2 ⟨hf, huse, hidx⟩)]
  · simp only [Config.wf, Bool.and_eq_true, Bool.or_eq_true, decide_eq_true_eq, beq_iff_eq] at hwf
    obtain ⟨⟨⟨⟨⟨⟨h1, h16⟩, heven⟩, h2⟩, hmax⟩, hmps⟩, hdbl⟩ := hwf
    rcases hbad with h | h
    · exact h hdbl
    · omega

theorem getLsbD_eventBit {v : Word} {e : Event} :
    v.getLsbD (eventBit e) = true ↔ v &&& BitVec.twoPow 16 (eventBit e) ≠ 0 := by
  have hne : BitVec.twoPow 16 (eventBit e) ≠ 0 := by cases e <;> decide
  rw [BitVec.and_twoPow]
  split
  · exact iff_of_true ‹_› hne
  · exact iff_of_false ‹_› (not_not.2 rfl)

/-- An event phase runs its service if the event's bit of the snapshot is set, else passes on (R94, R180). -/
theorem step_go_event {s : State} {cs : List Choice} {e : Event} (hwf : s.cfg.wf = true) (hd : s.dph = .ev e)
    (hc : s.cbCmds = []) (hh : s.dispHeld = none) (hs : s.sched = .go :: cs) :
    step s = if s.snap &&& BitVec.twoPow 16 (eventBit e) ≠ 0 then exec (eventInstr e) (s.withSched cs)
      else skipEvent e (s.withSched cs) := by
  rw [step_go hwf hs, softwareTurn_phase (s := s.withSched cs) (by simp [hd]) hc hh]
  simp only [phaseTurn, State.withSched_dph, hd]
  exact if_congr getLsbD_eventBit rfl rfl

/-- Without `ERROR_EVENT` the two error services are checks that serve nothing (R185, R186). -/
theorem exec_errorService {s : State} {e : Event} (he : e = .overrun ∨ e = .error) (h : ¬ s.cfg.errorEvent = true) :
    exec (eventInstr e) s = skipEvent e s := by
  rcases he with rfl | rfl <;> exact if_neg h

/-- So such a check asks for `ERROR_EVENT` as well as for the bit. -/
theorem errorService_ite {s : State} {e : Event} (he : e = .overrun ∨ e = .error) (p : Prop) [Decidable p] :
    (if p then exec (eventInstr e) s else skipEvent e s) =
      if s.cfg.errorEvent = true ∧ p then exec (eventInstr e) s else skipEvent e s := by
  by_cases hE : s.cfg.errorEvent = true
  · exact if_congr (and_iff_right hE).symm rfl rfl
  · rw [exec_errorService he hE, ite_self, ite_self]

/-- Settles O6: an event phase tests its bit, and the two error services test `ERROR_EVENT` themselves. -/
theorem stepRunsEventService : Obligations.StepRunsEventService := by
  unfold Obligations.StepRunsEventService
  intro s cs e hwf hd hc hh hs
  have hstep := step_go_event hwf hd hc hh hs
  cases e with
  | reset | suspend | wakeup | sof => exact hstep
  | overrun => exact hstep.trans (errorService_ite (.inl rfl) _)
  | error => exact hstep.trans (errorService_ite (.inr rfl) _)

end Sys2Proof.Machine
end

section
/-! Settles O16, O21 and O28. The allocator: sizes (R111), one `ALLOC` from any cursor (R112, R114, R115), and
successive ones from a written cursor (R116). -/

namespace Sys2Proof.Machine

/-! ## Sizes -/

theorem roundSize_of_le {n : Nat} (h : n ≤ 62) : roundSize n = 2 * ((n + 1) / 2) := if_pos h

theorem roundSize_of_lt {n : Nat} (h : 62 < n) : roundSize n = 32 * ((n + 31) / 32) := if_neg (by omega)

/-- An even size up to 62 is rounded already. -/
theorem roundSize_of_even {n : Nat} (h : n ≤ 62) (he : n % 2 = 0) : roundSize n = n := by
  rw [roundSize_of_le h]
  omega

/-- A multiple of 32 above 62 is rounded already. -/
theorem roundSize_of_block {n : Nat} (h : 62 < n) (hb : n % 32 = 0) : roundSize n = n := by
  rw [roundSize_of_lt h]
  omega

theorem roundSize_roundSize (n : Nat) : roundSize (roundSize n) = roundSize n := by
  rcases Nat.lt_or_ge 62 n with h | h
  · have hr := roundSize_of_lt h
    exact roundSize_of_block (by omega) (by omega)
  · have hr := roundSize_of_le h
    exact roundSize_of_even (by omega) (by omega)

/-- Settles O16: the two forms of a rounded size. -/
theorem roundSizeLaws : Obligations.RoundSizeLaws := by
  unfold Obligations.RoundSizeLaws
  refine ⟨fun n => rfl, fun n h => ?_, fun n h => ?_, roundSize_roundSize, roundSize_even, rfl⟩
  · rw [roundSize_of_le h]
    omega
  · rw [roundSize_of_lt h]
    omega

/-! ## One allocation -/

/-- The write of the cursor, with the fault it may record (R112, R115). -/
theorem advanceFba_next (off : Word) (n : Nat) (s : State) :
    advanceFba off n s = { s with
      fba := some (BitVec.ofNat 16 (off.toNat + roundSize n))
      faults := { s.faults with
        arenaOverflow := s.faults.arenaOverflow || decide (s.cfg.pmaSize < off.toNat + roundSize n) } } := by
  rw [advanceFba_eq]
  by_cases h : s.cfg.pmaSize < off.toNat + roundSize n <;>
    simp [h, FaultSet.add, State.withFaults, State.withFba]

/-- The two accesses of an allocation, from any cursor (R112, R244). -/
theorem performList_alloc (n : Nat) (l : Locals) (s : State) :
    performList (allocAccesses n) l s =
      .ok ({ l with off := (readCell s.fba s).1 }, { s with
        fba := some (BitVec.ofNat 16 ((readCell s.fba s).1.toNat + roundSize n))
        faults := {
          unspecifiedRead := s.faults.unspecifiedRead || s.fba.isNone
          arenaOverflow := s.faults.arenaOverflow ||
            decide (s.cfg.pmaSize < (readCell s.fba s).1.toNat + roundSize n) }
        fresh := (readCell s.fba s).2.fresh }) := by
  obtain ⟨k, hk⟩ := readCell_next s.fba s
  simp only [allocAccesses, performList, perform, advanceFba_next, hk]

/-- From a written cursor nothing is drawn and no unwritten read recorded. -/
theorem performList_alloc_written {off : Word} {s : State} (h : s.fba = some off) (n : Nat) (l : Locals) :
    performList (allocAccesses n) l s =
      .ok ({ l with off := off }, { s with
        fba := some (BitVec.ofNat 16 (off.toNat + roundSize n))
        faults := { s.faults with
          arenaOverflow := s.faults.arenaOverflow || decide (s.cfg.pmaSize < off.toNat + roundSize n) } }) := by
  rw [performList_alloc, h, readCell_some]
  simp

/-- `ALLOC`, undisturbed (R112, R114, R115). -/
theorem exec_alloc_calm {s : State} (hc : s.calm 1) (size : Word) :
    exec (.alloc size) s = .next { s with
      fba := some (BitVec.ofNat 16 ((readCell s.fba s).1.toNat + roundSize size.toNat))
      faults := {
        unspecifiedRead := s.faults.unspecifiedRead || s.fba.isNone
        arenaOverflow := s.faults.arenaOverflow ||
          decide (s.cfg.pmaSize < (readCell s.fba s).1.toNat + roundSize size.toNat) }
      fresh := (readCell s.fba s).2.fresh
      sched := s.sched.drop 1
      out := s.out ++ [.result ((readCell s.fba s).1.setWidth 32)] } := by
  have hrun := run_calm (as := allocAccesses size.toNat) (l := {}) (fin := .offset) (s := s)
    (by simp [allocAccesses, Access.isLoad]) (by simp [allocAccesses, Access.isEmit])
    (by simp [allocAccesses, Access.isEmit]) (by simp [allocAccesses, Access.isEmit]) hc
  simp only [exec, execAlloc, start, hrun, performList_alloc]
  rfl

/-- Settles O21, with the offset the read of the cursor gives. -/
theorem allocResult : Obligations.AllocResult := by
  unfold Obligations.AllocResult
  intro s size hc
  refine ⟨_, _, fun v hv => ?_, exec_alloc_calm hc size⟩
  rw [hv]
  exact ⟨rfl, rfl⟩

/-! ## Successive allocations -/

/-- The foreground agent alone: no schedule ahead, the dispatcher unable to start, and no command held. -/
structure State.ForegroundAlone (s : State) : Prop where
  wf : s.cfg.wf = true
  dph : s.dph = .idle
  irqEn : s.irqEn = false
  sched : s.sched = []
  fgHeld : s.fgHeld = none

/-- The foreground agent alone performs the command it presents next (R80). -/
theorem State.ForegroundAlone.step_command {s : State} (h : s.ForegroundAlone) {r : Request} {rs : List Request}
    {i : Instr} (hc : s.fgCmds = r :: rs) (hdec : decode s.cfg.nEp (.cmd r.word) = .ok i) :
    step s = exec i ((s.withFgCmds rs).withDin r.data) := by
  have hstart : canStart s = false := by simp [canStart, h.irqEn]
  simp only [step, h.wf, turn, h.sched, hstart, if_true, Bool.false_eq_true, if_false]
  rw [softwareTurn_of_idle h.dph, foregroundTurn_command h.fgHeld hc]
  exact issue_decoded (s := s.withFgCmds rs) hdec

/-- The word of `ALLOC size` decodes to it (R85). -/
theorem decode_alloc (nEp : Nat) (size : Word) :
    decode nEp (.cmd (0x10#8 ++ 0#8 ++ size)) = .ok (.alloc size) :=
  decode_encode_command (i := .alloc size) rfl rfl

/-- The state after an allocation at `off` that fits, with the commands `rs` still to come. -/
def State.allocated (off size : Word) (rs : List Request) (s : State) : State :=
  { s with
    fba := some (BitVec.ofNat 16 (off.toNat + roundSize size.toNat))
    din := []
    fgCmds := rs
    out := s.out ++ [.result (off.setWidth 32)] }

/-- One allocation that fits, as a step of the foreground agent alone (R112). -/
theorem State.ForegroundAlone.step_alloc {s : State} (h : s.ForegroundAlone) {off size : Word} {rs : List Request}
    (hf : s.fba = some off) (hc : s.fgCmds = ⟨0x10#8 ++ 0#8 ++ size, []⟩ :: rs)
    (hfit : off.toNat + roundSize size.toNat ≤ s.cfg.pmaSize) : step s = .next (s.allocated off size rs) := by
  rw [h.step_command hc (decode_alloc ..), exec_alloc_calm]
  · simp [State.allocated, State.withDin, State.withFgCmds, hf, readCell_some, h.sched, Nat.not_lt.2 hfit]
  · simp [State.calm, h.sched]

/-- The sum of the first `k` rounded sizes after `off`: where region `k` starts, laid end to end (R116). -/
def regionStart (off : Nat) (sizes : List Word) (k : Nat) : Nat :=
  off + ((sizes.map fun n => roundSize n.toNat).take k).sum

theorem regionStart_zero (off : Nat) (sizes : List Word) : regionStart off sizes 0 = off := rfl

/-- All the regions end where the sizes add up to. -/
theorem regionStart_length (off : Nat) (sizes : List Word) :
    regionStart off sizes sizes.length = off + (sizes.map fun n => roundSize n.toNat).sum := by
  rw [regionStart, List.take_of_length_le (by simp)]

theorem regionStart_cons_succ (off : Nat) (size : Word) (sizes : List Word) (k : Nat) :
    regionStart off (size :: sizes) (k + 1) = regionStart (off + roundSize size.toNat) sizes k := by
  simp [regionStart, Nat.add_assoc]

/-- Each region starts at the end of the one before. -/
theorem regionStart_succ (off : Nat) {sizes : List Word} {k : Nat} (hk : k < sizes.length) :
    regionStart off sizes (k + 1) = regionStart off sizes k + roundSize (sizes.getD k 0).toNat := by
  rw [regionStart, List.sum_take_succ _ _ (by simpa using hk), List.getElem_map, List.getD_eq_getElem _ _ hk,
    regionStart, Nat.add_assoc]

theorem regionStart_mono (off : Nat) (sizes : List Word) : Monotone (regionStart off sizes) := by
  refine monotone_nat_of_le_succ fun k => ?_
  rw [regionStart, regionStart, List.take_add_one, List.sum_append]
  omega

/-- The offsets of the regions, in the order of the commands. -/
def regionStarts (off : Nat) (sizes : List Word) : List Nat := (List.range sizes.length).map (regionStart off sizes)

theorem regionStarts_cons (off : Nat) (size : Word) (sizes : List Word) :
    regionStarts off (size :: sizes) = off :: regionStarts (off + roundSize size.toNat) sizes := by
  simp [regionStarts, List.range_succ_eq_map, regionStart_zero, regionStart_cons_succ, Function.comp_def]

theorem regionStarts_getD (off : Nat) {sizes : List Word} {k : Nat} (hk : k < sizes.length) :
    (regionStarts off sizes).getD k 0 = regionStart off sizes k := by
  simp [regionStarts, hk]

/-- A configuration within its constraints has an arena below 2^16 bytes (R9). -/
theorem pmaSize_lt_of_wf {c : Config} (h : c.wf = true) : c.pmaSize < 65536 := by
  simp only [Config.wf, Bool.and_eq_true, decide_eq_true_eq] at h
  omega

/-- The foreground agent alone runs its `ALLOC` commands, each a step (R112, R116). -/
theorem steps_allocs {sizes : List Word} {s : State} {off : Word} (h : s.ForegroundAlone) (hf : s.fba = some off)
    (hc : s.fgCmds = sizes.map fun n => ⟨0x10#8 ++ 0#8 ++ n, []⟩)
    (hfit : off.toNat + (sizes.map fun n => roundSize n.toNat).sum ≤ s.cfg.pmaSize) :
    ∃ t, steps sizes.length s = .next t ∧ t.faults = s.faults ∧
      t.out = s.out ++ (regionStarts off.toNat sizes).map fun o => .result (BitVec.ofNat 32 o) := by
  induction sizes generalizing s off with
  | nil => exact ⟨s, rfl, rfl, (List.append_nil _).symm⟩
  | cons size sizes ih =>
    rw [List.map_cons, List.sum_cons] at hfit
    have hlt := pmaSize_lt_of_wf h.wf
    have hstep := h.step_alloc hf hc (by omega)
    have hoff : (BitVec.ofNat 16 (off.toNat + roundSize size.toNat)).toNat = off.toNat + roundSize size.toNat := by
      rw [BitVec.toNat_ofNat, Nat.mod_eq_of_lt (by omega)]
    obtain ⟨t, hsteps, hfaults, hout⟩ := ih (s := s.allocated off size _) ⟨h.wf, h.dph, h.irqEn, h.sched, h.fgHeld⟩
      rfl rfl (by rw [hoff, Nat.add_assoc]; exact hfit)
    refine ⟨t, (steps_succ _ hstep).trans hsteps, hfaults, ?_⟩
    rw [hout, hoff, regionStarts_cons, List.map_cons, BitVec.ofNat_toNat]
    exact List.append_assoc ..

/-- Settles O28: the results are the starts of the regions, and a region ends where the next one starts. -/
theorem allocationsDisjoint : Obligations.AllocationsDisjoint := by
  unfold Obligations.AllocationsDisjoint
  intro s off sizes hwf hd hirq hs hh hf hc hfit
  obtain ⟨t, hsteps, hfaults, hout⟩ := steps_allocs ⟨hwf, hd, hirq, hs, hh⟩ hf hc hfit
  have hmono := regionStart_mono off.toNat sizes
  rw [← regionStart_length] at hfit
  refine ⟨t, regionStarts off.toNat sizes, hsteps, by simp [regionStarts], hout, hfaults, fun k hk => ?_,
    fun k hk => ?_, fun j k hjk hk => ?_⟩
  · have h0 := hmono (Nat.zero_le k)
    have hend := hmono (Nat.succ_le_of_lt hk)
    rw [regionStarts_getD _ hk, ← regionStart_succ _ hk]
    exact ⟨h0, hend.trans hfit⟩
  · rw [regionStarts_getD _ hk, regionStarts_getD _ (by omega), regionStart_succ _ (by omega)]
  · rw [regionStarts_getD _ hk, regionStarts_getD _ (by omega), ← regionStart_succ _ (by omega)]
    exact hmono hjk

end Sys2Proof.Machine
end

section
/-! Settles O34. An event service with nothing coming between and no command from its callback (R180), and the reset
service, whose handler lays the buffers of endpoint 0 with the allocator (R159 to R165, R181). -/

namespace Sys2Proof.Machine

/-! ## An event service -/

/-- Accesses without a callback leave the configuration, the schedule and the callback inputs as they are. -/
theorem performList_frame {as : List Access} {l l1 : Locals} {s t : State} (hn : ∀ a ∈ as, a.isEmit = false)
    (h : performList as l s = .ok (l1, t)) :
    t.cfg = s.cfg ∧ t.sched = s.sched ∧ t.cbCmds = s.cbCmds ∧ t.cbScript = s.cbScript := by
  induction as generalizing l s with
  | nil => cases h; exact ⟨rfl, rfl, rfl, rfl⟩
  | cons a as ih =>
    rw [performList] at h
    split at h
    · cases h
    · rename_i hp
      have hf := perform_frame hp
      have ha := hn a List.mem_cons_self
      obtain ⟨hcfg, hsched, hcmds, hscript⟩ := ih (fun x hx => hn x (List.mem_cons_of_mem _ hx)) h
      exact ⟨hcfg.trans hf.cfg, hsched.trans hf.sched, hcmds.trans (hf.cbCmds ha), hscript.trans (hf.cbScript ha)⟩

/-- The write of a service clears exactly its event's bit (R29, R180). -/
theorem writeIstr_eventClear (e : Event) (s : State) :
    writeIstr (eventClear e) s = s.withIstr (s.istr &&& eventClear e) := by
  have : eventClear e ||| 0x81FF = eventClear e := by cases e <;> rfl
  rw [writeIstr_eq, this]

/-- The end of a service, with no command from its callback: the callback if its flag is set, and the event's bit. -/
theorem performList_closing {e : Event} {flag : Bool} {ev : BusEvent} {l : Locals} {s : State} (hcb : s.cbCmds = [])
    (hsil : flag = true → s.silent (busHandler s.cfg ev)) :
    performList ((if flag then [.emitBus ev] else []) ++ [.writeIstr (eventClear e)]) l s = .ok (l, { s with
      istr := s.istr &&& eventClear e
      cbScript := if flag then s.scriptAfter (busHandler s.cfg ev) else s.cbScript
      out := s.out ++ if flag then [.busCall ev] else [] }) := by
  cases flag with
  | false => simp [performList, perform, writeIstr_eventClear, State.withIstr]
  | true =>
    simp [performList, perform, writeIstr_eventClear, emit_silent (hsil rfl) hcb, put_eq, State.withIstr, State.withOut,
      State.withCbScript]

/-- An event service, undisturbed and with no command from its callback, whose handler's accesses lead to `t` (R180). -/
theorem eventService_calm {e : Event} {handler : List Access} {flag : Bool} {ev : BusEvent} {l : Locals} {s t : State}
    (hl : ∀ a ∈ handler, a.isLoad = false) (hn : ∀ a ∈ handler, a.isEmit = false)
    (hh : performList handler {} s = .ok (l, t)) (hcb : s.cbCmds = [])
    (hsil : flag = true → s.silent (busHandler s.cfg ev)) (hc : s.calm (handler.length + 1)) :
    eventService e handler flag ev s = .next { t with
      istr := t.istr &&& eventClear e
      dph := nextPhase e
      sched := s.sched.drop (handler.length + if flag then 1 else 0)
      cbScript := if flag then s.scriptAfter (busHandler s.cfg ev) else s.cbScript
      out := t.out ++ if flag then [.busCall ev] else [] } := by
  obtain ⟨hcfg, hsched, hcmds, hscript⟩ := performList_frame hn hh
  have hclose : performList ((if flag then [.emitBus ev] else []) ++ [.writeIstr (eventClear e)]) l t = _ :=
    performList_closing (hcmds.trans hcb) (by simpa only [State.silent, hcfg, hscript] using hsil)
  have hcalls : handler.countP Access.isEmit = 0 := List.countP_eq_zero.2 fun a ha => by simp [hn a ha]
  have hrun := run_calm (as := handler ++ ((if flag then [.emitBus ev] else []) ++ [.writeIstr (eventClear e)]))
    (l := {}) (fin := .phase (nextPhase e)) (s := s) ?_ (fun _ => hcb) ?_ ?_ ?_
  · rw [performList_append, hh, Except.bind, hclose] at hrun
    rw [eventService, start, List.append_assoc, hrun]
    cases flag <;>
      simp [Except.map, toOutcome, finish, State.later, State.withSched, State.withDph, hsched, hcfg, hscript,
        State.scriptAfter]
  · simpa [or_imp, forall_and, Access.isLoad] using hl
  · intro a ha he
    obtain ha | ⟨hf, rfl⟩ | rfl : a ∈ handler ∨ (flag = true ∧ a = .emitBus ev) ∨ a = .writeIstr (eventClear e) := by
      simpa using ha
    · simp [hn a ha] at he
    · exact hsil hf
    · cases he
  · rw [List.countP_append, hcalls]
    cases flag <;> simp [List.countP_cons, Access.isEmit]
  · refine State.calm_of_le hc ?_
    cases flag <;> simp

/-! ## The reset service -/

/-- Every named bit of `ResetMask` is stored (R25, R160). -/
theorem cntrAfterWrite_resetMask (c : Config) : cntrAfterWrite (resetMask c) = resetMask c := by
  have hflag (p : Bool) {m : Word} (hm : m &&& 0xFE0D = m) :
      (if p then m else 0) &&& 0xFE0D = if p then m else 0 := by
    cases p
    · exact BitVec.zero_and
    · exact hm
  have hbase : (0x8400 : Word) &&& 0xFE0D = 0x8400 := rfl
  simp only [cntrAfterWrite, resetMask, BitVec.and_or_distrib_right, hbase, hflag _ (m := 0x0800) rfl,
    hflag _ (m := 0x1000) rfl, hflag _ (m := 0x6000) rfl, hflag _ (m := 0x0200) rfl]

/-- The register of endpoint 0 after the reset handler's write and `SET_STATUS` (R162, R131). -/
theorem eprAfterWrite_0x8280 (v : Word) : eprAfterWrite v 0x8280#16 ||| selField .OUT = (v &&& 0xC8F0) ||| 0x3200 := by
  refine BitVec.eq_of_getLsbD_eq fun k hk => ?_
  simp only [eprAfterWrite, selField, BitVec.getLsbD_or, BitVec.getLsbD_and, BitVec.getLsbD_xor]
  interval_cases k <;> simp

/-- The sizes endpoint 0 may have are rounded already (R10). -/
theorem roundSize_mps0 {c : Config} (h : c.wf = true) : roundSize c.mps0 = c.mps0 ∧ c.mps0 ≤ 64 := by
  simp only [Config.wf, Bool.and_eq_true, Bool.or_eq_true, beq_iff_eq] at h
  obtain ⟨⟨-, ((hm | hm) | hm) | hm⟩, -⟩ := h <;> rw [hm] <;> decide

theorem nEp_pos_of_wf {c : Config} (h : c.wf = true) : 0 < c.nEp := by
  simp only [Config.wf, Bool.and_eq_true, decide_eq_true_eq] at h
  omega

/-- The record of endpoint 0 once its buffers are laid: transmit at 0, receive at `MPS0` (R161). -/
def BufDesc.withEp0Buffers (c : Config) (d : BufDesc) : BufDesc :=
  { d with txaddr := some 0, rxaddr := some (BitVec.ofNat 16 c.mps0), rxenc := some (rxEnc c.mps0), rxlen := none }

/-- The buffers of endpoint 0, end to end from offset 0 (R161). -/
theorem performList_ep0Buffers {s : State} (hwf : s.cfg.wf = true) (l : Locals) :
    performList (ep0Buffers s.cfg) l s = .ok ({ l with off := BitVec.ofNat 16 s.cfg.mps0 }, { s with
      bd := s.bd.set 0 (s.bd[0].withEp0Buffers s.cfg)
      fba := some (BitVec.ofNat 16 (2 * s.cfg.mps0))
      faults := { s.faults with
        arenaOverflow := s.faults.arenaOverflow || decide (s.cfg.pmaSize < 2 * s.cfg.mps0) } }) := by
  obtain ⟨hround, hle⟩ := roundSize_mps0 hwf
  have hn := nEp_pos_of_wf hwf
  have hoff : (BitVec.ofNat 16 s.cfg.mps0).toNat = s.cfg.mps0 := by
    rw [BitVec.toNat_ofNat, Nat.mod_eq_of_lt (by omega)]
  have hpast : (decide (s.cfg.pmaSize < s.cfg.mps0) || decide (s.cfg.pmaSize < s.cfg.mps0 + s.cfg.mps0)) =
      decide (s.cfg.pmaSize < s.cfg.mps0 + s.cfg.mps0) := by
    rw [← Bool.decide_or]
    exact decide_eq_decide.2 (by omega)
  have htx : performList (.zeroFba :: allocAccesses s.cfg.mps0) l s = _ :=
    performList_alloc_written (s := s.withFba (some 0)) rfl s.cfg.mps0 l
  rw [ep0Buffers, performList_append, performList_append, htx]
  simp only [Except.bind, performList, perform, setBd_eq]
  rw [performList_alloc_written (off := BitVec.ofNat 16 s.cfg.mps0) (by simp [hround])]
  simp [BufDesc.withEp0Buffers, hn, hround, hoff, State.withFba, State.withBdAll, Bool.or_assoc, hpast, Nat.two_mul]

/-- The accesses of the reset handler, in order (R159 to R165). -/
theorem performList_resetHandler {s : State} (hwf : s.cfg.wf = true) :
    performList (resetHandler s.cfg) {} s =
      .ok ({ off := BitVec.ofNat 16 s.cfg.mps0, val := eprAfterWrite s.epr[0] 0x8280 }, { s with
        cntr := resetMask s.cfg
        daddr := 0x0080
        epr := s.epr.set 0 ((s.epr[0] &&& 0xC8F0) ||| 0x3200)
        bd := (Vector.replicate 16 {}).set 0 (s.bd[0].withEp0Buffers s.cfg)
        fba := some (BitVec.ofNat 16 (2 * s.cfg.mps0))
        faults := { s.faults with arenaOverflow := s.faults.arenaOverflow || decide (s.cfg.pmaSize < 2 * s.cfg.mps0) }
        conn := .defaultAddress
        suspended := false }) := by
  have hn := nEp_pos_of_wf hwf
  have hfirst : performList (.writeCntr (resetMask s.cfg) :: ep0Buffers s.cfg) {} s = _ :=
    performList_ep0Buffers (s := writeCntr (resetMask s.cfg) s) hwf {}
  rw [resetHandler, performList_append, performList_append, performList_append, hfirst]
  simp only [Except.bind, performList, perform, writeEpr_eq, rxStat_valid]
  rw [performList_arm (by exact hn)]
  simp [hn, writeCntr, cntrAfterWrite_resetMask, unwriteOthers, writeDaddr_eq, eprAfterWrite_0x8280,
    State.withCntr, State.withBdAll, State.withEprAll, State.withDaddr, State.withConn, State.withSuspended]

/-- Settles O34: the reset handler's accesses, and the end that every event service has. -/
theorem resetServiceResult : Obligations.ResetServiceResult := by
  unfold Obligations.ResetServiceResult
  intro s hwf hc hcb hsil
  have hdrop : (resetHandler s.cfg).length + (if s.cfg.resetEvent then 1 else 0) =
      if s.cfg.resetEvent then 15 else 14 := by
    split <;> rfl
  have h := eventService_calm (e := .reset) (ev := .reset) (flag := s.cfg.resetEvent)
    (by simp [resetHandler, ep0Buffers, allocAccesses, setStatusAccesses, Access.isLoad])
    (by simp [resetHandler, ep0Buffers, allocAccesses, setStatusAccesses, Access.isEmit])
    (performList_resetHandler hwf) hcb hsil hc
  rw [hdrop] at h
  exact h

end Sys2Proof.Machine
end

section
/-! Settles O17. The receive-count word of a size and the capacity read out of a word, the one the inverse of the other on
every size a receive buffer can have (R111, R121, R122). -/

namespace Sys2Proof.Machine

/-! ## The word of a size -/

/-- The form for a size up to 62 (R121). -/
theorem toNat_rxEnc_of_le {sz : Nat} (h : sz ≤ 62) : (rxEnc sz).toNat = sz / 2 * 512 := by
  rw [rxEnc, if_pos h, BitVec.toNat_shiftLeft, BitVec.toNat_ofNat, Nat.shiftLeft_eq]
  omega

/-- The form in blocks of 32 bytes (R121): bit 15 lies above the block count. -/
theorem toNat_rxEnc_of_lt {sz : Nat} (h : 62 < sz) (hsz : sz ≤ 2048) :
    (rxEnc sz).toNat = (sz / 32 - 1) * 32 + 0x8000 := by
  have hblocks : (BitVec.ofNat 16 (sz / 32 - 1) <<< 5).toNat = (sz / 32 - 1) * 32 := by
    rw [BitVec.toNat_shiftLeft, BitVec.toNat_ofNat, Nat.shiftLeft_eq]
    omega
  have hdisjoint := Nat.two_pow_add_eq_or_of_lt (i := 15) (b := (sz / 32 - 1) * 32) (by omega) 1
  rw [rxEnc, if_neg (by omega), BitVec.toNat_or, hblocks, Nat.or_comm]
  exact hdisjoint.symm.trans (Nat.add_comm ..)

/-! ## The capacity of a word -/

section
variable {w : Word}

/-- The three cases of R122, by bit 15 and the low field it selects. -/
theorem rxCap_of_bytes (h15 : w.getLsbD 15 = false) (h : w.extractLsb' 0 9 = 0) :
    rxCap w = some (2 * (w.extractLsb' 9 6).toNat) := by
  simp only [rxCap, h15, Bool.false_eq_true, if_false, h, if_true]

theorem rxCap_of_blocks (h15 : w.getLsbD 15 = true) (h : w.extractLsb' 0 5 = 0) :
    rxCap w = some (32 * ((w.extractLsb' 5 10).toNat + 1)) := by
  simp only [rxCap, h15, if_true, h]

theorem rxCap_eq_none
    (h : (w.getLsbD 15 = false ∧ w.extractLsb' 0 9 ≠ 0) ∨ (w.getLsbD 15 = true ∧ w.extractLsb' 0 5 ≠ 0)) :
    rxCap w = none := by
  obtain ⟨h15, h⟩ | ⟨h15, h⟩ := h
  · simp only [rxCap, h15, Bool.false_eq_true, if_false, h]
  · simp only [rxCap, h15, if_true, h, if_false]

/-- A word with a count of byte pairs in its upper seven bits (R122). -/
theorem rxCap_of_toNat_bytes {n : Nat} (hn : n < 64) (h : w.toNat = n * 512) : rxCap w = some (2 * n) := by
  have hcount : (w.extractLsb' 9 6).toNat = n := by
    rw [BitVec.extractLsb'_toNat, h, Nat.shiftRight_eq_div_pow]
    omega
  rw [rxCap_of_bytes, hcount]
  · rw [BitVec.getLsbD, h]
    exact Nat.testBit_lt_two_pow (by omega)
  · refine BitVec.eq_of_toNat_eq ?_
    rw [BitVec.extractLsb'_toNat, h, Nat.shiftRight_zero]
    exact Nat.mul_mod_left ..

/-- A word with bit 15 and a count of blocks less one below it (R122). -/
theorem rxCap_of_toNat_blocks {n : Nat} (hn : n < 1024) (h : w.toNat = n * 32 + 0x8000) :
    rxCap w = some (32 * (n + 1)) := by
  have hcount : (w.extractLsb' 5 10).toNat = n := by
    rw [BitVec.extractLsb'_toNat, h, Nat.shiftRight_eq_div_pow]
    omega
  rw [rxCap_of_blocks, hcount]
  · rw [BitVec.getLsbD, h, Nat.testBit_eq_decide_div_mod_eq, decide_eq_true_iff]
    omega
  · refine BitVec.eq_of_toNat_eq ?_
    rw [BitVec.extractLsb'_toNat, h, Nat.shiftRight_zero]
    show (n * 32 + 32768) % 2 ^ 5 = 0
    omega

end

/-! ## There and back -/

theorem rxCap_rxEnc_of_even {sz : Nat} (he : sz % 2 = 0) (h : sz ≤ 62) : rxCap (rxEnc sz) = some sz := by
  rw [rxCap_of_toNat_bytes (by omega) (toNat_rxEnc_of_le h), Nat.mul_div_cancel' (Nat.dvd_of_mod_eq_zero he)]

theorem rxCap_rxEnc_of_block {sz : Nat} (hb : sz % 32 = 0) (h : 62 < sz) (hsz : sz ≤ 2048) :
    rxCap (rxEnc sz) = some sz := by
  rw [rxCap_of_toNat_blocks (by omega) (toNat_rxEnc_of_lt h hsz), Option.some_inj]
  omega

/-- The buffer of any packet size a register can hold has the capacity it was allocated with (R111, R121, R122). -/
theorem rxCap_rxEnc_roundSize {n : Nat} (hn : n ≤ 2048) : rxCap (rxEnc (roundSize n)) = some (roundSize n) := by
  rcases Nat.lt_or_ge 62 n with h | h
  · have hr := roundSize_of_lt h
    exact rxCap_rxEnc_of_block (by omega) (by omega) (by omega)
  · have hr := roundSize_of_le h
    exact rxCap_rxEnc_of_even (by omega) (by omega)

/-- Settles O17, by the two forms of the word as numbers. -/
theorem rxCapOfRxEnc : Obligations.RxCapOfRxEnc := by
  unfold Obligations.RxCapOfRxEnc
  exact ⟨fun sz _ h => toNat_rxEnc_of_le h, fun sz _ h hsz => toNat_rxEnc_of_lt (by omega) hsz,
    fun w => rxCap_of_bytes, fun w => rxCap_of_blocks, fun w => rxCap_eq_none, fun sz => rxCap_rxEnc_of_even,
    fun sz hb h => rxCap_rxEnc_of_block hb (by omega), fun mps => rxCap_rxEnc_roundSize (by omega)⟩

end Sys2Proof.Machine
end

section
/-! Settles O22. `CONFIG_EP` with nothing coming between its accesses (R124): the allocation, the direction's half of the
record, and the one write of the register (R123, R131). -/

namespace Sys2Proof.Machine

/-- Undisturbed, a list of accesses without a copy loop and without a callback is its accesses in order. -/
theorem start_calm_of_no_callback {as : List Access} {l : Locals} {fin : Finish} {s : State}
    (hl : ∀ a ∈ as, a.isLoad = false) (hn : ∀ a ∈ as, a.isEmit = false) (hc : s.calm (as.length - 1)) :
    start as l fin s =
      toOutcome ((performList as l s).map fun p => finish fin p.1 (p.2.later (as.length - 1))) := by
  have hnot : ∀ a ∈ as, ¬ a.isEmit = true := fun a ha => by simp [hn a ha]
  rw [start, run_calm hl (fun ⟨a, ha, he⟩ => absurd he (hnot a ha)) (fun a ha he => absurd he (hnot a ha))
    ((List.countP_eq_zero.2 hnot).le.trans zero_le_one) hc]

theorem exec_configEp {ep : EpId} {s : State} (hi : ep.idx.val < s.cfg.nEp) (h0 : ep.idx ≠ 0) (t : EpType)
    (mps : BitVec 11) : exec (.configEp ep t mps) s = start (configAccesses ep t mps.toNat) {} .zero s := by
  simp only [exec, execConfigEp, withEndpoint, hi, h0, if_true, if_false]

/-- The record once the buffer at `off` for packets of `n` bytes is laid in a direction's half of it (R124). -/
def BufDesc.withBuffer (dir : Dir) (off : Word) (n : Nat) (d : BufDesc) : BufDesc :=
  match dir with
  | .IN  => { d with txaddr := some off }
  | .OUT => { d with rxaddr := some off, rxenc := some (rxEnc (roundSize n)), rxlen := none }

/-- The accesses that fill a direction's half of a record, from the offset read (R124). -/
theorem performList_bufferAccesses {ep : EpId} {s : State} (hi : ep.idx.val < s.cfg.nEp) (n : Nat) (l : Locals) :
    performList (bufferAccesses ep n) l s =
      .ok (l, s.withBdAll (s.bd.set ep.idx (s.bd[ep.idx].withBuffer ep.dir l.off n))) := by
  obtain ⟨_ | _, i⟩ := ep <;>
    simp [bufferAccesses, performList, perform, setBd_eq, BufDesc.withBuffer, hi, State.withBdAll]

/-- The word `CONFIG_EP` writes, class by class (R35, R124): the plain bits hold type, kind and address, the completion
bits are 1 and the toggle-class bits 0. -/
theorem configWord_classes (t : EpType) (i : Fin 16) :
    configWord t i &&& 0x070F = BitVec.ofNat 16 i.val ||| typeCode t ∧ configWord t i &&& 0x8080 = 0x8080 ∧
    configWord t i &&& 0x7070 = 0 := by
  cases t <;> revert i <;> decide

/-- Type, kind and address are written; every status, toggle, `SETUP` and completion bit is kept (R131). -/
theorem eprAfterWrite_configWord (v : Word) (t : EpType) (i : Fin 16) :
    eprAfterWrite v (configWord t i) = (v &&& 0xF8F0) ||| BitVec.ofNat 16 i.val ||| typeCode t := by
  obtain ⟨hplain, hctr, htoggle⟩ := configWord_classes t i
  have hxor : (v ^^^ configWord t i) &&& 0x7070 = v &&& 0x7070 := by
    refine BitVec.eq_of_getLsbD_eq fun k _ => ?_
    have hk : (configWord t i &&& 0x7070).getLsbD k = false := by rw [htoggle]; exact BitVec.getLsbD_zero
    rw [BitVec.getLsbD_and] at hk
    rw [BitVec.getLsbD_and, BitVec.getLsbD_xor, Bool.and_xor_distrib_right, hk, Bool.xor_false, BitVec.getLsbD_and]
  have hkept : v &&& 0xF8F0 = (v &&& 0x0800) ||| (v &&& 0x8080) ||| (v &&& 0x7070) := by
    rw [← BitVec.and_or_distrib_left, ← BitVec.and_or_distrib_left]
    rfl
  rw [eprAfterWrite, hplain, BitVec.and_assoc, hctr, hxor, hkept]
  ac_rfl

/-- The accesses of `CONFIG_EP`, in order (R124). -/
theorem performList_configAccesses {ep : EpId} {s : State} (hi : ep.idx.val < s.cfg.nEp) (t : EpType) (n : Nat) :
    performList (configAccesses ep t n) {} s =
      .ok ({ off := (readCell s.fba s).1 }, { s with
        fba := some (BitVec.ofNat 16 ((readCell s.fba s).1.toNat + roundSize n))
        faults := {
          unspecifiedRead := s.faults.unspecifiedRead || s.fba.isNone
          arenaOverflow := s.faults.arenaOverflow ||
            decide (s.cfg.pmaSize < (readCell s.fba s).1.toNat + roundSize n) }
        fresh := (readCell s.fba s).2.fresh
        bd := s.bd.set ep.idx (s.bd[ep.idx].withBuffer ep.dir (readCell s.fba s).1 n)
        epr := s.epr.set ep.idx ((s.epr[ep.idx] &&& 0xF8F0) ||| BitVec.ofNat 16 ep.idx.val ||| typeCode t) }) := by
  rw [configAccesses, performList_append, performList_append, performList_alloc]
  simp only [Except.bind]
  rw [performList_bufferAccesses (by exact hi)]
  simp [performList, perform, writeEpr_eq, eprAfterWrite_configWord, hi, State.withBdAll, State.withEprAll]

/-- One boundary between each two of the accesses: four for `IN`, five for `OUT` (R71, R124). -/
theorem length_configAccesses (ep : EpId) (t : EpType) (n : Nat) :
    (configAccesses ep t n).length - 1 = match ep.dir with | .IN => 3 | .OUT => 4 := by
  obtain ⟨_ | _, i⟩ := ep <;> rfl

/-- Settles O22, with the offset the read of the cursor gives. -/
theorem configEpResult : Obligations.ConfigEpResult := by
  unfold Obligations.ConfigEpResult
  intro s ep type mps h0 hi hc
  refine ⟨(readCell s.fba s).1, (readCell s.fba s).2.fresh, fun v hv => by rw [hv]; exact ⟨rfl, rfl⟩, ?_⟩
  rw [exec_configEp hi h0, start_calm_of_no_callback (by simp [Access.isLoad]) (by simp [Access.isEmit]),
    performList_configAccesses hi, length_configAccesses]
  · simp only [Except.map, toOutcome, finish, put_eq]
    obtain ⟨_ | _, i⟩ := ep <;> cases type <;> rfl
  · rw [length_configAccesses]
    exact State.calm_of_le hc (by split <;> omega)

end Sys2Proof.Machine
end

section
/-! Settles O46. A move of the bus agent whose precondition fails changes nothing (R216, R223, R224): each precondition by
name, then one lemma for a reception and one for a transmission. -/

namespace Sys2Proof.Machine

/-! ## The preconditions -/

theorem busSuspended_iff {s : State} :
    busSuspended s = true ↔ s.cntr.getLsbD 0 = false ∧ s.cntr.getLsbD 3 = true := by
  simp [busSuspended]

theorem busActive_iff {s : State} : busActive s = true ↔ s.cntr.getLsbD 0 = false ∧ s.cntr.getLsbD 3 = false := by
  simp [busActive]

theorem rxReady_iff {i : Fin 16} {setup : Bool} {n : Nat} {s : State} :
    rxReady i setup n s = true ↔ busActive s = true ∧ s.daddr.getLsbD 7 = true ∧ i.val < s.cfg.nEp ∧
      statRx s.epr[i] = 3 ∧ epType s.epr[i] ≠ 2 ∧ (setup = true → epType s.epr[i] = 1) ∧ n ≤ 1023 := by
  simp only [rxReady, Bool.and_eq_true, Bool.or_eq_true, Bool.not_eq_true', decide_eq_true_iff,
    and_assoc, imp_iff_not_or, Bool.not_eq_true]

theorem txReady_iff {i : Fin 16} {s : State} :
    txReady i s = true ↔ busActive s = true ∧ s.daddr.getLsbD 7 = true ∧ i.val < s.cfg.nEp ∧
      statTx s.epr[i] = 3 ∧ epType s.epr[i] ≠ 2 := by
  simp only [txReady, Bool.and_eq_true, decide_eq_true_iff, and_assoc]

/-! ## Moves passed over -/

theorem rxDone_of_not_ready {i : Fin 16} {setup : Bool} {d : List Byte} {s : State}
    (h : ¬ rxReady i setup d.length s = true) : rxDone i setup d s = .ok s := if_neg h

theorem txDone_of_not_ready {i : Fin 16} {s : State} (h : ¬ txReady i s = true) : txDone i s = .ok s := if_neg h

/-- With a written receive-count word that has no room for the packet (R122, R223). -/
theorem rxDone_written_without_room {i : Fin 16} {setup : Bool} {d : List Byte} {s : State} {enc : Word}
    (hr : rxReady i setup d.length s = true) (henc : s.bd[i].rxenc = some enc)
    (hroom : rxCap enc = none ∨ ∃ cap, rxCap enc = some cap ∧ cap < d.length) : rxDone i setup d s = .ok s := by
  have h := rxDone_without_room hr
  rw [henc, readCell_some] at h
  refine h ?_
  rintro ⟨cap, hcap, hle⟩
  obtain hnone | ⟨cap', hcap', hlt⟩ := hroom
  · cases hnone.symm.trans hcap
  · cases hcap'.symm.trans hcap
    exact absurd hle (Nat.not_le.2 hlt)

/-- The modes of `CNTR` that let a move through (R216). -/
theorem busMove_of_mode {m : BusMove} {s : State}
    (h : s.cntr.getLsbD 0 = true ∨ (s.cntr.getLsbD 3 = true ∧ m ≠ .busReset ∧ m ≠ .wakeup) ∨
      (s.cntr.getLsbD 3 = false ∧ m = .wakeup)) : busMove m s = .ok s := by
  have hactive (hr : m ≠ .busReset) (hw : m ≠ .wakeup) : ¬ busActive s = true := by
    rw [busActive_iff]
    rintro ⟨hres, hsusp⟩
    obtain h | ⟨h, -⟩ | ⟨-, h⟩ := h
    · exact Bool.false_ne_true (hres.symm.trans h)
    · exact Bool.false_ne_true (hsusp.symm.trans h)
    · exact hw h
  cases m with
  | busReset =>
    obtain h | ⟨-, h, -⟩ | ⟨-, h⟩ := h
    · exact congrArg Except.ok (if_pos h)
    · exact absurd rfl h
    · cases h
  | wakeup =>
    refine congrArg Except.ok (if_neg ?_)
    rw [busSuspended_iff]
    rintro ⟨hres, hsusp⟩
    obtain h | ⟨-, -, h⟩ | ⟨h, -⟩ := h
    · exact Bool.false_ne_true (hres.symm.trans h)
    · exact h rfl
    · exact Bool.false_ne_true (h.symm.trans hsusp)
  | rxDone i setup d => exact rxDone_of_not_ready fun hr => hactive nofun nofun (rxReady_iff.1 hr).1
  | txDone i => exact txDone_of_not_ready fun hr => hactive nofun nofun (txReady_iff.1 hr).1
  | suspend | sof f | err | pmaOvr => exact congrArg Except.ok (if_neg (hactive nofun nofun))

/-- A move that changes nothing, as a step: its entry of the schedule is used up (assumption log 2). -/
theorem step_bus_passed {s : State} {m : BusMove} {cs : List Choice} (hwf : s.cfg.wf = true)
    (hs : s.sched = .bus m :: cs) (h : busMove m (s.withSched cs) = .ok (s.withSched cs)) :
    step s = .next { s with sched := cs } := by
  rw [step_bus hwf hs, h]
  rfl

/-- Settles O46: each premise denies the mode, the precondition of the move, or the room for the packet. -/
theorem movesNotEnabled : Obligations.MovesNotEnabled := by
  unfold Obligations.MovesNotEnabled
  intro s m cs hwf hs
  refine ⟨fun h => step_bus_passed hwf hs (busMove_of_mode h), ?_, ?_⟩
  · rintro i setup d rfl h
    refine step_bus_passed hwf hs ?_
    by_cases hr : rxReady i setup d.length (s.withSched cs) = true
    · obtain ⟨-, haddr, hi, hstat, htype, hsetup, hlen⟩ := rxReady_iff.1 hr
      obtain h | h | h | h | ⟨hset, h⟩ | h | ⟨enc, henc, hroom⟩ := h
      · exact absurd (h.symm.trans haddr) Bool.false_ne_true
      · exact absurd hi (Nat.not_lt.2 h)
      · exact absurd hstat h
      · exact absurd h htype
      · exact absurd (hsetup hset) h
      · exact absurd hlen (Nat.not_le.2 h)
      · exact rxDone_written_without_room hr henc hroom
    · exact rxDone_of_not_ready hr
  · rintro i rfl h
    refine step_bus_passed hwf hs (txDone_of_not_ready fun hr => ?_)
    obtain ⟨-, haddr, hi, hstat, htype⟩ := txReady_iff.1 hr
    obtain h | h | h | h := h
    · exact Bool.false_ne_true (h.symm.trans haddr)
    · exact absurd hi (Nat.not_lt.2 h)
    · exact h hstat
    · exact htype h

end Sys2Proof.Machine
end

section
/-! Settles O9, O24, O25, O26, O27 and O43. The register interface: a software write of an endpoint register by its four
classes (R131), the commands made of one read and one write of it (R134 to R143), and what a packet that completes between
the two does to them (R136, R272, R273). -/

namespace Sys2Proof.Machine

/-! ## The write classes -/

/-- A field of the register after a write, from the same field of the old value, the word and the four class masks. -/
theorem extractLsb'_eprAfterWrite (old w : Word) (k n : Nat) :
    (eprAfterWrite old w).extractLsb' k n =
      (w.extractLsb' k n &&& (0x070F : Word).extractLsb' k n) |||
      (old.extractLsb' k n &&& (0x0800 : Word).extractLsb' k n) |||
      (old.extractLsb' k n &&& w.extractLsb' k n &&& (0x8080 : Word).extractLsb' k n) |||
      ((old.extractLsb' k n ^^^ w.extractLsb' k n) &&& (0x7070 : Word).extractLsb' k n) := by
  simp only [eprAfterWrite, BitVec.extractLsb'_or, BitVec.extractLsb'_and, BitVec.extractLsb'_xor]

section
variable {old w : Word} {k n : Nat}

/-- A field of read-write bits holds what is written. -/
theorem extractLsb'_eprAfterWrite_plain (hrw : (0x070F : Word).extractLsb' k n = BitVec.allOnes n)
    (hsetup : (0x0800 : Word).extractLsb' k n = 0#n) (hctr : (0x8080 : Word).extractLsb' k n = 0#n)
    (htoggle : (0x7070 : Word).extractLsb' k n = 0#n) :
    (eprAfterWrite old w).extractLsb' k n = w.extractLsb' k n := by
  rw [extractLsb'_eprAfterWrite, hrw, hsetup, hctr, htoggle]
  simp

/-- A field of toggle bits is flipped where a 1 is written. -/
theorem extractLsb'_eprAfterWrite_toggle (hrw : (0x070F : Word).extractLsb' k n = 0#n)
    (hsetup : (0x0800 : Word).extractLsb' k n = 0#n) (hctr : (0x8080 : Word).extractLsb' k n = 0#n)
    (htoggle : (0x7070 : Word).extractLsb' k n = BitVec.allOnes n) :
    (eprAfterWrite old w).extractLsb' k n = old.extractLsb' k n ^^^ w.extractLsb' k n := by
  rw [extractLsb'_eprAfterWrite, hrw, hsetup, hctr, htoggle]
  simp

end

theorem setupBit_eprAfterWrite (old w : Word) : setupBit (eprAfterWrite old w) = setupBit old := by
  simp [setupBit, eprAfterWrite]

/-- Settles O9: each field is of one class, and the formula is the definition of the write. -/
theorem writeEprByClass : Obligations.WriteEprByClass := by
  unfold Obligations.WriteEprByClass
  intro s i w hi
  refine ⟨eprAfterWrite s.epr[i] w, ?_, extractLsb'_eprAfterWrite_plain rfl rfl rfl rfl,
    extractLsb'_eprAfterWrite_plain rfl rfl rfl rfl, setupBit_eprAfterWrite .., ctrRx_eprAfterWrite ..,
    ctrTx_eprAfterWrite .., extractLsb'_eprAfterWrite_toggle rfl rfl rfl rfl,
    extractLsb'_eprAfterWrite_toggle rfl rfl rfl rfl, rfl⟩
  rw [writeEpr_eq, if_pos hi]
  rfl

/-! ## One read and one write of the register -/

/-- Flipping the bits of a mask that are set clears them. -/
theorem xor_and_self (v m : Word) : v ^^^ (v &&& m) = v &&& ~~~m := by
  ext k
  simp only [BitVec.getElem_xor, BitVec.getElem_and, BitVec.getElem_not]
  cases v[k] <;> simp

/-- Flipping a field by its difference from another value gives it that value. -/
theorem xor_field_difference (v x f : Word) : v ^^^ ((v ^^^ (x &&& f)) &&& f) = (v &&& ~~~f) ||| (x &&& f) := by
  ext k
  simp only [BitVec.getElem_xor, BitVec.getElem_and, BitVec.getElem_not, BitVec.getElem_or]
  cases f[k] <;> simp

/-- A change inside `f` is none in a mask that shares no bit with it. -/
theorem xor_and_of_disjoint (v x : Word) {f m : Word} (h : f &&& m = 0) : (v ^^^ (x &&& f)) &&& m = v &&& m := by
  ext k hk
  have hbit : (f &&& m)[k] = (0 : Word)[k] := by rw [h]
  simp only [BitVec.getElem_xor, BitVec.getElem_and] at hbit ⊢
  cases hf : f[k] <;> simp_all

/-- The status a direction selects is of the toggle class (R35, R133). -/
theorem selField_and_MASK (d : Dir) : selField d &&& MASK = 0 := by cases d <;> rfl

/-- The bits `RESET_EP` clears are of the toggle class (R35, R137). -/
theorem resetBits_and_MASK (c : Config) (d : Dir) : resetBits c d &&& MASK = 0 := by
  unfold resetBits
  split <;> cases d <;> rfl

/-- The idiom of R134 and R137: a word with the other classes' bits as they are in the register, masked to them and to
toggle bits `f`, flips the bits of `f` it has at 1 and changes no other (R36, R131). -/
theorem eprAfterWrite_masked {v x f : Word} (hf : f &&& MASK = 0) (hx : x &&& MASK = v &&& MASK) :
    eprAfterWrite v (x &&& (MASK ||| f)) = v ^^^ (x &&& f) := by
  refine BitVec.eq_of_getLsbD_eq fun k hk => ?_
  have hfk : (f &&& MASK).getLsbD k = (0 : Word).getLsbD k := by rw [hf]
  have hxk : (x &&& MASK).getLsbD k = (v &&& MASK).getLsbD k := by rw [hx]
  simp only [eprAfterWrite, MASK, BitVec.getLsbD_or, BitVec.getLsbD_and, BitVec.getLsbD_xor] at hfk hxk ⊢
  interval_cases k <;> simp_all

/-- The register after `SET_STATUS` with the word `x` (R135). -/
def statusSet (d : Dir) (x v : Word) : Word := (v &&& ~~~selField d) ||| (x &&& selField d)

/-- Written from the value the register still holds, the selected status becomes the desired one (R134, R135). -/
theorem eprAfterWrite_statusWrite (v x : Word) (d : Dir) :
    eprAfterWrite v (statusWrite v (selField d) x) = statusSet d x v := by
  have hkept := xor_and_of_disjoint v x (selField_and_MASK d)
  rw [statusWrite, eprAfterWrite_masked (selField_and_MASK d) hkept, xor_field_difference, statusSet]

/-- Written from the value the register still holds, the bits `RESET_EP` clears become 0 (R137). -/
theorem eprAfterWrite_resetBits (v : Word) (c : Config) (d : Dir) :
    eprAfterWrite v (v &&& (MASK ||| resetBits c d)) = v &&& ~~~resetBits c d := by
  rw [eprAfterWrite_masked (resetBits_and_MASK c d) rfl, xor_and_self]

theorem performList_setStatus {s : State} {ep : EpId} (hi : ep.idx.val < s.cfg.nEp) (x : Word) (l : Locals) :
    performList (setStatusAccesses ep x) l s = .ok ({ l with val := s.epr[ep.idx] },
      s.withEprAll (s.epr.set ep.idx (statusSet ep.dir x s.epr[ep.idx]))) := by
  simp only [setStatusAccesses, performList, perform, writeEpr_eq, hi, if_true, eprAfterWrite_statusWrite]

theorem performList_resetEp {s : State} {ep : EpId} (hi : ep.idx.val < s.cfg.nEp) (c : Config) (l : Locals) :
    performList (resetEpAccesses c ep) l s = .ok ({ l with val := s.epr[ep.idx] },
      s.withEprAll (s.epr.set ep.idx (s.epr[ep.idx] &&& ~~~resetBits c ep.dir))) := by
  simp only [resetEpAccesses, performList, perform, writeEpr_eq, hi, if_true, eprAfterWrite_resetBits]

theorem withEndpoint_present {i : Fin 16} {s : State} {k : Host.Outcome State Fault Refusal} (h : i.val < s.cfg.nEp) :
    withEndpoint i s k = k := if_pos h

/-- The state after a command on the registers: `n` boundaries used up, the result put out, nothing else changed. -/
def State.registersSet (e : Vector Word 16) (n : Nat) (s : State) : State :=
  { s with epr := e, sched := s.sched.drop n, out := s.out ++ [.result 0] }

/-- A command whose accesses only write registers, undisturbed. -/
theorem start_registers_calm {as : List Access} {i : Fin 16} {l : Locals} {s : State} {e : Vector Word 16}
    (hload : ∀ a ∈ as, a.isLoad = false) (hemit : ∀ a ∈ as, a.isEmit = false) (hi : i.val < s.cfg.nEp)
    (hc : s.calm (as.length - 1)) (h : performList as {} s = .ok (l, s.withEprAll e)) :
    withEndpoint i s (start as {} .zero s) = .next (s.registersSet e (as.length - 1)) := by
  rw [withEndpoint_present hi, start_calm_of_no_callback hload hemit hc, h]
  rfl

theorem start_setStatus_calm {s : State} {ep : EpId} (hi : ep.idx.val < s.cfg.nEp) (hc : s.calm 1) (x : Word) :
    withEndpoint ep.idx s (start (setStatusAccesses ep x) {} .zero s) =
      .next (s.registersSet (s.epr.set ep.idx (statusSet ep.dir x s.epr[ep.idx])) 1) :=
  start_registers_calm (by simp [Access.isLoad]) (by simp [Access.isEmit]) hi hc (performList_setStatus hi x {})

/-- Settles O24: the four commands are `SET_STATUS` with their words. -/
theorem statusCommandsResult : Obligations.StatusCommandsResult := by
  unfold Obligations.StatusCommandsResult
  intro s ep hi hc
  have hset := start_setStatus_calm hi hc
  obtain ⟨_ | _, i⟩ := ep <;>
    exact ⟨fun rx tx => hset (statWord rx tx), hset (statWord .valid .nak), hset (statWord .disabled .disabled),
      hset (statWord .stall .stall)⟩

/-- Settles O25: the read and the write of the register, undisturbed. -/
theorem resetEpResult : Obligations.ResetEpResult := by
  unfold Obligations.ResetEpResult
  intro s ep hi hc
  refine (start_registers_calm (as := resetEpAccesses s.cfg ep) (by simp [Access.isLoad]) (by simp [Access.isEmit]) hi hc
    (performList_resetEp hi s.cfg {})).trans ?_
  obtain ⟨_ | _, i⟩ := ep <;> rfl

theorem performList_clrStall {s : State} {ep : EpId} (hi : ep.idx.val < s.cfg.nEp) (l : Locals) :
    performList (clrStallAccesses s.cfg ep) l s = .ok ({ l with val := s.epr[ep.idx] &&& ~~~resetBits s.cfg ep.dir },
      s.withEprAll (s.epr.set ep.idx (statusSet ep.dir (statWord .valid (clrStallTx s.cfg))
        (s.epr[ep.idx] &&& ~~~resetBits s.cfg ep.dir)))) := by
  rw [clrStallAccesses, performList_append, performList_resetEp hi]
  simp only [Except.bind]
  rw [performList_setStatus (by exact hi)]
  simp [State.withEprAll]

/-- Whichever bits `RESET_EP` clears, the receive toggle is 0 afterwards and the receive status Valid (R138, R143). -/
theorem statusSet_clrStall_OUT (v : Word) (c : Config) :
    statusSet .OUT (statWord .valid (clrStallTx c)) (v &&& ~~~resetBits c .OUT) = (v &&& 0x8FFF) ||| 0x3000 := by
  have hkept : ~~~resetBits c .OUT &&& ~~~selField .OUT = 0x8FFF := by
    unfold resetBits
    split <;> rfl
  have hset : statWord .valid (clrStallTx c) &&& selField .OUT = 0x3000 := by cases clrStallTx c <;> rfl
  rw [statusSet, BitVec.and_assoc, hkept, hset]

/-- The same of the transmit half, with Valid or NAK by `CLRSTALL_IN_STATUS` (R138, R143). -/
theorem statusSet_clrStall_IN (v : Word) (c : Config) :
    statusSet .IN (statWord .valid (clrStallTx c)) (v &&& ~~~resetBits c .IN) =
      (v &&& 0xFF8F) ||| (if c.clrStallIn = .valid then 0x0030 else 0x0020) := by
  have hkept : ~~~resetBits c .IN &&& ~~~selField .IN = 0xFF8F := by
    unfold resetBits
    split <;> rfl
  have hset : statWord .valid (clrStallTx c) &&& selField .IN = if c.clrStallIn = .valid then 0x0030 else 0x0020 := by
    unfold clrStallTx
    cases c.clrStallIn <;> rfl
  rw [statusSet, BitVec.and_assoc, hkept, hset]

/-- Settles O26: the accesses of `RESET_EP` and of `SET_STATUS` in one list. -/
theorem clrStallResult : Obligations.ClrStallResult := by
  unfold Obligations.ClrStallResult
  intro s ep hi hc
  refine (start_registers_calm (as := clrStallAccesses s.cfg ep) (by simp [Access.isLoad]) (by simp [Access.isEmit]) hi hc
    (performList_clrStall hi {})).trans ?_
  obtain ⟨_ | _, i⟩ := ep
  · rw [statusSet_clrStall_OUT]
    rfl
  · rw [statusSet_clrStall_IN]
    rfl

/-! ## Sequences of `SET_STATUS` -/

/-- The two fields of the status word (R86). -/
theorem statWord_eq (rx tx : Status) : statWord rx tx = 0#2 ++ statusCode rx ++ 0#6 ++ statusCode tx ++ 0#4 := by
  cases rx <;> cases tx <;> rfl

/-- The word of `SET_STATUS` decodes to it (R85, R86). -/
theorem decode_setStatus {nEp : Nat} {ep : EpId} (hi : ep.idx.val < nEp) (rx tx : Status) :
    decode nEp (.cmd (0x11#8 ++ epByte ep ++ statWord rx tx)) = .ok (.setStatus ep rx tx) := by
  rw [statWord_eq]
  exact decode_encode_command (i := .setStatus ep rx tx) (decide_eq_true hi) rfl

theorem statusSet_and_selField (d : Dir) (x v : Word) : statusSet d x v &&& selField d = x &&& selField d := by
  simp [statusSet, BitVec.and_or_distrib_right, BitVec.and_assoc]

theorem statusSet_and_not_selField (d : Dir) (x v : Word) :
    statusSet d x v &&& ~~~selField d = v &&& ~~~selField d := by
  simp [statusSet, BitVec.and_or_distrib_right, BitVec.and_assoc]

/-- Of the registers, the arena, the table and `CONN` only the selected status may differ (R134). -/
structure OnlyStatus (ep : EpId) (s t : State) : Prop where
  rest : t.epr[ep.idx] &&& ~~~selField ep.dir = s.epr[ep.idx] &&& ~~~selField ep.dir
  other : ∀ j : Fin 16, j ≠ ep.idx → t.epr[j] = s.epr[j]
  pma : t.pma = s.pma
  bd : t.bd = s.bd
  conn : t.conn = s.conn

theorem OnlyStatus.trans {ep : EpId} {s t u : State} (h : OnlyStatus ep s t) (k : OnlyStatus ep t u) :
    OnlyStatus ep s u where
  rest := k.rest.trans h.rest
  other j hj := (k.other j hj).trans (h.other j hj)
  pma := k.pma.trans h.pma
  bd := k.bd.trans h.bd
  conn := k.conn.trans h.conn

/-- One `SET_STATUS` of the foreground agent alone, a step. -/
theorem State.ForegroundAlone.step_setStatus {s : State} (h : s.ForegroundAlone) {ep : EpId} {rx tx : Status}
    {rs : List Request} (hi : ep.idx.val < s.cfg.nEp)
    (hc : s.fgCmds = ⟨0x11#8 ++ epByte ep ++ statWord rx tx, []⟩ :: rs) :
    ∃ t : State, step s = .next t ∧ t.ForegroundAlone ∧ t.cfg = s.cfg ∧ t.fgCmds = rs ∧
      t.epr[ep.idx] &&& selField ep.dir = statWord rx tx &&& selField ep.dir ∧ OnlyStatus ep s t := by
  have hcalm : State.calm 1 ((s.withFgCmds rs).withDin []) := by simp [State.calm, h.sched]
  have hset := start_setStatus_calm (s := (s.withFgCmds rs).withDin []) hi hcalm (statWord rx tx)
  refine ⟨_, (h.step_command hc (decode_setStatus hi rx tx)).trans hset,
    ⟨h.wf, h.dph, h.irqEn, ?_, h.fgHeld⟩, rfl, rfl, ?_, ?_, fun j hj => ?_, rfl, rfl, rfl⟩
  · simp [State.registersSet, h.sched]
  · simp [State.registersSet, statusSet_and_selField]
  · simp [State.registersSet, statusSet_and_not_selField]
  · have : ep.idx.val ≠ j.val := fun e => hj (Fin.ext e.symm)
    simp [State.registersSet, this]

/-- The foreground agent alone runs its `SET_STATUS` commands, each a step: the last one sets the status (R135). -/
theorem steps_setStatus {l : List (Status × Status)} {s : State} (h : s.ForegroundAlone) {ep : EpId} {rx tx : Status}
    (hi : ep.idx.val < s.cfg.nEp)
    (hc : s.fgCmds = (l ++ [(rx, tx)]).map fun p => ⟨0x11#8 ++ epByte ep ++ statWord p.1 p.2, []⟩) :
    ∃ t : State, steps (l.length + 1) s = .next t ∧
      t.epr[ep.idx] &&& selField ep.dir = statWord rx tx &&& selField ep.dir ∧ OnlyStatus ep s t := by
  induction l generalizing s with
  | nil =>
    obtain ⟨t, hstep, -, -, -, hstat, honly⟩ := h.step_setStatus hi hc
    exact ⟨t, steps_one hstep, hstat, honly⟩
  | cons p l ih =>
    obtain ⟨u, hstep, halone, hcfg, hcmds, -, hfirst⟩ := h.step_setStatus hi hc
    obtain ⟨t, hsteps, hstat, honly⟩ := ih halone (hcfg ▸ hi) hcmds
    exact ⟨t, (steps_succ _ hstep).trans hsteps, hstat, hfirst.trans honly⟩

/-- Settles O27, by induction on the commands before the last. -/
theorem lastStatusWins : Obligations.LastStatusWins := by
  unfold Obligations.LastStatusWins
  intro s ep l rx tx hwf hd hirq hs hh hi hc
  obtain ⟨t, hsteps, hstat, hrest, hother, hpma, hbd, hconn⟩ := steps_setStatus ⟨hwf, hd, hirq, hs, hh⟩ hi hc
  obtain ⟨_ | _, i⟩ := ep <;> exact ⟨t, hsteps, hstat, hrest, hother, hpma, hbd, hconn⟩

/-! ## A packet that completes between the read and the write -/

theorem statRx_eprAfterWrite (old w : Word) : statRx (eprAfterWrite old w) = statRx old ^^^ statRx w :=
  extractLsb'_eprAfterWrite_toggle rfl rfl rfl rfl

theorem statTx_eprAfterWrite (old w : Word) : statTx (eprAfterWrite old w) = statTx old ^^^ statTx w :=
  extractLsb'_eprAfterWrite_toggle rfl rfl rfl rfl

/-- The status `SET_STATUS` writes is the difference between the one it read and the desired one (R134). -/
theorem extractLsb'_statusWrite {f : Word} {k n : Nat} (hf : f.extractLsb' k n = BitVec.allOnes n) (v x : Word) :
    (statusWrite v f x).extractLsb' k n = v.extractLsb' k n ^^^ x.extractLsb' k n := by
  simp [statusWrite, BitVec.extractLsb'_and, BitVec.extractLsb'_xor, BitVec.extractLsb'_or, hf]

theorem statRx_statusWrite (v : Word) (rx tx : Status) :
    statRx (statusWrite v (selField .OUT) (statWord rx tx)) = statRx v ^^^ statusCode rx := by
  rw [statRx, extractLsb'_statusWrite rfl, statWord_eq, statusArg_rx, statRx]

theorem statTx_statusWrite (v : Word) (rx tx : Status) :
    statTx (statusWrite v (selField .IN) (statWord rx tx)) = statTx v ^^^ statusCode tx := by
  rw [statTx, extractLsb'_statusWrite rfl, statWord_eq, statusArg_tx, statTx]

theorem ctrRx_statusWrite (v x : Word) (d : Dir) : ctrRx (statusWrite v (selField d) x) = ctrRx v := by
  cases d <;> simp [ctrRx, statusWrite, selField, MASK]

theorem ctrTx_statusWrite (v x : Word) (d : Dir) : ctrTx (statusWrite v (selField d) x) = ctrTx v := by
  cases d <;> simp [ctrTx, statusWrite, selField, MASK]

theorem statRx_eprAfterRx (v : Word) (setup : Bool) : statRx (eprAfterRx v setup) = 2#2 := by
  cases setup <;> simp [statRx, eprAfterRx, BitVec.extractLsb'_or, BitVec.extractLsb'_and]

theorem statTx_eprAfterTx (v : Word) : statTx (eprAfterTx v) = 2#2 := by
  simp [statTx, eprAfterTx, BitVec.extractLsb'_or, BitVec.extractLsb'_and]

theorem readCell_epr {w : Nat} (c : Option (BitVec w)) (s : State) : (readCell c s).2.epr = s.epr := by cases c <;> rfl

theorem readCell_cfg {w : Nat} (c : Option (BitVec w)) (s : State) : (readCell c s).2.cfg = s.cfg := by cases c <;> rfl

/-- The register of a stored packet (R223). -/
theorem storePacket_epr {i : Fin 16} {setup : Bool} {d : List Byte} {s t : State} (hi : i.val < s.cfg.nEp)
    (h : storePacket i setup d s = .ok t) : t.epr[i] = eprAfterRx s.epr[i] setup := by
  obtain ⟨s1, hwords, rfl⟩ := storePacket_cases h
  have hframe := writeWords_frame hwords
  have hepr : s1.epr = s.epr := by
    rw [hframe]
    exact readCell_epr ..
  have hcfg : s1.cfg = s.cfg := by
    rw [hframe]
    exact readCell_cfg ..
  rw [setEpr_eq, setBd_eq]
  simp [hepr, hcfg, hi]

/-- A reception that sets the completion bit found the direction Valid (R223). -/
theorem rxDone_completed {i : Fin 16} {setup : Bool} {d : List Byte} {s t : State} (h : rxDone i setup d s = .ok t)
    (hclear : ctrRx s.epr[i] = false) (hset : ctrRx t.epr[i] = true) :
    statRx s.epr[i] = 3#2 ∧ t.epr[i] = eprAfterRx s.epr[i] setup := by
  rcases rxDone_cases h with rfl | ⟨-, rfl⟩ | ⟨hr, cap, -, -, hstore⟩
  · exact absurd (hclear.symm.trans hset) Bool.false_ne_true
  · rw [readCell_epr] at hset
    exact absurd (hclear.symm.trans hset) Bool.false_ne_true
  · obtain ⟨-, -, hi, hstat, -⟩ := rxReady_iff.1 hr
    have hepr := storePacket_epr (by rwa [readCell_cfg]) hstore
    rw [readCell_epr] at hepr
    exact ⟨hstat, hepr⟩

/-- A transmission that sets the completion bit found the direction Valid (R224). -/
theorem txDone_completed {i : Fin 16} {s t : State} (h : txDone i s = .ok t)
    (hclear : ctrTx s.epr[i] = false) (hset : ctrTx t.epr[i] = true) :
    statTx s.epr[i] = 3#2 ∧ t.epr[i] = eprAfterTx s.epr[i] := by
  rcases txDone_cases h with rfl | ⟨hr, bs, s1, hread, -⟩
  · exact absurd (hclear.symm.trans hset) Bool.false_ne_true
  · obtain ⟨-, -, hi, hstat, -⟩ := txReady_iff.1 hr
    cases (txDone_sent hr hread).symm.trans h
    exact ⟨hstat, by simp⟩

/-- An access whose boundary brings no start of the dispatcher: the next one goes on from the state left there. -/
theorem run_cons_continued {a b : Access} {as : List Access} {l l1 : Locals} {fin : Finish} {s s1 s2 : State}
    (he : a.isEmit = false) (h : performAll a l s = .ok (.whole l1 s1)) (hb : boundary s1 = .ok (s2, false)) :
    run (a :: b :: as) l fin s = run (b :: as) l1 fin s2 := by
  rw [run, h]
  simp [he, hb]

/-- A bus move between the read and the write of `SET_STATUS`: the write is made from the value read before it (R134). -/
theorem exec_setStatus_bus {s s1 : State} {ep : EpId} {m : BusMove} {cs : List Choice} (hi : ep.idx.val < s.cfg.nEp)
    (hs : s.sched = .bus m :: .go :: cs) (hm : busMove m s = .ok s1) (rx tx : Status) :
    ∃ t : State, exec (.setStatus ep rx tx) s = .next t ∧ t.epr[ep.idx] =
      eprAfterWrite s1.epr[ep.idx] (statusWrite s.epr[ep.idx] (selField ep.dir) (statWord rx tx)) := by
  have hboundary : boundary s = .ok (s1.withSched cs, false) := by simp [boundary, hs, othersMove, hm]
  have hi1 : ep.idx.val < (s1.withSched cs).cfg.nEp := by
    rw [State.withSched_cfg, (busMove_frame hm).cfg]
    exact hi
  have hexec : exec (.setStatus ep rx tx) s =
      resume (heldStatus ep (statWord rx tx) s.epr[ep.idx]) (s1.withSched cs) := by
    have hrun := run_cons_continued (a := .readEpr ep.idx) (as := []) (l := {}) (fin := .zero)
      (b := .writeStatus ep.idx (selField ep.dir) (statWord rx tx)) rfl rfl hboundary
    exact (withEndpoint_present hi).trans (congrArg toOutcome hrun)
  refine ⟨_, hexec.trans (resume_heldStatus hi1 ..), ?_⟩
  simp

/-- Settles O43: the write is made from the register as it was before the packet. -/
theorem completionInTheWindow : Obligations.CompletionInTheWindow := by
  unfold Obligations.CompletionInTheWindow
  intro s s1 i rx tx setup d cs hi
  refine ⟨?_, ?_⟩
  · rintro m rfl hs (hclear : ctrRx s.epr[i] = false) hm hset
    obtain ⟨t, hexec, hepr⟩ := exec_setStatus_bus (ep := ⟨.OUT, i⟩) hi hs hm rx tx
    obtain ⟨hvalid, hreg⟩ := rxDone_completed hm hclear hset
    refine ⟨t, hexec, ?_, ?_⟩
    · rw [hepr, statRx_eprAfterWrite, hreg, statRx_eprAfterRx, statRx_statusWrite, hvalid]
    · refine (congrArg ctrRx hepr).trans ?_
      rw [ctrRx_eprAfterWrite, ctrRx_statusWrite, hclear, Bool.and_false]
  · rintro m rfl hs (hclear : ctrTx s.epr[i] = false) hm hset
    obtain ⟨t, hexec, hepr⟩ := exec_setStatus_bus (ep := ⟨.IN, i⟩) hi hs hm rx tx
    obtain ⟨hvalid, hreg⟩ := txDone_completed hm hclear hset
    refine ⟨t, hexec, ?_, ?_⟩
    · rw [hepr, statTx_eprAfterWrite, hreg, statTx_eprAfterTx, statTx_statusWrite, hvalid]
    · refine (congrArg ctrTx hepr).trans ?_
      rw [ctrTx_eprAfterWrite, ctrTx_statusWrite, hclear, Bool.and_false]

end Sys2Proof.Machine
end

section
/-! Settles O18, O19, O20 and O35. The commands of the core state machine (R151 to R157), and the event services that
serve no bus reset (R182 to R186), with nothing coming between their accesses. -/

namespace Sys2Proof.Machine

/-! ## Commands of one access -/

/-- `INIT`: its one access (R151). -/
theorem exec_init (s : State) : exec .init s = .next { s with irqEn := true, out := s.out ++ [.result 0] } := rfl

/-- A device address is seven bits, so bits 15:8 of the word written are 0 already (R31, R154). -/
theorem daddrAfterWrite_address (a : BitVec 7) : daddrAfterWrite (0x0080 ||| a.setWidth 16) = 0x0080 ||| a.setWidth 16 := by
  have haddr : a.setWidth 16 &&& (0x00FF : Word) = a.setWidth 16 := by
    ext k hk
    simp only [BitVec.getElem_and, BitVec.getElem_setWidth]
    rcases Nat.lt_or_ge k 7 with h | h
    · interval_cases k <;> simp
    · simp [h]
  rw [daddrAfterWrite, BitVec.and_or_distrib_right, haddr]
  rfl

/-- The two tests of `SET_ADDR` (R154). -/
theorem connAfterSetAddr_eq (a : BitVec 7) (c : Conn) :
    connAfterSetAddr a c =
      if c = .defaultAddress ∧ a ≠ 0 then .addressed else if c = .addressed ∧ a = 0 then .defaultAddress else c := by
  by_cases h : a = 0 <;> cases c <;> simp [connAfterSetAddr, h]

/-- The two tests of `SET_CONFIG` (R155). -/
theorem connAfterSetConfig_eq (k : BitVec 8) (c : Conn) :
    connAfterSetConfig k c =
      if c = .addressed ∧ k ≠ 0 then .configured else if c = .configured ∧ k = 0 then .addressed else c := by
  by_cases h : k = 0 <;> cases c <;> simp [connAfterSetConfig, h]

theorem exec_setAddr (a : BitVec 7) (s : State) :
    exec (.setAddr a) s = .next { s with
      daddr := 0x0080 ||| a.setWidth 16, conn := connAfterSetAddr a s.conn, out := s.out ++ [.result 0] } := by
  rw [← daddrAfterWrite_address]
  rfl

theorem exec_setConfig (k : BitVec 8) (s : State) :
    exec (.setConfig k) s = .next { s with conn := connAfterSetConfig k s.conn, out := s.out ++ [.result 0] } := rfl

/-- Settles O18: each command is one access, and its connection state the two tests of its rule. -/
theorem deviceCommandsResult : Obligations.DeviceCommandsResult := by
  unfold Obligations.DeviceCommandsResult
  intro s
  refine ⟨exec_init s, fun a => ?_, fun k => ?_⟩
  · rw [exec_setAddr, connAfterSetAddr_eq]
  · rw [exec_setConfig, connAfterSetConfig_eq]

/-- `GET_FRAME` from any frame number, written or not (R157, R244). -/
theorem exec_getFrame (s : State) :
    exec .getFrame s = .next { s with
      faults := { s.faults with unspecifiedRead := s.faults.unspecifiedRead || s.fn.isNone }
      fresh := (readFnr s).2.fresh
      out := s.out ++ [.result ((readCell s.fn s).1.setWidth 32)] } := by
  have hword : ∀ f : BitVec 11, resultWord (f.setWidth 16) = f.setWidth 32 :=
    fun f => by simp [resultWord]
  obtain ⟨n, hn⟩ := readCell_next s.fn s
  have hrun : exec .getFrame s =
      .next (put (.result (resultWord ((readCell s.fn s).1.setWidth 16))) (drawn (readCell s.fn s).2)) := rfl
  rw [hrun, hword, readFnr_snd, hn]
  rfl

/-- Settles O20: a delivered frame number is read as it is, and the read of an unwritten one is recorded. -/
theorem getFrameResult : Obligations.GetFrameResult := by
  unfold Obligations.GetFrameResult
  intro s
  rw [exec_getFrame]
  refine ⟨fun f hf => ⟨(readFnr s).2.fresh, ?_⟩, fun hf => ⟨(readCell s.fn s).1, (readFnr s).2.fresh, ?_⟩⟩
  · rw [hf, readCell_some, Option.isNone_some, Bool.or_false]
  · rw [hf, Option.isNone_none, Bool.or_true]

/-! ## `CONNECT` -/

/-- Settles O19: the second write of `CNTR` overwrites the first. -/
theorem connectResult : Obligations.ConnectResult := by
  unfold Obligations.ConnectResult
  intro s en hc
  have hrun := start_calm_of_no_callback (as := [.writeCntr 0x0001, .finishConnect en]) (l := {}) (fin := .zero) (s := s)
    (by simp [Access.isLoad]) (by simp [Access.isEmit]) hc
  refine Eq.trans hrun ?_
  cases en <;> rfl

/-! ## The event services -/

/-- A word whose reserved bits are 0 is stored in `CNTR` as written (R23, R25). -/
theorem cntrAfterWrite_of_reserved {v : Word} (h : v &&& 0x01F2 = 0) : cntrAfterWrite v = v := by
  have hnot := xor_and_self v 0x01F2
  rw [h] at hnot
  exact hnot.symm.trans BitVec.xor_zero

/-- The suspend handler sets `FSUSP` and `LP_MODE` (R167). -/
theorem performList_suspendHandler {s : State} (hr : s.cntr &&& 0x01F2 = 0) :
    performList suspendHandler {} s = .ok ({ val := s.cntr },
      { s with cntr := s.cntr ||| 0x000C, suspended := true }) := by
  have hset : (s.cntr ||| 0x000C) &&& 0x01F2 = 0 := by
    rw [BitVec.and_or_distrib_right, hr]
    rfl
  rw [← cntrAfterWrite_of_reserved hset]
  rfl

/-- The wakeup handler clears `FSUSP` (R168). -/
theorem performList_wakeupHandler {s : State} (hr : s.cntr &&& 0x01F2 = 0) :
    performList wakeupHandler {} s = .ok ({ val := s.cntr },
      { s with cntr := s.cntr &&& 0xFFF7, suspended := false }) := by
  have hclear : (s.cntr &&& 0xFFF7) &&& 0x01F2 = 0 := and_and_eq_zero hr
  rw [← cntrAfterWrite_of_reserved hclear]
  rfl

/-- A service whose handler does nothing: the callback if its flag is set, and the event's bit (R184 to R186). -/
theorem eventService_calm_without_handler {e : Event} {flag : Bool} {ev : BusEvent} {s : State} (hcb : s.cbCmds = [])
    (hsil : flag = true → s.silent (busHandler s.cfg ev)) (hc : s.calm 1) :
    eventService e [] flag ev s = .next { s with
      istr := s.istr &&& eventClear e
      dph := nextPhase e
      sched := s.sched.drop (if flag then 1 else 0)
      cbScript := if flag then s.scriptAfter (busHandler s.cfg ev) else s.cbScript
      out := s.out ++ if flag then [.busCall ev] else [] } := by
  have h := eventService_calm (e := e) (handler := []) (by simp) (by simp) rfl hcb hsil hc
  rwa [List.length_nil, Nat.zero_add] at h

/-- An error service: with `ERROR_EVENT` one whose handler does nothing, without it a phase passed over (R185, R186). -/
theorem errorService_calm {e : Event} {kind : ErrKind} {s : State} (hcb : s.cbCmds = [])
    (hsil : s.cfg.errorEvent = true → s.silent s.cfg.busHandlers.error) (hc : s.calm 1) :
    (if s.cfg.errorEvent then eventService e [] true (.error kind) s else skipEvent e s) =
      .next (if s.cfg.errorEvent then { s with
        istr := s.istr &&& eventClear e
        dph := nextPhase e
        sched := s.sched.drop 1
        cbScript := s.scriptAfter s.cfg.busHandlers.error
        out := s.out ++ [.busCall (.error kind)] } else { s with dph := nextPhase e }) := by
  by_cases herr : s.cfg.errorEvent = true
  · rw [if_pos herr, if_pos herr]
    exact eventService_calm_without_handler hcb (fun _ => hsil herr) hc
  · rw [if_neg herr, if_neg herr]
    rfl

/-- The boundaries of a service with a handler of two accesses. -/
theorem two_add_flag (flag : Bool) : 2 + (if flag then 1 else 0) = if flag then 3 else 2 := by cases flag <;> rfl

/-- Settles O35: each service is its handler's accesses and the end that every event service has. -/
theorem eventServicesResult : Obligations.EventServicesResult := by
  unfold Obligations.EventServicesResult
  intro s hcb hc hr
  have hc1 : s.calm 1 := State.calm_of_le hc (by omega)
  refine ⟨fun hsil => ?_, fun hsil => ?_, fun hsil => ?_, fun hsil => ⟨?_, ?_⟩⟩
  · rw [← two_add_flag]
    exact eventService_calm (e := .suspend) (ev := .suspend) (by simp [suspendHandler, Access.isLoad])
      (by simp [suspendHandler, Access.isEmit]) (performList_suspendHandler hr) hcb hsil hc
  · rw [← two_add_flag]
    exact eventService_calm (e := .wakeup) (ev := .resume) (by simp [wakeupHandler, Access.isLoad])
      (by simp [wakeupHandler, Access.isEmit]) (performList_wakeupHandler hr) hcb hsil hc
  · exact eventService_calm_without_handler (e := .sof) (ev := .startOfFrame) hcb hsil hc1
  · exact errorService_calm (e := .overrun) (kind := .overrun) hcb hsil hc1
  · exact errorService_calm (e := .error) (kind := .generic) hcb hsil hc1

end Sys2Proof.Machine
end

section
/-! Settles O52. The connection state and `SUSPENDED` (R45, R46): of the accesses of an instruction at most one changes
them, no bus move does, and so every schedule leaves them as before or as the table of R156 says. -/

namespace Sys2Proof.Machine

/-! ## The table, access by access and instruction by instruction -/

/-- `CONN` and `SUSPENDED`. -/
def State.connection (s : State) : Conn × Bool := (s.conn, s.suspended)

/-- The two after an access (R152, R154, R155, R164, R165, R167, R168). -/
def Access.connectionAfter : Access → Conn × Bool → Conn × Bool
  | .finishConnect en, _ => (connAfterConnect en, false)
  | .setAddr a, (c, b) => (connAfterSetAddr a c, b)
  | .setConfig k, (c, b) => (connAfterSetConfig k c, b)
  | .defaultAddress, _ => (.defaultAddress, false)
  | .forceSuspend, (c, _) => (c, true)
  | .endSuspend, (c, _) => (c, false)
  | _, cb => cb

/-- The two after an instruction (R156). -/
def tabledConnection : Instr → Conn × Bool → Conn × Bool
  | .connect en => Access.connectionAfter (.finishConnect en)
  | .setAddr a => Access.connectionAfter (.setAddr a)
  | .setConfig k => Access.connectionAfter (.setConfig k)
  | .istrReset => Access.connectionAfter .defaultAddress
  | .istrSusp => Access.connectionAfter .forceSuspend
  | .istrWkup => Access.connectionAfter .endSuspend
  | _ => id

theorem perform_connection {a : Access} {l l1 : Locals} {s t : State} (h : perform a l s = .ok (l1, t)) :
    t.connection = a.connectionAfter s.connection := by
  cases a with
  | finishConnect | setAddr | setConfig | defaultAddress | forceSuspend | endSuspend => cases h; rfl
  | _ => exact Prod.ext ((perform_frame h).conn rfl) ((perform_frame h).suspended rfl)

/-! ## What leaves them as they are -/

theorem SameCells.connection {s t : State} (h : SameCells s t) : t.connection = s.connection :=
  Prod.ext h.conn h.suspended

theorem BusFrame.connection {s t : State} (h : BusFrame s t) : t.connection = s.connection :=
  Prod.ext h.conn h.suspended

theorem finish_connection (fin : Finish) (l : Locals) (s : State) : (finish fin l s).connection = s.connection := by
  cases fin <;> rfl

theorem boundary_connection {s t : State} {b : Bool} (h : boundary s = .ok (t, b)) : t.connection = s.connection :=
  othersMove_rec (P := fun u => u.connection = s.connection) (fun _ _ _ _ hm hu => (busMove_frame hm).connection.trans hu)
    (fun u _ hu => (SameCells.enterDispatcher u).connection.trans hu) (fun _ _ _ hu => hu) (fun _ h => h) rfl h

/-- An access that changes neither. -/
def Access.KeepsConnection (a : Access) : Prop := ∀ cb, a.connectionAfter cb = cb

theorem Access.KeepsConnection.perform {a : Access} {l l1 : Locals} {s t : State} (ha : a.KeepsConnection)
    (h : Machine.perform a l s = .ok (l1, t)) : t.connection = s.connection := (perform_connection h).trans (ha _)

theorem Access.keepsConnection_load (j k : Nat) : (Access.load j).KeepsConnection → (Access.load k).KeepsConnection := id

theorem run_keeps_connection {as : List Access} {l : Locals} {fin : Finish} {s t : State}
    (hA : ∀ a ∈ as, a.KeepsConnection) (h : run as l fin s = .ok t) : t.connection = s.connection :=
  run_keeps_value (fun _ _ => SameCells.connection) Access.keepsConnection_load (fun _ _ _ _ _ ha => ha.perform)
    (fun _ _ _ _ hm => (busMove_frame hm).connection) hA h

theorem exec_keeps_connection {i : Instr} {s t : State} (hA : ∀ a ∈ accessesOf s i, a.KeepsConnection)
    (h : exec i s = .next t) : t.connection = s.connection :=
  exec_keeps_value (fun _ _ => SameCells.connection) Access.keepsConnection_load (fun _ _ _ _ _ ha => ha.perform)
    (fun _ _ _ _ hm => (busMove_frame hm).connection) hA h

/-! ## A list of accesses with one that changes them -/

/-- An access that is no copy loop and no callback. -/
def Access.Single (a : Access) : Prop := a.isLoad = false ∧ a.isEmit = false

/-- What a list can do after its first access: end, go on from the boundary, or be preempted there. -/
theorem run_cons_cases {a : Access} {as : List Access} {l : Locals} {fin : Finish} {s t : State} (ha : a.Single)
    (h : run (a :: as) l fin s = .ok t) :
    ∃ l1 s1, perform a l s = .ok (l1, s1) ∧
      ((as = [] ∧ t = finish fin l1 s1) ∨ (∃ s2, boundary s1 = .ok (s2, false) ∧ run as l1 fin s2 = .ok t) ∨
        ∃ s2, boundary s1 = .ok (s2, true) ∧ t = s2.withFgHeld (some ⟨as, l1, fin⟩)) := by
  obtain ⟨hload, hemit⟩ := ha
  rw [run] at h
  rw [performAll_whole hload] at h
  cases hp : perform a l s with
  | error r => simp [hp] at h
  | ok p =>
    obtain ⟨l1, s1⟩ := p
    refine ⟨l1, s1, rfl, ?_⟩
    simp only [hp, hemit, Bool.false_and, Bool.false_eq_true, if_false] at h
    cases as with
    | nil => cases h; exact .inl ⟨rfl, rfl⟩
    | cons b bs =>
      simp only at h
      split at h
      · cases h
      · rename_i s2 hb
        exact .inr (.inl ⟨s2, hb, h⟩)
      · rename_i s2 hb
        cases h
        exact .inr (.inr ⟨s2, hb, rfl⟩)

/-- After an access, others that change neither. -/
theorem run_cons_connection {w : Access} {post : List Access} {l : Locals} {fin : Finish} {s t : State} (hw : w.Single)
    (hpost : ∀ a ∈ post, a.KeepsConnection) (h : run (w :: post) l fin s = .ok t) :
    t.connection = w.connectionAfter s.connection := by
  obtain ⟨l1, s1, hp, ⟨-, rfl⟩ | ⟨s2, hb, hrun⟩ | ⟨s2, hb, rfl⟩⟩ := run_cons_cases hw h
  · exact (finish_connection ..).trans (perform_connection hp)
  · exact (run_keeps_connection hpost hrun).trans ((boundary_connection hb).trans (perform_connection hp))
  · exact (boundary_connection hb).trans (perform_connection hp)

/-- A list in which only the access `w` changes them: they are as before, where the list is preempted before `w`, or as
`w` leaves them; and as `w` leaves them if nothing comes between. -/
theorem run_append_connection {pre post : List Access} {w : Access} {l : Locals} {fin : Finish} {s t : State}
    (hpre : ∀ a ∈ pre, a.Single ∧ a.KeepsConnection) (hw : w.Single) (hpost : ∀ a ∈ post, a.KeepsConnection)
    (h : run (pre ++ w :: post) l fin s = .ok t) :
    (t.connection = s.connection ∨ t.connection = w.connectionAfter s.connection) ∧
      (s.calm pre.length → t.connection = w.connectionAfter s.connection) := by
  induction pre generalizing l s with
  | nil =>
    have hafter := run_cons_connection hw hpost h
    exact ⟨.inr hafter, fun _ => hafter⟩
  | cons a as ih =>
    obtain ⟨ha, hkeeps⟩ := hpre a List.mem_cons_self
    obtain ⟨l1, s1, hp, hcases⟩ := run_cons_cases ha h
    have h1 : s1.connection = s.connection := hkeeps.perform hp
    have hcalm (hc : s.calm (as.length + 1)) : s1.calm (1 + as.length) := by
      rw [Nat.add_comm]
      exact State.calm_congr (perform_frame hp).sched hc
    obtain ⟨hnil, -⟩ | ⟨s2, hb, hrun⟩ | ⟨s2, hb, rfl⟩ := hcases
    · cases List.append_ne_nil_of_right_ne_nil as (List.cons_ne_nil w post) hnil
    · obtain ⟨hany, hundisturbed⟩ := ih (fun x hx => hpre x (List.mem_cons_of_mem _ hx)) hrun
      rw [(boundary_connection hb).trans h1] at hany hundisturbed
      refine ⟨hany, fun hc => hundisturbed ?_⟩
      rw [boundary_calm (State.calm_of_le (hcalm hc) (Nat.le_add_right ..))] at hb
      cases hb
      exact State.calm_later (hcalm hc)
    · refine ⟨.inl ((boundary_connection hb).trans h1), fun hc => ?_⟩
      rw [boundary_calm (State.calm_of_le (hcalm hc) (Nat.le_add_right ..))] at hb
      cases hb

/-! ## The statement -/

/-- An instruction from `s` to `t` goes by the table: it leaves the two as they are or as the table says, and as the table
says if nothing comes between its accesses. -/
def ByTable (i : Instr) (s t : State) : Prop :=
  (t.connection = s.connection ∨ t.connection = tabledConnection i s.connection) ∧
    (s.calm 15 → t.connection = tabledConnection i s.connection)

/-- An instruction with no access that changes them. -/
theorem byTable_of_keeps {i : Instr} {s t : State} (hi : tabledConnection i = id)
    (hA : ∀ a ∈ accessesOf s i, a.KeepsConnection) (h : exec i s = .next t) : ByTable i s t := by
  have hkept : t.connection = tabledConnection i s.connection := by
    rw [hi]
    exact exec_keeps_connection hA h
  exact ⟨.inr hkept, fun _ => hkept⟩

/-- An instruction with one access that changes them. -/
theorem byTable_of_append {i : Instr} {pre post : List Access} {w : Access} {s t : State}
    (hi : tabledConnection i = w.connectionAfter) (has : accessesOf s i = pre ++ w :: post)
    (hpre : ∀ a ∈ pre, a.Single ∧ a.KeepsConnection) (hlen : pre.length ≤ 15) (hw : w.Single)
    (hpost : ∀ a ∈ post, a.KeepsConnection) (h : exec i s = .next t) : ByTable i s t := by
  obtain ⟨l, fin, s1, hrun, hs1, hsched⟩ := exec_runs h
  rw [has] at hrun
  obtain ⟨hany, hundisturbed⟩ := run_append_connection hpre hw hpost hrun
  rw [hs1.connection, ← hi] at hany hundisturbed
  exact ⟨hany, fun hc => hundisturbed (State.calm_congr hsched (State.calm_of_le hc hlen))⟩

/-- An event service whose handler ends with the access that changes them. -/
theorem byTable_of_handler {i : Instr} {e : Event} {pre : List Access} {w : Access} {flag : Bool} {ev : BusEvent}
    {s t : State} (hi : tabledConnection i = w.connectionAfter)
    (has : accessesOf s i = serviceAccesses e (pre ++ [w]) flag ev) (hpre : ∀ a ∈ pre, a.Single ∧ a.KeepsConnection)
    (hlen : pre.length ≤ 15) (hw : w.Single) (h : exec i s = .next t) : ByTable i s t := by
  have hsplit : serviceAccesses e (pre ++ [w]) flag ev =
      pre ++ w :: ((if flag then [.emitBus ev] else []) ++ [.writeIstr (eventClear e)]) := by
    simp [serviceAccesses]
  refine byTable_of_append hi (has.trans hsplit) hpre hlen hw ?_ h
  cases flag <;> simp [Access.KeepsConnection, Access.connectionAfter]

theorem exec_byTable {i : Instr} {s t : State} (h : exec i s = .next t) : ByTable i s t := by
  cases i with
  | connect en =>
    exact byTable_of_append (pre := [.writeCntr 0x0001]) (w := .finishConnect en) rfl rfl
      (by simp [Access.Single, Access.isLoad, Access.isEmit, Access.KeepsConnection, Access.connectionAfter])
      (by simp) ⟨rfl, rfl⟩ (by simp) h
  | setAddr a => exact byTable_of_append (pre := []) (w := .setAddr a) rfl rfl (by simp) (by simp) ⟨rfl, rfl⟩ (by simp) h
  | setConfig k =>
    exact byTable_of_append (pre := []) (w := .setConfig k) rfl rfl (by simp) (by simp) ⟨rfl, rfl⟩ (by simp) h
  | istrReset =>
    refine byTable_of_handler (w := .defaultAddress) rfl rfl ?_ (by simp [ep0Buffers, allocAccesses, setStatusAccesses])
      ⟨rfl, rfl⟩ h
    simp [ep0Buffers, allocAccesses, setStatusAccesses, Access.Single, Access.isLoad, Access.isEmit,
      Access.KeepsConnection, Access.connectionAfter]
  | istrSusp =>
    exact byTable_of_handler (pre := [.readCntr]) (w := .forceSuspend) rfl rfl
      (by simp [Access.Single, Access.isLoad, Access.isEmit, Access.KeepsConnection, Access.connectionAfter])
      (by simp) ⟨rfl, rfl⟩ h
  | istrWkup =>
    exact byTable_of_handler (pre := [.readCntr]) (w := .endSuspend) rfl rfl
      (by simp [Access.Single, Access.isLoad, Access.isEmit, Access.KeepsConnection, Access.connectionAfter])
      (by simp) ⟨rfl, rfl⟩ h
  | istrPmaovr | istrErr =>
    refine byTable_of_keeps rfl ?_ h
    simp only [accessesOf]
    split <;> simp [Access.KeepsConnection, Access.connectionAfter]
  | _ =>
    refine byTable_of_keeps rfl ?_ h
    simp [accessesOf, sofHandler, Access.KeepsConnection, Access.connectionAfter]

/-- Settles O52: the table of the statement is that of the accesses. -/
theorem connectionTable : Obligations.ConnectionTable := by
  unfold Obligations.ConnectionTable
  intro i s t h after suspendedAfter
  have htable : tabledConnection i s.connection = (after, suspendedAfter) := by
    cases i with
    | connect en => cases en <;> rfl
    | setAddr a | setConfig k =>
      cases hc : s.conn <;>
        simp [after, suspendedAfter, hc, tabledConnection, Access.connectionAfter, State.connection, connAfterSetAddr,
          connAfterSetConfig]
    | _ => rfl
  obtain ⟨hany, hcalm⟩ := exec_byTable h
  rw [htable] at hany hcalm
  refine ⟨hany.imp (congrArg Prod.fst) (congrArg Prod.fst), hany.imp (congrArg Prod.snd) (congrArg Prod.snd), fun hc => ?_⟩
  exact ⟨congrArg Prod.fst (hcalm hc), congrArg Prod.snd (hcalm hc)⟩

end Sys2Proof.Machine
end

section
/-! Settles O58. A bus reset and the invocation that serves it (R217, R263): the start, the reset service, the checks that
find no other event, and the return. -/

namespace Sys2Proof.Machine

/-! ## The dispatcher with no schedule ahead -/

/-- The dispatcher alone: no schedule ahead, no callback running and no service waiting. -/
structure State.DispatcherAlone (s : State) : Prop where
  wf : s.cfg.wf = true
  sched : s.sched = []
  cbCmds : s.cbCmds = []
  dispHeld : s.dispHeld = none

/-- With the schedule used up the dispatcher starts if it can (assumption log 3). -/
theorem State.DispatcherAlone.step_start {s : State} (h : s.DispatcherAlone) (hst : canStart s = true) :
    step s = .next (enterDispatcher s) := by
  simp only [step, h.wf, turn, h.sched, hst, if_true]

/-- Inside the dispatcher the phase is served (R180). -/
theorem State.DispatcherAlone.step_phase {s : State} (h : s.DispatcherAlone) (hd : s.dph ≠ .idle) :
    step s = phaseTurn s := by
  have hst : canStart s = false := by simp [canStart, hd]
  simp only [step, h.wf, turn, h.sched, hst, if_true, Bool.false_eq_true, if_false]
  exact softwareTurn_phase hd h.cbCmds h.dispHeld

/-- An event phase whose bit of the snapshot is set runs its service (R94, R180). -/
theorem State.DispatcherAlone.step_service {s : State} (h : s.DispatcherAlone) {e : Event} (hd : s.dph = .ev e)
    (hbit : s.snap.getLsbD (eventBit e) = true) : step s = exec (eventInstr e) s := by
  rw [h.step_phase (by simp [hd])]
  simp only [phaseTurn, hd, hbit, if_true]

/-- One whose bit is clear passes on (R180). -/
theorem State.DispatcherAlone.step_skip {s : State} (h : s.DispatcherAlone) {e : Event} (hd : s.dph = .ev e)
    (hbit : s.snap.getLsbD (eventBit e) = false) : step s = .next (s.withDph (nextPhase e)) := by
  rw [h.step_phase (by simp [hd])]
  simp only [phaseTurn, hd, hbit, Bool.false_eq_true, if_false]
  rfl

/-- With no event after the reset in the snapshot, five checks lead to the endpoint loop (R180). -/
theorem State.DispatcherAlone.steps_skip {s : State} (h : s.DispatcherAlone) (hd : s.dph = .ev .suspend)
    (hbit : ∀ e, e ≠ .reset → s.snap.getLsbD (eventBit e) = false) : steps 5 s = .next (s.withDph .epTop) := by
  have hskip (e : Event) (he : e ≠ .reset) : step (s.withDph (.ev e)) = .next (s.withDph (nextPhase e)) :=
    State.DispatcherAlone.step_skip (s := s.withDph (.ev e)) { h with } rfl (hbit e he)
  have hs : s = s.withDph (.ev .suspend) := by rw [← hd]; rfl
  rw [hs]
  calc steps 5 (s.withDph (.ev .suspend))
      = steps 4 (s.withDph (.ev .wakeup)) := steps_succ 4 (hskip .suspend nofun)
    _ = steps 3 (s.withDph (.ev .sof)) := steps_succ 3 (hskip .wakeup nofun)
    _ = steps 2 (s.withDph (.ev .overrun)) := steps_succ 2 (hskip .sof nofun)
    _ = steps 1 (s.withDph (.ev .error)) := steps_succ 1 (hskip .overrun nofun)
    _ = .next (s.withDph .epTop) := steps_one (hskip .error nofun)

/-! ## The bus reset -/

/-- The bus reset as a step, its entry of the schedule used up (R217). -/
theorem step_busReset {s : State} (hwf : s.cfg.wf = true) (hres : s.cntr.getLsbD 0 = false)
    (hs : s.sched = [.bus .busReset]) : step s = .next (busReset (s.withSched [])) := by
  have hheld : heldInReset (s.withSched []) = false := hres
  rw [step_bus hwf hs]
  simp only [busMove, hheld, Bool.false_eq_true, if_false]
  rfl

/-- With no event set before it, a bus reset leaves the reset event alone set (R28, R217). -/
theorem busReset_istr_getLsbD {s : State} (hi : s.istr = 0) (e : Event) :
    (busReset s).istr.getLsbD (eventBit e) = decide (e = .reset) := by
  have h : (busReset s).istr = BitVec.twoPow 16 (eventBit .reset) :=
    (congrArg (· ||| BitVec.twoPow 16 (eventBit .reset)) hi).trans BitVec.zero_or
  rw [h]
  cases e <;> rfl

/-- The event bits are stored bits of `ISTR`, so a read gives them as they are (R26, R94). -/
theorem readIstr_eventBit (s : State) (e : Event) :
    (readIstr s).1.getLsbD (eventBit e) = s.istr.getLsbD (eventBit e) := by
  cases e <;> exact readIstr_stored s (by decide) (by decide)

theorem enterDispatcher_next (s : State) :
    ∃ n, enterDispatcher s = { s with snap := (readIstr s).1, fresh := n, dph := .ev .reset } := by
  obtain ⟨n, hn⟩ := readIstr_snap s
  exact ⟨n, by rw [enterDispatcher_eq, hn]; rfl⟩

/-- With the reset event set and enabled the dispatcher can start (R50, R176). -/
theorem canStart_of_reset {s : State} (hd : s.dph = .idle) (hirq : s.irqEn = true) (hen : s.cntr.getLsbD 10 = true)
    (hset : s.istr.getLsbD 10 = true) : canStart s = true := by
  have h : irq s = true := by
    refine irq_iff.2 ⟨10, by omega, by omega, ?_, hen⟩
    rw [istrEvents_getLsbD s (by omega), hset]
    rfl
  simp [canStart, h, hirq, hd]

/-! ## The invocation -/

/-- The state after the reset service with no schedule ahead (R159 to R165, R181). -/
def State.resetServed (s : State) : State :=
  { s with
    cntr := resetMask s.cfg
    istr := s.istr &&& 0xFBFF
    daddr := 0x0080
    epr := s.epr.set 0 ((s.epr[0] &&& 0xC8F0) ||| 0x3200)
    bd := (Vector.replicate 16 {}).set 0 (s.bd[0].withEp0Buffers s.cfg)
    fba := some (BitVec.ofNat 16 (2 * s.cfg.mps0))
    faults := { s.faults with arenaOverflow := s.faults.arenaOverflow || decide (s.cfg.pmaSize < 2 * s.cfg.mps0) }
    conn := .defaultAddress
    suspended := false
    dph := .ev .suspend
    cbScript := if s.cfg.resetEvent then s.scriptAfter s.cfg.busHandlers.reset else s.cbScript
    out := s.out ++ if s.cfg.resetEvent then [.busCall .reset] else [] }

theorem State.DispatcherAlone.step_reset {s : State} (h : s.DispatcherAlone) (hd : s.dph = .ev .reset)
    (hbit : s.snap.getLsbD (eventBit .reset) = true)
    (hsil : s.cfg.resetEvent = true → s.silent s.cfg.busHandlers.reset) : step s = .next s.resetServed := by
  have hsched : s.sched.drop (if s.cfg.resetEvent then 15 else 14) = s.sched := by simp [h.sched]
  have hserved := resetServiceResult s h.wf (by simp [State.calm, h.sched]) h.cbCmds hsil
  rw [hsched] at hserved
  exact (h.step_service hd hbit).trans hserved

/-- From registers that are 0 the service leaves that of endpoint 0 a control endpoint, armed to receive (R162). -/
theorem resetServed_epr {s : State} (he : s.epr = Vector.replicate 16 0) :
    s.resetServed.epr = (Vector.replicate 16 0).set 0 0x3200 := by
  simp [State.resetServed, he]

/-- So no completion is pending. -/
theorem pending_resetServed {s : State} (he : s.epr = Vector.replicate 16 0) : pending s.resetServed = [] := by
  have hnone : ∀ i : Fin 16, ¬ (ctrRx ((Vector.replicate 16 0).set 0 0x3200)[i] = true ∨
      ctrTx ((Vector.replicate 16 0).set 0 0x3200)[i] = true) := by decide
  refine List.eq_nil_iff_forall_not_mem.2 fun i hi => hnone i ?_
  rw [← resetServed_epr he]
  exact (mem_pending.1 hi).2

/-- An invocation whose snapshot has the reset event alone: the reset service, five checks and the return (R263). -/
theorem State.DispatcherAlone.steps_reset {s : State} (h : s.DispatcherAlone) (hd : s.dph = .ev .reset)
    (hbit : ∀ e, s.snap.getLsbD (eventBit e) = decide (e = .reset))
    (hsil : s.cfg.resetEvent = true → s.silent s.cfg.busHandlers.reset) (he : s.epr = Vector.replicate 16 0) :
    ∃ w n, steps 7 s = .next { s.resetServed with snap := w, fresh := n, dph := .idle } := by
  have hserved : s.resetServed.DispatcherAlone := { h with }
  have hend : (s.resetServed.withDph .epTop).DispatcherAlone := { h with }
  obtain ⟨w, n, hreturn⟩ := phaseTurn_none (s := s.resetServed.withDph .epTop) rfl (pending_resetServed he)
  refine ⟨w, n, ?_⟩
  calc steps 7 s
      = steps 6 s.resetServed := steps_succ 6 (h.step_reset hd (hbit .reset) hsil)
    _ = steps 1 (s.resetServed.withDph .epTop) :=
        steps_add 1 (hserved.steps_skip rfl fun e hne => (hbit e).trans (decide_eq_false hne))
    _ = _ := steps_one ((hend.step_phase nofun).trans hreturn)

/-- Settles O58: the bus reset, the start of the dispatcher and its invocation. -/
theorem busResetServed : Obligations.BusResetServed := by
  unfold Obligations.BusResetServed
  intro s hwf hd hirq hres hen hi hcb hh hsil hs
  have hevents := busReset_istr_getLsbD (s := s.withSched []) hi
  have halone : (busReset (s.withSched [])).DispatcherAlone := ⟨hwf, rfl, hcb, hh⟩
  have hstart := halone.step_start (canStart_of_reset hd hirq hen (hevents .reset))
  obtain ⟨n, hn⟩ := enterDispatcher_next (busReset (s.withSched []))
  have hentered : (enterDispatcher (busReset (s.withSched []))).DispatcherAlone := by
    rw [hn]
    exact { halone with }
  obtain ⟨w, m, hinvocation⟩ := hentered.steps_reset rfl
    (fun e => (readIstr_eventBit _ e).trans (hevents e)) (by rw [hn]; exact hsil) (by rw [hn]; rfl)
  refine ⟨_, (steps_succ 8 (step_busReset hwf hres hs)).trans ((steps_succ 7 hstart).trans hinvocation), ?_⟩
  have hcleared : (s.istr ||| BitVec.twoPow 16 (eventBit .reset)) &&& 0xFBFF = s.istr := by
    rw [hi]
    rfl
  have hepr : (enterDispatcher (busReset (s.withSched []))).resetServed.epr = (Vector.replicate 16 0).set 0 0x3200 :=
    resetServed_epr (by rw [hn]; rfl)
  rw [hn] at hepr ⊢
  exact State.ext rfl rfl hcleared rfl rfl hepr rfl rfl rfl rfl rfl rfl hd.symm rfl rfl rfl rfl rfl rfl rfl rfl rfl rfl rfl
    rfl rfl

end Sys2Proof.Machine
end

section
/-! Settles O37 and O38. The two services of the endpoint loop (R188, R189), with a silent callback and with one that
issues commands; the event services with one that does (R181 to R186); and how a service waits for those commands and goes
on (R192). -/

namespace Sys2Proof.Machine

/-! ## The endpoint services -/

/-- The mask of an endpoint service: type, kind and address are written as read, the toggle class as 0, and of the
completion bits those of `kept` as read (R188, R189). -/
structure ServiceMask (m kept : Word) : Prop where
  plain : m &&& 0x070F = 0x070F
  toggle : m &&& 0x7070 = 0
  completion : m &&& 0x8080 = kept

theorem serviceMask_rx : ServiceMask 0x0F8F 0x0080 := ⟨rfl, rfl, rfl⟩

theorem serviceMask_tx : ServiceMask 0x8F0F 0x8000 := ⟨rfl, rfl, rfl⟩

/-- The register after an endpoint service, from the value `v` of the latch (R131, R188, R189). -/
def eprServed (old v kept : Word) : Word := (v &&& 0x070F) ||| (old &&& (0x7870 ||| (v &&& kept)))

theorem eprAfterWrite_serviceMask {m kept : Word} (hm : ServiceMask m kept) (old v : Word) :
    eprAfterWrite old (v &&& m) = eprServed old v kept := by
  have hkept : (0x7870 : Word) = 0x0800 ||| 0x7070 := rfl
  rw [eprAfterWrite, xor_and_of_disjoint old v hm.toggle, BitVec.and_assoc v, hm.plain, BitVec.and_assoc old,
    BitVec.and_assoc v, hm.completion, eprServed, hkept, BitVec.and_or_distrib_left, BitVec.and_or_distrib_left,
    BitVec.or_assoc, BitVec.or_assoc, BitVec.or_assoc, BitVec.or_comm (old &&& (v &&& kept))]

/-- The register of the turn with a completion served, and the callback put out. -/
def State.completed (kept : Word) (ev : EpEvent) (s : State) : State :=
  { s with
    epr := s.epr.set s.cur (eprServed s.epr[s.cur] s.val kept)
    out := s.out ++ [.epCall s.cur ev] }

section
variable {s : State} {m kept : Word} {ev : EpEvent} {p : Phase} (hm : ServiceMask m kept) (hi : s.cur.val < s.cfg.nEp)
  (hc : s.calm 1)
include hm hi

theorem put_writeEpr_serviceMask :
    put (.epCall s.cur ev) (writeEpr s.cur (s.val &&& m) s) = s.completed kept ev := by
  rw [writeEpr_eq, if_pos hi, eprAfterWrite_serviceMask hm]
  rfl

include hc

/-- An endpoint service whose callback issues no command. -/
theorem endpointService_silent (hcb : s.cbCmds = []) (hsil : s.silent s.cfg.epHandlers[s.cur]) :
    start [.writeAnd s.cur m, .emitEp s.cur ev] { val := s.val } (.phase p) s = .next { s.completed kept ev with
      dph := p
      sched := s.sched.drop 1
      cbScript := s.scriptAfter s.cfg.epHandlers[s.cur] } := by
  have hrun := run_calm (as := [.writeAnd s.cur m, .emitEp s.cur ev]) (l := { val := s.val }) (fin := .phase p) (s := s)
    (by simp [Access.isLoad]) (fun _ => hcb) (by simpa [Access.isEmit, Access.handler] using hsil)
    (by simp [Access.isEmit]) hc
  have hw : writeEpr s.cur (s.val &&& m) s = s.withEprAll _ := writeEpr_eq ..
  rw [start, hrun]
  simp only [performList, perform]
  rw [emit_silent (by rw [hw]; exact hsil) (by rw [hw]; exact hcb), put_writeEpr_serviceMask hm hi, hw]
  rfl

/-- An endpoint service whose callback issues commands waits for them with nothing left but the next phase (R192). -/
theorem endpointService_waits {cmds : List Request} {rest : List (List Request)}
    (hh : s.cfg.epHandlers[s.cur] = .installed) (hne : cmds ≠ []) (hcs : s.cbScript = cmds :: rest) :
    start [.writeAnd s.cur m, .emitEp s.cur ev] { val := s.val } (.phase p) s = .next { s.completed kept ev with
      sched := s.sched.drop 1
      cbCmds := cmds
      cbScript := rest
      dispHeld := some ⟨[], { val := s.val }, .phase p⟩ } := by
  have hrun := run_calm_emit (as := [.writeAnd s.cur m]) (a := .emitEp s.cur ev) (bs := []) (l := { val := s.val })
    (fin := .phase p) (s := s) (by simp [Access.isLoad]) (by simp [Access.isEmit]) rfl hh hcs hne hc
  have hw : writeEpr s.cur (s.val &&& m) s = s.withEprAll _ := writeEpr_eq ..
  have hhw : (writeEpr s.cur (s.val &&& m) s).cfg.epHandlers[s.cur] = .installed := by rw [hw]; exact hh
  have hlist : performList [.writeAnd s.cur m, .emitEp s.cur ev] { val := s.val } s =
      .ok ({ val := s.val }, ((s.completed kept ev).withCbCmds cmds).withCbScript rest) := by
    simp only [performList, perform, hhw]
    rw [emit_issues (by rw [hw]; exact hcs), put_writeEpr_serviceMask hm hi]
  rw [start]
  refine (congrArg toOutcome hrun).trans ?_
  rw [List.singleton_append, hlist]
  rfl

end

theorem rxService_of_set {s : State} (h : s.val.getLsbD 15 = true) :
    rxService s = start [.writeAnd s.cur 0x0F8F, .emitEp s.cur (if s.val.getLsbD 11 then .setup else .out)]
      { val := s.val } (.phase .epTx) s := if_pos h

theorem txService_of_set {s : State} (h : s.val.getLsbD 7 = true) :
    txService s = start [.writeAnd s.cur 0x8F0F, .emitEp s.cur .in_] { val := s.val } (.phase .epTop) s := if_pos h

theorem rxService_of_clear {s : State} (h : s.val.getLsbD 15 = false) : rxService s = .next (s.withDph .epTx) :=
  if_neg (Bool.eq_false_iff.1 h)

theorem txService_of_clear {s : State} (h : s.val.getLsbD 7 = false) : txService s = .next (s.withDph .epTop) :=
  if_neg (Bool.eq_false_iff.1 h)

/-- Settles O37: a step in the phase is the service, and the register it writes is bit by bit that of the statement. -/
theorem endpointServices : Obligations.EndpointServices := by
  unfold Obligations.EndpointServices
  intro s cs hwf hcb hh hs hcalm hi
  have hphase (hd : s.dph ≠ .idle) : step s = phaseTurn (s.withSched cs) := by
    rw [step_go hwf hs]
    exact softwareTurn_phase (s := s.withSched cs) hd hcb hh
  have hrx (hd : s.dph = .epRx) : step s = rxService (s.withSched cs) := by
    rw [hphase (by simp [hd]), phaseTurn, State.withSched_dph, hd]
  have htx (hd : s.dph = .epTx) : step s = txService (s.withSched cs) := by
    rw [hphase (by simp [hd]), phaseTurn, State.withSched_dph, hd]
  have hc : (s.withSched cs).calm 1 := by
    have hl : (s.later 1).calm 1 := State.calm_later hcalm
    rwa [State.later, hs] at hl
  refine ⟨fun hd hbit hsil => ?_, fun hd hbit => ?_, fun hd hbit hsil => ?_, fun hd hbit => ?_⟩
  · rw [hrx hd, rxService_of_set (s := s.withSched cs) hbit]
    exact endpointService_silent (s := s.withSched cs) serviceMask_rx hi hc hcb hsil
  · exact (hrx hd).trans (rxService_of_clear (s := s.withSched cs) hbit)
  · rw [htx hd, txService_of_set (s := s.withSched cs) hbit]
    exact endpointService_silent (s := s.withSched cs) serviceMask_tx hi hc hcb hsil
  · exact (htx hd).trans (txService_of_clear (s := s.withSched cs) hbit)

/-! ## The event services -/

/-- The handler an event service calls (R181 to R186). -/
def eventHandler (c : Config) : Event → List Access
  | .reset   => resetHandler c
  | .suspend => suspendHandler
  | .wakeup  => wakeupHandler
  | .sof     => sofHandler
  | .overrun | .error => []

/-- The flag that enables its callback (R11); for the errors the one that enables the service. -/
def eventEnabled (c : Config) : Event → Bool
  | .reset   => c.resetEvent
  | .suspend => c.suspendEvent
  | .wakeup  => c.wakeupEvent
  | .sof     => c.sofEvent
  | .overrun | .error => c.errorEvent

/-- Its callback (R93). -/
def eventCallback : Event → BusEvent
  | .reset   => .reset
  | .suspend => .suspend
  | .wakeup  => .resume
  | .sof     => .startOfFrame
  | .overrun => .error .overrun
  | .error   => .error .generic

/-- An event's instruction is its service, or passes on where `ERROR_EVENT` is off (R181 to R186). -/
theorem exec_eventInstr_cases (e : Event) (s : State) :
    exec (eventInstr e) s = eventService e (eventHandler s.cfg e) (eventEnabled s.cfg e) (eventCallback e) s ∨
    (eventEnabled s.cfg e = false ∧ exec (eventInstr e) s = skipEvent e s) := by
  cases e with
  | overrun | error =>
    cases he : s.cfg.errorEvent with
    | true => exact .inl (by simp [eventInstr, exec, execIstrPmaovr, execIstrErr, eventHandler, eventEnabled,
        eventCallback, he])
    | false => exact .inr ⟨he, exec_errorService (by simp) (by simp [he])⟩
  | _ => exact .inl rfl

/-- With its flag set an event's instruction is its service, callback and all. -/
theorem exec_eventInstr_enabled {e : Event} {s : State} (h : eventEnabled s.cfg e = true) :
    exec (eventInstr e) s = eventService e (eventHandler s.cfg e) true (eventCallback e) s := by
  obtain he | ⟨hno, -⟩ := exec_eventInstr_cases e s
  · rwa [h] at he
  · rw [h] at hno; cases hno

theorem eventHandler_isLoad (c : Config) (e : Event) : ∀ a ∈ eventHandler c e, a.isLoad = false := by
  cases e <;> simp [eventHandler, suspendHandler, wakeupHandler, sofHandler, Access.isLoad]

theorem eventHandler_isEmit (c : Config) (e : Event) : ∀ a ∈ eventHandler c e, a.isEmit = false := by
  cases e <;> simp [eventHandler, suspendHandler, wakeupHandler, sofHandler, Access.isEmit]

theorem length_eventHandler (c : Config) (e : Event) :
    (eventHandler c e).length = match e with
      | .reset => 14 | .suspend | .wakeup => 2 | .sof | .overrun | .error => 0 := by
  cases e <;> rfl

/-- The handler of an event leads from `s` to `t`, with the values `l` read: it leaves `ISTR`, `DPH` and a waiting service
as they are, and does the same whatever the callback inputs are. -/
structure Handled (e : Event) (l : Locals) (s t : State) : Prop where
  list : performList (eventHandler s.cfg e) {} s = .ok (l, t)
  istr : t.istr = s.istr
  dph : t.dph = s.dph
  dispHeld : t.dispHeld = s.dispHeld
  callbacks : ∀ cmds script, performList (eventHandler s.cfg e) {} ((s.withCbCmds cmds).withCbScript script) =
    .ok (l, (t.withCbCmds cmds).withCbScript script)

/-- Every handler does so (R159, R167 to R169). -/
theorem exists_handled {s : State} (hwf : s.cfg.wf = true) (e : Event) : ∃ l t, Handled e l s t := by
  cases e with
  | reset =>
    exact ⟨_, _, performList_resetHandler hwf, rfl, rfl, rfl,
      fun cmds script => performList_resetHandler (s := (s.withCbCmds cmds).withCbScript script) hwf⟩
  | _ => exact ⟨_, _, rfl, rfl, rfl, rfl, fun _ _ => rfl⟩

/-- An event service whose callback issues commands waits for them with the clear of its bit still to come (R192). -/
theorem eventService_waits {e : Event} {handler : List Access} {ev : BusEvent} {l : Locals} {s t : State}
    {cmds : List Request} {rest : List (List Request)} (hl : ∀ a ∈ handler, a.isLoad = false)
    (hn : ∀ a ∈ handler, a.isEmit = false) (hh : performList handler {} s = .ok (l, t))
    (hi : busHandler s.cfg ev = .installed) (hne : cmds ≠ []) (hcs : s.cbScript = cmds :: rest)
    (hc : s.calm handler.length) :
    eventService e handler true ev s = .next { t with
      sched := s.sched.drop handler.length
      cbCmds := cmds
      cbScript := rest
      dispHeld := some ⟨[.writeIstr (eventClear e)], l, .phase (nextPhase e)⟩
      out := t.out ++ [.busCall ev] } := by
  obtain ⟨hcfg, hsched, -, hscript⟩ := performList_frame hn hh
  have hrun := run_calm_emit (a := .emitBus ev) (bs := [.writeIstr (eventClear e)]) (l := {})
    (fin := .phase (nextPhase e)) hl hn rfl hi hcs hne hc
  have hemit : perform (.emitBus ev) l t = .ok (l, ((put (.busCall ev) t).withCbCmds cmds).withCbScript rest) := by
    simp only [perform, hcfg, hi]
    rw [emit_issues (hscript.trans hcs)]
  rw [performList_append, hh] at hrun
  simp only [Except.bind, performList, hemit, Except.map] at hrun
  rw [eventService, start, if_pos rfl, List.append_assoc, List.singleton_append, hrun, ← hsched]
  rfl

/-- With a callback that issues commands an event service ends in the state of the silent one, but for what is held. -/
theorem exec_eventInstr_waits {s : State} {cmds : List Request} {rest : List (List Request)} {e : Event}
    (hwf : s.cfg.wf = true) (hne : cmds ≠ []) (hcs : s.cbScript = cmds :: rest) (hc : s.calm 15)
    (hen : eventEnabled s.cfg e = true) (hi : busHandler s.cfg (eventCallback e) = .installed) :
    ∃ (u : State) (l : Locals), exec (eventInstr e) { s with cbCmds := [], cbScript := [] } = .next u ∧
      exec (eventInstr e) s = .next { u with
        istr := s.istr
        dph := s.dph
        sched := s.sched.drop (eventHandler s.cfg e).length
        cbCmds := cmds
        cbScript := rest
        dispHeld := some ⟨[.writeIstr (eventClear e)], l, .phase (nextPhase e)⟩ } := by
  obtain ⟨l, t, ht⟩ := exists_handled hwf e
  have hlen : (eventHandler s.cfg e).length ≤ 14 := by rw [length_eventHandler]; cases e <;> simp
  have hsilent := eventService_calm (e := e) (flag := true) (ev := eventCallback e)
    (s := (s.withCbCmds []).withCbScript []) (eventHandler_isLoad _ e) (eventHandler_isEmit _ e) (ht.callbacks [] []) rfl
    (fun _ => .inr rfl) (State.calm_of_le (s := s) hc (by omega))
  have hwaits := eventService_waits (e := e) (eventHandler_isLoad _ e) (eventHandler_isEmit _ e) ht.list hi hne hcs
    (State.calm_of_le hc (by omega))
  refine ⟨_, l, (exec_eventInstr_enabled (s := (s.withCbCmds []).withCbScript []) hen).trans hsilent, ?_⟩
  rw [exec_eventInstr_enabled hen, hwaits, ← ht.istr, ← ht.dph]
  rfl

/-! ## What the commands of a callback leave alone -/

/-- The waiting service, the commands behind the present one and the sequences to come are as they were in `s`. -/
structure CallbackWaits (s u : State) : Prop where
  dispHeld : u.dispHeld = s.dispHeld
  cbCmds : u.cbCmds = s.cbCmds
  cbScript : u.cbScript = s.cbScript

theorem CallbackWaits.enterDispatcher {s u : State} (h : CallbackWaits s u) : CallbackWaits s (enterDispatcher u) := by
  rw [enterDispatcher_eq, readIstr_snd]
  exact { h with }

theorem CallbackWaits.boundary {s u v : State} {b : Bool} (h : CallbackWaits s u) (e : boundary u = .ok (v, b)) :
    CallbackWaits s v := by
  refine othersMove_rec (P := CallbackWaits s) (fun m u v _ hm h => ?_) (fun _ _ h => h.enterDispatcher)
    (fun _ _ _ h => { h with }) (fun _ h => h) h e
  have hf := busMove_frame hm
  exact ⟨hf.dispHeld.trans h.dispHeld, hf.cbCmds.trans h.cbCmds, hf.cbScript.trans h.cbScript⟩

/-- Accesses without a callback leave them alone, under every schedule. -/
theorem CallbackWaits.run {s u t : State} {as : List Access} {l : Locals} {fin : Finish} (h : CallbackWaits s u)
    (hn : ∀ a ∈ as, a.isEmit = false) (e : run as l fin u = .ok t) : CallbackWaits s t := by
  refine run_rec (A := fun a => a.isEmit = false) (Q := fun _ => CallbackWaits s) (R := CallbackWaits s)
    (fun _ _ _ => rfl) ?_ (fun _ _ _ _ h e => h.boundary e) ?_ (fun _ _ _ _ _ _ h => { h with }) ?_ hn h e
  · intro a l u l1 v ha h e
    have hf := perform_frame e
    exact ⟨hf.dispHeld.trans h.dispHeld, (hf.cbCmds ha).trans h.cbCmds, (hf.cbScript ha).trans h.cbScript⟩
  · intro l u h
    obtain ⟨w, e⟩ | ⟨p, -, e⟩ := finish_eq fin l u <;> rw [e] <;> exact { h with }
  · intro a _ _ _ _ _ ha he
    rw [ha] at he
    cases he

/-- Every instruction but the event services leaves them alone, under every schedule: it makes no callback. -/
theorem exec_event_or_callbackWaits {i : Instr} {s t : State} (h : exec i s = .next t) :
    (∃ e, i = eventInstr e) ∨ CallbackWaits s t := by
  have hs : CallbackWaits s s := ⟨rfl, rfl, rfl⟩
  cases i with
  | istrReset => exact .inl ⟨.reset, rfl⟩
  | istrSusp => exact .inl ⟨.suspend, rfl⟩
  | istrWkup => exact .inl ⟨.wakeup, rfl⟩
  | istrSof => exact .inl ⟨.sof, rfl⟩
  | istrPmaovr => exact .inl ⟨.overrun, rfl⟩
  | istrErr => exact .inl ⟨.error, rfl⟩
  | configEp ep ty m =>
    have h1 := withEndpoint_next h
    split at h1
    · cases h1
    · exact .inr (hs.run (by simp [Access.isEmit]) (toOutcome_next h1))
  | writeEp ep n =>
    exact .inr (CallbackWaits.run (u := takeDin n.toNat s) { hs with } (by simp [Access.isEmit])
      (toOutcome_next (withEndpoint_next h)))
  | enableEp | disableEp | resetEp | stallEp | readEp | setStatus | istrCtr =>
    exact .inr (hs.run (by simp [Access.isEmit]) (toOutcome_next (withEndpoint_next h)))
  | clrStall ep =>
    exact .inr (hs.run (as := clrStallAccesses s.cfg ep) (by simp [Access.isEmit]) (toOutcome_next (withEndpoint_next h)))
  | init | connect | setAddr | setConfig | getFrame | alloc =>
    simp only [exec, execInit, execConnect, execSetAddr, execSetConfig, execGetFrame, execAlloc] at h
    exact .inr (hs.run (by simp [Access.isEmit]) (toOutcome_next h))

/-! ## The service goes on -/

/-- With the commands of the callback done the waiting service goes on (R192). -/
theorem step_go_waiting {s : State} {f : Frame} {cs : List Choice} (hwf : s.cfg.wf = true) (hd : s.dph ≠ .idle)
    (hcb : s.cbCmds = []) (hs : s.sched = .go :: cs) (hf : s.dispHeld = some f) :
    step s = resume f ((s.withSched cs).withDispHeld none) := by
  rw [step_go hwf hs, softwareTurn_of_ne_idle (s := s.withSched cs) hd]
  simp only [dispatcherTurn, State.withSched_cbCmds, hcb, State.withSched_dispHeld, hf]

/-- Settles O38: the callback comes after the accesses a silent one comes after, its commands touch nothing of what
waits, and what waits is the phase, or the clear of the event's bit and the phase. -/
theorem callbackCommands : Obligations.CallbackCommands := by
  unfold Obligations.CallbackCommands
  refine ⟨fun s cmds rest hi hh hne hcs hc => ⟨fun hbit => ?_, fun hbit => ?_⟩, fun s cmds rest e hwf hne hcs hc => ?_,
    fun i s t h => ?_, fun s cs l hwf hd hcb hs => ⟨fun p hf => ?_, fun e hf => ?_⟩⟩
  · rw [rxService_of_set hbit]
    exact endpointService_waits serviceMask_rx hi hc hh hne hcs
  · rw [txService_of_set hbit]
    exact endpointService_waits serviceMask_tx hi hc hh hne hcs
  · have hwaits := exec_eventInstr_waits (e := e) hwf hne hcs hc
    rw [length_eventHandler] at hwaits
    cases e <;> exact hwaits
  · obtain ⟨e, rfl⟩ | ⟨hheld, hcmds, hscript⟩ := exec_event_or_callbackWaits h
    · cases e <;> trivial
    · cases i with
      | istrReset | istrSusp | istrWkup | istrSof | istrPmaovr | istrErr => trivial
      | _ => exact ⟨hheld, hcmds, hscript⟩
  · rw [step_go_waiting hwf hd hcb hs hf]
    rfl
  · rw [step_go_waiting hwf hd hcb hs hf]
    rfl

end Sys2Proof.Machine
end

section
/-! Settles O60. An invocation with nothing coming between ends (R198): an event phase leads to the next one in one step,
and a turn of the endpoint loop takes its endpoint out of the pending ones, of which there are at most sixteen. -/

namespace Sys2Proof.Machine

/-! ## Ending within a number of steps -/

/-- Within `k` steps the invocation ends with no completion pending. -/
def EndsWithin (k : Nat) (s : State) : Prop :=
  ∃ n t, n ≤ k ∧ steps n s = .next t ∧ t.dph = .idle ∧ pending t = []

theorem EndsWithin.of_steps {k m : Nat} {s t : State} (h : steps m s = .next t) (ht : EndsWithin k t) :
    EndsWithin (m + k) s := by
  obtain ⟨n, u, hn, hsteps, hu⟩ := ht
  exact ⟨m + n, u, by omega, (steps_add n h).trans hsteps, hu⟩

theorem EndsWithin.of_step {k : Nat} {s t : State} (h : step s = .next t) (ht : EndsWithin k t) :
    EndsWithin (k + 1) s := Nat.add_comm 1 k ▸ of_steps (steps_one h) ht

theorem EndsWithin.mono {j k : Nat} {s : State} (h : EndsWithin j s) (hjk : j ≤ k) : EndsWithin k s := by
  obtain ⟨n, t, hn, ht⟩ := h
  exact ⟨n, t, hn.trans hjk, ht⟩

/-! ## The endpoint loop -/

theorem length_pending_le (s : State) : (pending s).length ≤ 16 := List.length_filter_le _ indices

/-- A served turn leaves fewer endpoints pending (R198). -/
theorem TurnServed.length_pending_lt {i : Fin 16} {s t : State} (h : TurnServed i s t) (hi : i ∈ Machine.pending s) :
    (Machine.pending t).length < (Machine.pending s).length := by
  rw [h.pending]
  exact List.length_filter_lt_length_iff_exists.2 ⟨i, hi, by simp⟩

/-- A loop's top that finds nothing pending ends the invocation (R178). -/
theorem endsWithin_of_none {s : State} (h : s.Undisturbed) (hd : s.dph = .epTop) (hp : pending s = []) :
    EndsWithin 1 s := by
  obtain ⟨w, n, hend⟩ := phaseTurn_none hd hp
  have hstep : step s = _ := (step_undisturbed h (by simp [hd])).trans hend
  exact ⟨1, _, le_rfl, steps_one hstep, rfl, hp⟩

/-- Three steps for each pending endpoint, and one that finds none (R187). -/
theorem endsWithin_of_pending {k : Nat} {s : State} (h : s.Undisturbed) (hd : s.dph = .epTop)
    (hk : (pending s).length ≤ k) : EndsWithin (3 * k + 1) s := by
  induction k generalizing s with
  | zero => exact endsWithin_of_none h hd (List.length_eq_zero_iff.1 (Nat.le_zero.1 hk))
  | succ k ih =>
    by_cases hp : pending s = []
    · exact (endsWithin_of_none h hd hp).mono (by omega)
    · obtain ⟨i, hi, t, hturn, ht⟩ := steps_turn h hd hp
      have hlt := ht.length_pending_lt hi
      exact (EndsWithin.of_steps hturn (ih ht.undisturbed ht.dph (by omega))).mono (by omega)

/-! ## From any phase -/

theorem endsWithin_of_epTop {s : State} (h : s.Undisturbed) (hd : s.dph = .epTop) : EndsWithin 49 s :=
  endsWithin_of_pending h hd (length_pending_le s)

theorem endsWithin_of_epTx {s : State} (h : s.Undisturbed) (hd : s.dph = .epTx) : EndsWithin 50 s := by
  have hstep : step s = .next (afterTx s) := by
    rw [step_undisturbed h (by simp [hd]), phaseTurn, hd]
    exact txService_undisturbed h
  exact .of_step hstep (endsWithin_of_epTop ((serve_undisturbed h).congr rfl rfl rfl rfl rfl) rfl)

theorem endsWithin_of_epRx {s : State} (h : s.Undisturbed) (hd : s.dph = .epRx) : EndsWithin 51 s := by
  have hstep : step s = .next (afterRx s) := by
    rw [step_undisturbed h (by simp [hd]), phaseTurn, hd]
    exact rxService_undisturbed h
  exact .of_step hstep (endsWithin_of_epTx ((serve_undisturbed h).congr rfl rfl rfl rfl rfl) rfl)

/-- An event service with nothing coming between leads to the next phase, undisturbed (R180). -/
theorem exec_eventInstr_undisturbed {s : State} (h : s.Undisturbed) (e : Event) :
    ∃ t, exec (eventInstr e) s = .next t ∧ t.Undisturbed ∧ t.dph = nextPhase e := by
  obtain hexec | ⟨-, hskip⟩ := exec_eventInstr_cases e s
  · obtain ⟨l, t, ht⟩ := exists_handled h.wf e
    obtain ⟨hcfg, hsched, hcmds, -⟩ := performList_frame (eventHandler_isEmit _ e) ht.list
    refine ⟨_, hexec.trans (eventService_calm (eventHandler_isLoad _ e) (eventHandler_isEmit _ e) ht.list h.cbCmds
      (fun _ => h.silent _) (h.calm _)), ⟨?_, ?_, hcmds.trans h.cbCmds, ht.dispHeld.trans h.dispHeld, ?_⟩, rfl⟩
    · simp only [hcfg, h.wf]
    · simp only [h.sched, List.drop_nil]
    · simp only [h.scriptAfter, ite_self, h.cbScript]
  · exact ⟨_, hskip, h.congr rfl rfl rfl rfl rfl, rfl⟩

/-- So does the step of an event phase, whether or not the event is in the snapshot (R180). -/
theorem step_event_undisturbed {s : State} (h : s.Undisturbed) {e : Event} (hd : s.dph = .ev e) :
    ∃ t, step s = .next t ∧ t.Undisturbed ∧ t.dph = nextPhase e := by
  have halone : s.DispatcherAlone := { h with }
  cases hbit : s.snap.getLsbD (eventBit e) with
  | true =>
    rw [halone.step_service hd hbit]
    exact exec_eventInstr_undisturbed h e
  | false => exact ⟨_, halone.step_skip hd hbit, h.congr rfl rfl rfl rfl rfl, rfl⟩

/-- An event phase takes one step more than the phase after it. -/
theorem endsWithin_of_event {e : Event} {k : Nat}
    (hnext : ∀ t : State, t.Undisturbed → t.dph = nextPhase e → EndsWithin k t) (s : State) (h : s.Undisturbed)
    (hd : s.dph = .ev e) : EndsWithin (k + 1) s := by
  obtain ⟨t, hstep, ht, htd⟩ := step_event_undisturbed h hd
  exact .of_step hstep (hnext t ht htd)

/-- The steps an invocation takes at most from a phase: three for each of sixteen endpoints and one to end, and one for
each service or check before the loop's top. -/
def Phase.stepsLeft : Phase → Nat
  | .idle        => 0
  | .epTop       => 49
  | .epTx        => 50
  | .epRx        => 51
  | .ev .error   => 50
  | .ev .overrun => 51
  | .ev .sof     => 52
  | .ev .wakeup  => 53
  | .ev .suspend => 54
  | .ev .reset   => 55

theorem endsWithin_stepsLeft {s : State} (h : s.Undisturbed) (hd : s.dph ≠ .idle) : EndsWithin s.dph.stepsLeft s := by
  have herror := endsWithin_of_event (e := .error) fun _ => endsWithin_of_epTop
  have hoverrun := endsWithin_of_event (e := .overrun) herror
  have hsof := endsWithin_of_event (e := .sof) hoverrun
  have hwakeup := endsWithin_of_event (e := .wakeup) hsof
  have hsuspend := endsWithin_of_event (e := .suspend) hwakeup
  have hreset := endsWithin_of_event (e := .reset) hsuspend
  match hp : s.dph with
  | .idle => exact absurd hp hd
  | .epTop => exact endsWithin_of_epTop h hp
  | .epTx => exact endsWithin_of_epTx h hp
  | .epRx => exact endsWithin_of_epRx h hp
  | .ev .error => exact herror s h hp
  | .ev .overrun => exact hoverrun s h hp
  | .ev .sof => exact hsof s h hp
  | .ev .wakeup => exact hwakeup s h hp
  | .ev .suspend => exact hsuspend s h hp
  | .ev .reset => exact hreset s h hp

theorem Phase.stepsLeft_le (p : Phase) : p.stepsLeft ≤ 60 := by
  cases p with
  | ev e => cases e <;> decide
  | _ => decide

/-- Settles O60: at most six checks, three steps for each pending endpoint, and the read of `ISTR` that finds none. -/
theorem invocationEnds : Obligations.InvocationEnds := by
  unfold Obligations.InvocationEnds
  intro s hwf hd hcb hh hs hscript
  exact (endsWithin_stepsLeft ⟨hwf, hs, hcb, hh, hscript⟩ hd).mono s.dph.stepsLeft_le

end Sys2Proof.Machine
end

section
/-! Settles O29, O31, O33 and O51. `READ_EP` and `WRITE_EP` where the fields they read are written and their words lie
inside the arena (R201 to R207), a packet stored and delivered again (R209), and the bytes of the arena that no
instruction changes (R205, R208, R264). -/

namespace Sys2Proof.Machine

/-! ## `READ_EP` of a written buffer -/

/-- Settles O29: the two fields are read as they stand, and so are the words they name. -/
theorem readEpResult : Obligations.ReadEpResult := by
  unfold Obligations.ReadEpResult
  intro s ep off n bytes hi haddr hlen he hb hl hr hc
  have hwords : (n.toNat + 1) / 2 = wordsOf n.toNat := rfl
  rw [hwords] at hb hl hc ⊢
  have hread : readWords off.toNat (wordsOf n.toNat) (s.later 2) = .ok (bytes, s.later 2) :=
    readWords_written he hb hl fun k hk => hr k (hl ▸ hk)
  have hrun := run_load_calm (i := ep.idx) (l := { off := off, len := n }) (s := s.later 2) hi
    (State.calm_later (State.calm_of_le hc (show 2 + (max 1 (wordsOf n.toNat) + 1) ≤ _ by omega))) hread
  have hfields := run_readAccesses_calm (i := ep.idx) (State.calm_of_le hc (show 2 ≤ _ by omega))
  rw [haddr, hlen, readCell_some, readCell_some] at hfields
  have hdrop : 2 + (max 1 (wordsOf n.toNat) + 1) = 3 + max 1 (wordsOf n.toNat) := by omega
  rw [exec, execReadEp, withEndpoint, if_pos hi, start, hfields, hrun]
  simp [toOutcome, State.later, State.withSched, hdrop]

/-! ## `WRITE_EP` into a buffer inside the arena -/

/-- A byte that is on `DIN` is no free value (R82). -/
theorem some_dinByte {s : State} {k : Nat} (h : k < s.din.length) : some (dinByte s k) = s.din[k]? := by
  simp [dinByte, h]

/-- Settles O31: the packet is stored by its words, none of them past the arena, and the endpoint is armed. -/
theorem writeEpResult : Obligations.WriteEpResult := by
  unfold Obligations.WriteEpResult
  intro s ep n off hi haddr he hb hdin hc
  have hwords : (n.toNat + 1) / 2 = wordsOf n.toNat := rfl
  rw [hwords] at hb hc ⊢
  have hoff : readCell (takeDin n.toNat s).bd[ep.idx].txaddr (takeDin n.toNat s) = (off, takeDin n.toNat s) :=
    congrArg (readCell · (takeDin n.toNat s)) haddr
  obtain ⟨t1, v, hst, hlist⟩ := performList_writeAccesses_even (s := takeDin n.toNat s) (data := dinByte s)
    (pad := s.cfg.padByte) (l := { len := n }) hi (.inl (by rw [hoff]; exact he))
  have hexec : exec (.writeEp ep n) s = toOutcome _ :=
    (if_pos hi).trans (congrArg toOutcome (run_writeAccesses_calm (s := takeDin n.toNat s) hc))
  rw [hlist] at hexec
  rw [hoff] at hst
  have hfaults : t1.faults = s.faults := by
    rw [hst.faults]
    simp [takeDin, Nat.not_lt.2 hb]
  have hfresh : t1.fresh = s.fresh := by
    rw [hst.frame]
    simp [takeDin, hdin]
  refine ⟨_, hexec, ?_, fun k hk => ?_, fun hodd => hst.pad hodd ?_, fun a ha => hst.other a (ha.imp_right .inl)⟩
  · simp [finish, put, resultWord_count, hfaults, hfresh, State.later, State.withSched, State.withOut, takeDin]
  · have hword : off.toNat + 2 * (k / 2) + 2 ≤ s.cfg.pmaSize := by omega
    exact (hst.byte k hk hword).trans (some_dinByte (by omega))
  · show off.toNat + n.toNat + 1 ≤ s.cfg.pmaSize
    omega

/-! ## A packet stored and delivered -/

/-- The bytes an `n`-byte packet fills its words with: its own, and `pad` above an odd packet's last (R205, R206). -/
def paddedBytes (n : Nat) (data : List Byte) (pad : Byte) : List Byte :=
  data.take n ++ if n % 2 = 1 then [pad] else []

section
variable {n : Nat} {data : List Byte} {pad : Byte} (h : n ≤ data.length)
include h

theorem length_paddedBytes : (paddedBytes n data pad).length = 2 * ((n + 1) / 2) := by
  unfold paddedBytes
  split <;> simp <;> omega

theorem take_paddedBytes : (paddedBytes n data pad).take n = data.take n :=
  List.take_left' (List.length_take_of_le h)

theorem getElem?_paddedBytes_of_lt {k : Nat} (hk : k < n) : (paddedBytes n data pad)[k]? = data[k]? := by
  rw [paddedBytes, List.getElem?_append_left (by rw [List.length_take_of_le h]; exact hk), List.getElem?_take_of_lt hk]

theorem getElem?_paddedBytes_self (hodd : n % 2 = 1) : (paddedBytes n data pad)[n]? = some pad := by
  rw [paddedBytes, if_pos hodd, List.getElem?_append_right (List.length_take_le ..), List.length_take_of_le h,
    Nat.sub_self]
  rfl

end

/-- Settles O33: the bytes the words of the packet hold are those `READ_EP` puts out. -/
theorem transferRoundTrip : Obligations.TransferRoundTrip := by
  unfold Obligations.TransferRoundTrip
  intro s t u ep ⟨d, i⟩ n off hi hep haddr he hb hdin hs hexec hu
  obtain rfl : i = ep.idx := hep
  obtain ⟨t1, ht1, hframe, hbyte, hpad, -⟩ :=
    writeEpResult s ep n off hi haddr he hb hdin (by simp [State.calm, hs])
  obtain rfl : t1 = t := Host.Outcome.next.inj (ht1.symm.trans hexec)
  have hcfg : u.cfg = s.cfg := by rw [hu, hframe]
  have hsched : u.sched = [] := by rw [hu, hframe]; simp [hs]
  have hpma : u.pma = t1.pma := by rw [hu]
  have hbd : u.bd[ep.idx] = { t1.bd[ep.idx] with rxaddr := some off, rxlen := some n } := by
    rw [hu]
    exact Vector.getElem_set_self _
  have hstored : ∀ k, k < (paddedBytes n.toNat s.din s.cfg.padByte).length →
      u.pma.read (off.toNat + k) = (paddedBytes n.toNat s.din s.cfg.padByte)[k]? := by
    intro k hk
    rw [length_paddedBytes hdin] at hk
    rw [hpma]
    obtain hlt | ⟨rfl, hodd⟩ : k < n.toNat ∨ k = n.toNat ∧ n.toNat % 2 = 1 := by omega
    · rw [hbyte k hlt, getElem?_paddedBytes_of_lt hdin hlt]
    · rw [hpad hodd, getElem?_paddedBytes_self hdin hodd]
  have hread := readEpResult u ⟨d, ep.idx⟩ off n (paddedBytes n.toNat s.din s.cfg.padByte) (by rw [hcfg]; exact hi)
    (congrArg BufDesc.rxaddr hbd) (congrArg BufDesc.rxlen hbd) he (by rw [hcfg]; exact hb) (length_paddedBytes hdin)
    hstored (by simp [State.calm, hsched])
  exact ⟨_, _, hread, rfl, take_paddedBytes hdin, getElem?_paddedBytes_self hdin, length_paddedBytes hdin⟩

/-! ## The bytes no instruction changes -/

/-- Only a reception changes the arena (R223, R225). -/
theorem busMove_pma {m : BusMove} {s t : State} (hm : ∀ i setup d, m ≠ .rxDone i setup d)
    (h : busMove m s = .ok t) : t.pma = s.pma := by
  cases m with
  | rxDone i setup d => exact absurd rfl (hm i setup d)
  | txDone i =>
    obtain rfl | ⟨-, bs, s1, h1, rfl⟩ := txDone_cases h
    · rfl
    · rw [setEpr_eq, put_eq, (readWords_frame h1).1]
      simp [readCell_snd]
  | _ =>
    simp only [busMove, Except.ok.injEq] at h
    subst h
    split <;> rfl

/-- With no reception ahead a move on the schedule leaves the arena as it is. -/
theorem State.noReception.busMove_pma {s u v : State} (hn : s.noReception) {m : BusMove}
    (hm : Choice.bus m ∈ s.sched) (h : busMove m u = .ok v) : v.pma = u.pma :=
  Machine.busMove_pma (fun i setup d e => hn i setup d (e ▸ hm)) h

/-- No instruction but `WRITE_EP` stores to the arena. -/
theorem accessesOf_isStore {i : Instr} (hi : ∀ ep n, i ≠ .writeEp ep n) (s : State) :
    ∀ a ∈ accessesOf s i, a.isStore = false := by
  cases i with
  | writeEp ep n => exact absurd rfl (hi ep n)
  | istrPmaovr | istrErr =>
    simp only [accessesOf]
    split <;> simp [Access.isStore]
  | _ => simp [accessesOf, suspendHandler, wakeupHandler, sofHandler, Access.isStore]

theorem exec_pma {i : Instr} {s t : State} (hi : ∀ ep n, i ≠ .writeEp ep n) (hn : s.noReception)
    (h : exec i s = .next t) : t.pma = s.pma :=
  exec_keeps_value (A := fun a => a.isStore = false) (fun _ _ e => e.pma) (fun _ _ _ => rfl)
    (fun _ _ _ _ _ ha e => (perform_frame e).pma ha) (fun _ _ _ hm => hn.busMove_pma hm) (accessesOf_isStore hi s) h

/-! ## The bytes `WRITE_EP` stores to -/

/-- From `s` to `u` the byte at `a` is as before, and no reception lies ahead. -/
structure ByteKept (a : Nat) (s u : State) : Prop where
  byte : u.pma.read a = s.pma.read a
  noReception : u.noReception

theorem ByteKept.of_same {a : Nat} {s u v : State} (h : ByteKept a s u) (hp : v.pma = u.pma)
    (hs : ∀ c ∈ v.sched, c ∈ u.sched) : ByteKept a s v :=
  ⟨by rw [hp]; exact h.byte, fun i setup d hm => h.noReception i setup d (hs _ hm)⟩

theorem ByteKept.boundary {a : Nat} {s u v : State} {b : Bool} (h : ByteKept a s u) (e : boundary u = .ok (v, b)) :
    ByteKept a s v := by
  refine othersMove_rec (P := ByteKept a s) (fun m u v hm e h => ?_) (fun u _ h => ?_)
    (fun u cs hc h => h.of_same rfl hc) (fun _ h => h) h e
  · exact h.of_same (h.noReception.busMove_pma hm e) (by rw [(busMove_frame e).sched]; exact fun _ h => h)
  · rw [enterDispatcher_eq, readIstr_snd]
    exact h.of_same rfl fun _ h => h

/-- With the offset `off` read, the access leaves the byte at `a` as it is, and the offset as read. -/
def Access.KeepsByte (off : Word) (a : Nat) (x : Access) : Prop :=
  ∀ (l l1 : Locals) (u v : State), l.off = off → perform x l u = .ok (l1, v) →
    l1.off = off ∧ v.pma.read a = u.pma.read a

section
variable {off : Word} {a : Nat}

theorem Access.keepsByte_store {k : Nat} {w : Word} (ha : a < off.toNat + 2 * k ∨ off.toNat + 2 * k + 2 ≤ a) :
    (Access.store k w).KeepsByte off a := by
  rintro l l1 u v rfl h
  simp only [perform] at h
  split at h <;> cases h
  exact ⟨rfl, memWrite_outside_word ‹_› ha⟩

theorem Access.keepsByte_load (k : Nat) : (Access.load k).KeepsByte off a := by
  rintro l l1 u v rfl h
  refine ⟨?_, by rw [(perform_frame h).pma rfl]⟩
  simp only [perform] at h
  split at h <;> cases h
  rfl

theorem Access.keepsByte_writeTxcount (i : Fin 16) (n : Word) : (Access.writeTxcount i n).KeepsByte off a := by
  rintro l l1 u v rfl h
  exact ⟨by cases h; rfl, by rw [(perform_frame h).pma rfl]⟩

theorem Access.keepsByte_setStatus (ep : EpId) (stat : Word) :
    ∀ x ∈ setStatusAccesses ep stat, x.KeepsByte off a := by
  rw [forall_mem_setStatusAccesses]
  constructor <;> rintro l l1 u v rfl h <;> exact ⟨by cases h; rfl, by rw [(perform_frame h).pma rfl]⟩

/-- Accesses that leave a byte alone leave it alone under every schedule without a reception. -/
theorem run_keeps_byte {as : List Access} {l : Locals} {fin : Finish} {s u t : State}
    (hA : ∀ x ∈ as, x.KeepsByte off a) (hl : l.off = off) (hu : ByteKept a s u) (h : run as l fin u = .ok t) :
    t.pma.read a = s.pma.read a := by
  refine run_rec (A := Access.KeepsByte off a) (Q := fun l u => l.off = off ∧ ByteKept a s u)
    (R := fun t => t.pma.read a = s.pma.read a) (fun _ k _ => Access.keepsByte_load k) ?_
    (fun _ _ _ _ hq e => ⟨hq.1, hq.2.boundary e⟩) ?_ (fun _ _ _ _ _ _ hq => hq.2.byte)
    (fun _ _ _ _ _ _ _ _ _ _ hq => hq.2.byte) hA ⟨hl, hu⟩ h
  · rintro x l u l1 v hx ⟨hl, hu⟩ e
    obtain ⟨hl1, hbyte⟩ := hx l l1 u v hl e
    refine ⟨hl1, hbyte.trans hu.byte, ?_⟩
    rw [State.noReception, (perform_frame e).sched]
    exact hu.noReception
  · rintro l u ⟨-, hu⟩
    obtain ⟨w, e⟩ | ⟨p, -, e⟩ := finish_eq fin l u <;> rw [e] <;> exact hu.byte

/-- The accesses of `WRITE_EP` after the read of the offset leave every byte outside the packet's words alone. -/
theorem writeAccesses_keepsByte {n : Nat} (ha : a < off.toNat ∨ off.toNat + 2 * wordsOf n ≤ a) (i : Fin 16)
    (data : Nat → Byte) (pad : Byte) :
    ∀ x ∈ storeAccesses n data pad ++
      .writeTxcount i (BitVec.ofNat 16 n) :: setStatusAccesses ⟨.IN, i⟩ (txStat .valid), x.KeepsByte off a := by
  rw [List.forall_mem_append, List.forall_mem_cons, forall_mem_storeAccesses]
  exact ⟨fun k hk => Access.keepsByte_store (by omega), Access.keepsByte_writeTxcount _ _,
    Access.keepsByte_setStatus _ _⟩

end

/-- `WRITE_EP` changes no byte outside its words from the offset it reads. -/
theorem run_writeAccesses_keeps_byte {i : Fin 16} {n a : Nat} {data : Nat → Byte} {pad : Byte} {l : Locals}
    {fin : Finish} {s t : State} (hn : s.noReception)
    (ha : a < (readCell s.bd[i].txaddr s).1.toNat ∨ (readCell s.bd[i].txaddr s).1.toNat + 2 * wordsOf n ≤ a)
    (h : run (writeAccesses i n data pad) l fin s = .ok t) : t.pma.read a = s.pma.read a := by
  rw [writeAccesses, List.cons_append] at h
  obtain ⟨l1, s1, hp, hcases⟩ := run_cons_cases ⟨rfl, rfl⟩ h
  have hkept : ByteKept a s s1 :=
    ByteKept.of_same (u := s) ⟨rfl, hn⟩ ((perform_frame hp).pma rfl)
      (by rw [(perform_frame hp).sched]; exact fun _ h => h)
  cases hp
  obtain ⟨hnil, -⟩ | ⟨s2, hb, hrun⟩ | ⟨s2, hb, rfl⟩ := hcases
  · exact absurd hnil (by simp)
  · exact run_keeps_byte (writeAccesses_keepsByte ha i data pad) rfl (hkept.boundary hb) hrun
  · exact (hkept.boundary hb).byte

/-- Settles O51: `WRITE_EP` reads its offset and stores from there, and no other instruction stores at all. -/
theorem arenaFrame : Obligations.ArenaFrame := by
  unfold Obligations.ArenaFrame
  intro i s t hn h
  cases i with
  | writeEp ep n =>
    intro a ha
    exact run_writeAccesses_keeps_byte (s := takeDin n.toNat s) hn ha (toOutcome_next (withEndpoint_next h))
  | _ => exact fun a => congrArg (Memory.read · a) (exec_pma (by simp) hn h)

end Sys2Proof.Machine
end

section
/-! Settles O45 and O49. The six bus events as steps (R217 to R222), and what no move of the bus agent does (R225): the
state after a reception and after a transmission in one form each, then one limit at a time. -/

namespace Sys2Proof.Machine

/-! ## The six bus events -/

/-- A move that has an effect, as a step. -/
theorem step_bus_moved {s t : State} {m : BusMove} {cs : List Choice} (hwf : s.cfg.wf = true) (hs : s.sched = .bus m :: cs)
    (h : busMove m (s.withSched cs) = .ok t) : step s = .next t := by
  rw [step_bus hwf hs, h]
  rfl

/-- Settles O45: each event is enabled in its mode of `CNTR` (R216), and its update of the state is the one stated. -/
theorem busEvents : Obligations.BusEvents := by
  unfold Obligations.BusEvents
  intro s cs hwf hres
  refine ⟨fun hs => ?_, fun hsusp hs => ?_, fun hsusp => ?_⟩
  · have hfree : ¬ heldInReset (s.withSched cs) = true := ne_true_of_eq_false hres
    exact step_bus_moved hwf hs (congrArg Except.ok (if_neg hfree))
  · have hsuspended : busSuspended (s.withSched cs) = true := busSuspended_iff.2 ⟨hres, hsusp⟩
    exact step_bus_moved hwf hs (congrArg Except.ok (if_pos hsuspended))
  · have hactive : busActive (s.withSched cs) = true := busActive_iff.2 ⟨hres, hsusp⟩
    refine ⟨fun hs => ?_, fun f hs => ?_, fun hs => ?_, fun hs => ?_⟩ <;>
      exact step_bus_moved hwf hs (congrArg Except.ok (if_pos hactive))

/-! ## Packets -/

theorem readCell_pma {w : Nat} (c : Option (BitVec w)) (s : State) : (readCell c s).2.pma = s.pma := by cases c <;> rfl

/-- The offset a reception reads, after the receive-count word (R223). -/
def rxOffset (i : Fin 16) (s : State) : Nat := (readCell s.bd[i].rxaddr (readCell s.bd[i].rxenc s).2).1.toNat

/-- A packet that has been stored has an even offset, or no byte (R64). -/
theorem storePacket_offset {i : Fin 16} {setup : Bool} {d : List Byte} {s t : State} (h : storePacket i setup d s = .ok t) :
    (readCell s.bd[i].rxaddr s).1.toNat % 2 = 0 ∨ d = [] := by
  by_contra hodd
  obtain ⟨ho, hd⟩ := not_or.1 hodd
  cases (storePacket_misaligned (Nat.mod_two_ne_zero.1 ho) hd).symm.trans h

/-- The state after a reception: a fault may be recorded and a free value drawn; or the direction was Valid and the words
of the packet, its length and the register have been written (R223). -/
theorem rxDone_result {i : Fin 16} {setup : Bool} {d : List Byte} {s t : State} (h : rxDone i setup d s = .ok t) :
    (∃ f n, t = { s with faults := f, fresh := n }) ∨
    statRx s.epr[i] = 3 ∧ ∃ m f n,
      t = { s with
        pma := m
        bd := s.bd.set i { s.bd[i] with rxlen := some (BitVec.ofNat 10 d.length) }
        epr := s.epr.set i (eprAfterRx s.epr[i] setup)
        faults := f
        fresh := n } ∧
      ∀ a, a < rxOffset i s ∨ rxOffset i s + 2 * wordsOf d.length ≤ a → m.read a = s.pma.read a := by
  obtain ⟨k, hk⟩ := readCell_next s.bd[i].rxenc s
  obtain rfl | ⟨-, rfl⟩ | ⟨hr, cap, -, -, hstore⟩ := rxDone_cases h
  · exact .inl ⟨_, _, rfl⟩
  · exact .inl ⟨_, _, hk⟩
  · obtain ⟨-, -, hi, hstat, -⟩ := rxReady_iff.1 hr
    obtain ⟨t1, pad, hstored, hok⟩ :=
      storePacket_even (setup := setup) (by rwa [readCell_cfg]) (storePacket_offset hstore)
    have ht := (Except.ok.inj (hok.symm.trans hstore)).symm
    rw [readCell_epr, readCell_bd] at ht
    refine .inr ⟨hstat, t1.pma, t1.faults, t1.fresh, ht.trans ?_, fun a ha => ?_⟩
    · rw [hk]
    · have hother := hstored.other a
      rw [readCell_bd] at hother
      rw [hother (ha.imp_right .inl), drawn_eq, State.withFresh_pma, readCell_pma, readCell_pma]

/-- The state after a transmission: as before; or the direction was Valid and the packet has been put out (R224). -/
theorem txDone_result {i : Fin 16} {s t : State} (h : txDone i s = .ok t) :
    t = s ∨ statTx s.epr[i] = 3 ∧ ∃ f n o,
      t = { s with epr := s.epr.set i (eprAfterTx s.epr[i]), faults := f, fresh := n, out := o } := by
  obtain rfl | ⟨hr, bs, s1, hread, -⟩ := txDone_cases h
  · exact .inl rfl
  · obtain ⟨-, -, -, hstat, -⟩ := txReady_iff.1 hr
    exact .inr ⟨hstat, _, _, _, Except.ok.inj (h.symm.trans (txDone_sent hr hread))⟩

/-- A relation that holds between each entry and itself, and between the one at `i` and its new value, holds between
the entries before and after the update. -/
theorem forall_getElem_set {α : Type} {R : α → α → Prop} (hrefl : ∀ a, R a a) {v : Vector α 16} {i : Fin 16} {x : α}
    (hx : R v[i] x) (j : Fin 16) : R v[j] (v.set i x)[j] := by
  rw [Fin.getElem_fin, Fin.getElem_fin, Vector.getElem_set]
  split
  · rename_i hij
    obtain rfl := Fin.ext hij
    exact hx
  · exact hrefl _

/-! ## The endpoint registers -/

/-- What a packet changes at most in an endpoint register, from `v` to `w`: type, kind and address stay, no completion bit
is cleared, and a status changes only from Valid to NAK (R225). -/
structure PacketLimits (v w : Word) : Prop where
  fixed : w &&& 0x070F = v &&& 0x070F
  ctrRx : ctrRx v = true → ctrRx w = true
  ctrTx : ctrTx v = true → ctrTx w = true
  statRx : statRx w = statRx v ∨ (statRx v = 3 ∧ statRx w = 2)
  statTx : statTx w = statTx v ∨ (statTx v = 3 ∧ statTx w = 2)

theorem PacketLimits.refl (v : Word) : PacketLimits v v := ⟨rfl, id, id, .inl rfl, .inl rfl⟩

/-- Flipping bits outside a mask leaves those under it. -/
theorem xor_and_of_and_eq_zero {v x m : Word} (h : x &&& m = 0) : (v ^^^ x) &&& m = v &&& m := by
  refine BitVec.eq_of_getLsbD_eq fun k _ => ?_
  have hk : (x &&& m).getLsbD k = false := by rw [h]; exact BitVec.getLsbD_zero
  rw [BitVec.getLsbD_and] at hk
  rw [BitVec.getLsbD_and, BitVec.getLsbD_and, BitVec.getLsbD_xor, Bool.and_xor_distrib_right, hk, Bool.xor_false]

section
variable {v w m : Word} (h : w &&& m = v &&& m)
include h

/-! Words that agree under a mask agree in what the mask covers. -/

theorem and_of_and_eq {p : Word} (hm : m &&& p = p) : w &&& p = v &&& p := by
  rw [← hm, ← BitVec.and_assoc, h, BitVec.and_assoc]

theorem getLsbD_of_and_eq {k : Nat} (hm : m.getLsbD k = true) : w.getLsbD k = v.getLsbD k := by
  simpa [hm] using congrArg (BitVec.getLsbD · k) h

theorem extractLsb'_of_and_eq {k n : Nat} (hm : m.extractLsb' k n = BitVec.allOnes n) :
    w.extractLsb' k n = v.extractLsb' k n := by
  simpa [BitVec.extractLsb'_and, hm] using congrArg (BitVec.extractLsb' k n) h

end

/-- A reception writes bits 15:11 alone (R223). -/
theorem eprAfterRx_kept (v : Word) (setup : Bool) : eprAfterRx v setup &&& 0x07FF = v &&& 0x07FF := by
  have hset : (if setup then (0x0800 : Word) else 0) &&& 0x07FF = 0 := by cases setup <;> rfl
  rw [eprAfterRx_eq, BitVec.and_or_distrib_right, BitVec.and_or_distrib_right, hset, BitVec.and_assoc]
  exact BitVec.or_zero.trans (BitVec.or_zero.trans (xor_and_of_and_eq_zero rfl))

/-- A transmission writes bits 7:4 alone (R224). -/
theorem eprAfterTx_kept (v : Word) : eprAfterTx v &&& 0xFF0F = v &&& 0xFF0F := by
  rw [eprAfterTx_eq, BitVec.and_or_distrib_right, BitVec.and_assoc]
  exact BitVec.or_zero.trans (xor_and_of_and_eq_zero rfl)

theorem packetLimits_eprAfterRx {v : Word} (h : statRx v = 3) (setup : Bool) : PacketLimits v (eprAfterRx v setup) where
  fixed := and_of_and_eq (eprAfterRx_kept v setup) rfl
  ctrRx _ := by simp [Machine.ctrRx, eprAfterRx]
  ctrTx hv := (getLsbD_of_and_eq (eprAfterRx_kept v setup) rfl).trans hv
  statRx := .inr ⟨h, statRx_eprAfterRx v setup⟩
  statTx := .inl (extractLsb'_of_and_eq (eprAfterRx_kept v setup) rfl)

theorem packetLimits_eprAfterTx {v : Word} (h : statTx v = 3) : PacketLimits v (eprAfterTx v) where
  fixed := and_of_and_eq (eprAfterTx_kept v) rfl
  ctrRx hv := (getLsbD_of_and_eq (eprAfterTx_kept v) rfl).trans hv
  ctrTx _ := by simp [Machine.ctrTx, eprAfterTx]
  statRx := .inl (extractLsb'_of_and_eq (eprAfterTx_kept v) rfl)
  statTx := .inr ⟨h, statTx_eprAfterTx v⟩

/-- The endpoint registers after a move that is no bus reset (R225). -/
theorem busMove_packetLimits {m : BusMove} {s t : State} (hm : m ≠ .busReset) (h : busMove m s = .ok t) (i : Fin 16) :
    PacketLimits s.epr[i] t.epr[i] := by
  cases m with
  | busReset => exact absurd rfl hm
  | rxDone j setup d =>
    obtain ⟨f, n, rfl⟩ | ⟨hstat, p, f, n, rfl, -⟩ := rxDone_result h
    · exact .refl _
    · exact forall_getElem_set PacketLimits.refl (packetLimits_eprAfterRx hstat setup) i
  | txDone j =>
    obtain rfl | ⟨hstat, f, n, o, rfl⟩ := txDone_result h
    · exact .refl _
    · exact forall_getElem_set PacketLimits.refl (packetLimits_eprAfterTx hstat) i
  | suspend | wakeup | sof f | err | pmaOvr =>
    cases h
    exact ite_keeps (P := fun t => PacketLimits s.epr[i] t.epr[i]) (.refl _) (.refl _)

/-- A bus reset zeroes every endpoint register or has no effect (R216, R217). -/
theorem busMove_busReset_epr {s t : State} (h : busMove .busReset s = .ok t) : (∀ i : Fin 16, t.epr[i] = 0) ∨ t = s := by
  cases h
  exact ite_keeps (P := fun t => (∀ i : Fin 16, t.epr[i] = 0) ∨ t = s) (.inr rfl)
    (.inl fun i => by simp [busReset])

/-! ## `ISTR`, `CNTR` and the descriptor table -/

/-- No stored bit of `ISTR` cleared, nothing of `CNTR` outside `LP_MODE` changed, and nothing of a descriptor record but
its length (R225). -/
structure BlockLimits (s t : State) : Prop where
  istr : ∀ k, s.istr.getLsbD k = true → t.istr.getLsbD k = true
  cntr : t.cntr &&& 0xFFFB = s.cntr &&& 0xFFFB
  bd : ∀ i : Fin 16, t.bd[i] = { s.bd[i] with rxlen := t.bd[i].rxlen }

namespace BlockLimits

variable {s : State}

theorem refl (s : State) : BlockLimits s s := ⟨fun _ => id, rfl, fun _ => rfl⟩

theorem setEvent (e : Event) (s : State) : BlockLimits s (setEvent e s) :=
  { refl s with istr := fun k hk => by simp [Machine.setEvent, hk] }

theorem wakeup (s : State) : BlockLimits s (wakeup s) :=
  { setEvent .wakeup s with cntr := by simp [Machine.wakeup, Machine.setEvent, BitVec.and_assoc] }

theorem busMove {m : BusMove} {t : State} (h : busMove m s = .ok t) : BlockLimits s t := by
  cases m with
  | rxDone i setup d =>
    obtain ⟨f, n, rfl⟩ | ⟨-, p, f, n, rfl, -⟩ := rxDone_result h
    · exact { refl s with }
    · exact { refl s with
        bd := forall_getElem_set (R := fun a b : BufDesc => b = { a with rxlen := b.rxlen }) (fun _ => rfl) rfl }
  | txDone i =>
    obtain rfl | ⟨-, f, n, o, rfl⟩ := txDone_result h
    · exact refl _
    · exact { refl s with }
  | busReset => cases h; exact ite_keeps (refl s) { setEvent .reset s with }
  | wakeup => cases h; exact ite_keeps (wakeup s) (refl s)
  | sof f => cases h; exact ite_keeps { setEvent .sof s with } (refl s)
  | suspend | err | pmaOvr => cases h; exact ite_keeps (setEvent _ s) (refl s)

end BlockLimits

/-! ## The arena -/

/-- A byte of the arena that a move changes is one of the words of a reception (R225). -/
theorem busMove_changed_byte {m : BusMove} {s t : State} {a : Nat} (h : busMove m s = .ok t)
    (ha : t.pma.read a ≠ s.pma.read a) :
    ∃ i setup d, m = .rxDone i setup d ∧ rxOffset i s ≤ a ∧ a < rxOffset i s + 2 * wordsOf d.length := by
  by_cases hm : ∃ i setup d, m = .rxDone i setup d
  · obtain ⟨i, setup, d, rfl⟩ := hm
    refine ⟨i, setup, d, rfl, ?_⟩
    obtain ⟨f, n, rfl⟩ | ⟨-, p, f, n, rfl, hother⟩ := rxDone_result h
    · exact absurd rfl ha
    · by_contra hout
      exact ha (hother a (by omega))
  · exact absurd (by rw [busMove_pma (fun i setup d e => hm ⟨i, setup, d, e⟩) h]) ha

/-- Settles O49: the limits of the registers, the block and the arena, and the frame of every move. -/
theorem busLimits : Obligations.BusLimits := by
  unfold Obligations.BusLimits
  intro m s t h
  have hframe := busMove_frame h
  have hlimits := BlockLimits.busMove h
  refine ⟨fun k _ => hlimits.istr k, fun i hm => ?_, ?_, fun i => ?_, hframe.fba, hframe.conn, hframe.suspended,
    hframe.irqEn, hframe.dph, hframe.snap, hframe.cur, hframe.val, hlimits.cntr, fun a ha => busMove_changed_byte h ha⟩
  · have hreg := busMove_packetLimits hm h i
    exact ⟨hreg.fixed, hreg.ctrRx, hreg.ctrTx, hreg.statRx, hreg.statTx⟩
  · rintro rfl
    exact busMove_busReset_epr h
  · have hbd := hlimits.bd i
    refine ⟨?_, ?_, ?_, ?_⟩ <;> rw [hbd]

end Sys2Proof.Machine
end

section
/-! Settles O44. What a write leaves as it is when its word was built from a value read earlier, whatever the register
holds by then (R274): each of the block's words is masked, so that the toggle bits it does not mean to flip are written 0
and the completion bits it does not mean to clear are written as read. -/

namespace Sys2Proof.Machine

/-! ## Endpoint registers -/

/-- The bits under a mask after a write, class by class (R131). -/
theorem eprAfterWrite_and (old w p : Word) :
    eprAfterWrite old w &&& p =
      (w &&& (0x070F &&& p)) ||| (old &&& (0x0800 &&& p)) ||| (old &&& w &&& (0x8080 &&& p)) ||| ((old ^^^ w) &&& (0x7070 &&& p)) := by
  simp only [eprAfterWrite, BitVec.and_or_distrib_right, BitVec.and_assoc]

/-- A write leaves `SETUP`, and the toggle bits its word masks out (R36, R274 a and d). -/
theorem eprAfterWrite_and_unflipped {m p : Word} (hp : 0x7870 &&& p = p) (hm : m &&& (0x7070 &&& p) = 0) (old x : Word) :
    eprAfterWrite old (x &&& m) &&& p = old &&& p := by
  have hflip : x &&& m &&& (0x7070 &&& p) = 0 := by rw [BitVec.and_assoc, hm]; exact BitVec.and_zero
  have hplain : (0x070F : Word) &&& p = 0 := by rw [← hp, ← BitVec.and_assoc]; exact BitVec.zero_and
  have hctr : (0x8080 : Word) &&& p = 0 := by rw [← hp, ← BitVec.and_assoc]; exact BitVec.zero_and
  have hclasses : old &&& (0x0800 &&& p) ||| old &&& (0x7070 &&& p) = old &&& p := by
    rw [← BitVec.and_or_distrib_left, ← BitVec.and_or_distrib_right]
    exact congrArg (old &&& ·) hp
  rw [eprAfterWrite_and, hplain, hctr, xor_and_of_and_eq_zero hflip]
  simpa using hclasses

/-- `CTR_RX` written as 1 stays (R274 b). -/
theorem ctrRx_eprAfterWrite_of_one {w : Word} (hw : ctrRx w = true) (old : Word) :
    ctrRx (eprAfterWrite old w) = ctrRx old := by
  rw [ctrRx_eprAfterWrite, hw, Bool.and_true]

/-- `CTR_TX` written as 1 stays (R274 b). -/
theorem ctrTx_eprAfterWrite_of_one {w : Word} (hw : ctrTx w = true) (old : Word) :
    ctrTx (eprAfterWrite old w) = ctrTx old := by
  rw [ctrTx_eprAfterWrite, hw, Bool.and_true]

/-- What R274 has a write leave, from the register `old` to `new`, for a word built from `val`: the bits of `other`, a
completion bit read as 1, and `SETUP`. -/
structure WriteProtects (val other old new : Word) : Prop where
  other : new &&& other = old &&& other
  ctrRx : ctrRx val = true → ctrRx new = ctrRx old
  ctrTx : ctrTx val = true → ctrTx new = ctrTx old
  setup : setupBit new = setupBit old

/-- The idiom of R134 and R137 with a stale value: a word with the other classes' bits as read, masked to them and to
toggle bits `f`, protects the toggle bits outside `f`. -/
theorem writeProtects_masked {val x f p : Word} (hf : f &&& MASK = 0) (hx : x &&& MASK = val &&& MASK)
    (hp : 0x7870 &&& p = p) (hother : (MASK ||| f) &&& (0x7070 &&& p) = 0) (old : Word) :
    WriteProtects val p old (eprAfterWrite old (x &&& (MASK ||| f))) := by
  have hkept : (x &&& (MASK ||| f)) &&& MASK = val &&& MASK := by
    rw [BitVec.and_assoc, BitVec.and_or_distrib_right, hf, BitVec.and_self, ← hx]
    exact congrArg (x &&& ·) BitVec.or_zero
  exact {
    other := eprAfterWrite_and_unflipped hp hother old x
    ctrRx := fun h => ctrRx_eprAfterWrite_of_one ((getLsbD_of_and_eq hkept rfl).trans h) old
    ctrTx := fun h => ctrTx_eprAfterWrite_of_one ((getLsbD_of_and_eq hkept rfl).trans h) old
    setup := setupBit_eprAfterWrite .. }

/-- The status and toggle of the direction that is not `d` (R32). -/
def otherToggles : Dir → Word
  | .IN  => selToggle .OUT ||| selField .OUT
  | .OUT => selToggle .IN ||| selField .IN

/-- The word of `SET_STATUS` (R134). -/
theorem writeProtects_statusWrite (val old stat : Word) (d : Dir) :
    WriteProtects val (otherToggles d) old (eprAfterWrite old (statusWrite val (selField d) stat)) :=
  writeProtects_masked (selField_and_MASK d) (xor_and_of_disjoint val stat (selField_and_MASK d))
    (by cases d <;> rfl) (by cases d <;> rfl) old

/-- The word of `RESET_EP` (R137). -/
theorem writeProtects_resetBits (val old : Word) (c : Config) (d : Dir) :
    WriteProtects val (otherToggles d) old (eprAfterWrite old (val &&& (MASK ||| resetBits c d))) :=
  writeProtects_masked (resetBits_and_MASK c d) rfl (by cases d <;> rfl)
    (by unfold resetBits; split <;> cases d <;> rfl) old

/-- The clear of an endpoint service leaves both directions' statuses and toggles, and `SETUP` (R188, R189). -/
theorem eprAfterWrite_serviceMask_kept {m kept : Word} (hm : ServiceMask m kept) (val old : Word) :
    eprAfterWrite old (val &&& m) &&& 0x7870 = old &&& 0x7870 :=
  eprAfterWrite_and_unflipped rfl hm.toggle old val

/-! ## `ISTR` -/

/-- The word of a service has a 0 at its event's bit alone (R180). -/
theorem getLsbD_eventClear (e : Event) : ∀ {k : Nat}, k < 16 → (eventClear e).getLsbD k = decide (k ≠ eventBit e) := by
  cases e <;> decide

/-- The events have stored bits of `ISTR` (R26, R94). -/
theorem eventBit_stored (e : Event) : 9 ≤ eventBit e ∧ eventBit e ≤ 14 := by
  cases e <;> decide

/-- Settles O44: the masked words on the endpoint registers, then `ISTR` bit by bit. -/
theorem writeProtections : Obligations.WriteProtections := by
  unfold Obligations.WriteProtections
  refine ⟨fun val old stat d c => ?_, fun val old => ?_, fun istr e k hk hlt => ?_, fun istr e => ?_⟩
  · intro other ws w hw
    have hd : other = otherToggles d := by cases d <;> rfl
    have hprot : WriteProtects val (otherToggles d) old (eprAfterWrite old w) := by
      obtain rfl | rfl : w = statusWrite val (selField d) stat ∨ w = val &&& (MASK ||| resetBits c d) := by
        simpa [ws] using hw
      · exact writeProtects_statusWrite val old stat d
      · exact writeProtects_resetBits val old c d
    rw [hd]
    exact ⟨hprot.other, hprot.ctrRx, hprot.ctrTx, hprot.setup⟩
  · have hrx : ctrRx (eprAfterWrite old (val &&& 0x0F8F)) = false := by rw [ctrRx_eprAfterWrite]; simp [ctrRx]
    have htx : ctrTx (eprAfterWrite old (val &&& 0x8F0F)) = false := by rw [ctrTx_eprAfterWrite]; simp [ctrTx]
    have hrxRead : ctrRx (val &&& 0x8F0F) = ctrRx val := by simp [ctrRx]
    have htxRead : ctrTx (val &&& 0x0F8F) = ctrTx val := by simp [ctrTx]
    exact ⟨eprAfterWrite_serviceMask_kept serviceMask_rx val old, hrx,
      fun h => ctrTx_eprAfterWrite_of_one (htxRead.trans h) old,
      eprAfterWrite_serviceMask_kept serviceMask_tx val old, htx,
      fun h => ctrRx_eprAfterWrite_of_one (hrxRead.trans h) old⟩
  · by_cases hstored : 9 ≤ k ∧ k ≤ 14
    · rw [istrAfterWrite_stored _ _ hstored.1 hstored.2, getLsbD_eventClear e hlt, decide_eq_true hk, Bool.and_true]
    · exact istrAfterWrite_ignored _ _ (by omega)
  · obtain ⟨h9, h14⟩ := eventBit_stored e
    rw [istrAfterWrite_stored _ _ h9 h14, getLsbD_eventClear e (by omega), decide_eq_false (by simp), Bool.and_false]

end Sys2Proof.Machine
end
